-- ==== Sys2Proof/Word.lean ====
section
/-! DEFINITION. The words of the block: bytes, 16-bit and 32-bit fields (spec/00_scope.md R9). -/

namespace Sys2Proof

/-- `u8`. -/
abbrev Byte := BitVec 8

/-- `u16`. -/
abbrev Half := BitVec 16

/-- `u32`. -/
abbrev Word := BitVec 32

end Sys2Proof
end

