-- ==== Sys2Proof/Config.lean ====
section
/-! DEFINITION. What the spec leaves open: the parameters of 00_scope.md R8, and the free values. -/

namespace Sys2Proof

/-- `VQ_ID_ORDER`: which end of a flag word supplies the first id (00 R8, 20 R77, 92 D26). -/
inductive IdOrder where
  | msbFirst
  | lsbFirst
deriving DecidableEq, Repr

/-- `HUF_DEGENERATE`: what a pixel that starts in a degenerate context does (00 R8, 41 R183, 92 D16). -/
inductive Degenerate where
  | emitRoot
  | fault
deriving DecidableEq, Repr

/-- The parameters of 00 R8 that are plain data. A machine carries them in `State.params`; no command changes them. -/
structure Params where
  typeInfo : Half
  typeCodebook : Half
  typeVq : Half
  typeJpeg : Half
  typeHang : Half
  typeSndMono : Half
  typeSndStereo : Half
  idOrder : IdOrder
  roqDimMax : Nat
  hufDegenerate : Degenerate
deriving DecidableEq, Repr

/-- The defaults of 00 R8. The seven type numbers and `msbFirst` are the spec's general knowledge, not its source's
(93 K1, K3): PRESUMED, log 8. -/
def Params.default : Params where
  typeInfo := 0x1001
  typeCodebook := 0x1002
  typeVq := 0x1011
  typeJpeg := 0x1012
  typeHang := 0x1013
  typeSndMono := 0x1020
  typeSndStereo := 0x1021
  idOrder := .msbFirst
  roqDimMax := 65520
  hufDegenerate := .emitRoot

/-- The seven chunk types, in the order of the table of 30 R106. -/
def Params.types (p : Params) : List Half :=
  [p.typeInfo, p.typeCodebook, p.typeVq, p.typeJpeg, p.typeHang, p.typeSndMono, p.typeSndStereo]

namespace Config

/-- `T_V2R` of 10 R54: no source gives its contents, so nothing is known of its values (log 9). -/
opaque tV2R : Byte → Int

/-- `T_U2G` of 10 R54 (log 9). -/
opaque tU2G : Byte → Int

/-- `T_V2G` of 10 R54 (log 9). -/
opaque tV2G : Byte → Int

/-- `T_U2B` of 10 R54 (log 9). -/
opaque tU2B : Byte → Int

/-- The free value of `PCM_LEN` after a stereo chunk that faults, where the spec calls it unspecified (60 R291, 93 U3;
log 7); the argument counts the free values drawn so far. -/
opaque freePcmLen : Nat → Word

/-- The free value of `PCM_LEN` after a sound chunk so long that twice its payload does not fit the register (log 7). Its
arguments are the chunk's type, argument and payload, and nothing else, as 43 R269 asks of a sound chunk's output. -/
opaque longPcmLen (type : Half) (arg : Half) (payload : List Byte) : Word

end Config

end Sys2Proof
end

