-- ==== Sys2Proof/Syntax.lean ====
section
/-! DEFINITION. The 30 rows of spec/opcode_table.json, one constructor each, and the formats they are written in. -/

namespace Sys2Proof

/-- The formats of 30_encoding.md (R100): level 0 `hostcmd`; level 1 `cinrec`, `roqchunk`; level 2 the rest. -/
inductive Format where
  | hostcmd
  | cinrec
  | roqchunk
  | id8
  | id4
  | dpcm8
  | hbit
deriving DecidableEq, Repr

/-- An instruction: a host command, a record, or a code inside a payload (00 R2). The operands of a RoQ chunk are its
preamble's `size` and `arg` (30 R105), the operand of a DPCM code its magnitude index (30 R119). The remaining operands
(the size fields of a CIN record, the operand bytes of a vector id) are read by the meaning itself, because the spec puts
checks and faults between them (40 R145, 42 R231). -/
inductive Instr where
  -- HOSTCMD (30 R101)
  | rst
  | clrerr
  | hufBuild
  | cinRec
  | palLoad
  | palDefault
  | vqSeed
  | roqChunk
  -- CINREC (30 R104)
  | cinVideo
  | cinPalvideo
  | cinRsvd
  -- ROQCHUNK (30 R106)
  | roqInfo (size : Word) (arg : Half)
  | roqCodebook (size : Word) (arg : Half)
  | roqVq (size : Word) (arg : Half)
  | roqJpeg (size : Word) (arg : Half)
  | roqHang (size : Word) (arg : Half)
  | roqSndMono (size : Word) (arg : Half)
  | roqSndStereo (size : Word) (arg : Half)
  -- ID8 (30 R112)
  | mot8
  | fcc8
  | sld8
  | ccc8
  -- ID4 (30 R113)
  | mot4
  | fcc4
  | sld4
  | ccc4
  -- DPCM8 (30 R119)
  | dpcmPos (m : BitVec 7)
  | dpcmNeg (m : BitVec 7)
  -- HBIT (30 R120)
  | hufStep0
  | hufStep1
deriving DecidableEq, Repr

/-- The format an instruction is written in (the "format" column of the opcode table). -/
def Instr.format : Instr → Format
  | .rst | .clrerr | .hufBuild | .cinRec | .palLoad | .palDefault | .vqSeed | .roqChunk => .hostcmd
  | .cinVideo | .cinPalvideo | .cinRsvd => .cinrec
  | .roqInfo _ _ | .roqCodebook _ _ | .roqVq _ _ | .roqJpeg _ _ | .roqHang _ _ | .roqSndMono _ _
  | .roqSndStereo _ _ => .roqchunk
  | .mot8 | .fcc8 | .sld8 | .ccc8 => .id8
  | .mot4 | .fcc4 | .sld4 | .ccc4 => .id4
  | .dpcmPos _ | .dpcmNeg _ => .dpcm8
  | .hufStep0 | .hufStep1 => .hbit

end Sys2Proof
end

