-- ==== Sys2Proof/WellFormed.lean ====
section
/-! DEFINITION. Well-formed parameters (00 R8) and instructions that have a word of their own under them. -/

namespace Sys2Proof

/-- No two entries of a list are equal. -/
def allDistinct : List Half → Bool
  | [] => true
  | t :: ts => !ts.contains t && allDistinct ts

/-- 00 R8: the chunk types are "seven distinct 16-bit values". -/
def Params.typesDistinct (p : Params) : Bool :=
  allDistinct p.types

/-- 00 R8: `ROQ_DIM_MAX` is a multiple of 16; it bounds a 16-bit register, so a larger one bounds nothing. -/
def Params.dimMaxOk (p : Params) : Bool :=
  p.roqDimMax % 16 == 0 && decide (p.roqDimMax < 65536)

/-- Legal parameters. -/
def Params.wf (p : Params) : Bool :=
  p.typesDistinct && p.dimMaxOk

/-- An instruction is well formed under `p` when its word names it alone: a RoQ chunk needs the seven type numbers to
be distinct; every other word is fixed by the spec. Operand ranges hold by their types. -/
def Instr.wf (p : Params) (i : Instr) : Bool :=
  match i.format with
  | .roqchunk => p.typesDistinct
  | _ => true

end Sys2Proof
end

