-- ==== Sys2Proof/Decode.lean ====
section
/-! DEFINITION. Decoding of every format of 30_encoding.md, total and rejecting by name, and the encoder. -/

namespace Sys2Proof

/-- Why a word names no instruction. -/
inductive DecodeError where
  /-- A HOSTCMD code that 30 R101 does not define. -/
  | undefinedCommand (code : Byte)
  /-- A CIN command word of 3 or more (30 R104). -/
  | undefinedRecord (command : Word)
  /-- A RoQ type equal to none of the seven (30 R106). -/
  | unknownChunk (type : Half)
  /-- The bytes are not as many as the format has, or a 1- or 2-bit code has bits beyond its width. -/
  | badLength (f : Format)
deriving DecidableEq, Repr

/-- `rd16` of 00 R10: little-endian. -/
def le16 (b0 b1 : Byte) : Half := b1 ++ b0

/-- `rd32` of 00 R10: little-endian. -/
def le32 (b0 b1 b2 b3 : Byte) : Word := b3 ++ b2 ++ b1 ++ b0

/-- The bytes of a `u16`, low byte first. -/
def bytes16 (v : Half) : List Byte := [v.extractLsb' 0 8, v.extractLsb' 8 8]

/-- The bytes of a `u32`, low byte first. -/
def bytes32 (v : Word) : List Byte :=
  [v.extractLsb' 0 8, v.extractLsb' 8 8, v.extractLsb' 16 8, v.extractLsb' 24 8]

/-- The host command of a code (30 R101). -/
def decodeHostCmd (code : Byte) : Except DecodeError Instr :=
  if code = 0x01 then .ok .rst
  else if code = 0x02 then .ok .clrerr
  else if code = 0x10 then .ok .hufBuild
  else if code = 0x11 then .ok .cinRec
  else if code = 0x12 then .ok .palLoad
  else if code = 0x13 then .ok .palDefault
  else if code = 0x20 then .ok .vqSeed
  else if code = 0x21 then .ok .roqChunk
  else .error (.undefinedCommand code)

/-- The CIN record of a command word: the whole 32 bits are compared (30 R104). -/
def decodeRecord (command : Word) : Except DecodeError Instr :=
  if command = 0 then .ok .cinVideo
  else if command = 1 then .ok .cinPalvideo
  else if command = 2 then .ok .cinRsvd
  else .error (.undefinedRecord command)

/-- The RoQ chunk of a preamble (30 R105, R106). With type numbers that are not distinct the first row wins (log 26). -/
def decodeChunk (p : Params) (type : Half) (size : Word) (arg : Half) : Except DecodeError Instr :=
  if type = p.typeInfo then .ok (.roqInfo size arg)
  else if type = p.typeCodebook then .ok (.roqCodebook size arg)
  else if type = p.typeVq then .ok (.roqVq size arg)
  else if type = p.typeJpeg then .ok (.roqJpeg size arg)
  else if type = p.typeHang then .ok (.roqHang size arg)
  else if type = p.typeSndMono then .ok (.roqSndMono size arg)
  else if type = p.typeSndStereo then .ok (.roqSndStereo size arg)
  else .error (.unknownChunk type)

/-- The operation of a vector id at the 8x8 level (30 R112). -/
def decodeId8 (id : BitVec 2) : Instr :=
  if id = 0 then .mot8 else if id = 1 then .fcc8 else if id = 2 then .sld8 else .ccc8

/-- The operation of a vector id at the 4x4 level (30 R113). -/
def decodeId4 (id : BitVec 2) : Instr :=
  if id = 0 then .mot4 else if id = 1 then .fcc4 else if id = 2 then .sld4 else .ccc4

/-- The DPCM code of a byte: bit 7 is the sign class, bits 6:0 the magnitude index (30 R119). -/
def decodeDpcm (c : Byte) : Instr :=
  if c.getLsbD 7 then .dpcmNeg (c.extractLsb' 0 7) else .dpcmPos (c.extractLsb' 0 7)

/-- The step of a Huffman bit (30 R120). -/
def decodeBit (b : Bool) : Instr :=
  if b then .hufStep1 else .hufStep0

/-- The instruction that the bytes of one code of a format stand for. A 2-bit id or a 1-bit Huffman step is given as a
byte that holds it in its low bits, every other bit 0. -/
def decode (p : Params) : Format → List Byte → Except DecodeError Instr
  | .hostcmd, [c] => decodeHostCmd c
  | .cinrec, [b0, b1, b2, b3] => decodeRecord (le32 b0 b1 b2 b3)
  | .roqchunk, [b0, b1, b2, b3, b4, b5, b6, b7] =>
    decodeChunk p (le16 b0 b1) (le32 b2 b3 b4 b5) (le16 b6 b7)
  | .id8, [c] => if c.toNat < 4 then .ok (decodeId8 (c.extractLsb' 0 2)) else .error (.badLength .id8)
  | .id4, [c] => if c.toNat < 4 then .ok (decodeId4 (c.extractLsb' 0 2)) else .error (.badLength .id4)
  | .dpcm8, [c] => .ok (decodeDpcm c)
  | .hbit, [c] => if c.toNat < 2 then .ok (decodeBit (c.getLsbD 0)) else .error (.badLength .hbit)
  | f, _ => .error (.badLength f)

/-- A RoQ preamble (30 R105). -/
def encodeChunk (type : Half) (size : Word) (arg : Half) : List Byte :=
  bytes16 type ++ bytes32 size ++ bytes16 arg

/-- The bytes of an instruction, written from the tables of 30_encoding.md. -/
def encode (p : Params) : Instr → List Byte
  | .rst => [0x01]
  | .clrerr => [0x02]
  | .hufBuild => [0x10]
  | .cinRec => [0x11]
  | .palLoad => [0x12]
  | .palDefault => [0x13]
  | .vqSeed => [0x20]
  | .roqChunk => [0x21]
  | .cinVideo => bytes32 0
  | .cinPalvideo => bytes32 1
  | .cinRsvd => bytes32 2
  | .roqInfo size arg => encodeChunk p.typeInfo size arg
  | .roqCodebook size arg => encodeChunk p.typeCodebook size arg
  | .roqVq size arg => encodeChunk p.typeVq size arg
  | .roqJpeg size arg => encodeChunk p.typeJpeg size arg
  | .roqHang size arg => encodeChunk p.typeHang size arg
  | .roqSndMono size arg => encodeChunk p.typeSndMono size arg
  | .roqSndStereo size arg => encodeChunk p.typeSndStereo size arg
  | .mot8 | .mot4 => [0]
  | .fcc8 | .fcc4 => [1]
  | .sld8 | .sld4 => [2]
  | .ccc8 | .ccc4 => [3]
  | .dpcmPos m => [(0 : BitVec 1) ++ m]
  | .dpcmNeg m => [(1 : BitVec 1) ++ m]
  | .hufStep0 => [0]
  | .hufStep1 => [1]

/-- The format and the bytes of a table word: `nbits` bits of `w`, bit 0 the least significant bit of the first byte, and
zeros up to the format's length. The table gives no format with a word, and at 8 bits one byte can belong to a row of
HOSTCMD, ID8, ID4, DPCM8 and HBIT: a defined host command comes first, then 0 and 3 are read as the ids of MOT8 and CCC8,
any other byte as a DPCM code (log 16). -/
def tableWord (nbits w : Nat) : Option (Format × List Byte) :=
  if nbits = 32 then some (.cinrec, bytes32 (BitVec.ofNat 32 w))
  else if nbits = 16 then some (.roqchunk, encodeChunk (BitVec.ofNat 16 w) 0 0)
  else if nbits = 8 then
    let c := BitVec.ofNat 8 w
    match decodeHostCmd c with
    | .ok _ => some (.hostcmd, [c])
    | .error _ => if c.toNat < 4 then some (.id8, [c]) else some (.dpcm8, [c])
  else if nbits = 2 then some (.id8, [BitVec.ofNat 8 (w % 4)])
  else if nbits = 1 then some (.hbit, [BitVec.ofNat 8 (w % 2)])
  else none

/-- The instruction the decoder reads from a table word, under the default parameters, which are the ones
spec/opcode_table.json is written with (30 R106). -/
def decodeTableWord (nbits w : Nat) : Option Instr :=
  match tableWord nbits w with
  | some (f, bytes) => (decode Params.default f bytes).toOption
  | none => none

end Sys2Proof
end

