-- ==== Sys2Proof/Machine/Memory.lean ====
section
/-! DEFINITION. Memories: sparse lists of (address, byte) pairs with strictly rising addresses. An address that is not
listed has no value (20 R70 to R75, 93 U1; log 5). -/

namespace Sys2Proof.Machine

/-- One of the block's memories. -/
abbrev Memory := List Host.Cell

/-- The byte at an address, if anything has been written there. -/
def Memory.read : Memory → Nat → Option Byte
  | [], _ => none
  | (b, v) :: m, a => if a = b then some v else Memory.read m a

/-- Write one byte, keeping the addresses rising. -/
def Memory.write : Memory → Nat → Byte → Memory
  | [], a, v => [(a, v)]
  | (b, w) :: m, a, v =>
    if a < b then (a, v) :: (b, w) :: m
    else if a = b then (a, v) :: m
    else (b, w) :: Memory.write m a v

/-- Perform a list of writes, first to last. -/
def Memory.writes : Memory → List Host.Cell → Memory
  | m, [] => m
  | m, c :: cs => Memory.writes (m.write c.1 c.2) cs

/-- The canonical form: addresses strictly rising. (An unlisted address has no value, so no entry can repeat it.) -/
def Memory.wf : Memory → Bool
  | [] => true
  | [_] => true
  | (a, _) :: (b, v) :: m => decide (a < b) && Memory.wf ((b, v) :: m)

/-- The `n` bytes from address `base` on, if every one of them has a value. -/
def Memory.readRun : Memory → Nat → Nat → Option (List Byte)
  | _, _, 0 => some []
  | [], _, _ + 1 => none
  | (a, v) :: m, base, n + 1 =>
    if a < base then Memory.readRun m base (n + 1)
    else if a = base then (Memory.readRun m (base + 1) n).map (v :: ·)
    else none

/-- Bytes laid out from address `a` on. -/
def Memory.layout : Nat → List Byte → Memory
  | _, [] => []
  | a, b :: bs => (a, b) :: Memory.layout (a + 1) bs

/-- Replace the elements 0 .. bs.length - 1 by `bs` and keep the rest. -/
def Memory.overlay (m : Memory) (bs : List Byte) : Memory :=
  Memory.layout 0 bs ++ m.filter (fun c => decide (bs.length ≤ c.1))

/-- Every one of the elements 0 .. n - 1 has a value. -/
def Memory.full (m : Memory) (n : Nat) : Bool :=
  (m.readRun 0 n).isSome

end Sys2Proof.Machine
end

