-- ==== Sys2Proof/Machine/Tables.lean ====
section
/-! DEFINITION. The entries of the table memories (10 section 6) and their constant contents and formulas. -/

namespace Sys2Proof.Machine

/-- A palette entry (10 R49). -/
structure Rgb where
  r : Byte
  g : Byte
  b : Byte
deriving DecidableEq, Repr

/-- A 2x2 cell: four luma samples and one U and one V (10 R50). -/
structure CbCell where
  y0 : Byte
  y1 : Byte
  y2 : Byte
  y3 : Byte
  u : Byte
  v : Byte
deriving DecidableEq, Repr

/-- A 4x4 quad-cell: four cell indices (10 R51). -/
structure CbQuad where
  i0 : Byte
  i1 : Byte
  i2 : Byte
  i3 : Byte
deriving DecidableEq, Repr

/-- The entry of a 256-entry table that a byte selects. -/
def entry {α : Type} (t : Vector α 256) (i : Byte) : α :=
  t[i.toNat]'(by have := i.isLt; omega)

/-- Luma sample `m` of a cell; the positions are TL, TR, BL, BR (42 R232; PRESUMED by the spec, 93 K5, log 22). -/
def CbCell.luma (c : CbCell) (m : Nat) : Byte :=
  if m = 0 then c.y0 else if m = 1 then c.y1 else if m = 2 then c.y2 else c.y3

/-- The grey ramp (41 R191). -/
def greyRamp : Vector Rgb 256 :=
  Vector.ofFn fun i => ⟨BitVec.ofNat 8 i.val, BitVec.ofNat 8 i.val, BitVec.ofNat 8 i.val⟩

/-- `Expand6` (41 R190, 90 C2). -/
def expand6 (v : Byte) : Byte :=
  (v <<< 2) ||| (v >>> 4)

/-- `DELTA[c]` (10 R53, 43 R260). -/
def delta (c : Byte) : Int :=
  if c.toNat < 128 then (c.toNat : Int) * c.toNat
  else -(((c.toNat : Int) - 128) * ((c.toNat : Int) - 128))

/-- `clamp255` (00 R9). -/
def clamp255 (x : Int) : Byte :=
  if x < 0 then 0 else if 255 < x then 255 else BitVec.ofInt 8 x

/-- `Step(p, c)` (43 R260): the predictor advanced by a delta, modulo 65,536. -/
def advancePredictor (p : Half) (d : Int) : Half :=
  BitVec.ofInt 16 ((p.toNat : Int) + d)

end Sys2Proof.Machine
end

