-- ==== Sys2Proof/Machine/State.lean ====
section
/-! DEFINITION. The state of the block (10_state.md), its value at reset, and the reasons the model stops. -/

namespace Sys2Proof.Machine

/-- The flags of `STATUS` (10 R33), bit 0 first. -/
structure Status where
  busy : Bool
  done : Bool
  err : Bool
  frame : Bool
  audio : Bool
  built : Bool
  seeded : Bool
  cbook : Bool
deriving DecidableEq, Repr

/-- One plane set of 20 R73. -/
structure Planes where
  y : Memory
  u : Memory
  v : Memory
deriving DecidableEq, Repr

/-- The entries of one context's tree: key `(n - 256) * 2 + b` to the index of the child of internal node n on bit b;
an entry that is not listed is invalid (10 R48). -/
abbrev ChildTable := List (Nat × BitVec 9)

/-- The kinds of fault of 60 R280. -/
inductive Kind where
  | format
  | dimension
  | truncated
  | sizeMismatch
  | codecDecode
  | seek
  | state
deriving DecidableEq, Repr

/-- The memories, as a fault of the model names them. -/
inductive Space where
  | inp
  | idx
  | last
  | current
deriving DecidableEq, Repr

/-- What SEQ does next: the model's own field (log 1). It stands for the position of the sequencer inside a command,
which 10 R32 describes by the registers of the unit that runs. -/
inductive Phase where
  /-- No command runs; a code pending in `cmd` is begun. -/
  | idle
  /-- `CIN.REC` was admitted; the next code is a CIN command word (40 R145). -/
  | cinRecord
  /-- `ROQ.CHUNK` was admitted; the next code is a RoQ preamble (40 R148). -/
  | roqRecord
  /-- HUF walks a tree; the next code is a Huffman bit (41 R178). -/
  | huffman
  /-- VQ is at an 8x8 quadrant; the next code is an ID8 (42 R217). -/
  | quadrant
  /-- VQ is inside a CCC8; the next code is an ID4 (42 R219). -/
  | subBlock
  /-- DPCM decodes a mono chunk (43 R261). -/
  | sndMono
  /-- DPCM decodes a stereo chunk (43 R264). -/
  | sndStereo
deriving DecidableEq, Repr

/-- The machine. INVENTORY.md, '## State', gives the rule and the reset value of every field. -/
structure State where
  -- the model's own
  params : Params
  phase : Phase
  freeCtr : Nat
  -- host registers
  status : Status
  cfgWidth : Half
  cfgHeight : Half
  inLen : Word
  cmd : Option Byte
  errCode : Byte
  errPos : Word
  consumed : Word
  pcmLen : Word
  -- stream cursor
  pos : Word
  -- HUF
  ctx : Byte
  node : BitVec 9
  bitbuf : Byte
  bitcnt : Nat
  k : BitVec 21
  hcount : Vector Half 512
  hused : Vector Bool 512
  hn : BitVec 10
  -- VQ
  biasX : BitVec 8
  biasY : BitVec 8
  flag : Half
  flagN : Nat
  mbx : Nat
  mby : Nat
  q : Nat
  sb : Nat
  cc : Nat
  -- DPCM
  predL : Half
  predR : Half
  -- record latches
  recCmd : Word
  chunkSize : Word
  decodedSize : Word
  recType : Half
  recSize : Word
  recArg : Half
  pay0 : Word
  payLen : Word
  -- table memories
  root : Vector (BitVec 9) 256
  child : Vector ChildTable 256
  pal : Vector Rgb 256
  cell : Vector CbCell 256
  quad : Vector CbQuad 256
  nv1 : Nat
  nv2 : Nat
  pp : Bool
  -- memories
  inp : Memory
  idx : Memory
  pl0 : Planes
  pl1 : Planes
  rgba : Memory
  pcm : Memory
deriving DecidableEq, Repr

/-- The machine right after power-on (10 section 9, 70 R320). The working registers, `root` and the invalid codebook
entries, which the spec leaves unspecified, are 0 (log 3). -/
def State.reset : State where
  params := Params.default
  phase := .idle
  freeCtr := 0
  status := ⟨false, false, false, false, false, false, false, false⟩
  cfgWidth := 0
  cfgHeight := 0
  inLen := 0
  cmd := none
  errCode := 0
  errPos := 0
  consumed := 0
  pcmLen := 0
  pos := 0
  ctx := 0
  node := 0
  bitbuf := 0
  bitcnt := 0
  k := 0
  hcount := Vector.replicate 512 0
  hused := Vector.replicate 512 false
  hn := 0
  biasX := 0
  biasY := 0
  flag := 0
  flagN := 0
  mbx := 0
  mby := 0
  q := 0
  sb := 0
  cc := 0
  predL := 0
  predR := 0
  recCmd := 0
  chunkSize := 0
  decodedSize := 0
  recType := 0
  recSize := 0
  recArg := 0
  pay0 := 0
  payLen := 0
  root := Vector.replicate 256 0
  child := Vector.replicate 256 []
  pal := greyRamp
  cell := Vector.replicate 256 ⟨0, 0, 0, 0, 0, 0⟩
  quad := Vector.replicate 256 ⟨0, 0, 0, 0⟩
  nv1 := 0
  nv2 := 0
  pp := false
  inp := []
  idx := []
  pl0 := ⟨[], [], []⟩
  pl1 := ⟨[], [], []⟩
  rgba := []
  pcm := []

/-- Why the MODEL stops with a fault (the block's own faults are next states, 60 R290). -/
inductive Fault where
  /-- Raised by every operation that reads a memory, when one of the `len` elements from `base` on has never been
  written (93 U1: "treats a read of an unwritten one as a bug of the model"). Safe: the model stops where the block would
  use contents the spec leaves unspecified. No state that keeps `Live` (Safety.lean) raises it. -/
  | unwritten (space : Space) (base len : Nat)
deriving DecidableEq, Repr

/-- Why the MODEL refuses. All but the first are raised by the host port (HostPort.lean), never by `step`. -/
inductive Refusal where
  /-- An instruction without a meaning, raised by its arm of `exec`; no arm raises it now. Safe. -/
  | notModelled (mnemonic : String)
  /-- A host access while BUSY that 93 U2 leaves undefined. Safe: such an access has no behaviour in the model. -/
  | hostWhileBusy
  /-- A register number of 9 or more (10 R39, 93 U18). Safe. -/
  | noSuchRegister (n : Nat)
  /-- A host write to a read-only register (93 U18). Safe. -/
  | readOnlyRegister (n : Nat)
  /-- A host read of an output element that 92 D44 and 70 R335 call invalid. Safe. -/
  | outputNotValid
deriving DecidableEq, Repr

end Sys2Proof.Machine
end

