-- ==== Sys2Proof/Machine/Flags.lean ====
section
/-! DEFINITION. The flags of STATUS: the word the host reads, and what the start, the end and a fault of a command do to
them (10 R33, 40 R144, 60 R290). -/

namespace Sys2Proof.Machine

/-- One flag as a bit. -/
def bit (b : Bool) : BitVec 1 := BitVec.ofBool b

/-- `STATUS` as the host reads it: bit 0 BUSY, up to bit 7 CBOOK (10 R33). -/
def Status.word (st : Status) : Byte :=
  bit st.cbook ++ bit st.seeded ++ bit st.built ++ bit st.audio ++ bit st.frame ++ bit st.err ++ bit st.done ++ bit st.busy

/-- The start of a command (40 R144). -/
def Status.start (st : Status) : Status :=
  { st with busy := true, done := false, frame := false, audio := false }

/-- The successful end of a command (40 R144). -/
def Status.finish (st : Status) : Status :=
  { st with busy := false, done := true }

/-- A fault (60 R290, items 3 to 6). -/
def Status.fail (st : Status) : Status :=
  { st with busy := false, done := false, err := true, frame := false, audio := false }

/-- `ERRCODE` of a kind (60 R280). -/
def Kind.code : Kind → Byte
  | .format => 1
  | .dimension => 2
  | .truncated => 3
  | .sizeMismatch => 4
  | .codecDecode => 5
  | .seek => 6
  | .state => 7

end Sys2Proof.Machine
end

