-- ==== Sys2Proof/Machine/Ops.lean ====
section
/-! DEFINITION. The operations the meanings share: the roles of the plane sets, reads of the memories, the start and the
end of a command, and fault entry. -/

namespace Sys2Proof.Machine

/-- How a meaning leaves its pseudocode before its end. -/
inductive Stop where
  /-- `raise Kind` of 00 R10, in the state at the raising point. -/
  | raised (s : State) (kind : Kind)
  /-- The model stops (`Fault`). -/
  | stuck (f : Fault)

/-- A piece of pseudocode: its result, or how it was left. -/
abbrev Run (α : Type) := Except Stop α

/-- `raise Kind` (00 R10). -/
def raise {α : Type} (s : State) (kind : Kind) : Run α := .error (.raised s kind)

/-- A memory read that is a fault of the model where the value is missing. -/
def known {α : Type} (space : Space) (base len : Nat) : Option α → Run α
  | some x => .ok x
  | none => .error (.stuck (.unwritten space base len))

/-! ### Dimensions -/

/-- `W` (00 R7). -/
def State.width (s : State) : Nat := s.cfgWidth.toNat

/-- `H` (00 R7). -/
def State.height (s : State) : Nat := s.cfgHeight.toNat

/-- `NPIX` (00 R7). -/
def State.npix (s : State) : Nat := s.width * s.height

/-- Check 4 of 40 R141. -/
def State.cinDimsOk (s : State) : Bool :=
  decide (1 ≤ s.width ∧ s.width ≤ 1024 ∧ 1 ≤ s.height ∧ s.height ≤ 1024)

/-- `roq_dims_ok` (40 R141). -/
def State.roqDimsOk (s : State) : Bool :=
  decide (s.width % 16 = 0 ∧ s.height % 16 = 0 ∧ 16 ≤ s.width ∧ s.width ≤ s.params.roqDimMax ∧
    16 ≤ s.height ∧ s.height ≤ s.params.roqDimMax)

/-! ### Plane sets -/

/-- `last = PL[pp]` (10 R56). -/
def State.last (s : State) : Planes := if s.pp then s.pl1 else s.pl0

/-- `current = PL[1 - pp]` (10 R56). -/
def State.current (s : State) : Planes := if s.pp then s.pl0 else s.pl1

/-- Write the plane set `current`. -/
def State.setCurrent (s : State) (p : Planes) : State :=
  if s.pp then { s with pl0 := p } else { s with pl1 := p }

/-- Write the plane set `last` (`VQ.SEED` alone does, 42 R241). -/
def State.setLast (s : State) (p : Planes) : State :=
  if s.pp then { s with pl1 := p } else { s with pl0 := p }

/-- Elements 0 .. n - 1 of all three planes have values. -/
def Planes.full (p : Planes) (n : Nat) : Bool :=
  p.y.full n && p.u.full n && p.v.full n

/-- A plane set whose elements hold nothing. -/
def Planes.blank : Planes := ⟨[], [], []⟩

/-- Perform writes on the three planes. -/
def Planes.writes (p : Planes) (y u v : List Host.Cell) : Planes :=
  ⟨p.y.writes y, p.u.writes u, p.v.writes v⟩

/-- Replace elements 0 .. of the three planes. -/
def Planes.overlay (p : Planes) (y u v : List Byte) : Planes :=
  ⟨p.y.overlay y, p.u.overlay u, p.v.overlay v⟩

/-! ### Start and end of a command -/

/-- The start of a command (40 R144): `PCM` is emptied (20 R75) and the code leaves `CMD`. -/
def startCommand (s : State) : State :=
  { s with cmd := none, phase := .idle, status := s.status.start, pcm := [], pcmLen := 0, consumed := 0, pos := 0 }

/-- Start a command and make check 2 of 40 R141: a command other than RST and CLRERR is refused while ERR = 1. -/
def admission (s : State) : Run State :=
  let s := startCommand s
  if s.status.err then raise s .state else .ok s

/-- The successful end of a command (40 R144). -/
def finishCommand (s : State) : State :=
  { s with phase := .idle, status := s.status.finish }

/-- The end of a record (40 R147, R151): the cursor moves to the end of the record and is copied to `CONSUMED`. -/
def finishRecord (s : State) : State :=
  let recordEnd := BitVec.ofNat 32 (s.pay0.toNat + s.payLen.toNat)
  finishCommand { s with pos := recordEnd, consumed := recordEnd }

/-! ### Fault entry -/

/-- A new free value in `PCM_LEN`, for a stereo chunk that faults (log 7). -/
def freePcmLen (s : State) : State :=
  { s with pcmLen := Config.freePcmLen s.freeCtr, freeCtr := s.freeCtr + 1 }

/-- What 60 R291 calls unspecified after a fault loses its value: `IDX` and `RGBA` of a CIN record, `current` and `RGBA`
of a VQ chunk, `PCM` and `PCM_LEN` of a stereo chunk (logs 6 and 7).
DESIGN CHOICE, log 27: an output that the row of R291 for a fault lists neither as kept nor as unspecified is kept: `IDX`
and `RGBA` after a TruncatedDataError, DimensionError or StateError of ROQ.CHUNK or a TruncatedDataError of HUF.BUILD or
PAL.LOAD, `IDX` after a VQ fault, `current` after a CIN fault and a short codebook, HUF.BUILD or PAL.LOAD.
DEDUCED, log 6: 41 R187 says of CIN.RSVD that no state changes, but R291 lists `IDX` and `RGBA` as unspecified after any
fault of CIN.REC before the frame decode; the row of R291 is followed and they lose their value. -/
def forgetOutputs (s : State) : State :=
  match s.phase with
  | .cinRecord | .huffman => { s with idx := [], rgba := [] }
  | .quadrant | .subBlock => { s.setCurrent Planes.blank with rgba := [] }
  | .sndStereo => { freePcmLen s with pcm := [] }
  | .idle | .roqRecord | .sndMono => s

/-- Fault entry (60 R290): what the block does when a command raises a fault. The first fault is kept (60 R294). -/
def raiseFault (s : State) (kind : Kind) : State :=
  let t := forgetOutputs s
  { t with
    errCode := if s.status.err then s.errCode else kind.code
    errPos := if s.status.err then s.errPos else s.pos
    status := s.status.fail
    consumed := 0
    phase := .idle
    cmd := none }

/-- The return from a fault, the effect of `CLRERR` alone (40 R143, 60 R293). -/
def clearFault (s : State) : State :=
  { s with status := { s.status with err := false }, errCode := 0, errPos := 0 }

/-- What a meaning answers: its end, or fault entry, or the model's stop. -/
def conclude : Run State → Host.Outcome State Fault Refusal
  | .ok s => .next s
  | .error (.raised s kind) => .next (raiseFault s kind)
  | .error (.stuck f) => .fault f

/-- All state to its reset value (40 R142, 70 R320, R321). The parameters are no state of the block, and the counter of
free values goes on, so that two free values are never known to be equal (logs 7 and 8). -/
def resetState (s : State) : State :=
  { State.reset with params := s.params, freeCtr := s.freeCtr }

/-! ### Materialization -/

/-- The bytes of one RGBA pixel, alpha 255 (20 R74). -/
def pixelBytes (r g b : Byte) : List Byte := [r, g, b, 255]

/-- The pixel of a palette index (41 R192). -/
def palettePixel (pal : Vector Rgb 256) (i : Byte) : List Byte :=
  pixelBytes (entry pal i).r (entry pal i).g (entry pal i).b

/-- The pixel of a YUV triple (42 R238). -/
def yuvPixel (y u v : Byte) : List Byte :=
  pixelBytes (clamp255 (y.toNat + Config.tV2R v)) (clamp255 (y.toNat - Config.tU2G u - Config.tV2G v))
    (clamp255 (y.toNat + Config.tU2B u))

/-- Element-wise `yuvPixel` over three planes of equal length. -/
def yuvPixels : List Byte → List Byte → List Byte → List Byte
  | y :: ys, u :: us, v :: vs => yuvPixel y u v ++ yuvPixels ys us vs
  | _, _, _ => []

end Sys2Proof.Machine
end

