-- ==== Sys2Proof/Machine/Operands.lean ====
section
/-! DEFINITION. The operands of every format: reads of IN through the cursor, the Huffman bit, the vector id, the motion
vector, the codebook counts, the sound seeds. -/

namespace Sys2Proof.Machine

/-- `IN[base .. base + n - 1]` (20 R70). -/
def readIn (s : State) (base n : Nat) : Run (List Byte) :=
  known .inp base n (s.inp.readRun base n)

/-- `IN[a]`. -/
def readInByte (s : State) (a : Nat) : Run Byte :=
  known .inp a 1 (s.inp.read a)

/-- `pos <- pos + n` (10 R31); it never wraps where the bytes exist (92 D47). -/
def State.advance (s : State) (n : Nat) : State :=
  { s with pos := BitVec.ofNat 32 (s.pos.toNat + n) }

/-- `pos + n > IN_LEN`, without wrap (92 D47). -/
def State.short (s : State) (n : Nat) : Bool :=
  decide (s.inLen.toNat < s.pos.toNat + n)

/-- `pay_end` (41 R177, 42 R215). -/
def State.payEnd (s : State) : Nat := s.pay0.toNat + s.payLen.toNat

/-- `pay0 + pay_len > IN_LEN`, without wrap (40 R145, R148). -/
def State.payloadShort (s : State) : Bool :=
  decide (s.inLen.toNat < s.payEnd)

/-- `rd32(pos) else raise TruncatedDataError; pos <- pos + 4` (40 R145, R146). -/
def readField32 (s : State) : Run (Word × State) :=
  if s.short 4 then raise s .truncated
  else do
    let bs ← readIn s s.pos.toNat 4
    .ok (le32 (bs.getD 0 0) (bs.getD 1 0) (bs.getD 2 0) (bs.getD 3 0), s.advance 4)

/-! ### Payload bytes and codes -/

/-- `NextByte()` (42 R222). -/
def nextByte (s : State) : Run (Byte × State) :=
  if s.payEnd ≤ s.pos.toNat then raise s .codecDecode
  else do
    let v ← readInByte s s.pos.toNat
    .ok (v, s.advance 1)

/-- The first lines of `NextId()` (42 R218): a flag word is fetched when no id is left. -/
def refillFlag (s : State) : Run State :=
  if s.flagN = 0 then do
    let (lo, s) ← nextByte s
    let (hi, s) ← nextByte s
    .ok { s with flag := le16 lo hi, flagN := 8 }
  else .ok s

/-- The rest of `NextId()` (42 R218): take one id in `VQ_ID_ORDER`. -/
def takeId (s : State) : BitVec 2 × State :=
  match s.params.idOrder with
  | .msbFirst => (s.flag.extractLsb' 14 2, { s with flag := s.flag <<< 2, flagN := s.flagN - 1 })
  | .lsbFirst => (s.flag.extractLsb' 0 2, { s with flag := s.flag >>> 2, flagN := s.flagN - 1 })

/-- `NextId()` (42 R218). -/
def nextId (s : State) : Run (BitVec 2 × State) := do
  let s ← refillFlag s
  .ok (takeId s)

/-- The first lines of `NextBit()` (41 R179): a byte is fetched when no bit is left. -/
def refillBits (s : State) : Run State :=
  if s.bitcnt = 0 then do
    let (v, s) ← nextByte s
    .ok { s with bitbuf := v, bitcnt := 8 }
  else .ok s

/-- The rest of `NextBit()` (41 R179): take bit 0. -/
def takeBit (s : State) : Bool × State :=
  (s.bitbuf.getLsbD 0, { s with bitbuf := s.bitbuf >>> 1, bitcnt := s.bitcnt - 1 })

/-- `NextBit()` (41 R179, R180). -/
def nextBit (s : State) : Run (Bool × State) := do
  let s ← refillBits s
  .ok (takeBit s)

/-! ### Motion (30 R110, R114; 42 R225) -/

/-- `dx` and `dy` of a motion byte: the high nibble is x (92 D30). Signed integers, no wrap. -/
def motionVector (biasX biasY b : Byte) : Int × Int :=
  (8 - ((b >>> 4).toNat : Int) - biasX.toInt, 8 - ((b &&& 0x0F).toNat : Int) - biasY.toInt)

/-- `arg[15:8]`. -/
def argHigh (arg : Half) : Byte := arg.extractLsb' 8 8

/-- `arg[7:0]`. -/
def argLow (arg : Half) : Byte := arg.extractLsb' 0 8

/-! ### Codebook counts (30 R109, 42 R210, 90 C6) -/

/-- `nv1'`. -/
def cellCount (arg : Half) : Nat :=
  if argHigh arg = 0 then 256 else (argHigh arg).toNat

/-- `nv2'`. -/
def quadCount (arg : Half) (payLen : Nat) : Nat :=
  if argLow arg ≠ 0 then (argLow arg).toNat
  else if cellCount arg * 6 + 256 * 4 ≤ payLen then 256
  else 0

/-! ### Sound seeds (30 R117, R118) -/

/-- The left seed of a stereo chunk. -/
def stereoSeedL (arg : Half) : Half := arg &&& 0xFF00

/-- The right seed of a stereo chunk (92 D38). -/
def stereoSeedR (arg : Half) : Half := (arg &&& 0x00FF) <<< 8

end Sys2Proof.Machine
end

