-- ==== Sys2Proof/Machine/Control.lean ====
section
/-! DEFINITION. The host commands of 40_control.md: RST, CLRERR, VQ.SEED, CIN.REC, ROQ.CHUNK. -/

namespace Sys2Proof.Machine

/-- RST (40 R142): admitted even while ERR = 1; DONE alone is set at its end. -/
def execRst (s : State) : Host.Outcome State Fault Refusal :=
  .next (finishCommand (resetState s))

/-- CLRERR (40 R143): admitted even while ERR = 1. -/
def execClrerr (s : State) : Host.Outcome State Fault Refusal :=
  .next (finishCommand (clearFault (startCommand s)))

/-- VQ.SEED (40 R154). -/
def execVqSeed (s : State) : Host.Outcome State Fault Refusal :=
  conclude do
    let s ← admission s
    if !s.roqDimsOk then raise s .dimension
    else
      let s := s.setLast
        (s.last.overlay (List.replicate s.npix 0) (List.replicate s.npix 128) (List.replicate s.npix 128))
      .ok (finishCommand { s with status := { s.status with seeded := true } })

/-- CIN.REC (40 R141, R145) up to its command word, which selects the CIN record executed next. -/
def execCinRec (s : State) : Host.Outcome State Fault Refusal :=
  conclude do
    let s ← admission s
    if !s.status.built then raise s .state
    else if !s.cinDimsOk then raise s .dimension
    else
      let s := { s with phase := .cinRecord }
      if s.short 4 then raise s .truncated else .ok s

/-- ROQ.CHUNK (40 R148) up to its preamble, which selects the RoQ chunk executed next. -/
def execRoqChunk (s : State) : Host.Outcome State Fault Refusal :=
  conclude do
    let s ← admission s
    let s := { s with phase := .roqRecord }
    if s.short 8 then raise s .truncated else .ok s

end Sys2Proof.Machine
end

