-- ==== Sys2Proof/Machine/Chunk.lean ====
section
/-! DEFINITION. RoQ chunks in general (40 R148, R149, R151, R152): what every chunk does with its preamble, and the three
that are skipped. -/

namespace Sys2Proof.Machine

/-- 40 R148 after the type check: the preamble is latched, the cursor is after it, the payload must be present. -/
def enterChunk (type : Half) (size : Word) (arg : Half) (s : State) : Run State :=
  let s := { s with recType := type, recSize := size, recArg := arg, pos := 8, pay0 := 8, payLen := size }
  if s.payloadShort then raise s .truncated else .ok s

/-- ROQ.INFO (40 R152). -/
def execRoqInfo (size : Word) (arg : Half) (s : State) : Host.Outcome State Fault Refusal :=
  conclude do
    let s ← enterChunk s.params.typeInfo size arg s
    .ok (finishRecord s)

/-- ROQ.JPEG (40 R152). -/
def execRoqJpeg (size : Word) (arg : Half) (s : State) : Host.Outcome State Fault Refusal :=
  conclude do
    let s ← enterChunk s.params.typeJpeg size arg s
    .ok (finishRecord s)

/-- ROQ.HANG (40 R152). -/
def execRoqHang (size : Word) (arg : Half) (s : State) : Host.Outcome State Fault Refusal :=
  conclude do
    let s ← enterChunk s.params.typeHang size arg s
    .ok (finishRecord s)

end Sys2Proof.Machine
end

