-- ==== Sys2Proof/Machine/Dpcm.lean ====
section
/-! DEFINITION. The DPCM unit (43_dpcm.md): ROQ.SND_MONO, ROQ.SND_STEREO, DPCM.POS, DPCM.NEG. -/

namespace Sys2Proof.Machine

/-- How many payload bytes lie before the cursor. -/
def State.payOffset (s : State) : Nat := s.pos.toNat - s.pay0.toNat

/-- In a stereo chunk the second byte of each pair advances the right predictor (43 R265, 92 D40). -/
def State.rightTurn (s : State) : Bool :=
  s.phase == .sndStereo && s.payOffset % 2 == 1

/-- `PCM_LEN` of a sound chunk (43 R266): twice the payload length. Where that does not fit the register the spec states
no value; the free value belongs to the chunk alone (43 R269, log 7). -/
def pcmLength (s : State) : Word :=
  if 2 * s.payLen.toNat < 2 ^ 32 then BitVec.ofNat 32 (2 * s.payLen.toNat)
  else Config.longPcmLen s.recType s.recArg ((s.inp.readRun s.pay0.toNat s.payLen.toNat).getD [])

/-- The end of a sound chunk (43 R261, R264, R266; 40 R151). -/
def finishSound (s : State) : State :=
  finishRecord { s with pcmLen := pcmLength s, status := { s.status with audio := true } }

/-- ROQ.SND_MONO (43 R261, R262). Only `pred_l` is seeded: 43 R269 and 10 R29 speak of both predictors, but the pseudocode
of R261 writes one. DEDUCED, log 28: `pred_r` keeps its value, which no rule reads before a stereo chunk seeds it. -/
def execRoqSndMono (size : Word) (arg : Half) (s : State) : Host.Outcome State Fault Refusal :=
  conclude do
    let s ← enterChunk s.params.typeSndMono size arg s
    let s := { s with predL := arg, phase := .sndMono }
    .ok (if s.payLen = 0 then finishSound s else s)

/-- ROQ.SND_STEREO (43 R264). -/
def execRoqSndStereo (size : Word) (arg : Half) (s : State) : Host.Outcome State Fault Refusal :=
  conclude do
    let s ← enterChunk s.params.typeSndStereo size arg s
    let s := { s with predL := stereoSeedL arg, predR := stereoSeedR arg, phase := .sndStereo }
    .ok (if s.payLen = 0 then finishSound s else s)

/-- The sample of the code at payload offset `n` goes to `PCM[2n]` and `PCM[2n + 1]`, low byte first (43 R261, R264). -/
def pushSample (n : Nat) (p : Half) (s : State) : State :=
  { s with pcm := (s.pcm.write (2 * n) (p.extractLsb' 0 8)).write (2 * n + 1) (p.extractLsb' 8 8) }

/-- One code (43 R260, R263, R265): the predictor whose turn it is advances by `d` and its value is emitted. -/
def dpcmStep (d : Int) (s : State) : State :=
  let n := s.payOffset
  let right := s.rightTurn
  let p := advancePredictor (if right then s.predR else s.predL) d
  let s := if right then { s with predR := p } else { s with predL := p }
  let s := (pushSample n p s).advance 1
  if s.payEnd ≤ s.pos.toNat ∧ (s.phase ≠ .sndStereo ∨ right) then finishSound s else s

/-- DPCM.POS (43 R260). -/
def execDpcmPos (m : BitVec 7) (s : State) : Host.Outcome State Fault Refusal :=
  .next (dpcmStep (delta ((0 : BitVec 1) ++ m)) s)

/-- DPCM.NEG (43 R260). -/
def execDpcmNeg (m : BitVec 7) (s : State) : Host.Outcome State Fault Refusal :=
  .next (dpcmStep (delta ((1 : BitVec 1) ++ m)) s)

end Sys2Proof.Machine
end

