-- ==== Sys2Proof/Machine/Palette.lean ====
section
/-! DEFINITION. The palette stage (41 section 4): PAL.LOAD, PAL.DEFAULT and the palette of a CIN record. -/

namespace Sys2Proof.Machine

/-- `PaletteLoad` (41 R189): the 768 bytes are 6-bit when every one of them is at most 63. -/
def paletteOf (p : List Byte) : Vector Rgb 256 :=
  let six := p.all fun v => decide (v.toNat ≤ 63)
  let comp (v : Byte) : Byte := if six then expand6 v else v
  Vector.ofFn fun i => ⟨comp (p.getD (3 * i.val) 0), comp (p.getD (3 * i.val + 1) 0), comp (p.getD (3 * i.val + 2) 0)⟩

/-- PAL.LOAD (41 R189). -/
def execPalLoad (s : State) : Host.Outcome State Fault Refusal :=
  conclude do
    let s ← admission s
    if s.short 768 then raise s .truncated
    else do
      let p ← readIn s 0 768
      let s := { s with pal := paletteOf p }
      .ok (finishCommand { s.advance 768 with consumed := 768 })

/-- PAL.DEFAULT (41 R191). -/
def execPalDefault (s : State) : Host.Outcome State Fault Refusal :=
  conclude do
    let s ← admission s
    .ok (finishCommand { s with pal := greyRamp })

end Sys2Proof.Machine
end

