-- ==== Sys2Proof/Machine/Huffman.lean ====
section
/-! DEFINITION. The Huffman unit (41 sections 1 to 3): HUF.BUILD, the CIN records, HUF.STEP0 and HUF.STEP1. -/

namespace Sys2Proof.Machine

/-! ### Building one context (41 R171 to R174) -/

/-- The scratch of 10 R25 and the entries written so far. -/
structure BuildState where
  hcount : Vector Half 512
  hused : Vector Bool 512
  hn : BitVec 10
  table : ChildTable
deriving DecidableEq, Repr

/-- The smallest count among the unused nonzero entries and its lowest index, by one scan over rising indices that keeps
the first strictly smaller one (41 R172; PRESUMED by the spec, 93 K2, log 22). -/
def scanPick : List (Half × Bool) → Nat → Option (Nat × Half) → Option (Nat × Half)
  | [], _, best => best
  | (c, used) :: rest, i, best =>
    if used = true ∨ c = 0 then scanPick rest (i + 1) best
    else
      match best with
      | none => scanPick rest (i + 1) (some (i, c))
      | some (j, m) => if c.toNat < m.toNat then scanPick rest (i + 1) (some (i, c)) else scanPick rest (i + 1) (some (j, m))

/-- `Pick(hn)` (41 R172): the candidates are the nodes below `hn`; the one picked is marked used. -/
def pick (b : BuildState) : Option (Nat × BuildState) :=
  match scanPick ((b.hcount.toList.zip b.hused.toList).take b.hn.toNat) 0 none with
  | none => none
  | some (i, _) => some (i, { b with hused := b.hused.setIfInBounds i true })

/-- The count of a node. -/
def BuildState.count (b : BuildState) (i : Nat) : Half := b.hcount.toList.getD i 0

/-- The key of `child[c][n][b]` in the table of context c. -/
def childKey (n : Nat) (b : Bool) : Nat := (n - 256) * 2 + b.toNat

/-- One pass of the loop of 41 R173 after both picks: child 0 is the first pick. -/
def combine (b : BuildState) (i j : Nat) : BuildState :=
  let n := b.hn.toNat
  { b with
    table := b.table ++ [(childKey n false, BitVec.ofNat 9 i), (childKey n true, BitVec.ofNat 9 j)]
    hcount := b.hcount.setIfInBounds n (b.count i + b.count j)
    hn := b.hn + 1 }

/-- The loop of 41 R173. The fuel is never exhausted: at most 255 nodes are made (41 R175). -/
def combineAll : Nat → BuildState → BuildState
  | 0, b => b
  | fuel + 1, b =>
    match pick b with
    | none => b
    | some (i, b1) =>
      match pick b1 with
      | none => b1
      | some (j, b2) => combineAll fuel (combine b2 i j)

/-- 41 R171: leaves hold their histogram counts, internal nodes 0; no node is used. -/
def initContext (counts : List Byte) : BuildState where
  hcount := Vector.ofFn fun i : Fin 512 => if i.val < 256 then (counts.getD i.val 0).setWidth 16 else 0
  hused := Vector.replicate 512 false
  hn := 256
  table := []

/-- `BuildContext(c)` (41 R171 to R173) on the 256 counts of the context. -/
def buildContext (counts : List Byte) : BuildState :=
  combineAll 256 (initContext counts)

/-- The root of 41 R174: `hn - 1`. -/
def BuildState.root (b : BuildState) : BitVec 9 := BitVec.ofNat 9 (b.hn.toNat - 1)

/-- The counts of context c in the histogram, context-major (30 R121). -/
def contextCounts (hist : List Byte) (c : Nat) : List Byte := (hist.drop (c * 256)).take 256

/-- All 256 contexts, each from its own counts alone (41 R170). The scratch registers keep what context 255, the last
one, left in them (10 R25, log 24). -/
def buildTrees (hist : List Byte) (s : State) : State :=
  let built : Vector BuildState 256 := Vector.ofFn fun c => buildContext (contextCounts hist c.val)
  let final := buildContext (contextCounts hist 255)
  { s with
    root := built.map BuildState.root
    child := built.map BuildState.table
    hcount := final.hcount
    hused := final.hused
    hn := final.hn }

/-- HUF.BUILD (41 R170). DEDUCED, log 13: BUILT is cleared after admission, so a refused HUF.BUILD keeps it. -/
def execHufBuild (s : State) : Host.Outcome State Fault Refusal :=
  conclude do
    let s ← admission s
    let s := { s with status := { s.status with built := false } }
    if s.short 65536 then raise s .truncated
    else do
      let hist ← readIn s 0 65536
      let s := buildTrees hist s
      .ok (finishCommand { s.advance 65536 with consumed := 65536, status := { s.status with built := true } })

/-! ### The frame decode (41 R177 to R184) -/

/-- 41 R182: the pixel value is `node`; it is stored and becomes the next context. -/
def emitPixel (s : State) : State :=
  { s with idx := s.idx.write s.k.toNat (s.node.setWidth 8), ctx := s.node.setWidth 8, k := s.k + 1 }

/-- The end of a CIN record (41 R184, R192; 40 R147). -/
def finishCinFrame (s : State) : Run State := do
  let indices ← known .idx 0 s.npix (s.idx.readRun 0 s.npix)
  let s := { s with rgba := s.rgba.overlay (indices.flatMap (palettePixel s.pal)) }
  .ok (finishRecord { s with status := { s.status with frame := true } })

/-- The pixels that begin with `fuel` of them still to decode: pixels in degenerate contexts, which take no bit
(41 R183), are decoded at once, up to the first that needs a bit or the end of the frame (log 14). -/
def startPixels : Nat → State → Run State
  | 0, s => finishCinFrame s
  | fuel + 1, s =>
    let s := { s with node := entry s.root s.ctx }
    if 256 ≤ s.node.toNat then .ok s
    else
      match s.params.hufDegenerate with
      | .fault => raise s .codecDecode
      | .emitRoot => startPixels fuel (emitPixel s)

/-- `HuffmanFrame` (41 R177), entered with `pos = pay0`. -/
def huffmanFrame (s : State) : Run State :=
  if 0 < s.npix ∧ s.payLen = 0 then raise s .codecDecode
  else startPixels s.npix { s with ctx := 0, bitcnt := 0, k := 0, phase := .huffman }

/-- The entry `child[ctx][node][b]`; a leaf has none (10 R48). -/
def State.childOf (s : State) (b : Bool) : Option (BitVec 9) :=
  if s.node.toNat < 256 then none else (entry s.child s.ctx).lookup (childKey s.node.toNat b)

/-- One step of the walk on bit `b` (41 R178, R179, R181, R182): the bit is consumed, the child is followed, and at a
leaf the pixel is stored and the next pixel begun. -/
def hufStep (b : Bool) (s : State) : Run State := do
  let (_, s) ← nextBit s
  match s.childOf b with
  | none => raise s .codecDecode
  | some e =>
    let s := { s with node := e }
    if 256 ≤ e.toNat then .ok s
    else
      let s := emitPixel s
      startPixels (s.npix - s.k.toNat) s

/-- HUF.STEP0 (41 R179). -/
def execHufStep0 (s : State) : Host.Outcome State Fault Refusal := conclude (hufStep false s)

/-- HUF.STEP1 (41 R179). -/
def execHufStep1 (s : State) : Host.Outcome State Fault Refusal := conclude (hufStep true s)

/-! ### The CIN records (40 R145, 41 R185 to R187) -/

/-- The command word is latched and the cursor is after it. -/
def latchCommand (command : Word) (s : State) : State :=
  { s with recCmd := command, pos := BitVec.ofNat 32 (s.pos.toNat + 4) }

/-- 40 R145 from `chunk_size` on. -/
def cinBody (s : State) : Run State := do
  let (size, s) ← readField32 s
  let s := { s with chunkSize := size }
  let (decoded, s) ← readField32 s
  let s := { s with decodedSize := decoded }
  if size.toNat < 4 then raise s .sizeMismatch
  else if decoded.toNat ≠ s.npix then raise s .sizeMismatch
  else
    let s := { s with pay0 := s.pos, payLen := size - 4 }
    if s.payloadShort then raise s .truncated
    else huffmanFrame s

/-- The palette field of a CIN record (40 R145, 41 R186); it is not rolled back by a later fault (92 D22). -/
def cinPalette (s : State) : Run State :=
  if s.short 768 then raise s .truncated
  else do
    let p ← readIn s s.pos.toNat 768
    .ok ({ s with pal := paletteOf p }.advance 768)

/-- CIN.VIDEO (41 R185). -/
def execCinVideo (s : State) : Host.Outcome State Fault Refusal :=
  conclude (cinBody (latchCommand 0 s))

/-- CIN.PALVIDEO (41 R186). -/
def execCinPalvideo (s : State) : Host.Outcome State Fault Refusal :=
  conclude do
    let s ← cinPalette (latchCommand 1 s)
    cinBody s

/-- CIN.RSVD (41 R187). -/
def execCinRsvd (s : State) : Host.Outcome State Fault Refusal :=
  conclude (raise (latchCommand 2 s) .format)

end Sys2Proof.Machine
end

