-- ==== Sys2Proof/Machine/Vq.lean ====
section
/-! DEFINITION. The VQ unit and the CSC stage (42_vq.md): ROQ.CODEBOOK, ROQ.VQ, the ID8 and the ID4 codes. -/

namespace Sys2Proof.Machine

/-! ### The codebook (42 R210 to R214) -/

/-- Cell `i` of a codebook payload (30 R109). -/
def cellAt (bs : List Byte) (i : Nat) : CbCell :=
  ⟨bs.getD (6 * i) 0, bs.getD (6 * i + 1) 0, bs.getD (6 * i + 2) 0, bs.getD (6 * i + 3) 0,
    bs.getD (6 * i + 4) 0, bs.getD (6 * i + 5) 0⟩

/-- Quad `j` of a codebook payload with `n1` cells (30 R109). -/
def quadAt (bs : List Byte) (n1 j : Nat) : CbQuad :=
  ⟨bs.getD (6 * n1 + 4 * j) 0, bs.getD (6 * n1 + 4 * j + 1) 0, bs.getD (6 * n1 + 4 * j + 2) 0,
    bs.getD (6 * n1 + 4 * j + 3) 0⟩

/-- The write of 42 R212. -/
def loadCodebook (n1 n2 : Nat) (bs : List Byte) (s : State) : State :=
  { s with
    cell := Vector.ofFn fun i => if i.val < n1 then cellAt bs i.val else s.cell[i]
    quad := Vector.ofFn fun j => if j.val < n2 then quadAt bs n1 j.val else s.quad[j]
    nv1 := n1
    nv2 := n2 }

/-- `CodebookLoad` (42 R210 to R212). -/
def codebookChunk (s : State) : Run State :=
  let n1 := cellCount s.recArg
  let n2 := quadCount s.recArg s.payLen.toNat
  if s.payLen.toNat < n1 * 6 + n2 * 4 then raise s .truncated
  else do
    let bs ← readIn s s.pay0.toNat (n1 * 6 + n2 * 4)
    let s := loadCodebook n1 n2 bs s
    .ok (finishRecord { s with status := { s.status with cbook := true } })

/-- ROQ.CODEBOOK (42 R210). -/
def execRoqCodebook (size : Word) (arg : Half) (s : State) : Host.Outcome State Fault Refusal :=
  conclude do
    let s ← enterChunk s.params.typeCodebook size arg s
    codebookChunk s

/-! ### Frame entry and end (42 R215, R237 to R239) -/

/-- The frame-start copy of 42 R215: elements 0 .. W*H - 1 of `last` go to `current`. -/
def copyFrame (s : State) : Run State := do
  let y ← known .last 0 s.npix (s.last.y.readRun 0 s.npix)
  let u ← known .last 0 s.npix (s.last.u.readRun 0 s.npix)
  let v ← known .last 0 s.npix (s.last.v.readRun 0 s.npix)
  .ok (s.setCurrent (s.current.overlay y u v))

/-- `VqFrame` up to the first code (42 R215), with the dispatch checks of 40 R149. -/
def vqFrame (s : State) : Run State :=
  if !s.roqDimsOk then raise s .dimension
  else if !s.status.seeded then raise s .state
  else do
    let s ← copyFrame { s with biasX := argHigh s.recArg, biasY := argLow s.recArg }
    .ok { s with flagN := 0, mbx := 0, mby := 0, q := 0, phase := .quadrant }

/-- ROQ.VQ (42 R215). -/
def execRoqVq (size : Word) (arg : Half) (s : State) : Host.Outcome State Fault Refusal :=
  conclude do
    let s ← enterChunk s.params.typeVq size arg s
    vqFrame s

/-- The end of a VQ chunk: materialization (42 R238), then the swap (42 R239). -/
def finishVqFrame (s : State) : Run State := do
  let y ← known .current 0 s.npix (s.current.y.readRun 0 s.npix)
  let u ← known .current 0 s.npix (s.current.u.readRun 0 s.npix)
  let v ← known .current 0 s.npix (s.current.v.readRun 0 s.npix)
  .ok (finishRecord
    { s with rgba := s.rgba.overlay (yuvPixels y u v), pp := !s.pp, status := { s.status with frame := true } })

/-! ### The scan (42 R216, R217, R219) -/

/-- Column of the current quadrant (42 R216). -/
def State.x8 (s : State) : Nat := s.mbx * 16 + s.q % 2 * 8

/-- Row of the current quadrant. -/
def State.y8 (s : State) : Nat := s.mby * 16 + s.q / 2 * 8

/-- Column of the current sub-block (42 R217). -/
def State.x4 (s : State) : Nat := s.x8 + s.sb % 2 * 4

/-- Row of the current sub-block. -/
def State.y4 (s : State) : Nat := s.y8 + s.sb / 2 * 4

/-- The quadrant is done: the next one in the order of 42 R216, or the end of the frame. -/
def nextQuadrant (s : State) : Run State :=
  if s.q < 3 then .ok { s with q := s.q + 1, phase := .quadrant }
  else if s.mbx + 1 < s.width / 16 then .ok { s with q := 0, mbx := s.mbx + 1, phase := .quadrant }
  else if s.mby + 1 < s.height / 16 then .ok { s with q := 0, mbx := 0, mby := s.mby + 1, phase := .quadrant }
  else finishVqFrame s

/-- The sub-block is done: the next one of the quadrant (42 R217), or the next quadrant. -/
def nextSubBlock (s : State) : Run State :=
  if s.sb < 3 then .ok { s with sb := s.sb + 1, phase := .subBlock } else nextQuadrant s

/-! ### Block operations (42 R225 to R227, R232 to R236) -/

/-- The offsets (i, j) of an n x n block, row by row. -/
def blockOffsets (n : Nat) : List (Nat × Nat) :=
  (List.range n).flatMap fun j => (List.range n).map fun i => (i, j)

/-- The writes that put `f i j` at every pixel (x + i, y + j) of an n x n block (00 R11). -/
def blockWrites (w x y n : Nat) (f : Nat → Nat → Byte) : List Host.Cell :=
  (blockOffsets n).map fun o => ((y + o.2) * w + (x + o.1), f o.1 o.2)

/-- The writes of one plane of `CopyBlock` (42 R226), if the source block has values. -/
def copyWrites (src : Memory) (w n sx sy x y : Nat) : Option (List Host.Cell) :=
  (blockOffsets n).mapM fun o =>
    (src.read ((sy + o.2) * w + (sx + o.1))).map fun v => ((y + o.2) * w + (x + o.1), v)

/-- `CopyBlock(n, x, y, b)` (42 R225 to R227). -/
def copyBlock (n x y : Nat) (b : Byte) (s : State) : Run State :=
  let (dx, dy) := motionVector s.biasX s.biasY b
  let sx : Int := x + dx
  let sy : Int := y + dy
  if sx < 0 ∨ sy < 0 ∨ s.width < sx + n ∨ s.height < sy + n then raise s .codecDecode
  else do
    let base := sy.toNat * s.width + sx.toNat
    let wy ← known .last base n (copyWrites s.last.y s.width n sx.toNat sy.toNat x y)
    let wu ← known .last base n (copyWrites s.last.u s.width n sx.toNat sy.toNat x y)
    let wv ← known .last base n (copyWrites s.last.v s.width n sx.toNat sy.toNat x y)
    .ok (s.setCurrent (s.current.writes wy wu wv))

/-- `StampCell` for `scale = 1` (42 R232) and `StampCellUp` for `scale = 2` (42 R233): pixel (i, j) of the block takes
luma sample `(j / scale) * 2 + i / scale`; U and V fill the block. -/
def stampCell (scale x y : Nat) (c : Byte) (s : State) : Run State :=
  if s.nv1 ≤ c.toNat then raise s .codecDecode
  else
    let e := entry s.cell c
    .ok (s.setCurrent (s.current.writes
      (blockWrites s.width x y (2 * scale) fun i j => e.luma (j / scale * 2 + i / scale))
      (blockWrites s.width x y (2 * scale) fun _ _ => e.u)
      (blockWrites s.width x y (2 * scale) fun _ _ => e.v)))

/-- `StampQuad` for `scale = 1` (42 R234) and `StampQuadUp` for `scale = 2` (42 R235). -/
def stampQuad (scale x y : Nat) (j : Byte) (s : State) : Run State :=
  if s.nv2 ≤ j.toNat then raise s .codecDecode
  else do
    let e := entry s.quad j
    let s ← stampCell scale x y e.i0 s
    let s ← stampCell scale (x + 2 * scale) y e.i1 s
    let s ← stampCell scale x (y + 2 * scale) e.i2 s
    stampCell scale (x + 2 * scale) (y + 2 * scale) e.i3 s

/-- One turn of the loop of a CCC4 (42 R219, R231): the cell index is fetched, checked and stamped before the next. -/
def cellTurn (cc : Nat) (s : State) : Run State := do
  let (c, s) ← nextByte { s with cc := cc }
  stampCell 1 (s.x4 + cc % 2 * 2) (s.y4 + cc / 2 * 2) c s

/-! ### The codes of the 8x8 level (42 R220 to R224) -/

/-- MOT8 (42 R220). -/
def execMot8 (s : State) : Host.Outcome State Fault Refusal :=
  conclude do
    let (_, s) ← nextId s
    nextQuadrant s

/-- FCC8 (42 R221). -/
def execFcc8 (s : State) : Host.Outcome State Fault Refusal :=
  conclude do
    let (_, s) ← nextId s
    let (b, s) ← nextByte s
    let s ← copyBlock 8 s.x8 s.y8 b s
    nextQuadrant s

/-- SLD8 (42 R223). -/
def execSld8 (s : State) : Host.Outcome State Fault Refusal :=
  conclude do
    let (_, s) ← nextId s
    let (j, s) ← nextByte s
    let s ← stampQuad 2 s.x8 s.y8 j s
    nextQuadrant s

/-- CCC8 (42 R224). -/
def execCcc8 (s : State) : Host.Outcome State Fault Refusal :=
  conclude do
    let (_, s) ← nextId s
    .ok { s with sb := 0, phase := .subBlock }

/-! ### The codes of the 4x4 level (42 R228 to R231) -/

/-- MOT4 (42 R228). -/
def execMot4 (s : State) : Host.Outcome State Fault Refusal :=
  conclude do
    let (_, s) ← nextId s
    nextSubBlock s

/-- FCC4 (42 R229). -/
def execFcc4 (s : State) : Host.Outcome State Fault Refusal :=
  conclude do
    let (_, s) ← nextId s
    let (b, s) ← nextByte s
    let s ← copyBlock 4 s.x4 s.y4 b s
    nextSubBlock s

/-- SLD4 (42 R230). -/
def execSld4 (s : State) : Host.Outcome State Fault Refusal :=
  conclude do
    let (_, s) ← nextId s
    let (j, s) ← nextByte s
    let s ← stampQuad 1 s.x4 s.y4 j s
    nextSubBlock s

/-- CCC4 (42 R231). -/
def execCcc4 (s : State) : Host.Outcome State Fault Refusal :=
  conclude do
    let (_, s) ← nextId s
    let s ← cellTurn 0 s
    let s ← cellTurn 1 s
    let s ← cellTurn 2 s
    let s ← cellTurn 3 s
    nextSubBlock s

end Sys2Proof.Machine
end

