-- ==== Sys2Proof/Machine/Dispatch.lean ====
section
/-! DEFINITION. One arm per constructor of `Instr`, each a direct call of that instruction's meaning. -/

namespace Sys2Proof.Machine

def exec (i : Instr) (s : State) : Host.Outcome State Fault Refusal :=
  match i with
  | .rst => Sys2Proof.Machine.execRst s
  | .clrerr => Sys2Proof.Machine.execClrerr s
  | .hufBuild => Sys2Proof.Machine.execHufBuild s
  | .cinRec => Sys2Proof.Machine.execCinRec s
  | .palLoad => Sys2Proof.Machine.execPalLoad s
  | .palDefault => Sys2Proof.Machine.execPalDefault s
  | .vqSeed => Sys2Proof.Machine.execVqSeed s
  | .roqChunk => Sys2Proof.Machine.execRoqChunk s
  | .cinVideo => Sys2Proof.Machine.execCinVideo s
  | .cinPalvideo => Sys2Proof.Machine.execCinPalvideo s
  | .cinRsvd => Sys2Proof.Machine.execCinRsvd s
  | .roqInfo size arg => Sys2Proof.Machine.execRoqInfo size arg s
  | .roqCodebook size arg => Sys2Proof.Machine.execRoqCodebook size arg s
  | .roqVq size arg => Sys2Proof.Machine.execRoqVq size arg s
  | .roqJpeg size arg => Sys2Proof.Machine.execRoqJpeg size arg s
  | .roqHang size arg => Sys2Proof.Machine.execRoqHang size arg s
  | .roqSndMono size arg => Sys2Proof.Machine.execRoqSndMono size arg s
  | .roqSndStereo size arg => Sys2Proof.Machine.execRoqSndStereo size arg s
  | .mot8 => Sys2Proof.Machine.execMot8 s
  | .fcc8 => Sys2Proof.Machine.execFcc8 s
  | .sld8 => Sys2Proof.Machine.execSld8 s
  | .ccc8 => Sys2Proof.Machine.execCcc8 s
  | .mot4 => Sys2Proof.Machine.execMot4 s
  | .fcc4 => Sys2Proof.Machine.execFcc4 s
  | .sld4 => Sys2Proof.Machine.execSld4 s
  | .ccc4 => Sys2Proof.Machine.execCcc4 s
  | .dpcmPos m => Sys2Proof.Machine.execDpcmPos m s
  | .dpcmNeg m => Sys2Proof.Machine.execDpcmNeg m s
  | .hufStep0 => Sys2Proof.Machine.execHufStep0 s
  | .hufStep1 => Sys2Proof.Machine.execHufStep1 s

end Sys2Proof.Machine
end

