-- ==== Sys2Proof/Machine/Fetch.lean ====
section
/-! DEFINITION. What the sequencer reads next, what it does with a word that names no instruction, and where a word is
placed so that it is read next. -/

namespace Sys2Proof.Machine

/-- The next code: nothing while the block is idle, else a format and the bytes of one code. Fetching moves nothing; the
instruction's meaning does. A fetch that cannot read its code raises the fault of the unit that asks for it. -/
def fetch (s : State) : Run (Option (Format × List Byte)) :=
  match s.phase with
  | .idle =>
    match s.cmd with
    | none => .ok none
    | some code => .ok (some (.hostcmd, [code]))
  | .cinRecord =>
    if s.short 4 then raise s .truncated
    else do
      let bs ← readIn s s.pos.toNat 4
      .ok (some (.cinrec, bs))
  | .roqRecord =>
    if s.short 8 then raise s .truncated
    else do
      let bs ← readIn s s.pos.toNat 8
      .ok (some (.roqchunk, bs))
  | .huffman => do
    let (b, _) ← nextBit s
    .ok (some (.hbit, [if b then 1 else 0]))
  | .quadrant => do
    let (id, _) ← nextId s
    .ok (some (.id8, [id.setWidth 8]))
  | .subBlock => do
    let (id, _) ← nextId s
    .ok (some (.id4, [id.setWidth 8]))
  | .sndMono => do
    let (c, _) ← nextByte s
    .ok (some (.dpcm8, [c]))
  | .sndStereo =>
    -- 43 R267: the left code of a half pair is not taken
    if s.payOffset % 2 = 0 ∧ s.payEnd ≤ s.pos.toNat + 1 then raise s .codecDecode
    else do
      let (c, _) ← nextByte s
      .ok (some (.dpcm8, [c]))

/-- What a word that names no instruction does: an undefined HOSTCMD code is a StateError at admission (40 R141), a CIN
command word of 3 or more (41 R188) and an unknown RoQ type (40 R153) are FormatErrors after the word has been read. -/
def rejectCode (e : DecodeError) (bytes : List Byte) (s : State) : Host.Outcome State Fault Refusal :=
  conclude <|
    match e with
    | .undefinedCommand _ => raise (startCommand s) .state
    | .undefinedRecord command => raise (latchCommand command s) .format
    | .unknownChunk type =>
      raise { s with
        recType := type
        recSize := le32 (bytes.getD 2 0) (bytes.getD 3 0) (bytes.getD 4 0) (bytes.getD 5 0)
        recArg := le16 (bytes.getD 6 0) (bytes.getD 7 0)
        pos := 8 } .format
    | .badLength _ => raise s .format

/-- The state in which the next code read is the one given, of its format (log 17). -/
def placeCode (f : Format) (bytes : List Byte) (s : State) : State :=
  let busy := s.status.start
  let id := (bytes.getD 0 0).extractLsb' 0 2
  match f with
  | .hostcmd => { s with phase := .idle, status := busy, cmd := some (bytes.getD 0 0) }
  | .cinrec =>
    { s with phase := .cinRecord, status := busy, pos := 0, inLen := 12
             inp := Memory.layout 0 (bytes ++ List.replicate 8 0) }
  | .roqchunk => { s with phase := .roqRecord, status := busy, pos := 0, inLen := 8, inp := Memory.layout 0 bytes }
  | .id8 =>
    { s with phase := .quadrant, status := busy, flagN := 8
             flag := match s.params.idOrder with
               | .msbFirst => id.setWidth 16 <<< 14
               | .lsbFirst => id.setWidth 16 }
  | .id4 =>
    { s with phase := .subBlock, status := busy, flagN := 8
             flag := match s.params.idOrder with
               | .msbFirst => id.setWidth 16 <<< 14
               | .lsbFirst => id.setWidth 16 }
  | .dpcm8 =>
    { s with phase := .sndMono, status := busy, pos := 0, pay0 := 0, payLen := 1, inLen := 1
             inp := Memory.layout 0 bytes }
  | .hbit => { s with phase := .huffman, status := busy, bitcnt := 8, bitbuf := bytes.getD 0 0 }

/-- `placeCode` for a table word; a word of no format changes nothing. -/
def placeWord (s : State) (nbits w : Nat) : State :=
  match tableWord nbits w with
  | some (f, bytes) => placeCode f bytes s
  | none => s

end Sys2Proof.Machine
end

