-- ==== Sys2Proof/Machine/Step.lean ====
section
/-! DEFINITION. One step of the sequencer: fetch a code, decode it, execute it. -/

namespace Sys2Proof.Machine

/-- One step. While the block is idle and no command is pending it does nothing (70 R320). -/
def step (s : State) : Host.Outcome State Fault Refusal :=
  match fetch s with
  | .error stop => conclude (.error stop)
  | .ok none => .next s
  | .ok (some (f, bytes)) =>
    match decode s.params f bytes with
    | .ok i => exec i s
    | .error e => rejectCode e bytes s

/-- `s` with a table word placed where `step` fetches its next instruction (log 17). -/
def State.withFetchWord (s : State) (nbits w : Nat) : State := placeWord s nbits w

end Sys2Proof.Machine
end

