-- ==== Sys2Proof/Machine/HostPort.lean ====
section
/-! DEFINITION. The host's side of the port (10 section 5, 20 R71, R82; 70 R321, R330): what the host can do between two
steps. No instruction of the opcode table does any of this (40 R156). -/

namespace Sys2Proof.Machine

/-- What the host can do to the block. -/
inductive HostAction where
  /-- Write a value to a host register; a register takes its low bits. -/
  | writeReg (reg : Nat) (v : Word)
  /-- Place the bytes of the next command in IN, from `IN[0]` on (20 R70). -/
  | presentIn (bytes : List Byte)
  /-- The platform's reset input (70 R321). -/
  | platformReset
deriving DecidableEq, Repr

/-- A write to CFG_WIDTH or CFG_HEIGHT clears SEEDED (10 R40). -/
def unseed (s : State) : State :=
  { s with status := { s.status with seeded := false } }

/-- A write to a host register. Writes to CMD and to the configuration registers while BUSY are ignored (10 R40, R42;
70 R330); a write to IN_LEN while BUSY is one of the accesses 93 U2 leaves undefined. A write to CMD while idle starts the
command: the flags take their starting values and the code is pending until the next step (10 R33, R42; 40 R144). -/
def writeReg (reg : Nat) (v : Word) (s : State) : Host.Outcome State Fault Refusal :=
  match reg with
  | 0 => .next (if s.status.busy then s else unseed { s with cfgWidth := v.setWidth 16 })
  | 1 => .next (if s.status.busy then s else unseed { s with cfgHeight := v.setWidth 16 })
  | 2 => if s.status.busy then .refused .hostWhileBusy else .next { s with inLen := v }
  | 3 => .next (if s.status.busy then s
      else { s with cmd := some (v.setWidth 8), status := s.status.start })
  | 4 => .refused (.readOnlyRegister 4)
  | 5 => .refused (.readOnlyRegister 5)
  | 6 => .refused (.readOnlyRegister 6)
  | 7 => .refused (.readOnlyRegister 7)
  | 8 => .refused (.readOnlyRegister 8)
  | n + 9 => .refused (.noSuchRegister (n + 9))

/-- One action of the host. A platform reset is possible at any time and abandons the command (70 R321). -/
def hostStep (a : HostAction) (s : State) : Host.Outcome State Fault Refusal :=
  match a with
  | .writeReg reg v => writeReg reg v s
  | .presentIn bytes => if s.status.busy then .refused .hostWhileBusy else .next { s with inp := Memory.layout 0 bytes }
  | .platformReset => .next (resetState s)

/-- The value of a host register (10 R33, R40 to R46); CMD reads 0 (10 R42). -/
def regValue (s : State) : Nat → Option Word
  | 0 => some (s.cfgWidth.setWidth 32)
  | 1 => some (s.cfgHeight.setWidth 32)
  | 2 => some s.inLen
  | 3 => some 0
  | 4 => some (s.status.word.setWidth 32)
  | 5 => some (s.errCode.setWidth 32)
  | 6 => some s.errPos
  | 7 => some s.consumed
  | 8 => some s.pcmLen
  | _ => none

/-- A host read of a register: the value, or a refusal. While BUSY only STATUS, which the host polls (60 R295), and CMD
can be read (93 U2). -/
def hostReadReg (reg : Nat) (s : State) : Except Refusal Word :=
  match regValue s reg with
  | none => .error (.noSuchRegister reg)
  | some v => if s.status.busy ∧ reg ≠ 3 ∧ reg ≠ 4 then .error .hostWhileBusy else .ok v

/-- The memories the host can read between commands (20 R71). -/
inductive HostSpace where
  | idx
  | rgba
  | pcm
  | lastY
  | lastU
  | lastV
  | currentY
  | currentU
  | currentV
deriving DecidableEq, Repr

/-- The number of bytes of a memory (20 R72 to R75). DESIGN CHOICE, log 30: W and H are those of the moment of the read, so a
dimension write after a frame, of which the spec does not say what it does to the outputs, changes what can be read. -/
def spaceSize (s : State) : HostSpace → Nat
  | .rgba => 4 * s.npix
  | .pcm => s.pcmLen.toNat
  | _ => s.npix

/-- Its contents. -/
def spaceMemory (s : State) : HostSpace → Memory
  | .idx => s.idx
  | .rgba => s.rgba
  | .pcm => s.pcm
  | .lastY => s.last.y
  | .lastU => s.last.u
  | .lastV => s.last.v
  | .currentY => s.current.y
  | .currentU => s.current.u
  | .currentV => s.current.v

/-- Whether the host may use it: IDX and RGBA with DONE and FRAME, PCM with AUDIO (92 D44, 70 R335). DESIGN CHOICE, log 29:
IDX follows the two flags of D44 alone, so the indices of an earlier CIN frame can be read after a VQ chunk, of which 20 R72
and 70 R335 leave open whether they are still valid. -/
def spaceValid (s : State) : HostSpace → Bool
  | .idx | .rgba => s.status.done && s.status.frame
  | .pcm => s.status.audio
  | _ => true

/-- A host read of one byte of a memory between commands (20 R82). -/
def hostReadByte (sp : HostSpace) (a : Nat) (s : State) : Except Refusal Byte :=
  if s.status.busy then .error .hostWhileBusy
  else if spaceValid s sp = true ∧ a < spaceSize s sp then
    match (spaceMemory s sp).read a with
    | some v => .ok v
    | none => .error .outputNotValid
  else .error .outputNotValid

end Sys2Proof.Machine
end

