-- ==== Sys2Proof/Safety.lean ====
section
/-! DEFINITION. What a sound state and a safe step are, in the words the statements use. -/

namespace Sys2Proof.Machine

/-! ### Invariants -/

/-- The canonical form of a plane set. -/
def Planes.wf (p : Planes) : Bool := p.y.wf && p.u.wf && p.v.wf

/-- Every memory is in its canonical form. -/
def State.canonical (s : State) : Bool :=
  s.inp.wf && s.idx.wf && s.pl0.wf && s.pl1.wf && s.rgba.wf && s.pcm.wf

/-- The registers that 10_state.md gives a range and the state holds as numbers are in it (10 R23, R27, R28, R52). -/
def State.ranged (s : State) : Bool :=
  decide (s.bitcnt ≤ 8 ∧ s.flagN ≤ 8 ∧ s.q ≤ 3 ∧ s.sb ≤ 3 ∧ s.cc ≤ 3 ∧ s.nv1 ≤ 256 ∧ s.nv2 ≤ 256)

/-- A command runs or is pending: what BUSY reports (10 R33). -/
def State.running (s : State) : Bool := s.phase != .idle || s.cmd.isSome

/-- How the flags go together (10 R33, R43, R44; 40 R144; 60 R290): BUSY says that a command runs; a result flag stands
only with DONE, and DONE only after the command; a command that runs was admitted without ERR; the fault registers are 0
without ERR and hold a code the block raises with it, and never DONE with it. -/
def State.flagsAgree (s : State) : Prop :=
  s.status.busy = s.running ∧
  (s.phase ≠ .idle → s.cmd = none ∧ s.status.err = false) ∧
  (s.status.done = true → s.status.busy = false ∧ s.status.err = false) ∧
  (s.status.frame = true → s.status.done = true ∧ s.status.audio = false) ∧
  (s.status.audio = true → s.status.done = true) ∧
  (s.status.err = false → s.errCode = 0 ∧ s.errPos = 0) ∧
  (s.status.err = true → s.errCode ∈ [Kind.format.code, Kind.dimension.code, Kind.truncated.code,
    Kind.sizeMismatch.code, Kind.codecDecode.code, Kind.state.code])

/-- The payload lies in IN and the cursor in the payload. -/
def State.payloadOk (s : State) : Bool :=
  decide (s.pay0.toNat ≤ s.pos.toNat ∧ s.pos.toNat ≤ s.payEnd ∧ s.payEnd ≤ s.inLen.toNat)

/-- What the VQ unit relies on while it decodes a frame: legal dimensions, its payload, seeded planes, a `current` that
started as a copy of `last`, and a scan position inside the frame. -/
def State.vqOk (s : State) : Bool :=
  s.roqDimsOk && s.payloadOk && s.status.seeded && s.current.full s.npix &&
    decide (s.mbx < s.width / 16 ∧ s.mby < s.height / 16 ∧ s.q ≤ 3)

/-- What each phase relies on. -/
def State.phaseOk (s : State) : Bool :=
  match s.phase with
  | .idle | .roqRecord => true
  | .cinRecord => s.cinDimsOk
  | .huffman => s.cinDimsOk && s.payloadOk && decide (s.k.toNat < s.npix) && s.idx.full s.k.toNat
  | .quadrant => s.vqOk
  | .subBlock => s.vqOk && decide (s.sb ≤ 3)
  | .sndMono | .sndStereo => s.payloadOk

/-- A state in which every memory element the block may still read has a value: the host has placed all the bytes that
`IN_LEN` counts (20 R70), SEEDED vouches for `last` (10 R33, 20 R73), and the phase for what it has written. No second
command waits behind a running one (70 R330). -/
def State.live (s : State) : Bool :=
  s.canonical && s.inp.full s.inLen.toNat && (!s.status.seeded || s.last.full s.npix) && s.phaseOk &&
    (s.phase == .idle || s.cmd.isNone)

/-- The tree of one context is whole up to its root (41 R176): every internal node has two children, both of a smaller
index. -/
def treeWhole (root : BitVec 9) (t : ChildTable) : Prop :=
  ∀ n, 256 ≤ n → n ≤ root.toNat → ∃ a b, t.lookup (childKey n false) = some a ∧ t.lookup (childKey n true) = some b ∧
    a.toNat < n ∧ b.toNat < n

/-- BUILT vouches for the trees, and a walk stands on an internal node of the tree of its context. -/
def State.treesOk (s : State) : Prop :=
  (s.status.built = true → ∀ c, treeWhole (entry s.root c) (entry s.child c)) ∧
  (s.phase = .cinRecord → s.status.built = true) ∧
  (s.phase = .huffman → s.status.built = true ∧ 256 ≤ s.node.toNat ∧ s.node.toNat ≤ (entry s.root s.ctx).toNat)

/-- The number of tokens of context c with a nonzero count in a histogram (30 R121, 41 R175). -/
def nonzeroTokens (hist : List Byte) (c : Byte) : Nat :=
  ((List.range 256).filter fun token => decide (hist.getD (c.toNat * 256 + token) 0 ≠ 0)).length

/-- The order of Pick (41 R172): node i has the lower count, or an equal one and the lower index. -/
def lighter (count : Nat → Nat) (i j : Nat) : Prop :=
  count i < count j ∨ (count i = count j ∧ i < j)

/-! ### Safety and termination -/

/-- The model does not stop: the step answers a next state. -/
def safeStep (s : State) : Prop := ∃ t, step s = .next t

/-- The 8x8 quadrants of the frame. -/
def State.quadrants (s : State) : Nat := 4 * (s.width / 16) * (s.height / 16)

/-- How many quadrants have been decoded before the current one (42 R216). -/
def State.quadrantIndex (s : State) : Nat := 4 * (s.mby * (s.width / 16) + s.mbx) + s.q

/-- A bound on the steps until the block is idle again (70 R341): a bit of payload for every Huffman step, a byte for
every DPCM code, five ids for every quadrant. -/
def State.budget (s : State) : Nat :=
  let all := 8 * s.inLen.toNat + 5 * s.quadrants + 1
  match s.phase with
  | .idle => if s.cmd.isSome then all + 2 else 0
  | .cinRecord | .roqRecord => all + 1
  | .huffman => 8 * (s.payEnd - s.pos.toNat) + s.bitcnt + 1
  | .quadrant => 5 * (s.quadrants - s.quadrantIndex)
  | .subBlock => 5 * (s.quadrants - s.quadrantIndex) - 1 - s.sb
  | .sndMono | .sndStereo => s.payEnd - s.pos.toNat + 1

/-! ### What a block operation leaves in a plane -/

/-- `after` agrees with `before` outside the n x n block at (x, y) of a plane of width w. -/
def sameOutside (w x y n : Nat) (before after : Memory) : Prop :=
  ∀ a, (∀ i < n, ∀ j < n, a ≠ (y + j) * w + (x + i)) → after.read a = before.read a

/-- `after` holds at block (x, y, n) what `src` holds at block (sx, sy, n), and agrees with `before` elsewhere (42 R226). -/
def copied (w n sx sy x y : Nat) (src before after : Memory) : Prop :=
  (∀ i < n, ∀ j < n, after.read ((y + j) * w + (x + i)) = src.read ((sy + j) * w + (sx + i))) ∧
  sameOutside w x y n before after

/-- `after` holds `f i j` at pixel (x + i, y + j) of block (x, y, n), and agrees with `before` elsewhere. -/
def stamped (w n x y : Nat) (f : Nat → Nat → Byte) (before after : Memory) : Prop :=
  (∀ i < n, ∀ j < n, after.read ((y + j) * w + (x + i)) = some (f i j)) ∧ sameOutside w x y n before after

/-- The index of the cell of a quad that covers pixel (i, j), each cell `2 * scale` wide: TL, TR, BL, BR (42 R234). -/
def CbQuad.cellAt (e : CbQuad) (scale i j : Nat) : Byte :=
  if j < 2 * scale then (if i < 2 * scale then e.i0 else e.i1) else (if i < 2 * scale then e.i2 else e.i3)

/-! ### What a sound chunk decodes to -/

/-- A 16-bit sample, low byte first (20 R75). -/
def sampleBytes (p : Half) : List Byte := [p.extractLsb' 0 8, p.extractLsb' 8 8]

/-- The output of a mono payload from predictor `p` (43 R261, R263). -/
def monoSamples : Half → List Byte → List Byte
  | _, [] => []
  | p, c :: cs => sampleBytes (advancePredictor p (delta c)) ++ monoSamples (advancePredictor p (delta c)) cs

/-- The output of the complete pairs of a stereo payload (43 R264, R265). -/
def stereoSamples : Half → Half → List Byte → List Byte
  | l, r, cl :: cr :: cs =>
    sampleBytes (advancePredictor l (delta cl)) ++ sampleBytes (advancePredictor r (delta cr)) ++
      stereoSamples (advancePredictor l (delta cl)) (advancePredictor r (delta cr)) cs
  | _, _, _ => []

/-! ### Two runs that differ only in the colours -/

/-- Two states that agree on everything but the palette and the output image. -/
def sameButColours (s t : State) : Prop := t = { s with pal := t.pal, rgba := t.rgba }

end Sys2Proof.Machine
end

