-- ==== Sys2Proof/Certificates/Slice0/Obligations.lean ====
section
/-! DEFINITION. The statements about the block, each named after what it states; OBLIGATIONS.json lists them. -/

open Sys2Proof Sys2Proof.Machine

/-! ### Encoding -/

/-- Every well-formed instruction decodes from its own bytes, with every operand (30 R101, R104, R106, R112, R113, R119,
R120). -/
def Obligations.DecodeOfEncode : Prop :=
  ∀ (p : Params) (i : Instr), i.wf p = true → decode p i.format (encode p i) = .ok i

/-- Each word has one meaning: bytes that decode are the bytes of the instruction they decode to. -/
def Obligations.EncodeOfDecode : Prop :=
  ∀ (p : Params) (f : Format) (bytes : List Byte) (i : Instr),
    decode p f bytes = .ok i → i.format = f ∧ encode p i = bytes

/-- Some words of the tables, written out, and what they decode to. -/
def Obligations.WordsOfTheTablesDecode : Prop :=
  decode Params.default .hostcmd [0x10] = .ok .hufBuild ∧
  decode Params.default .hostcmd [0x21] = .ok .roqChunk ∧
  decode Params.default .cinrec [0x01, 0x00, 0x00, 0x00] = .ok .cinPalvideo ∧
  decode Params.default .cinrec [0x00, 0x01, 0x00, 0x00] = .error (.undefinedRecord 0x100) ∧
  decode Params.default .roqchunk [0x02, 0x10, 0x06, 0x00, 0x00, 0x00, 0x00, 0x01] = .ok (.roqCodebook 6 0x0100) ∧
  decode Params.default .id8 [0x03] = .ok .ccc8 ∧
  decode Params.default .id4 [0x03] = .ok .ccc4 ∧
  decode Params.default .dpcm8 [0x83] = .ok (.dpcmNeg 3) ∧
  decode Params.default .hbit [0x01] = .ok .hufStep1

/-! ### The step -/

/-- When the code the block is to read next decodes to an instruction, the step is that instruction's meaning in that
state; in particular when it reads a well-formed instruction's own bytes. When the code cannot be read, the step is fault
entry. -/
def Obligations.StepRunsTheDecodedInstruction : Prop :=
  ∀ s : State,
    (∀ (f : Format) (bytes : List Byte) (i : Instr), fetch s = .ok (some (f, bytes)) →
      (decode s.params f bytes = .ok i → step s = exec i s) ∧
      (i.wf s.params = true → f = i.format → bytes = encode s.params i → step s = exec i s)) ∧
    (∀ (v : State) (kind : Kind), fetch s = .error (.raised v kind) → step s = .next (raiseFault v kind))

/-- Where the next code stands (70 R320, 40 R145, R148, 41 R178, 42 R217, R219, 43 R261, R264): nothing while idle; the
code written to CMD; 4 or 8 bytes of IN at the cursor; the next Huffman bit or vector id; the next sound byte. That a step is
one code, and the phases, are the model's (log 1). -/
def Obligations.FetchReadsTheNextCode : Prop :=
  ∀ s : State,
    (s.phase = .idle → s.cmd = none → fetch s = .ok none ∧ step s = .next s) ∧
    (∀ c, s.phase = .idle → s.cmd = some c → fetch s = .ok (some (.hostcmd, [c]))) ∧
    (∀ bs, s.phase = .cinRecord → s.pos.toNat + 4 ≤ s.inLen.toNat → s.inp.readRun s.pos.toNat 4 = some bs →
      fetch s = .ok (some (.cinrec, bs))) ∧
    (∀ bs, s.phase = .roqRecord → s.pos.toNat + 8 ≤ s.inLen.toNat → s.inp.readRun s.pos.toNat 8 = some bs →
      fetch s = .ok (some (.roqchunk, bs))) ∧
    (∀ b t, s.phase = .huffman → nextBit s = .ok (b, t) → fetch s = .ok (some (.hbit, [if b then 1 else 0]))) ∧
    (∀ id t, s.phase = .quadrant → nextId s = .ok (id, t) → fetch s = .ok (some (.id8, [id.setWidth 8]))) ∧
    (∀ id t, s.phase = .subBlock → nextId s = .ok (id, t) → fetch s = .ok (some (.id4, [id.setWidth 8]))) ∧
    (∀ c, s.phase = .sndMono → s.pos.toNat < s.payEnd → s.inp.read s.pos.toNat = some c →
      fetch s = .ok (some (.dpcm8, [c]))) ∧
    (∀ c, s.phase = .sndStereo → s.pos.toNat < s.payEnd → (s.payOffset % 2 = 1 ∨ s.pos.toNat + 1 < s.payEnd) →
      s.inp.read s.pos.toNat = some c → fetch s = .ok (some (.dpcm8, [c])))

/-- Words that name no instruction: an undefined command code raises StateError at admission (R141, R287), a CIN command
word of 3 or more (R188) and an unknown RoQ type (R153) raise FormatError after the word; tables, planes and IN are
kept. -/
def Obligations.UndefinedWordsRaiseTheirFaults : Prop :=
  ∀ s : State, s.status.err = false →
    (∀ c : Byte, s.phase = .idle → s.cmd = some c → c ∉ ([0x01, 0x02, 0x10, 0x11, 0x12, 0x13, 0x20, 0x21] : List Byte) →
      ∃ t, step s = .next t ∧ t.errCode = 7 ∧ t.errPos = 0 ∧ t.status = s.status.fail ∧ t.phase = .idle ∧ t.cmd = none ∧
        t.root = s.root ∧ t.child = s.child ∧ t.pal = s.pal ∧ t.cell = s.cell ∧ t.quad = s.quad ∧ t.nv1 = s.nv1 ∧
        t.nv2 = s.nv2 ∧ t.pp = s.pp ∧ t.pl0 = s.pl0 ∧ t.pl1 = s.pl1 ∧ t.idx = s.idx ∧ t.rgba = s.rgba ∧ t.inp = s.inp) ∧
    (∀ b0 b1 b2 b3 : Byte, s.phase = .cinRecord → s.pos = 0 → 4 ≤ s.inLen.toNat →
      s.inp.readRun 0 4 = some [b0, b1, b2, b3] → 3 ≤ (le32 b0 b1 b2 b3).toNat →
      ∃ t, step s = .next t ∧ t.errCode = 1 ∧ t.errPos = 4 ∧ t.status = s.status.fail ∧ t.phase = .idle ∧
        t.root = s.root ∧ t.child = s.child ∧ t.pal = s.pal) ∧
    (∀ b0 b1 b2 b3 b4 b5 b6 b7 : Byte, s.phase = .roqRecord → s.pos = 0 → 8 ≤ s.inLen.toNat →
      s.inp.readRun 0 8 = some [b0, b1, b2, b3, b4, b5, b6, b7] → le16 b0 b1 ∉ s.params.types →
      ∃ t, step s = .next t ∧ t.errCode = 1 ∧ t.errPos = 8 ∧ t.status = s.status.fail ∧ t.phase = .idle ∧
        t.cell = s.cell ∧ t.quad = s.quad ∧ t.nv1 = s.nv1 ∧ t.nv2 = s.nv2 ∧ t.pp = s.pp ∧ t.pl0 = s.pl0 ∧ t.pl1 = s.pl1)

/-! ### Faults and the return from them -/

/-- Fault entry, item by item (R290), with the ERRCODE of each kind (R280), and what every fault keeps (R291); that
the cursor stays where it was is the model's (log 21). -/
def Obligations.FaultEntryReportsAndKeeps : Prop :=
  ∀ (s : State) (kind : Kind),
    let t := raiseFault s kind
    (s.status.err = false → t.errCode = kind.code ∧ t.errPos = s.pos) ∧
    (s.status.err = true → t.errCode = s.errCode ∧ t.errPos = s.errPos) ∧
    t.status = { s.status with busy := false, done := false, err := true, frame := false, audio := false } ∧
    t.consumed = 0 ∧ t.phase = .idle ∧ t.cmd = none ∧
    t.root = s.root ∧ t.child = s.child ∧ t.pal = s.pal ∧ t.cell = s.cell ∧ t.quad = s.quad ∧ t.nv1 = s.nv1 ∧
    t.nv2 = s.nv2 ∧ t.pp = s.pp ∧ t.last = s.last ∧ t.inp = s.inp ∧ t.inLen = s.inLen ∧ t.cfgWidth = s.cfgWidth ∧
    t.cfgHeight = s.cfgHeight ∧ t.pos = s.pos

/-- A fault is sticky and the first one is kept (R294): while ERR = 1 every code but RST and CLRERR, defined or not, ends
at once with DONE = 0 and nothing changed but what the start of every command clears. That R144 clears it here too is the
model's reading (log 11), and so is that a refused HUF.BUILD keeps BUILT, against R33 with R144 (log 13). -/
def Obligations.FirstFaultIsKept : Prop :=
  ∀ (s : State) (c : Byte), s.phase = .idle → s.cmd = some c → s.status.err = true → c ≠ 0x01 → c ≠ 0x02 →
    step s = .next { s with
      cmd := none, pcm := [], pcmLen := 0, consumed := 0, pos := 0
      status := { s.status with busy := false, done := false, frame := false, audio := false } }

/-- CLRERR (R143, R293): the fault registers are cleared, DONE is set, the result flags of the last command are cleared as
at the start of every command (log 10), and everything else is kept. -/
def Obligations.ClrerrKeepsTheTables : Prop :=
  ∀ s : State, exec .clrerr s = .next { s with
    cmd := none, phase := .idle, pcm := [], pcmLen := 0, consumed := 0, pos := 0, errCode := 0, errPos := 0
    status := { s.status with busy := false, done := true, err := false, frame := false, audio := false } }

/-! ### Reset -/

/-- The reset state of R320, in the values the spec gives; and what the host reads of the registers (R33, R41, R43 to R46),
in every state: STATUS bit by bit, and while BUSY = 0 the other registers. -/
def Obligations.ResetLeavesWhatTheSpecSays : Prop :=
  State.reset.status.word = 0 ∧ State.reset.cfgWidth = 0 ∧ State.reset.cfgHeight = 0 ∧ State.reset.inLen = 0 ∧
  State.reset.errCode = 0 ∧ State.reset.errPos = 0 ∧ State.reset.consumed = 0 ∧ State.reset.pcmLen = 0 ∧
  State.reset.pos = 0 ∧ State.reset.nv1 = 0 ∧ State.reset.nv2 = 0 ∧ State.reset.pp = false ∧
  (∀ c n b, (entry State.reset.child c).lookup (childKey n b) = none) ∧
  (∀ i, entry State.reset.pal i = ⟨i, i, i⟩) ∧
  State.reset.cmd = none ∧ step State.reset = .next State.reset ∧
  ∀ s : State,
    (∃ v, hostReadReg 4 s = .ok v ∧ v.toNat < 256 ∧ v.getLsbD 0 = s.status.busy ∧ v.getLsbD 1 = s.status.done ∧
      v.getLsbD 2 = s.status.err ∧ v.getLsbD 3 = s.status.frame ∧ v.getLsbD 4 = s.status.audio ∧
      v.getLsbD 5 = s.status.built ∧ v.getLsbD 6 = s.status.seeded ∧ v.getLsbD 7 = s.status.cbook) ∧
    (s.status.busy = false →
      hostReadReg 2 s = .ok s.inLen ∧ hostReadReg 5 s = .ok (s.errCode.setWidth 32) ∧ hostReadReg 6 s = .ok s.errPos ∧
      hostReadReg 7 s = .ok s.consumed ∧ hostReadReg 8 s = .ok s.pcmLen)

/-- RST (R142), from any state: every register with a reset value takes it, DONE alone is set, the tables are empty, the
palette is the grey ramp, and a second RST changes nothing. -/
def Obligations.RstRestoresTheResetState : Prop :=
  ∀ s : State, ∃ t, exec .rst s = .next t ∧
    t.status.word = 0x02 ∧ t.errCode = 0 ∧ t.errPos = 0 ∧ t.cfgWidth = 0 ∧ t.cfgHeight = 0 ∧ t.inLen = 0 ∧
    t.consumed = 0 ∧ t.pcmLen = 0 ∧ t.pos = 0 ∧ t.cmd = none ∧ t.phase = .idle ∧
    (∀ c n b, (entry t.child c).lookup (childKey n b) = none) ∧ t.nv1 = 0 ∧ t.nv2 = 0 ∧ t.pp = false ∧
    (∀ i, entry t.pal i = ⟨i, i, i⟩) ∧ t.params = s.params ∧ exec .rst t = .next t

/-! ### Host port -/

/-- Writes to CFG_WIDTH and CFG_HEIGHT (R40): the value reads back and SEEDED is cleared, even by the same value; while
BUSY the write is ignored; both are 0 at reset. -/
def Obligations.DimensionWriteClearsSeeded : Prop :=
  State.reset.cfgWidth = 0 ∧ State.reset.cfgHeight = 0 ∧ ∀ (s : State) (v : Word),
    (s.status.busy = false →
      (∃ t, writeReg 0 v s = .next t ∧ t = { s with cfgWidth := v.setWidth 16, status := { s.status with seeded := false } }
        ∧ hostReadReg 0 t = .ok ((v.setWidth 16).setWidth 32)) ∧
      (∃ t, writeReg 1 v s = .next t ∧ t = { s with cfgHeight := v.setWidth 16, status := { s.status with seeded := false } }
        ∧ hostReadReg 1 t = .ok ((v.setWidth 16).setWidth 32))) ∧
    (s.status.busy = true → writeReg 0 v s = .next s ∧ writeReg 1 v s = .next s)

/-- A write to CMD (R42, R144): while idle it makes the block busy with that code, which the next step reads; while BUSY it
is ignored; CMD reads 0. That the code waits until the next step is the model's (log 1). -/
def Obligations.CmdWriteStartsACommand : Prop :=
  ∀ (s : State) (v : Word),
    (s.status.busy = true → writeReg 3 v s = .next s) ∧
    (s.status.busy = false → s.phase = .idle →
      ∃ t, writeReg 3 v s = .next t ∧ t.status.busy = true ∧ t.status.done = false ∧
        fetch t = .ok (some (.hostcmd, [v.setWidth 8])) ∧
        t = { s with cmd := some (v.setWidth 8), status := s.status.start }) ∧
    hostReadReg 3 s = .ok 0

/-! ### Palette -/

/-- `Expand6` (R190): both formulas, the ends, and strictly increasing on 0..63. -/
def Obligations.ExpandSixReplicatesTheTopBits : Prop :=
  (∀ v : Byte, v.toNat ≤ 63 →
    expand6 v = ((v <<< 2) ||| ((v <<< 2) >>> 6)) ∧ expand6 v = ((v <<< 2) ||| (v >>> 4))) ∧
  expand6 0 = 0 ∧ expand6 63 = 255 ∧
  (∀ v w : Byte, v.toNat < w.toNat → w.toNat ≤ 63 → (expand6 v).toNat < (expand6 w).toNat)

/-- PAL.LOAD (R189): with 768 bytes it completes and every entry is expanded when all bytes are at most 63 and taken as it
is otherwise; with fewer it raises TruncatedDataError and keeps the palette. The cursor's final value is the model's
(log 12). -/
def Obligations.PalLoadDetectsSixBits : Prop :=
  ∀ s : State, s.status.err = false →
    (∀ p, 768 ≤ s.inLen.toNat → s.inp.readRun 0 768 = some p →
      ∃ t, exec .palLoad s = .next t ∧
        (∀ i : Byte,
          ((∀ v ∈ p, v.toNat ≤ 63) → entry t.pal i = ⟨expand6 (p.getD (3 * i.toNat) 0),
            expand6 (p.getD (3 * i.toNat + 1) 0), expand6 (p.getD (3 * i.toNat + 2) 0)⟩) ∧
          ((∃ v ∈ p, 63 < v.toNat) → entry t.pal i = ⟨p.getD (3 * i.toNat) 0, p.getD (3 * i.toNat + 1) 0,
            p.getD (3 * i.toNat + 2) 0⟩)) ∧
        t = { s with pal := t.pal, cmd := none, phase := .idle, pcm := [], pcmLen := 0, pos := 768, consumed := 768
                     status := s.status.start.finish }) ∧
    (s.inLen.toNat < 768 →
      ∃ t, exec .palLoad s = .next t ∧ t.errCode = 3 ∧ t.errPos = 0 ∧ t.status = s.status.fail ∧ t.pal = s.pal)

/-- PAL.DEFAULT (R191): the grey ramp, and nothing else but the bookkeeping of a command. That entry i is (i, i, i) is the
spec's own reading of "ramp". -/
def Obligations.PalDefaultLoadsTheGreyRamp : Prop :=
  ∀ s : State, s.status.err = false →
    ∃ t, exec .palDefault s = .next t ∧ (∀ i, entry t.pal i = ⟨i, i, i⟩) ∧
      t = { s with pal := t.pal, cmd := none, phase := .idle, pcm := [], pcmLen := 0, pos := 0, consumed := 0
                   status := s.status.start.finish }

/-! ### Huffman build -/

/-- `Pick` (R172): among the unused nonzero nodes below `hn` the least count, and among equal counts the least index; the
node is marked used and nothing else changes. It picks nothing exactly when there is no such node. A pass of the combining
loop (R173) ends the loop when a pick is missing; else node `hn` gets the first pick as child 0, the second as child 1 and
the sum of their counts, and `hn` moves on. The tie-break and which pick is child 0 are the spec's general knowledge, not
its source's (log 22). -/
def Obligations.PickTakesTheLowestCount : Prop :=
  ∀ b : BuildState, b.hn.toNat ≤ 512 →
    let candidate := fun i => i < b.hn.toNat ∧ b.hused.toList.getD i false = false ∧ (b.count i).toNat ≠ 0
    (pick b = none ↔ ∀ i, ¬ candidate i) ∧
    (∀ i b', pick b = some (i, b') →
      candidate i ∧
      (∀ j, candidate j → (b.count i).toNat < (b.count j).toNat ∨ ((b.count i).toNat = (b.count j).toNat ∧ i ≤ j)) ∧
      b' = { b with hused := b.hused.setIfInBounds i true }) ∧
    (∀ fuel, pick b = none → combineAll (fuel + 1) b = b) ∧
    (∀ fuel i b1, pick b = some (i, b1) → pick b1 = none → combineAll (fuel + 1) b = b1) ∧
    (∀ fuel i j b1 b2, pick b = some (i, b1) → pick b1 = some (j, b2) →
      ∃ c, combineAll (fuel + 1) b = combineAll fuel c ∧
        c.table = b.table ++ [(childKey b.hn.toNat false, BitVec.ofNat 9 i), (childKey b.hn.toNat true, BitVec.ofNat 9 j)] ∧
        (b.hn.toNat < 512 → c.count b.hn.toNat = b.count i + b.count j) ∧
        (∀ m, m ≠ b.hn.toNat → c.count m = b.count m) ∧ c.hn = b.hn + 1 ∧ c.hused = b2.hused)

/-- HUF.BUILD builds every tree (R170 to R176): with z nonzero tokens a context gets root 254 + z and z - 1 internal nodes,
or root 255 and none when z < 2; every internal node has two children of smaller index, every leaf in the tree has a
nonzero count, no node is a child twice, and no other entry is valid. With the counts of the leaves from the histogram,
an internal node's count is the sum of its children's, and its children are, in the order of Pick, the first (child 0) and
the second (child 1) of the nodes below it that have a count and no parent yet; this order and which is child 0 are the
spec's general knowledge (log 22). Nothing but trees, scratch and bookkeeping changes. With a short histogram it raises
TruncatedDataError at 0 and clears BUILT (R170, R283). The cursor's final value is the model's (log 12), and so is that
`current` is kept after the short histogram (log 27). -/
def Obligations.HufBuildMakesWholeTrees : Prop :=
  ∀ s : State, s.status.err = false →
    (s.inLen.toNat < 65536 →
      ∃ t, exec .hufBuild s = .next t ∧ t.errCode = 3 ∧ t.errPos = 0 ∧ t.status = { s.status.fail with built := false } ∧
        t.pal = s.pal ∧ t.cell = s.cell ∧ t.quad = s.quad ∧ t.nv1 = s.nv1 ∧ t.nv2 = s.nv2 ∧ t.pp = s.pp ∧ t.pl0 = s.pl0 ∧
        t.pl1 = s.pl1) ∧
    ∀ hist : List Byte, 65536 ≤ s.inLen.toNat → s.inp.readRun 0 65536 = some hist →
    ∃ t, exec .hufBuild s = .next t ∧
      (∀ c : Byte,
        let z := nonzeroTokens hist c
        let table := entry t.child c
        (entry t.root c).toNat = (if 2 ≤ z then 254 + z else 255) ∧
        table.length = 2 * (z - 1) ∧
        (table.map Prod.snd).Nodup ∧
        (∃ count : Nat → Nat, (∀ token < 256, count token = (hist.getD (c.toNat * 256 + token) 0).toNat) ∧
          ∀ n, 256 ≤ n → n < 255 + z → ∃ a b : BitVec 9, table.lookup (childKey n false) = some a ∧
            table.lookup (childKey n true) = some b ∧ a.toNat < n ∧ b.toNat < n ∧
            (a.toNat < 256 → hist.getD (c.toNat * 256 + a.toNat) 0 ≠ 0) ∧
            (b.toNat < 256 → hist.getD (c.toNat * 256 + b.toNat) 0 ≠ 0) ∧
            count n = count a.toNat + count b.toNat ∧ lighter count a.toNat b.toNat ∧
            ∀ m < n, count m ≠ 0 →
              (∀ k bit, 256 ≤ k → k < n → table.lookup (childKey k bit) ≠ some (BitVec.ofNat 9 m)) →
              m = a.toNat ∨ m = b.toNat ∨ lighter count b.toNat m) ∧
        (∀ n b, 256 ≤ n → 255 + z ≤ n → table.lookup (childKey n b) = none)) ∧
      t = { s with root := t.root, child := t.child, hcount := t.hcount, hused := t.hused, hn := t.hn
                   cmd := none, phase := .idle, pcm := [], pcmLen := 0, pos := 65536, consumed := 65536
                   status := { s.status.start.finish with built := true } }

/-! ### CIN records -/

/-- CIN.REC (R141, R145): with trees, legal dimensions and a command word it goes on to the record; without them it raises
StateError, then DimensionError, then TruncatedDataError, in that order, at 0. -/
def Obligations.CinRecIsAdmittedInOrder : Prop :=
  ∀ s : State, s.status.err = false →
    (s.status.built = true → s.cinDimsOk = true → 4 ≤ s.inLen.toNat →
      exec .cinRec s = .next { s with cmd := none, phase := .cinRecord, pcm := [], pcmLen := 0, pos := 0, consumed := 0
                                      status := s.status.start }) ∧
    (s.status.built = false → ∃ t, exec .cinRec s = .next t ∧ t.errCode = 7 ∧ t.errPos = 0 ∧ t.idx = s.idx ∧
      t.rgba = s.rgba) ∧
    (s.status.built = true → s.cinDimsOk = false → ∃ t, exec .cinRec s = .next t ∧ t.errCode = 2 ∧ t.errPos = 0 ∧
      t.idx = s.idx ∧ t.rgba = s.rgba) ∧
    (s.status.built = true → s.cinDimsOk = true → s.inLen.toNat < 4 → ∃ t, exec .cinRec s = .next t ∧ t.errCode = 3 ∧
      t.errPos = 0 ∧ t.pal = s.pal ∧ t.root = s.root ∧ t.child = s.child)

/-- CIN.VIDEO (R185, R145, R177): a good record latches its sizes and starts the frame at pixel 0 and context 0 with an
empty reservoir; palette and trees are kept. When context 0 has a tree the frame waits at its root for the first bit; when
it has none, the pixels of degenerate contexts come first. -/
def Obligations.CinVideoStartsTheFrame : Prop :=
  ∀ (s : State) (a0 a1 a2 a3 b0 b1 b2 b3 : Byte),
    let size := le32 a0 a1 a2 a3
    let entered := { s with
      recCmd := 0, chunkSize := size, decodedSize := le32 b0 b1 b2 b3, pay0 := 12, payLen := size - 4, pos := 12
      ctx := 0, bitcnt := 0, k := 0, phase := .huffman }
    s.pos = 0 → s.cinDimsOk = true → s.inp.readRun 4 4 = some [a0, a1, a2, a3] →
    s.inp.readRun 8 4 = some [b0, b1, b2, b3] → 4 < size.toNat → (le32 b0 b1 b2 b3).toNat = s.npix →
    8 + size.toNat ≤ s.inLen.toNat →
    (256 ≤ (entry s.root 0).toNat → exec .cinVideo s = .next { entered with node := entry s.root 0 }) ∧
    exec .cinVideo s = conclude (startPixels s.npix entered)

/-- CIN.PALVIDEO (R186): the 768 palette bytes are loaded first, then the record is as CIN.VIDEO's. A palette that is cut
short is left as it was. The new palette is not rolled back by the faults after it (R186, R291), in their order (R289): a
missing size field at 772 or 776; at 780 a `chunk_size` below 4, a `decoded_size` other than W * H, a payload past IN_LEN,
an empty payload. -/
def Obligations.CinPalvideoLoadsThePaletteFirst : Prop :=
  ∀ s : State, s.pos = 0 →
    (∀ (p : List Byte) (a0 a1 a2 a3 b0 b1 b2 b3 : Byte),
      let size := le32 a0 a1 a2 a3
      let entered := { s with
        pal := paletteOf p
        recCmd := 1, chunkSize := size, decodedSize := le32 b0 b1 b2 b3, pay0 := 780, payLen := size - 4, pos := 780
        ctx := 0, bitcnt := 0, k := 0, phase := .huffman }
      s.cinDimsOk = true → s.inp.readRun 4 768 = some p → s.inp.readRun 772 4 = some [a0, a1, a2, a3] →
      s.inp.readRun 776 4 = some [b0, b1, b2, b3] → 4 < size.toNat → (le32 b0 b1 b2 b3).toNat = s.npix →
      776 + size.toNat ≤ s.inLen.toNat →
      (256 ≤ (entry s.root 0).toNat → exec .cinPalvideo s = .next { entered with node := entry s.root 0 }) ∧
      exec .cinPalvideo s = conclude (startPixels s.npix entered)) ∧
    (s.status.err = false → s.inLen.toNat < 772 →
      ∃ t, exec .cinPalvideo s = .next t ∧ t.errCode = 3 ∧ t.errPos = 4 ∧ t.status = s.status.fail ∧ t.pal = s.pal) ∧
    (∀ (p : List Byte) (a0 a1 a2 a3 b0 b1 b2 b3 : Byte),
      let size := (le32 a0 a1 a2 a3).toNat
      let decoded := (le32 b0 b1 b2 b3).toNat
      let faults := fun code pos => ∃ t, exec .cinPalvideo s = .next t ∧ t.errCode = code ∧ t.errPos = pos ∧
        t.status = s.status.fail ∧ t.pal = paletteOf p ∧ t.root = s.root ∧ t.child = s.child
      s.status.err = false → 772 ≤ s.inLen.toNat → s.inp.readRun 4 768 = some p →
      (s.inLen.toNat < 776 → faults 3 772) ∧
      (776 ≤ s.inLen.toNat → s.inp.readRun 772 4 = some [a0, a1, a2, a3] →
        (s.inLen.toNat < 780 → faults 3 776) ∧
        (780 ≤ s.inLen.toNat → s.inp.readRun 776 4 = some [b0, b1, b2, b3] → s.cinDimsOk = true →
          (size < 4 → faults 4 780) ∧
          (4 ≤ size → decoded ≠ s.npix → faults 4 780) ∧
          (4 ≤ size → decoded = s.npix → s.inLen.toNat < 776 + size → faults 3 780) ∧
          (size = 4 → decoded = s.npix → faults 5 780))))

/-- CIN.RSVD (R187): FormatError, ERRPOS 4; palette, trees, codebook and planes are kept. -/
def Obligations.CinRsvdRaisesFormatError : Prop :=
  ∀ s : State, s.phase = .cinRecord → s.pos = 0 → s.status.err = false →
    ∃ t, exec .cinRsvd s = .next t ∧ t.errCode = 1 ∧ t.errPos = 4 ∧ t.status = s.status.fail ∧ t.phase = .idle ∧
      t.pal = s.pal ∧ t.root = s.root ∧ t.child = s.child ∧ t.cell = s.cell ∧ t.quad = s.quad ∧ t.nv1 = s.nv1 ∧
      t.nv2 = s.nv2 ∧ t.pp = s.pp ∧ t.pl0 = s.pl0 ∧ t.pl1 = s.pl1

/-- The faults of a plain CIN record in their order, with ERRPOS (R145, R177, R283, R284, R289): a missing size field, a
`chunk_size` below 4, a `decoded_size` other than W * H, a payload past IN_LEN, an empty payload. -/
def Obligations.CinVideoFaultsInOrder : Prop :=
  ∀ (s : State) (a0 a1 a2 a3 b0 b1 b2 b3 : Byte),
    let size := (le32 a0 a1 a2 a3).toNat
    let decoded := (le32 b0 b1 b2 b3).toNat
    let faults := fun code pos => ∃ t, exec .cinVideo s = .next t ∧ t.errCode = code ∧ t.errPos = pos ∧
      t.status = s.status.fail ∧ t.pal = s.pal ∧ t.root = s.root ∧ t.child = s.child
    s.pos = 0 → s.status.err = false → s.cinDimsOk = true →
    (s.inLen.toNat < 8 → faults 3 4) ∧
    (8 ≤ s.inLen.toNat → s.inp.readRun 4 4 = some [a0, a1, a2, a3] →
      (s.inLen.toNat < 12 → faults 3 8) ∧
      (12 ≤ s.inLen.toNat → s.inp.readRun 8 4 = some [b0, b1, b2, b3] →
        (size < 4 → faults 4 12) ∧
        (4 ≤ size → decoded ≠ s.npix → faults 4 12) ∧
        (4 ≤ size → decoded = s.npix → s.inLen.toNat < 8 + size → faults 3 12) ∧
        (size = 4 → decoded = s.npix → faults 5 12)))

/-! ### The Huffman walk -/

/-- `NextBit` (R179, R180): bit 0 of the reservoir; a byte is fetched only when none is left, and never at or beyond the
end of the payload. -/
def Obligations.BitsComeLeastSignificantFirst : Prop :=
  ∀ s : State,
    (s.bitcnt ≠ 0 → nextBit s =
      .ok (s.bitbuf.getLsbD 0, { s with bitbuf := s.bitbuf >>> 1, bitcnt := s.bitcnt - 1 })) ∧
    (∀ v, s.bitcnt = 0 → s.pos.toNat < s.payEnd → s.inp.read s.pos.toNat = some v → nextBit s =
      .ok (v.getLsbD 0, { s with bitbuf := v >>> 1, bitcnt := 7, pos := BitVec.ofNat 32 (s.pos.toNat + 1) })) ∧
    (s.bitcnt = 0 → s.payEnd ≤ s.pos.toNat → nextBit s = raise s .codecDecode)

/-- HUF.STEP0 and HUF.STEP1 inside a frame (R178, R179, R182): the bit is consumed and the child of that bit followed; at an
internal child the walk stands there; at a leaf before the last pixel the leaf is stored at IDX[k], becomes the context, and
the walk starts at that context's root, after the pixels of degenerate contexts. Nothing else changes. -/
def Obligations.HufStepFollowsTheChild : Prop :=
  ∀ (s u : State) (bit b : Bool) (i : Instr) (e : BitVec 9),
    (i, b) ∈ [(Instr.hufStep0, false), (.hufStep1, true)] → nextBit s = .ok (bit, u) → s.childOf b = some e →
    let stored := { u with idx := s.idx.write s.k.toNat (e.setWidth 8), ctx := e.setWidth 8, k := s.k + 1, node := e }
    (256 ≤ e.toNat → exec i s = .next { u with node := e }) ∧
    (e.toNat < 256 → s.cinDimsOk = true → s.k.toNat + 1 < s.npix →
      (256 ≤ (entry s.root (e.setWidth 8)).toNat →
        exec i s = .next { stored with node := entry s.root (e.setWidth 8) }) ∧
      exec i s = conclude (startPixels (s.npix - (s.k.toNat + 1)) stored)) ∧
    u = { s with bitbuf := u.bitbuf, bitcnt := u.bitcnt, pos := u.pos }

/-- The last pixel ends the frame at once (R184, R192, R147): IDX is materialized through the palette with alpha 255, the
cursor goes to the end of the record, CONSUMED is its length, FRAME and DONE are set; trees and palette are kept. That RGBA
beyond the frame is kept is the model's (log 23). -/
def Obligations.LastPixelEndsTheFrame : Prop :=
  ∀ (s u : State) (bit b : Bool) (i : Instr) (e : BitVec 9) (is : List Byte),
    (i, b) ∈ [(Instr.hufStep0, false), (.hufStep1, true)] → nextBit s = .ok (bit, u) → s.childOf b = some e → e.toNat < 256 → s.cinDimsOk = true → s.k.toNat + 1 = s.npix →
    (s.idx.write s.k.toNat (e.setWidth 8)).readRun 0 s.npix = some is →
    ∃ t, exec i s = .next t ∧
      t.idx = s.idx.write s.k.toNat (e.setWidth 8) ∧
      (∀ j v, is[j]? = some v →
        t.rgba.read (4 * j) = some (entry s.pal v).r ∧ t.rgba.read (4 * j + 1) = some (entry s.pal v).g ∧
        t.rgba.read (4 * j + 2) = some (entry s.pal v).b ∧ t.rgba.read (4 * j + 3) = some 255) ∧
      (∀ a, 4 * s.npix ≤ a → t.rgba.read a = s.rgba.read a) ∧
      t = { u with
        idx := t.idx, rgba := t.rgba, node := e, ctx := e.setWidth 8, k := s.k + 1, phase := .idle
        pos := BitVec.ofNat 32 s.payEnd, consumed := BitVec.ofNat 32 s.payEnd
        status := { s.status with busy := false, done := true, frame := true } }

/-- The faults of the walk: exhaustion at the end of the payload (R180), no child for a consumed bit (R181), a degenerate
context under `HUF_DEGENERATE = fault` (R183), for a pixel begun after a bit and for the first pixel of a frame, begun by
CIN.VIDEO or CIN.PALVIDEO. -/
def Obligations.HufStepFaults : Prop :=
  (∀ (s : State) (i : Instr) (base : Nat) (pal : Vector Rgb 256) (a0 a1 a2 a3 b0 b1 b2 b3 : Byte),
    let size := (le32 a0 a1 a2 a3).toNat
    ((i, base) = (Instr.cinVideo, 4) ∧ pal = s.pal ∨
      (i, base) = (Instr.cinPalvideo, 772) ∧ ∃ p, s.inp.readRun 4 768 = some p ∧ pal = paletteOf p) →
    s.pos = 0 → s.status.err = false → s.cinDimsOk = true →
    s.inp.readRun base 4 = some [a0, a1, a2, a3] → s.inp.readRun (base + 4) 4 = some [b0, b1, b2, b3] →
    4 < size → (le32 b0 b1 b2 b3).toNat = s.npix → base + 4 + size ≤ s.inLen.toNat →
    (entry s.root 0).toNat < 256 → s.params.hufDegenerate = .fault →
    ∃ t, exec i s = .next t ∧ t.errCode = 5 ∧ t.errPos = BitVec.ofNat 32 (base + 8) ∧ t.status = s.status.fail ∧ t.pal = pal ∧
      t.root = s.root ∧ t.child = s.child) ∧
  ∀ (s : State) (b : Bool) (i : Instr), (i, b) ∈ [(Instr.hufStep0, false), (.hufStep1, true)] →
    s.status.err = false → s.phase = .huffman →
    (s.bitcnt = 0 → s.payEnd ≤ s.pos.toNat →
      ∃ t, step s = .next t ∧ t.errCode = 5 ∧ t.errPos = s.pos ∧ t.pal = s.pal ∧ t.root = s.root ∧ t.child = s.child) ∧
    (∀ bit u, nextBit s = .ok (bit, u) → s.childOf b = none →
      ∃ t, exec i s = .next t ∧ t.errCode = 5 ∧ t.errPos = u.pos ∧ t.pal = s.pal ∧ t.root = s.root ∧
        t.child = s.child) ∧
    (∀ bit u e, nextBit s = .ok (bit, u) → s.childOf b = some e → e.toNat < 256 → s.cinDimsOk = true →
      s.k.toNat + 1 < s.npix → (entry s.root (e.setWidth 8)).toNat < 256 → s.params.hufDegenerate = .fault →
      ∃ t, exec i s = .next t ∧ t.errCode = 5 ∧ t.errPos = u.pos ∧ t.pal = s.pal)

/-- Degenerate contexts under `emit_root` (R183): a context with root 255 gives a pixel of 255 and takes no bit and no byte;
then the walk starts at the root of context 255, or, when no pixel is left or that context is degenerate too, the rest of
the frame is 255 and the frame completes. Pixels already decoded are kept. That these pixels are decoded together with the
one before them is the model's (log 14). -/
def Obligations.DegenerateContextsEmit255 : Prop :=
  ∀ (n : Nat) (s : State), s.idx.wf = true → s.cinDimsOk = true → s.params.hufDegenerate = .emitRoot →
    entry s.root s.ctx = 255 → s.k.toNat + n = s.npix →
    (1 < n → 256 ≤ (entry s.root 255).toNat →
      startPixels n s = .ok { s with
        idx := s.idx.write s.k.toNat 255, ctx := 255, k := s.k + 1, node := entry s.root 255 }) ∧
    (n = 1 ∨ entry s.root 255 = 255 → s.idx.full s.k.toNat = true →
      ∃ t, startPixels n s = .ok t ∧ t.status.frame = true ∧ t.status.done = true ∧ t.phase = .idle ∧
        t.bitbuf = s.bitbuf ∧ t.bitcnt = s.bitcnt ∧ t.consumed = BitVec.ofNat 32 s.payEnd ∧
        (∀ j < s.npix, t.idx.read j = if s.k.toNat ≤ j then some 255 else s.idx.read j) ∧
        t.root = s.root ∧ t.child = s.child ∧ t.pal = s.pal)

/-- The trees stay whole and every walk stays on a tree: no step breaks what BUILT vouches for (R170, R176). On whole trees
the "no next child" fault of R181 cannot happen. -/
def Obligations.WalksStayOnWholeTrees : Prop :=
  ∀ s : State, s.treesOk →
    (∀ t, step s = .next t → t.treesOk) ∧
    (∀ u bit b, s.phase = .huffman → nextBit s = .ok (bit, u) → u.childOf b ≠ none)

/-! ### RoQ chunks -/

/-- ROQ.CHUNK (R148): with a preamble present it goes on to it; with fewer than 8 bytes it raises TruncatedDataError at 0 and
keeps codebook and planes (R291). -/
def Obligations.RoqChunkReadsItsPreamble : Prop :=
  ∀ s : State, s.status.err = false →
    (8 ≤ s.inLen.toNat → exec .roqChunk s =
      .next { s with cmd := none, phase := .roqRecord, pcm := [], pcmLen := 0, pos := 0, consumed := 0
                     status := s.status.start }) ∧
    (s.inLen.toNat < 8 → ∃ t, exec .roqChunk s = .next t ∧ t.errCode = 3 ∧ t.errPos = 0 ∧ t.status = s.status.fail ∧
      t.cell = s.cell ∧ t.quad = s.quad ∧ t.nv1 = s.nv1 ∧ t.nv2 = s.nv2 ∧ t.pl0 = s.pl0 ∧ t.pl1 = s.pl1 ∧ t.pp = s.pp)

/-- INFO, JPEG and HANG (R152): the payload is skipped and no decoder state changes. -/
def Obligations.SkippedChunksChangeNothing : Prop :=
  ∀ (s : State) (size : Word) (arg : Half) (i : Instr) (type : Half),
    (i, type) ∈ [(Instr.roqInfo size arg, s.params.typeInfo), (.roqJpeg size arg, s.params.typeJpeg),
      (.roqHang size arg, s.params.typeHang)] →
    8 + size.toNat ≤ s.inLen.toNat →
    exec i s = .next { s with
      recType := type, recSize := size, recArg := arg, pay0 := 8, payLen := size, phase := .idle
      pos := BitVec.ofNat 32 (8 + size.toNat), consumed := BitVec.ofNat 32 (8 + size.toNat)
      status := { s.status with busy := false, done := true } }

/-- A chunk of any type whose payload runs past IN_LEN raises TruncatedDataError at 8, without wrap, and keeps codebook,
planes, palette, trees and flags (R148, R291). That IDX and RGBA are kept too is the model's choice (log 27). -/
def Obligations.TruncatedChunksKeepEverything : Prop :=
  ∀ (s : State) (size : Word) (arg : Half) (i : Instr),
    i ∈ [Instr.roqInfo size arg, .roqCodebook size arg, .roqVq size arg, .roqJpeg size arg, .roqHang size arg,
      .roqSndMono size arg, .roqSndStereo size arg] →
    s.phase = .roqRecord → s.status.err = false → s.inLen.toNat < 8 + size.toNat →
    ∃ t, exec i s = .next t ∧ t.errCode = 3 ∧ t.errPos = 8 ∧ t.status = s.status.fail ∧ t.consumed = 0 ∧
      t.cell = s.cell ∧ t.quad = s.quad ∧ t.nv1 = s.nv1 ∧ t.nv2 = s.nv2 ∧ t.pp = s.pp ∧ t.pl0 = s.pl0 ∧ t.pl1 = s.pl1 ∧
      t.pal = s.pal ∧ t.root = s.root ∧ t.child = s.child ∧ t.idx = s.idx ∧ t.rgba = s.rgba

/-- The counts of a codebook chunk (R109). -/
def Obligations.CodebookCountsFollowTheArgument : Prop :=
  ∀ (arg : Half) (size : Nat),
    (arg.toNat / 256 = 0 → cellCount arg = 256) ∧
    (arg.toNat / 256 ≠ 0 → cellCount arg = arg.toNat / 256) ∧
    (arg.toNat % 256 ≠ 0 → quadCount arg size = arg.toNat % 256) ∧
    (arg.toNat % 256 = 0 → cellCount arg * 6 + 256 * 4 ≤ size → quadCount arg size = 256) ∧
    (arg.toNat % 256 = 0 → size < cellCount arg * 6 + 256 * 4 → quadCount arg size = 0)

/-- ROQ.CODEBOOK (R210 to R214): with enough payload both tables are replaced at once by the payload's entries, CBOOK and
DONE are set, and planes, `pp`, palette and trees are kept; with too little it raises TruncatedDataError at 8 and keeps the
old codebook. -/
def Obligations.CodebookIsReplacedWhole : Prop :=
  ∀ (s : State) (size : Word) (arg : Half),
    let n1 := cellCount arg
    let n2 := quadCount arg size.toNat
    8 + size.toNat ≤ s.inLen.toNat →
    (∀ bs, n1 * 6 + n2 * 4 ≤ size.toNat → s.inp.readRun 8 (n1 * 6 + n2 * 4) = some bs →
      ∃ t, exec (.roqCodebook size arg) s = .next t ∧ t.nv1 = n1 ∧ t.nv2 = n2 ∧
        (∀ i : Byte, i.toNat < n1 → entry t.cell i =
          ⟨bs.getD (6 * i.toNat) 0, bs.getD (6 * i.toNat + 1) 0, bs.getD (6 * i.toNat + 2) 0,
            bs.getD (6 * i.toNat + 3) 0, bs.getD (6 * i.toNat + 4) 0, bs.getD (6 * i.toNat + 5) 0⟩) ∧
        (∀ j : Byte, j.toNat < n2 → entry t.quad j =
          ⟨bs.getD (6 * n1 + 4 * j.toNat) 0, bs.getD (6 * n1 + 4 * j.toNat + 1) 0,
            bs.getD (6 * n1 + 4 * j.toNat + 2) 0, bs.getD (6 * n1 + 4 * j.toNat + 3) 0⟩) ∧
        t = { s with
          cell := t.cell, quad := t.quad, nv1 := n1, nv2 := n2
          recType := s.params.typeCodebook, recSize := size, recArg := arg, pay0 := 8, payLen := size, phase := .idle
          pos := BitVec.ofNat 32 (8 + size.toNat), consumed := BitVec.ofNat 32 (8 + size.toNat)
          status := { s.status with busy := false, done := true, cbook := true } }) ∧
    (size.toNat < n1 * 6 + n2 * 4 → s.status.err = false → s.phase = .roqRecord →
      ∃ t, exec (.roqCodebook size arg) s = .next t ∧ t.errCode = 3 ∧ t.errPos = 8 ∧ t.status = s.status.fail ∧
        t.cell = s.cell ∧ t.quad = s.quad ∧ t.nv1 = s.nv1 ∧ t.nv2 = s.nv2)

/-! ### The VQ unit -/

/-- VQ.SEED (R154): elements 0 .. W*H - 1 of `last` become (0, 128, 128) and SEEDED is set; `current`, `pp` and the tables
are kept. With illegal dimensions it raises DimensionError at 0 and the planes are kept. That elements of `last` beyond the
frame are kept is the model's (log 23). -/
def Obligations.VqSeedBlackensLast : Prop :=
  ∀ s : State, s.status.err = false →
    (s.roqDimsOk = true →
      ∃ t, exec .vqSeed s = .next t ∧
        (∀ a < s.npix, t.last.y.read a = some 0 ∧ t.last.u.read a = some 128 ∧ t.last.v.read a = some 128) ∧
        (∀ a, s.npix ≤ a → t.last.y.read a = s.last.y.read a ∧ t.last.u.read a = s.last.u.read a ∧
          t.last.v.read a = s.last.v.read a) ∧
        t.current = s.current ∧
        t = { s with pl0 := t.pl0, pl1 := t.pl1, cmd := none, phase := .idle, pcm := [], pcmLen := 0, pos := 0
                     consumed := 0, status := { s.status.start.finish with seeded := true } }) ∧
    (s.roqDimsOk = false →
      ∃ t, exec .vqSeed s = .next t ∧ t.errCode = 2 ∧ t.errPos = 0 ∧ t.status = s.status.fail ∧ t.pl0 = s.pl0 ∧
        t.pl1 = s.pl1)

/-- ROQ.VQ (R215, R149): the frame starts as a copy of `last`, with the bias of the argument and no id in hand, at the first
quadrant; illegal dimensions raise DimensionError and unseeded planes StateError, at 8, and keep planes and codebook. That
elements of `current` beyond the frame are kept is the model's (log 23). -/
def Obligations.VqFrameStartsAsACopyOfLast : Prop :=
  ∀ (s : State) (size : Word) (arg : Half), 8 + size.toNat ≤ s.inLen.toNat →
    (s.roqDimsOk = true → s.status.seeded = true → s.last.full s.npix = true → s.canonical = true →
      ∃ t, exec (.roqVq size arg) s = .next t ∧
        (∀ a < s.npix, t.current.y.read a = s.last.y.read a ∧ t.current.u.read a = s.last.u.read a ∧
          t.current.v.read a = s.last.v.read a) ∧
        (∀ a, s.npix ≤ a → t.current.y.read a = s.current.y.read a ∧ t.current.u.read a = s.current.u.read a ∧
          t.current.v.read a = s.current.v.read a) ∧
        t.last = s.last ∧
        t = { s with
          pl0 := t.pl0, pl1 := t.pl1
          recType := s.params.typeVq, recSize := size, recArg := arg, pay0 := 8, payLen := size, pos := 8
          biasX := arg.extractLsb' 8 8, biasY := arg.extractLsb' 0 8
          flagN := 0, mbx := 0, mby := 0, q := 0, phase := .quadrant }) ∧
    (s.status.err = false → s.phase = .roqRecord → s.roqDimsOk = false →
      ∃ t, exec (.roqVq size arg) s = .next t ∧ t.errCode = 2 ∧ t.errPos = 8 ∧ t.pl0 = s.pl0 ∧ t.pl1 = s.pl1 ∧
        t.pp = s.pp ∧ t.cell = s.cell ∧ t.quad = s.quad ∧ t.nv1 = s.nv1 ∧ t.nv2 = s.nv2) ∧
    (s.status.err = false → s.phase = .roqRecord → s.roqDimsOk = true → s.status.seeded = false →
      ∃ t, exec (.roqVq size arg) s = .next t ∧ t.errCode = 7 ∧ t.errPos = 8 ∧ t.pl0 = s.pl0 ∧ t.pl1 = s.pl1 ∧
        t.pp = s.pp ∧ t.cell = s.cell ∧ t.quad = s.quad ∧ t.nv1 = s.nv1 ∧ t.nv2 = s.nv2)

/-- The shared id stream (R218): ids come from the flag word in `VQ_ID_ORDER`; a word is fetched, low byte first, only when
none is left. -/
def Obligations.IdsComeFromTheFlagWord : Prop :=
  ∀ s : State,
    (s.flagN ≠ 0 → s.params.idOrder = .msbFirst → nextId s =
      .ok (s.flag.extractLsb' 14 2, { s with flag := s.flag <<< 2, flagN := s.flagN - 1 })) ∧
    (s.flagN ≠ 0 → s.params.idOrder = .lsbFirst → nextId s =
      .ok (s.flag.extractLsb' 0 2, { s with flag := s.flag >>> 2, flagN := s.flagN - 1 })) ∧
    (∀ lo hi, s.flagN = 0 → s.payEnd < 2 ^ 32 → s.pos.toNat + 2 ≤ s.payEnd → s.inp.read s.pos.toNat = some lo →
      s.inp.read (s.pos.toNat + 1) = some hi → nextId s =
        nextId { s with flag := hi ++ lo, flagN := 8, pos := BitVec.ofNat 32 (s.pos.toNat + 2) }) ∧
    (s.flagN = 0 → s.payEnd ≤ s.pos.toNat → nextId s = raise s .codecDecode) ∧
    (∀ lo, s.flagN = 0 → s.payEnd < 2 ^ 32 → s.pos.toNat + 1 = s.payEnd → s.inp.read s.pos.toNat = some lo →
      nextId s = raise { s with pos := BitVec.ofNat 32 s.payEnd } .codecDecode)

/-- The motion vector (R225, R114): `8 - nibble - bias`, the high nibble x (the spec's own reading); -7..8 with
bias 0, -134..136 in general. -/
def Obligations.MotionVectorIsEightLessNibbleLessBias : Prop :=
  ∀ biasX biasY b : Byte,
    (motionVector biasX biasY b).1 = 8 - ((b.toNat / 16 : Nat) : Int) - biasX.toInt ∧
    (motionVector biasX biasY b).2 = 8 - ((b.toNat % 16 : Nat) : Int) - biasY.toInt ∧
    -134 ≤ (motionVector biasX biasY b).1 ∧ (motionVector biasX biasY b).1 ≤ 136 ∧
    -134 ≤ (motionVector biasX biasY b).2 ∧ (motionVector biasX biasY b).2 ≤ 136 ∧
    -7 ≤ (motionVector 0 0 b).1 ∧ (motionVector 0 0 b).1 ≤ 8 ∧ -7 ≤ (motionVector 0 0 b).2 ∧ (motionVector 0 0 b).2 ≤ 8

/-- The scan (R216, R217): from any quadrant but the last the next one is the one after it, top-left, top-right,
bottom-left, bottom-right within a macroblock, macroblocks in raster order; only the scan position moves. Where a quadrant
and a sub-block lie is given by the formulas of R216 and R217 and, for the quadrant reached, by its number. The order
within a macroblock and within a quadrant is the spec's general knowledge (log 22). -/
def Obligations.ScanVisitsQuadrantsInOrder : Prop :=
  ∀ s : State,
    (s.x8 = s.mbx * 16 + s.q % 2 * 8 ∧ s.y8 = s.mby * 16 + s.q / 2 * 8 ∧
      s.x4 = s.mbx * 16 + s.q % 2 * 8 + s.sb % 2 * 4 ∧ s.y4 = s.mby * 16 + s.q / 2 * 8 + s.sb / 2 * 4) ∧
    (s.q ≤ 3 → s.mbx < s.width / 16 → s.mby < s.height / 16 → s.quadrantIndex + 1 < s.quadrants →
      ∃ t, nextQuadrant s = .ok t ∧ t.quadrantIndex = s.quadrantIndex + 1 ∧
        t.q ≤ 3 ∧ t.mbx < s.width / 16 ∧ t.mby < s.height / 16 ∧
        t.x8 = t.quadrantIndex / 4 % (s.width / 16) * 16 + t.quadrantIndex % 2 * 8 ∧
        t.y8 = t.quadrantIndex / 4 / (s.width / 16) * 16 + t.quadrantIndex / 2 % 2 * 8 ∧
        t = { s with q := t.q, mbx := t.mbx, mby := t.mby, phase := .quadrant })

/-- The end of a VQ chunk (R237 to R239, R151): the last quadrant ends the frame at once; every pixel of `current` goes
through CSC with alpha 255; the swap makes `current` the new `last`; CONSUMED, FRAME and DONE are set. That RGBA beyond
the frame is kept is the model's (log 23). -/
def Obligations.LastQuadrantMaterializesAndSwaps : Prop :=
  ∀ s : State, s.q = 3 → s.mbx + 1 = s.width / 16 → s.mby + 1 = s.height / 16 → s.canonical = true →
    s.current.full s.npix = true →
    ∃ t, nextQuadrant s = .ok t ∧ t.last = s.current ∧ t.current = s.last ∧
      (∀ a < s.npix, ∀ y u v, s.current.y.read a = some y → s.current.u.read a = some u → s.current.v.read a = some v →
        t.rgba.read (4 * a) = some (clamp255 (y.toNat + Config.tV2R v)) ∧
        t.rgba.read (4 * a + 1) = some (clamp255 (y.toNat - Config.tU2G u - Config.tV2G v)) ∧
        t.rgba.read (4 * a + 2) = some (clamp255 (y.toNat + Config.tU2B u)) ∧
        t.rgba.read (4 * a + 3) = some 255) ∧
      (∀ a, 4 * s.npix ≤ a → t.rgba.read a = s.rgba.read a) ∧
      t = { s with rgba := t.rgba, pp := !s.pp, phase := .idle
                   pos := BitVec.ofNat 32 s.payEnd, consumed := BitVec.ofNat 32 s.payEnd
                   status := { s.status with busy := false, done := true, frame := true } }

/-- MOT8, MOT4 and CCC8 (R220, R228, R224): an id is taken, no byte is read, no plane is written. MOT8 goes to the next
quadrant, MOT4 to the next sub-block, after the fourth to the next quadrant, CCC8 to its first sub-block. -/
def Obligations.SkipAndSubdivideWriteNothing : Prop :=
  ∀ (s u : State) (id : BitVec 2), nextId s = .ok (id, u) →
    exec .ccc8 s = .next { u with sb := 0, phase := .subBlock } ∧
    (s.sb < 3 → exec .mot4 s = .next { u with sb := s.sb + 1, phase := .subBlock }) ∧
    (s.q < 3 → exec .mot8 s = .next { u with q := s.q + 1, phase := .quadrant }) ∧
    (s.canonical = true → s.current.full s.npix = true →
      ∃ t, nextQuadrant u = .ok t ∧ exec .mot8 s = .next t ∧ (3 ≤ s.sb → exec .mot4 s = .next t)) ∧
    u = { s with flag := u.flag, flagN := u.flagN, pos := u.pos }

/-- FCC8 and FCC4 (R221, R229, R226): with the source block inside the frame, the block of all three planes of `current`
becomes the displaced block of `last`; nothing else of `current` and nothing of `last` changes; the scan goes on. -/
def Obligations.MotionCopyComesFromLast : Prop :=
  ∀ (s u : State) (id : BitVec 2) (b : Byte) (n x y sx sy : Nat) (i : Instr) (resume : State → Run State),
    (i, n, x, y, resume) ∈ [(Instr.fcc8, 8, s.x8, s.y8, nextQuadrant), (.fcc4, 4, s.x4, s.y4, nextSubBlock)] →
    nextId s = .ok (id, u) → u.pos.toNat < s.payEnd → s.inp.read u.pos.toNat = some b →
    (sx : Int) = x + (motionVector s.biasX s.biasY b).1 → (sy : Int) = y + (motionVector s.biasX s.biasY b).2 →
    sx + n ≤ s.width → sy + n ≤ s.height → x + n ≤ s.width → y + n ≤ s.height →
    s.canonical = true → s.last.full s.npix = true → s.current.full s.npix = true →
    ∃ v t, exec i s = .next t ∧ resume v = .ok t ∧
      copied s.width n sx sy x y s.last.y s.current.y v.current.y ∧
      copied s.width n sx sy x y s.last.u s.current.u v.current.u ∧
      copied s.width n sx sy x y s.last.v s.current.v v.current.v ∧
      v.last = s.last ∧
      v = { u with pl0 := v.pl0, pl1 := v.pl1, pos := BitVec.ofNat 32 (u.pos.toNat + 1) }

/-- SLD8 and SLD4 (R223, R230, R232 to R235): with a loaded quad of loaded cells, the block of `current` shows the four
cells top-left, top-right, bottom-left, bottom-right; in each cell y0 is the upper left luma square of `scale` pixels, y1
the upper right, y2 the lower left, y3 the lower right, and U and V are flat; nothing
else of `current` and nothing of `last` changes; the scan goes on. The order of cells and of luma samples is the spec's
general knowledge (log 22). -/
def Obligations.QuadIsStamped : Prop :=
  ∀ (s u : State) (id : BitVec 2) (j : Byte) (scale x y : Nat) (i : Instr) (resume : State → Run State),
    let e := entry s.quad j
    let c := fun px py => entry s.cell (e.cellAt scale px py)
    let luma := fun px py =>
      if py % (2 * scale) < scale then (if px % (2 * scale) < scale then (c px py).y0 else (c px py).y1)
      else (if px % (2 * scale) < scale then (c px py).y2 else (c px py).y3)
    (i, scale, x, y, resume) ∈ [(Instr.sld8, 2, s.x8, s.y8, nextQuadrant), (.sld4, 1, s.x4, s.y4, nextSubBlock)] →
    nextId s = .ok (id, u) → u.pos.toNat < s.payEnd → s.inp.read u.pos.toNat = some j →
    j.toNat < s.nv2 → e.i0.toNat < s.nv1 → e.i1.toNat < s.nv1 → e.i2.toNat < s.nv1 → e.i3.toNat < s.nv1 →
    x + 4 * scale ≤ s.width → y + 4 * scale ≤ s.height → s.canonical = true → s.current.full s.npix = true →
    ∃ v t, exec i s = .next t ∧ resume v = .ok t ∧
      stamped s.width (4 * scale) x y luma s.current.y v.current.y ∧
      stamped s.width (4 * scale) x y (fun px py => (c px py).u) s.current.u v.current.u ∧
      stamped s.width (4 * scale) x y (fun px py => (c px py).v) s.current.v v.current.v ∧
      v.last = s.last ∧
      v = { u with pl0 := v.pl0, pl1 := v.pl1, pos := BitVec.ofNat 32 (u.pos.toNat + 1) }

/-- CCC4 (R231, R232): with four loaded cell indices, the 4x4 block of `current` shows the four cells, in each y0 upper
left, y1 upper right, y2 lower left, y3 lower right; nothing else of `current` and nothing of `last` changes; the scan goes
on. The order of cells and of luma samples is the spec's general
knowledge (log 22). -/
def Obligations.FourCellsAreStamped : Prop :=
  ∀ (s u : State) (id : BitVec 2) (c0 c1 c2 c3 : Byte),
    let c := fun px py => entry s.cell ((CbQuad.mk c0 c1 c2 c3).cellAt 1 px py)
    let luma := fun px py =>
      if py % 2 = 0 then (if px % 2 = 0 then (c px py).y0 else (c px py).y1)
      else (if px % 2 = 0 then (c px py).y2 else (c px py).y3)
    nextId s = .ok (id, u) → s.payEnd < 2 ^ 32 → u.pos.toNat + 4 ≤ s.payEnd →
    s.inp.readRun u.pos.toNat 4 = some [c0, c1, c2, c3] →
    c0.toNat < s.nv1 → c1.toNat < s.nv1 → c2.toNat < s.nv1 → c3.toNat < s.nv1 →
    s.x4 + 4 ≤ s.width → s.y4 + 4 ≤ s.height → s.canonical = true → s.current.full s.npix = true →
    ∃ v t, exec .ccc4 s = .next t ∧ nextSubBlock v = .ok t ∧
      stamped s.width 4 s.x4 s.y4 luma s.current.y v.current.y ∧
      stamped s.width 4 s.x4 s.y4 (fun px py => (c px py).u) s.current.u v.current.u ∧
      stamped s.width 4 s.x4 s.y4 (fun px py => (c px py).v) s.current.v v.current.v ∧
      v.last = s.last ∧
      v = { u with pl0 := v.pl0, pl1 := v.pl1, cc := 3, pos := BitVec.ofNat 32 (u.pos.toNat + 4) }

/-- The operands a vector code refuses (R222, R227, R236): a missing byte, a motion source outside the frame, a quad or a
cell that is not loaded; CodecDecodeError, ERRPOS at the missing byte or after the bad one. In a CCC4 the cells before the
bad one were loaded. -/
def Obligations.BadVectorOperandsFault : Prop :=
  ∀ (s u : State) (id : BitVec 2), s.status.err = false → nextId s = .ok (id, u) →
    let faults := fun (i : Instr) (pos : Word) => ∃ t, exec i s = .next t ∧ t.errCode = 5 ∧ t.errPos = pos ∧
      t.status = s.status.fail ∧ t.phase = .idle
    (s.payEnd ≤ u.pos.toNat → ∀ i ∈ [Instr.fcc8, .fcc4, .sld8, .sld4, .ccc4], faults i u.pos) ∧
    (∀ b : Byte, u.pos.toNat < s.payEnd → s.inp.read u.pos.toNat = some b →
      let after := BitVec.ofNat 32 (u.pos.toNat + 1)
      let outside := fun (n x y : Nat) =>
        (x : Int) + (motionVector s.biasX s.biasY b).1 < 0 ∨ (y : Int) + (motionVector s.biasX s.biasY b).2 < 0 ∨
        (s.width : Int) < x + (motionVector s.biasX s.biasY b).1 + n ∨
        (s.height : Int) < y + (motionVector s.biasX s.biasY b).2 + n
      (outside 8 s.x8 s.y8 → faults .fcc8 after) ∧ (outside 4 s.x4 s.y4 → faults .fcc4 after) ∧
      (s.nv2 ≤ b.toNat → faults .sld8 after ∧ faults .sld4 after) ∧
      (b.toNat < s.nv2 → (∃ m ∈ [(entry s.quad b).i0, (entry s.quad b).i1, (entry s.quad b).i2, (entry s.quad b).i3],
        s.nv1 ≤ m.toNat) → faults .sld8 after ∧ faults .sld4 after)) ∧
    (∀ cells : List Byte, cells.length < 4 → s.payEnd < 2 ^ 32 → u.pos.toNat + cells.length ≤ s.payEnd →
      (∀ r c, cells[r]? = some c → s.inp.read (u.pos.toNat + r) = some c ∧ c.toNat < s.nv1) →
      (u.pos.toNat + cells.length = s.payEnd → faults .ccc4 (BitVec.ofNat 32 s.payEnd)) ∧
      (∀ bad, u.pos.toNat + cells.length < s.payEnd → s.inp.read (u.pos.toNat + cells.length) = some bad →
        s.nv1 ≤ bad.toNat → faults .ccc4 (BitVec.ofNat 32 (u.pos.toNat + cells.length + 1))))

/-- A VQ chunk that faults (R240): whichever code faults and why, `pp`, every element of `last`, the codebook and the other
flags are kept, FRAME stays 0 and the kind is CodecDecodeError. -/
def Obligations.FaultedVqChunkKeepsLast : Prop :=
  ∀ (i : Instr) (s t : State), i.format ∈ [Format.id8, Format.id4] → s.phase ∈ [Phase.quadrant, Phase.subBlock] →
    s.status.err = false → exec i s = .next t → t.status.err = true →
    t.errCode = 5 ∧ t.pp = s.pp ∧ t.last = s.last ∧ t.cell = s.cell ∧ t.quad = s.quad ∧ t.nv1 = s.nv1 ∧ t.nv2 = s.nv2 ∧
      t.status = s.status.fail

/-! ### Sound -/

/-- The delta table (R53): squares, negative from 128 on, and 0 at 0 and 128. A predictor advances by it modulo 65,536,
without saturation (R260, R268). -/
def Obligations.DeltaIsASignedSquareAndPredictorsWrap : Prop :=
  (∀ c : Byte, c.toNat ≤ 127 → delta c = c.toNat * c.toNat) ∧
  (∀ c : Byte, 128 ≤ c.toNat → delta c = -((c.toNat - 128) * (c.toNat - 128))) ∧
  (∀ c : Byte, -16129 ≤ delta c ∧ delta c ≤ 16129) ∧ delta 0 = 0 ∧ delta 128 = 0 ∧
  (∀ (p : Half) (c : Byte), ((advancePredictor p (delta c)).toNat : Int) = ((p.toNat : Int) + delta c) % 65536) ∧
  advancePredictor 0x7FFF (delta 1) = 0x8000 ∧ advancePredictor 0x8000 (delta 129) = 0x7FFF ∧
  advancePredictor 0xFFFF (delta 1) = 0

/-- A sound chunk starts (R262, R264): mono seeds `pred_l` with the whole argument, stereo seeds both predictors with its
bytes in the top byte; with a payload the chunk waits for its first code, with none it completes with PCM_LEN 0; nothing
else changes. That a mono chunk leaves `pred_r` alone is the model's reading of R261 and
R262, against the words of 43 R269 and 10 R29 that both predictors are seeded (log 28). -/
def Obligations.SoundChunkSeedsItsPredictors : Prop :=
  ∀ (s : State) (size : Word) (arg : Half), 8 + size.toNat ≤ s.inLen.toNat →
    let mono := { s with recType := s.params.typeSndMono, recSize := size, recArg := arg, pay0 := 8, payLen := size
                         pos := 8, predL := arg }
    let stereo := { s with recType := s.params.typeSndStereo, recSize := size, recArg := arg, pay0 := 8, payLen := size
                           pos := 8, predL := BitVec.ofNat 16 (arg.toNat / 256 * 256)
                           predR := BitVec.ofNat 16 (arg.toNat % 256 * 256) }
    let ended := fun (t : State) => { t with
      phase := .idle, consumed := 8, pcmLen := 0, status := { s.status with busy := false, done := true, audio := true } }
    (size ≠ 0 → exec (.roqSndMono size arg) s = .next { mono with phase := .sndMono } ∧
      exec (.roqSndStereo size arg) s = .next { stereo with phase := .sndStereo }) ∧
    (size = 0 → exec (.roqSndMono size arg) s = .next (ended mono) ∧
      exec (.roqSndStereo size arg) s = .next (ended stereo))

/-- DPCM.POS and DPCM.NEG inside a chunk (R260, R263, R265): the predictor whose turn it is advances by plus or minus m * m,
its value goes to PCM low byte first at twice the code's offset, the cursor moves by one, and nothing else changes; the last
code of the payload also ends the chunk. That a code is a step, and PCM is written code by code, are the model's
(log 15). -/
def Obligations.DpcmCodeAdvancesOnePredictor : Prop :=
  ∀ (s : State) (m : BitVec 7) (i : Instr) (d : Int),
    (i, d) ∈ [(Instr.dpcmPos m, (m.toNat * m.toNat : Int)), (.dpcmNeg m, -(m.toNat * m.toNat : Int))] →
    s.payEnd < 2 ^ 32 → s.payLen.toNat < 2 ^ 31 → s.pay0.toNat ≤ s.pos.toNat → s.pos.toNat < s.payEnd →
    let n := s.pos.toNat - s.pay0.toNat
    let right := s.phase = .sndStereo ∧ n % 2 = 1
    let emitted := fun (p : Half) =>
      (s.pcm.write (2 * n) (p.extractLsb' 0 8)).write (2 * n + 1) (p.extractLsb' 8 8)
    let ended := fun (t : State) => { t with
      phase := .idle, consumed := BitVec.ofNat 32 s.payEnd, pcmLen := BitVec.ofNat 32 (2 * s.payLen.toNat)
      status := { s.status with busy := false, done := true, audio := true } }
    let l := advancePredictor s.predL d
    let r := advancePredictor s.predR d
    let afterL := { s with predL := l, pcm := emitted l, pos := BitVec.ofNat 32 (s.pos.toNat + 1) }
    let afterR := { s with predR := r, pcm := emitted r, pos := BitVec.ofNat 32 (s.pos.toNat + 1) }
    (s.phase ≠ .sndStereo → s.pos.toNat + 1 < s.payEnd → exec i s = .next afterL) ∧
    (s.phase ≠ .sndStereo → s.pos.toNat + 1 = s.payEnd → exec i s = .next (ended afterL)) ∧
    (s.phase = .sndStereo → ¬ right → exec i s = .next afterL) ∧
    (right → s.pos.toNat + 1 < s.payEnd → exec i s = .next afterR) ∧
    (right → s.pos.toNat + 1 = s.payEnd → exec i s = .next (ended afterR))

/-- A whole mono chunk (R261 to R263, R266): one step per payload byte decodes any payload to its samples, and the block is
idle with AUDIO, DONE and PCM_LEN twice the payload length. The step per byte is the model's (log 15). -/
def Obligations.MonoChunkDecodesItsPayload : Prop :=
  ∀ (s : State) (size : Word) (arg : Half) (payload : List Byte),
    s.canonical = true → s.pcm = [] → size.toNat < 2 ^ 31 → 8 + size.toNat ≤ s.inLen.toNat →
    s.inp.readRun 8 size.toNat = some payload →
    ∃ t1 t, exec (.roqSndMono size arg) s = .next t1 ∧ Host.Core.run core size.toNat t1 = .next t ∧
      t.phase = .idle ∧ t.status = { s.status with busy := false, done := true, audio := true } ∧
      t.pcmLen = BitVec.ofNat 32 (2 * size.toNat) ∧ t.consumed = BitVec.ofNat 32 (8 + size.toNat) ∧
      t.pcm = Memory.layout 0 (monoSamples arg payload) ∧
      t.root = s.root ∧ t.child = s.child ∧ t.pal = s.pal ∧ t.cell = s.cell ∧ t.quad = s.quad ∧ t.nv1 = s.nv1 ∧
      t.nv2 = s.nv2 ∧ t.pp = s.pp ∧ t.pl0 = s.pl0 ∧ t.pl1 = s.pl1 ∧ t.idx = s.idx ∧ t.rgba = s.rgba

/-- A whole stereo chunk (R264 to R267): an even payload decodes to its interleaved samples; an odd one, after all its
complete pairs, raises CodecDecodeError with ERRPOS at the unpaired byte. The step per byte is the model's (log 15). -/
def Obligations.StereoChunkDecodesItsPairs : Prop :=
  ∀ (s : State) (size : Word) (arg : Half) (payload : List Byte),
    s.canonical = true → s.status.err = false → s.pcm = [] → size.toNat < 2 ^ 31 → 8 + size.toNat ≤ s.inLen.toNat →
    s.inp.readRun 8 size.toNat = some payload →
    ∃ t1 t, exec (.roqSndStereo size arg) s = .next t1 ∧ Host.Core.run core size.toNat t1 = .next t ∧ t.phase = .idle ∧
      (size.toNat % 2 = 0 →
        t.status = { s.status with busy := false, done := true, audio := true } ∧
        t.pcmLen = BitVec.ofNat 32 (2 * size.toNat) ∧
        t.pcm = Memory.layout 0 (stereoSamples (stereoSeedL arg) (stereoSeedR arg) payload)) ∧
      (size.toNat % 2 = 1 →
        t.status = s.status.fail ∧ t.errCode = 5 ∧ t.errPos = BitVec.ofNat 32 (8 + size.toNat - 1))

/-! ### Whole-machine rules -/

/-- Only HUF.BUILD and RST change the trees (R170), only ROQ.CODEBOOK and RST the codebook (R52), only PAL.LOAD,
PAL.DEFAULT, CIN.PALVIDEO and RST the palette (R49). No instruction writes IN, a configuration register, IN_LEN or a
parameter; RST alone clears the first three (20 R70, 10 R40, R41, 00 R8). -/
def Obligations.TablesAndInputsHaveFewWriters : Prop :=
  ∀ (i : Instr) (s t : State), exec i s = .next t →
    (i ∉ [Instr.hufBuild, .rst] → t.root = s.root ∧ t.child = s.child) ∧
    ((∀ size arg, i ≠ .roqCodebook size arg) → i ≠ .rst →
      t.cell = s.cell ∧ t.quad = s.quad ∧ t.nv1 = s.nv1 ∧ t.nv2 = s.nv2) ∧
    (i ∉ [Instr.palLoad, .palDefault, .cinPalvideo, .rst] → t.pal = s.pal) ∧
    t.params = s.params ∧
    (i ≠ .rst → t.inp = s.inp ∧ t.inLen = s.inLen ∧ t.cfgWidth = s.cfgWidth ∧ t.cfgHeight = s.cfgHeight)

/-- Who sets and who clears the lasting flags (R33): ERR is cleared by CLRERR and RST only; BUILT is set by HUF.BUILD only
and cleared by HUF.BUILD and RST only; SEEDED is set by VQ.SEED only and cleared by RST only; CBOOK is set by ROQ.CODEBOOK
only and cleared by RST only. -/
def Obligations.LastingFlagsHaveTheirOwners : Prop :=
  ∀ (i : Instr) (s t : State), exec i s = .next t → i ≠ .rst →
    (i ≠ .clrerr → s.status.err = true → t.status.err = true) ∧
    (i ≠ .hufBuild → t.status.built = s.status.built) ∧
    (i ≠ .vqSeed → t.status.seeded = s.status.seeded) ∧ (s.status.seeded = true → t.status.seeded = true) ∧
    ((∀ size arg, i ≠ .roqCodebook size arg) → t.status.cbook = s.status.cbook) ∧
    (s.status.cbook = true → t.status.cbook = true)

/-- `last` changes only by VQ.SEED, RST and the swap that ends a VQ frame (R239 to R241): every other instruction keeps `pp`
and `last`; the swap turns `pp`, sets FRAME, and the old `last` is what the next frame overwrites. -/
def Obligations.LastChangesOnlyBySeedAndSwap : Prop :=
  ∀ (i : Instr) (s t : State), exec i s = .next t → i ∉ [Instr.rst, .vqSeed] →
    (t.pp = s.pp ∧ t.last = s.last) ∨
    (t.pp = !s.pp ∧ t.current = s.last ∧ t.status.frame = true ∧ t.status.done = true ∧ i.format ∈ [Format.id8, Format.id4])

/-- The decoded indices, and everything else but the colours, never depend on the palette or on the last image (R337, R74):
two states that differ only there step to states that differ only there. -/
def Obligations.OnlyColoursDependOnThePalette : Prop :=
  ∀ s t s' : State, sameButColours s t → step s = .next s' → ∃ t', step t = .next t' ∧ sameButColours s' t'

/-! ### Invariants -/

/-- Every step keeps every memory in its canonical form, and the registers `bitcnt`, `flag_n`, `q`, `sb`, `cc`, `nv1` and
`nv2` in the ranges the spec gives them (R23, R27, R28, R52). `k`, `mbx` and `mby` are bounded by the frame only while their
unit runs, which is in the live states of LiveStatesStepToLiveStates; `hn` is scratch. -/
def Obligations.StepKeepsMemoriesCanonicalAndRegistersInRange : Prop :=
  ∀ s t : State, step s = .next t →
    (s.canonical = true → t.canonical = true) ∧ (s.ranged = true → t.ranged = true)

/-- Every step keeps the flags in agreement (R33, R43, R44, R144, R290). -/
def Obligations.StepKeepsFlagsInAgreement : Prop :=
  ∀ s t : State, s.flagsAgree → step s = .next t → t.flagsAgree

/-- From a live state the step always answers a next state, which is live: no unwritten memory element is ever read
(log 5). -/
def Obligations.LiveStatesStepToLiveStates : Prop :=
  ∀ s : State, s.live = true → ∃ t, step s = .next t ∧ t.live = true

/-- Every command ends (R341): from a live state the block is idle with no command pending within `State.budget` steps. -/
def Obligations.EveryCommandTerminates : Prop :=
  ∀ s : State, s.live = true →
    ∃ n t, n ≤ s.budget ∧ Host.Core.run core n s = .next t ∧ t.phase = .idle ∧ t.cmd = none ∧ t.live = true

/-- The reset state meets every invariant. -/
def Obligations.ResetMeetsTheInvariants : Prop :=
  State.reset.canonical = true ∧ State.reset.ranged = true ∧ State.reset.flagsAgree ∧ State.reset.live = true ∧
    State.reset.treesOk
end

