-- ==== Sys2Proof/Laws/Memory.lean ====
section
/-! SUPPORT. What the memory operations do: read after write, the canonical form, runs of bytes. -/

namespace Sys2Proof.Machine

@[simp] theorem Memory.read_nil (a : Nat) : Memory.read [] a = none := rfl

theorem Memory.read_cons (b : Nat) (v : Byte) (m : Memory) (a : Nat) :
    Memory.read ((b, v) :: m) a = if a = b then some v else Memory.read m a := rfl

/-- A write is read back at its address and nowhere else. -/
theorem Memory.read_write (m : Memory) (a b : Nat) (v : Byte) :
    (m.write a v).read b = if b = a then some v else m.read b := by
  induction m with
  | nil => rfl
  | cons c m ih =>
    obtain ⟨d, w⟩ := c
    unfold Memory.write
    split
    · rfl
    · split
      · next h => subst h; simp only [Memory.read_cons]; split <;> rfl
      · simp only [Memory.read_cons, ih]
        split
        · next hne h => subst h; rw [if_neg (by omega)]
        · rfl

@[simp] theorem Memory.read_write_self (m : Memory) (a : Nat) (v : Byte) : (m.write a v).read a = some v := by
  simp [Memory.read_write]

theorem Memory.read_write_of_ne (m : Memory) {a b : Nat} (v : Byte) (h : b ≠ a) : (m.write a v).read b = m.read b := by
  simp [Memory.read_write, h]

/-- A list of writes leaves every address outside it alone. -/
theorem Memory.read_writes_of_notMem (cs : List Host.Cell) (m : Memory) (b : Nat) (h : ∀ c ∈ cs, c.1 ≠ b) :
    (m.writes cs).read b = m.read b := by
  induction cs generalizing m with
  | nil => rfl
  | cons c cs ih =>
    rw [Memory.writes, ih _ fun d hd => h d (List.mem_cons_of_mem _ hd),
      Memory.read_write_of_ne _ _ (Ne.symm (h c (List.mem_cons_self ..)))]

/-- A list of writes to different addresses is read back at each of them. -/
theorem Memory.read_writes_of_mem (cs : List Host.Cell) (m : Memory) (h : (cs.map Prod.fst).Nodup) (c : Host.Cell)
    (hc : c ∈ cs) : (m.writes cs).read c.1 = some c.2 := by
  induction cs generalizing m with
  | nil => cases hc
  | cons d cs ih =>
    rw [List.map_cons, List.nodup_cons] at h
    rcases List.mem_cons.1 hc with rfl | hc'
    · rw [Memory.writes, Memory.read_writes_of_notMem, Memory.read_write_self]
      intro e he heq
      exact h.1 (heq ▸ List.mem_map_of_mem he)
    · exact ih _ h.2 hc'

/-- Writes never take a value away. -/
theorem Memory.isSome_read_writes (cs : List Host.Cell) (m : Memory) (b : Nat) (h : (m.read b).isSome) :
    ((m.writes cs).read b).isSome := by
  induction cs generalizing m with
  | nil => exact h
  | cons c cs ih =>
    refine ih _ ?_
    rw [Memory.read_write]
    split
    · rfl
    · exact h

/-! ### The canonical form -/

/-- The canonical form, as a statement about every pair of entries. -/
theorem Memory.wf_iff_pairwise (m : Memory) : m.wf = true ↔ m.Pairwise fun c d => c.1 < d.1 := by
  induction m with
  | nil => simp [Memory.wf]
  | cons c m ih =>
    cases m with
    | nil => simp [Memory.wf]
    | cons d m =>
      obtain ⟨a, v⟩ := c
      obtain ⟨b, w⟩ := d
      rw [Memory.wf, Bool.and_eq_true, ih, decide_eq_true_iff]
      constructor
      · rintro ⟨hab, h⟩
        refine List.pairwise_cons.2 ⟨fun e he => ?_, h⟩
        rcases List.mem_cons.1 he with rfl | he
        · exact hab
        · exact Nat.lt_trans hab ((List.pairwise_cons.1 h).1 e he)
      · intro h
        exact ⟨(List.pairwise_cons.1 h).1 _ (List.mem_cons_self ..), (List.pairwise_cons.1 h).2⟩

/-- The addresses of a memory after a write. -/
theorem Memory.mem_write (m : Memory) (a : Nat) (v : Byte) (c : Host.Cell) (h : c ∈ m.write a v) : c = (a, v) ∨ c ∈ m := by
  induction m with
  | nil => exact .inl (List.mem_singleton.1 h)
  | cons d m ih =>
    obtain ⟨b, w⟩ := d
    unfold Memory.write at h
    split at h
    · exact List.mem_cons.1 h
    · split at h
      · rcases List.mem_cons.1 h with rfl | h
        · exact .inl rfl
        · exact .inr (List.mem_cons_of_mem _ h)
      · rcases List.mem_cons.1 h with rfl | h
        · exact .inr (List.mem_cons_self ..)
        · exact (ih h).imp_right (List.mem_cons_of_mem _)

/-- A write keeps the canonical form. -/
theorem Memory.wf_write (m : Memory) (a : Nat) (v : Byte) (h : m.wf = true) : (m.write a v).wf = true := by
  rw [Memory.wf_iff_pairwise] at h ⊢
  induction m with
  | nil => simp [Memory.write]
  | cons d m ih =>
    obtain ⟨b, w⟩ := d
    obtain ⟨h1, h2⟩ := List.pairwise_cons.1 h
    unfold Memory.write
    split
    · next hab =>
      refine List.pairwise_cons.2 ⟨fun e he => ?_, h⟩
      rcases List.mem_cons.1 he with rfl | he
      · exact hab
      · exact Nat.lt_trans hab (h1 e he)
    · split
      · next hab => exact List.pairwise_cons.2 ⟨fun e he => hab ▸ h1 e he, h2⟩
      · refine List.pairwise_cons.2 ⟨fun e he => ?_, ih h2⟩
        rcases Memory.mem_write _ _ _ _ he with rfl | he
        · show b < a
          omega
        · exact h1 e he

/-- A list of writes keeps the canonical form. -/
theorem Memory.wf_writes (cs : List Host.Cell) (m : Memory) (h : m.wf = true) : (m.writes cs).wf = true := by
  induction cs generalizing m with
  | nil => exact h
  | cons c cs ih => exact ih _ (Memory.wf_write _ _ _ h)

/-! ### Layout and overlay -/

theorem Memory.mem_layout (bs : List Byte) (a : Nat) (c : Host.Cell) (h : c ∈ Memory.layout a bs) :
    a ≤ c.1 ∧ c.1 < a + bs.length := by
  induction bs generalizing a with
  | nil => cases h
  | cons b bs ih =>
    rcases List.mem_cons.1 h with rfl | h
    · simp
    · have := ih _ h
      simp only [List.length_cons]
      omega

theorem Memory.wf_layout (bs : List Byte) (a : Nat) : (Memory.layout a bs).wf = true := by
  rw [Memory.wf_iff_pairwise]
  induction bs generalizing a with
  | nil => exact List.Pairwise.nil
  | cons b bs ih =>
    refine List.pairwise_cons.2 ⟨fun e he => ?_, ih _⟩
    have := Memory.mem_layout _ _ _ he
    show a < e.1
    omega

theorem Memory.read_append_layout (bs : List Byte) (a : Nat) (m : Memory) (b : Nat) :
    Memory.read (Memory.layout a bs ++ m) b = if a ≤ b ∧ b < a + bs.length then bs[b - a]? else m.read b := by
  induction bs generalizing a with
  | nil => simp only [Memory.layout, List.nil_append, List.length_nil]; rw [if_neg (by omega)]
  | cons v bs ih =>
    rw [Memory.layout, List.cons_append, Memory.read_cons, ih]
    split
    · next h => subst h; simp
    · split
      · next h1 h2 =>
        rw [if_pos (by simp only [List.length_cons]; omega)]
        obtain ⟨n, hn⟩ : ∃ n, b - a = n + 1 := ⟨b - a - 1, by omega⟩
        rw [hn, List.getElem?_cons_succ]
        congr 1
        omega
      · rw [if_neg (by simp only [List.length_cons]; omega)]

theorem Memory.read_filter (m : Memory) (n b : Nat) :
    Memory.read (m.filter fun c => decide (n ≤ c.1)) b = if n ≤ b then m.read b else none := by
  induction m with
  | nil => simp
  | cons c m ih =>
    obtain ⟨a, v⟩ := c
    rw [List.filter_cons, Memory.read_cons]
    split
    · next h => rw [Memory.read_cons, ih]; simp only [decide_eq_true_eq] at h; split
                · next hb => subst hb; rw [if_pos h]
                · rfl
    · next h =>
      simp only [decide_eq_true_eq] at h
      rw [ih]
      split
      · next hb => rw [if_neg (by omega)]
      · rfl

/-- An overlay is read back on elements 0 .. bs.length - 1 and leaves the rest alone. -/
theorem Memory.read_overlay (m : Memory) (bs : List Byte) (b : Nat) :
    (m.overlay bs).read b = if b < bs.length then bs[b]? else m.read b := by
  rw [Memory.overlay, Memory.read_append_layout, Memory.read_filter]
  by_cases h : b < bs.length
  · rw [if_pos (by omega), if_pos h, Nat.sub_zero]
  · rw [if_neg (by omega), if_neg h, if_pos (by omega)]

/-- An overlay keeps the canonical form. -/
theorem Memory.wf_overlay (m : Memory) (bs : List Byte) (h : m.wf = true) : (m.overlay bs).wf = true := by
  have hl := (Memory.wf_iff_pairwise _).1 (Memory.wf_layout bs 0)
  rw [Memory.wf_iff_pairwise] at h ⊢
  refine List.pairwise_append.2 ⟨hl, h.filter _, fun c hc d hd => ?_⟩
  have h1 := Memory.mem_layout _ _ _ hc
  have h2 := (List.mem_filter.1 hd).2
  simp only [decide_eq_true_eq] at h2
  omega

@[simp] theorem Memory.wf_nil : Memory.wf [] = true := rfl

/-! ### Runs -/

theorem Memory.length_of_readRun (m : Memory) (base n : Nat) (bs : List Byte) (h : m.readRun base n = some bs) :
    bs.length = n := by
  induction m generalizing base n bs with
  | nil => cases n with
    | zero => cases h; rfl
    | succ n => cases h
  | cons c m ih =>
    obtain ⟨a, v⟩ := c
    cases n with
    | zero => cases h; rfl
    | succ n =>
      unfold Memory.readRun at h
      split at h
      · exact ih _ _ _ h
      · split at h
        · obtain ⟨bs', h', rfl⟩ := Option.map_eq_some_iff.1 h
          rw [List.length_cons, ih _ _ _ h']
        · cases h

/-- In a canonical memory nothing is listed below a head address. -/
theorem Memory.read_eq_none_of_lt (a : Nat) (v : Byte) (m : Memory) (b : Nat) (h : Memory.wf ((a, v) :: m) = true)
    (hb : b < a) : Memory.read ((a, v) :: m) b = none := by
  rw [Memory.wf_iff_pairwise] at h
  induction m generalizing a v with
  | nil => rw [Memory.read_cons, if_neg (by omega)]; rfl
  | cons c m ih =>
    obtain ⟨d, w⟩ := c
    rw [Memory.read_cons, if_neg (by omega)]
    have hd : a < d := (List.pairwise_cons.1 h).1 (d, w) (List.mem_cons_self ..)
    exact ih d w (List.pairwise_cons.1 h).2 (by omega)

/-- What a run is in a canonical memory: it exists exactly when every byte of it does, and it lists them. -/
theorem Memory.readRun_eq_some_iff (m : Memory) (hm : m.wf = true) (base n : Nat) (bs : List Byte) :
    m.readRun base n = some bs ↔ bs.length = n ∧ ∀ i < n, m.read (base + i) = bs[i]? := by
  induction m generalizing base n bs with
  | nil => cases n with
    | zero => simp [Memory.readRun, eq_comm (a := ([] : List Byte)), List.length_eq_zero_iff]
    | succ n =>
      constructor
      · intro h; cases h
      · rintro ⟨hl, h⟩
        have := h 0 (by omega)
        rw [List.getElem?_eq_getElem (by omega)] at this
        cases this
  | cons c m ih =>
    obtain ⟨a, v⟩ := c
    have hm' : Memory.wf m = true := by
      rw [Memory.wf_iff_pairwise] at hm ⊢
      exact (List.pairwise_cons.1 hm).2
    cases n with
    | zero => simp [Memory.readRun, eq_comm (a := ([] : List Byte)), List.length_eq_zero_iff]
    | succ n =>
      unfold Memory.readRun
      split
      · next hab =>
        rw [ih hm']
        refine and_congr_right fun _ => forall₂_congr fun i _ => ?_
        rw [Memory.read_cons, if_neg (by omega)]
      · split
        · next h1 h2 =>
          subst h2
          rw [Option.map_eq_some_iff]
          constructor
          · rintro ⟨bs', h', rfl⟩
            obtain ⟨hl, hr⟩ := (ih hm' _ _ _).1 h'
            refine ⟨by simp [hl], fun i hi => ?_⟩
            cases i with
            | zero => simp [Memory.read_cons]
            | succ i =>
              rw [Memory.read_cons, if_neg (by omega), List.getElem?_cons_succ, ← hr i (by omega)]
              congr 1
              omega
          · rintro ⟨hl, hr⟩
            cases bs with
            | nil => cases hl
            | cons b bs =>
              have h0 := hr 0 (by omega)
              simp only [Nat.add_zero, Memory.read_cons, if_true, List.getElem?_cons_zero, Option.some.injEq] at h0
              refine ⟨bs, (ih hm' _ _ _).2 ⟨by simpa using hl, fun i hi => ?_⟩, by rw [h0]⟩
              have := hr (i + 1) (by omega)
              rw [Memory.read_cons, if_neg (by omega), List.getElem?_cons_succ] at this
              rw [← this]
              congr 1
              omega
        · next h1 h2 =>
          refine iff_of_false (fun h => by cases h) ?_
          rintro ⟨hl, hr⟩
          have h0 := hr 0 (by omega)
          rw [List.getElem?_eq_getElem (by omega), Nat.add_zero, Memory.read_eq_none_of_lt a v m base hm (by omega)] at h0
          cases h0

/-- A canonical memory has a run exactly when it has every byte of it. -/
theorem Memory.isSome_readRun_iff (m : Memory) (hm : m.wf = true) (base n : Nat) :
    (m.readRun base n).isSome ↔ ∀ i < n, (m.read (base + i)).isSome := by
  constructor
  · intro h i hi
    obtain ⟨bs, hbs⟩ := Option.isSome_iff_exists.1 h
    obtain ⟨hl, hr⟩ := (Memory.readRun_eq_some_iff m hm _ _ _).1 hbs
    rw [hr i hi, List.getElem?_eq_getElem (by omega)]
    rfl
  · intro h
    refine Option.isSome_iff_exists.2
      ⟨(List.range n).map fun i => (m.read (base + i)).getD 0, (Memory.readRun_eq_some_iff m hm _ _ _).2 ⟨by simp, ?_⟩⟩
    intro i hi
    obtain ⟨v, hv⟩ := Option.isSome_iff_exists.1 (h i hi)
    simp [hi, hv]

theorem Memory.full_iff (m : Memory) (hm : m.wf = true) (n : Nat) : m.full n = true ↔ ∀ a < n, (m.read a).isSome := by
  rw [Memory.full, Memory.isSome_readRun_iff m hm]
  simp

/-- Laying bytes out from 0 gives them all. -/
theorem Memory.readRun_layout (bs : List Byte) : (Memory.layout 0 bs).readRun 0 bs.length = some bs := by
  rw [Memory.readRun_eq_some_iff _ (Memory.wf_layout bs 0)]
  refine ⟨rfl, fun i hi => ?_⟩
  have := Memory.read_append_layout bs 0 [] i
  rw [List.append_nil, if_pos (by omega)] at this
  simpa using this

end Sys2Proof.Machine
end

