-- ==== Sys2Proof/Laws/State.lean ====
section
/-! SUPPORT. One lemma per field per update of State, so that no proof unfolds a record update. -/

namespace Sys2Proof.Machine

/-! ### State.advance -/

@[simp] theorem State.advance_params (s : State) (n : Nat) : (s.advance n).params = s.params := rfl
@[simp] theorem State.advance_phase (s : State) (n : Nat) : (s.advance n).phase = s.phase := rfl
@[simp] theorem State.advance_freeCtr (s : State) (n : Nat) : (s.advance n).freeCtr = s.freeCtr := rfl
@[simp] theorem State.advance_status (s : State) (n : Nat) : (s.advance n).status = s.status := rfl
@[simp] theorem State.advance_cfgWidth (s : State) (n : Nat) : (s.advance n).cfgWidth = s.cfgWidth := rfl
@[simp] theorem State.advance_cfgHeight (s : State) (n : Nat) : (s.advance n).cfgHeight = s.cfgHeight := rfl
@[simp] theorem State.advance_inLen (s : State) (n : Nat) : (s.advance n).inLen = s.inLen := rfl
@[simp] theorem State.advance_cmd (s : State) (n : Nat) : (s.advance n).cmd = s.cmd := rfl
@[simp] theorem State.advance_errCode (s : State) (n : Nat) : (s.advance n).errCode = s.errCode := rfl
@[simp] theorem State.advance_errPos (s : State) (n : Nat) : (s.advance n).errPos = s.errPos := rfl
@[simp] theorem State.advance_consumed (s : State) (n : Nat) : (s.advance n).consumed = s.consumed := rfl
@[simp] theorem State.advance_pcmLen (s : State) (n : Nat) : (s.advance n).pcmLen = s.pcmLen := rfl
@[simp] theorem State.advance_pos (s : State) (n : Nat) : (s.advance n).pos = BitVec.ofNat 32 (s.pos.toNat + n) := rfl
@[simp] theorem State.advance_ctx (s : State) (n : Nat) : (s.advance n).ctx = s.ctx := rfl
@[simp] theorem State.advance_node (s : State) (n : Nat) : (s.advance n).node = s.node := rfl
@[simp] theorem State.advance_bitbuf (s : State) (n : Nat) : (s.advance n).bitbuf = s.bitbuf := rfl
@[simp] theorem State.advance_bitcnt (s : State) (n : Nat) : (s.advance n).bitcnt = s.bitcnt := rfl
@[simp] theorem State.advance_k (s : State) (n : Nat) : (s.advance n).k = s.k := rfl
@[simp] theorem State.advance_hcount (s : State) (n : Nat) : (s.advance n).hcount = s.hcount := rfl
@[simp] theorem State.advance_hused (s : State) (n : Nat) : (s.advance n).hused = s.hused := rfl
@[simp] theorem State.advance_hn (s : State) (n : Nat) : (s.advance n).hn = s.hn := rfl
@[simp] theorem State.advance_biasX (s : State) (n : Nat) : (s.advance n).biasX = s.biasX := rfl
@[simp] theorem State.advance_biasY (s : State) (n : Nat) : (s.advance n).biasY = s.biasY := rfl
@[simp] theorem State.advance_flag (s : State) (n : Nat) : (s.advance n).flag = s.flag := rfl
@[simp] theorem State.advance_flagN (s : State) (n : Nat) : (s.advance n).flagN = s.flagN := rfl
@[simp] theorem State.advance_mbx (s : State) (n : Nat) : (s.advance n).mbx = s.mbx := rfl
@[simp] theorem State.advance_mby (s : State) (n : Nat) : (s.advance n).mby = s.mby := rfl
@[simp] theorem State.advance_q (s : State) (n : Nat) : (s.advance n).q = s.q := rfl
@[simp] theorem State.advance_sb (s : State) (n : Nat) : (s.advance n).sb = s.sb := rfl
@[simp] theorem State.advance_cc (s : State) (n : Nat) : (s.advance n).cc = s.cc := rfl
@[simp] theorem State.advance_predL (s : State) (n : Nat) : (s.advance n).predL = s.predL := rfl
@[simp] theorem State.advance_predR (s : State) (n : Nat) : (s.advance n).predR = s.predR := rfl
@[simp] theorem State.advance_recCmd (s : State) (n : Nat) : (s.advance n).recCmd = s.recCmd := rfl
@[simp] theorem State.advance_chunkSize (s : State) (n : Nat) : (s.advance n).chunkSize = s.chunkSize := rfl
@[simp] theorem State.advance_decodedSize (s : State) (n : Nat) : (s.advance n).decodedSize = s.decodedSize := rfl
@[simp] theorem State.advance_recType (s : State) (n : Nat) : (s.advance n).recType = s.recType := rfl
@[simp] theorem State.advance_recSize (s : State) (n : Nat) : (s.advance n).recSize = s.recSize := rfl
@[simp] theorem State.advance_recArg (s : State) (n : Nat) : (s.advance n).recArg = s.recArg := rfl
@[simp] theorem State.advance_pay0 (s : State) (n : Nat) : (s.advance n).pay0 = s.pay0 := rfl
@[simp] theorem State.advance_payLen (s : State) (n : Nat) : (s.advance n).payLen = s.payLen := rfl
@[simp] theorem State.advance_root (s : State) (n : Nat) : (s.advance n).root = s.root := rfl
@[simp] theorem State.advance_child (s : State) (n : Nat) : (s.advance n).child = s.child := rfl
@[simp] theorem State.advance_pal (s : State) (n : Nat) : (s.advance n).pal = s.pal := rfl
@[simp] theorem State.advance_cell (s : State) (n : Nat) : (s.advance n).cell = s.cell := rfl
@[simp] theorem State.advance_quad (s : State) (n : Nat) : (s.advance n).quad = s.quad := rfl
@[simp] theorem State.advance_nv1 (s : State) (n : Nat) : (s.advance n).nv1 = s.nv1 := rfl
@[simp] theorem State.advance_nv2 (s : State) (n : Nat) : (s.advance n).nv2 = s.nv2 := rfl
@[simp] theorem State.advance_pp (s : State) (n : Nat) : (s.advance n).pp = s.pp := rfl
@[simp] theorem State.advance_inp (s : State) (n : Nat) : (s.advance n).inp = s.inp := rfl
@[simp] theorem State.advance_idx (s : State) (n : Nat) : (s.advance n).idx = s.idx := rfl
@[simp] theorem State.advance_pl0 (s : State) (n : Nat) : (s.advance n).pl0 = s.pl0 := rfl
@[simp] theorem State.advance_pl1 (s : State) (n : Nat) : (s.advance n).pl1 = s.pl1 := rfl
@[simp] theorem State.advance_rgba (s : State) (n : Nat) : (s.advance n).rgba = s.rgba := rfl
@[simp] theorem State.advance_pcm (s : State) (n : Nat) : (s.advance n).pcm = s.pcm := rfl

/-! ### State.setCurrent -/

@[simp] theorem State.setCurrent_params (s : State) (p : Planes) : (s.setCurrent p).params = s.params := by unfold State.setCurrent; split <;> rfl
@[simp] theorem State.setCurrent_phase (s : State) (p : Planes) : (s.setCurrent p).phase = s.phase := by unfold State.setCurrent; split <;> rfl
@[simp] theorem State.setCurrent_freeCtr (s : State) (p : Planes) : (s.setCurrent p).freeCtr = s.freeCtr := by unfold State.setCurrent; split <;> rfl
@[simp] theorem State.setCurrent_status (s : State) (p : Planes) : (s.setCurrent p).status = s.status := by unfold State.setCurrent; split <;> rfl
@[simp] theorem State.setCurrent_cfgWidth (s : State) (p : Planes) : (s.setCurrent p).cfgWidth = s.cfgWidth := by unfold State.setCurrent; split <;> rfl
@[simp] theorem State.setCurrent_cfgHeight (s : State) (p : Planes) : (s.setCurrent p).cfgHeight = s.cfgHeight := by unfold State.setCurrent; split <;> rfl
@[simp] theorem State.setCurrent_inLen (s : State) (p : Planes) : (s.setCurrent p).inLen = s.inLen := by unfold State.setCurrent; split <;> rfl
@[simp] theorem State.setCurrent_cmd (s : State) (p : Planes) : (s.setCurrent p).cmd = s.cmd := by unfold State.setCurrent; split <;> rfl
@[simp] theorem State.setCurrent_errCode (s : State) (p : Planes) : (s.setCurrent p).errCode = s.errCode := by unfold State.setCurrent; split <;> rfl
@[simp] theorem State.setCurrent_errPos (s : State) (p : Planes) : (s.setCurrent p).errPos = s.errPos := by unfold State.setCurrent; split <;> rfl
@[simp] theorem State.setCurrent_consumed (s : State) (p : Planes) : (s.setCurrent p).consumed = s.consumed := by unfold State.setCurrent; split <;> rfl
@[simp] theorem State.setCurrent_pcmLen (s : State) (p : Planes) : (s.setCurrent p).pcmLen = s.pcmLen := by unfold State.setCurrent; split <;> rfl
@[simp] theorem State.setCurrent_pos (s : State) (p : Planes) : (s.setCurrent p).pos = s.pos := by unfold State.setCurrent; split <;> rfl
@[simp] theorem State.setCurrent_ctx (s : State) (p : Planes) : (s.setCurrent p).ctx = s.ctx := by unfold State.setCurrent; split <;> rfl
@[simp] theorem State.setCurrent_node (s : State) (p : Planes) : (s.setCurrent p).node = s.node := by unfold State.setCurrent; split <;> rfl
@[simp] theorem State.setCurrent_bitbuf (s : State) (p : Planes) : (s.setCurrent p).bitbuf = s.bitbuf := by unfold State.setCurrent; split <;> rfl
@[simp] theorem State.setCurrent_bitcnt (s : State) (p : Planes) : (s.setCurrent p).bitcnt = s.bitcnt := by unfold State.setCurrent; split <;> rfl
@[simp] theorem State.setCurrent_k (s : State) (p : Planes) : (s.setCurrent p).k = s.k := by unfold State.setCurrent; split <;> rfl
@[simp] theorem State.setCurrent_hcount (s : State) (p : Planes) : (s.setCurrent p).hcount = s.hcount := by unfold State.setCurrent; split <;> rfl
@[simp] theorem State.setCurrent_hused (s : State) (p : Planes) : (s.setCurrent p).hused = s.hused := by unfold State.setCurrent; split <;> rfl
@[simp] theorem State.setCurrent_hn (s : State) (p : Planes) : (s.setCurrent p).hn = s.hn := by unfold State.setCurrent; split <;> rfl
@[simp] theorem State.setCurrent_biasX (s : State) (p : Planes) : (s.setCurrent p).biasX = s.biasX := by unfold State.setCurrent; split <;> rfl
@[simp] theorem State.setCurrent_biasY (s : State) (p : Planes) : (s.setCurrent p).biasY = s.biasY := by unfold State.setCurrent; split <;> rfl
@[simp] theorem State.setCurrent_flag (s : State) (p : Planes) : (s.setCurrent p).flag = s.flag := by unfold State.setCurrent; split <;> rfl
@[simp] theorem State.setCurrent_flagN (s : State) (p : Planes) : (s.setCurrent p).flagN = s.flagN := by unfold State.setCurrent; split <;> rfl
@[simp] theorem State.setCurrent_mbx (s : State) (p : Planes) : (s.setCurrent p).mbx = s.mbx := by unfold State.setCurrent; split <;> rfl
@[simp] theorem State.setCurrent_mby (s : State) (p : Planes) : (s.setCurrent p).mby = s.mby := by unfold State.setCurrent; split <;> rfl
@[simp] theorem State.setCurrent_q (s : State) (p : Planes) : (s.setCurrent p).q = s.q := by unfold State.setCurrent; split <;> rfl
@[simp] theorem State.setCurrent_sb (s : State) (p : Planes) : (s.setCurrent p).sb = s.sb := by unfold State.setCurrent; split <;> rfl
@[simp] theorem State.setCurrent_cc (s : State) (p : Planes) : (s.setCurrent p).cc = s.cc := by unfold State.setCurrent; split <;> rfl
@[simp] theorem State.setCurrent_predL (s : State) (p : Planes) : (s.setCurrent p).predL = s.predL := by unfold State.setCurrent; split <;> rfl
@[simp] theorem State.setCurrent_predR (s : State) (p : Planes) : (s.setCurrent p).predR = s.predR := by unfold State.setCurrent; split <;> rfl
@[simp] theorem State.setCurrent_recCmd (s : State) (p : Planes) : (s.setCurrent p).recCmd = s.recCmd := by unfold State.setCurrent; split <;> rfl
@[simp] theorem State.setCurrent_chunkSize (s : State) (p : Planes) : (s.setCurrent p).chunkSize = s.chunkSize := by unfold State.setCurrent; split <;> rfl
@[simp] theorem State.setCurrent_decodedSize (s : State) (p : Planes) : (s.setCurrent p).decodedSize = s.decodedSize := by unfold State.setCurrent; split <;> rfl
@[simp] theorem State.setCurrent_recType (s : State) (p : Planes) : (s.setCurrent p).recType = s.recType := by unfold State.setCurrent; split <;> rfl
@[simp] theorem State.setCurrent_recSize (s : State) (p : Planes) : (s.setCurrent p).recSize = s.recSize := by unfold State.setCurrent; split <;> rfl
@[simp] theorem State.setCurrent_recArg (s : State) (p : Planes) : (s.setCurrent p).recArg = s.recArg := by unfold State.setCurrent; split <;> rfl
@[simp] theorem State.setCurrent_pay0 (s : State) (p : Planes) : (s.setCurrent p).pay0 = s.pay0 := by unfold State.setCurrent; split <;> rfl
@[simp] theorem State.setCurrent_payLen (s : State) (p : Planes) : (s.setCurrent p).payLen = s.payLen := by unfold State.setCurrent; split <;> rfl
@[simp] theorem State.setCurrent_root (s : State) (p : Planes) : (s.setCurrent p).root = s.root := by unfold State.setCurrent; split <;> rfl
@[simp] theorem State.setCurrent_child (s : State) (p : Planes) : (s.setCurrent p).child = s.child := by unfold State.setCurrent; split <;> rfl
@[simp] theorem State.setCurrent_pal (s : State) (p : Planes) : (s.setCurrent p).pal = s.pal := by unfold State.setCurrent; split <;> rfl
@[simp] theorem State.setCurrent_cell (s : State) (p : Planes) : (s.setCurrent p).cell = s.cell := by unfold State.setCurrent; split <;> rfl
@[simp] theorem State.setCurrent_quad (s : State) (p : Planes) : (s.setCurrent p).quad = s.quad := by unfold State.setCurrent; split <;> rfl
@[simp] theorem State.setCurrent_nv1 (s : State) (p : Planes) : (s.setCurrent p).nv1 = s.nv1 := by unfold State.setCurrent; split <;> rfl
@[simp] theorem State.setCurrent_nv2 (s : State) (p : Planes) : (s.setCurrent p).nv2 = s.nv2 := by unfold State.setCurrent; split <;> rfl
@[simp] theorem State.setCurrent_pp (s : State) (p : Planes) : (s.setCurrent p).pp = s.pp := by unfold State.setCurrent; split <;> rfl
@[simp] theorem State.setCurrent_inp (s : State) (p : Planes) : (s.setCurrent p).inp = s.inp := by unfold State.setCurrent; split <;> rfl
@[simp] theorem State.setCurrent_idx (s : State) (p : Planes) : (s.setCurrent p).idx = s.idx := by unfold State.setCurrent; split <;> rfl
@[simp] theorem State.setCurrent_pl0 (s : State) (p : Planes) : (s.setCurrent p).pl0 = (if s.pp then p else s.pl0) := by unfold State.setCurrent; split <;> rfl
@[simp] theorem State.setCurrent_pl1 (s : State) (p : Planes) : (s.setCurrent p).pl1 = (if s.pp then s.pl1 else p) := by unfold State.setCurrent; split <;> rfl
@[simp] theorem State.setCurrent_rgba (s : State) (p : Planes) : (s.setCurrent p).rgba = s.rgba := by unfold State.setCurrent; split <;> rfl
@[simp] theorem State.setCurrent_pcm (s : State) (p : Planes) : (s.setCurrent p).pcm = s.pcm := by unfold State.setCurrent; split <;> rfl

/-! ### State.setLast -/

@[simp] theorem State.setLast_params (s : State) (p : Planes) : (s.setLast p).params = s.params := by unfold State.setLast; split <;> rfl
@[simp] theorem State.setLast_phase (s : State) (p : Planes) : (s.setLast p).phase = s.phase := by unfold State.setLast; split <;> rfl
@[simp] theorem State.setLast_freeCtr (s : State) (p : Planes) : (s.setLast p).freeCtr = s.freeCtr := by unfold State.setLast; split <;> rfl
@[simp] theorem State.setLast_status (s : State) (p : Planes) : (s.setLast p).status = s.status := by unfold State.setLast; split <;> rfl
@[simp] theorem State.setLast_cfgWidth (s : State) (p : Planes) : (s.setLast p).cfgWidth = s.cfgWidth := by unfold State.setLast; split <;> rfl
@[simp] theorem State.setLast_cfgHeight (s : State) (p : Planes) : (s.setLast p).cfgHeight = s.cfgHeight := by unfold State.setLast; split <;> rfl
@[simp] theorem State.setLast_inLen (s : State) (p : Planes) : (s.setLast p).inLen = s.inLen := by unfold State.setLast; split <;> rfl
@[simp] theorem State.setLast_cmd (s : State) (p : Planes) : (s.setLast p).cmd = s.cmd := by unfold State.setLast; split <;> rfl
@[simp] theorem State.setLast_errCode (s : State) (p : Planes) : (s.setLast p).errCode = s.errCode := by unfold State.setLast; split <;> rfl
@[simp] theorem State.setLast_errPos (s : State) (p : Planes) : (s.setLast p).errPos = s.errPos := by unfold State.setLast; split <;> rfl
@[simp] theorem State.setLast_consumed (s : State) (p : Planes) : (s.setLast p).consumed = s.consumed := by unfold State.setLast; split <;> rfl
@[simp] theorem State.setLast_pcmLen (s : State) (p : Planes) : (s.setLast p).pcmLen = s.pcmLen := by unfold State.setLast; split <;> rfl
@[simp] theorem State.setLast_pos (s : State) (p : Planes) : (s.setLast p).pos = s.pos := by unfold State.setLast; split <;> rfl
@[simp] theorem State.setLast_ctx (s : State) (p : Planes) : (s.setLast p).ctx = s.ctx := by unfold State.setLast; split <;> rfl
@[simp] theorem State.setLast_node (s : State) (p : Planes) : (s.setLast p).node = s.node := by unfold State.setLast; split <;> rfl
@[simp] theorem State.setLast_bitbuf (s : State) (p : Planes) : (s.setLast p).bitbuf = s.bitbuf := by unfold State.setLast; split <;> rfl
@[simp] theorem State.setLast_bitcnt (s : State) (p : Planes) : (s.setLast p).bitcnt = s.bitcnt := by unfold State.setLast; split <;> rfl
@[simp] theorem State.setLast_k (s : State) (p : Planes) : (s.setLast p).k = s.k := by unfold State.setLast; split <;> rfl
@[simp] theorem State.setLast_hcount (s : State) (p : Planes) : (s.setLast p).hcount = s.hcount := by unfold State.setLast; split <;> rfl
@[simp] theorem State.setLast_hused (s : State) (p : Planes) : (s.setLast p).hused = s.hused := by unfold State.setLast; split <;> rfl
@[simp] theorem State.setLast_hn (s : State) (p : Planes) : (s.setLast p).hn = s.hn := by unfold State.setLast; split <;> rfl
@[simp] theorem State.setLast_biasX (s : State) (p : Planes) : (s.setLast p).biasX = s.biasX := by unfold State.setLast; split <;> rfl
@[simp] theorem State.setLast_biasY (s : State) (p : Planes) : (s.setLast p).biasY = s.biasY := by unfold State.setLast; split <;> rfl
@[simp] theorem State.setLast_flag (s : State) (p : Planes) : (s.setLast p).flag = s.flag := by unfold State.setLast; split <;> rfl
@[simp] theorem State.setLast_flagN (s : State) (p : Planes) : (s.setLast p).flagN = s.flagN := by unfold State.setLast; split <;> rfl
@[simp] theorem State.setLast_mbx (s : State) (p : Planes) : (s.setLast p).mbx = s.mbx := by unfold State.setLast; split <;> rfl
@[simp] theorem State.setLast_mby (s : State) (p : Planes) : (s.setLast p).mby = s.mby := by unfold State.setLast; split <;> rfl
@[simp] theorem State.setLast_q (s : State) (p : Planes) : (s.setLast p).q = s.q := by unfold State.setLast; split <;> rfl
@[simp] theorem State.setLast_sb (s : State) (p : Planes) : (s.setLast p).sb = s.sb := by unfold State.setLast; split <;> rfl
@[simp] theorem State.setLast_cc (s : State) (p : Planes) : (s.setLast p).cc = s.cc := by unfold State.setLast; split <;> rfl
@[simp] theorem State.setLast_predL (s : State) (p : Planes) : (s.setLast p).predL = s.predL := by unfold State.setLast; split <;> rfl
@[simp] theorem State.setLast_predR (s : State) (p : Planes) : (s.setLast p).predR = s.predR := by unfold State.setLast; split <;> rfl
@[simp] theorem State.setLast_recCmd (s : State) (p : Planes) : (s.setLast p).recCmd = s.recCmd := by unfold State.setLast; split <;> rfl
@[simp] theorem State.setLast_chunkSize (s : State) (p : Planes) : (s.setLast p).chunkSize = s.chunkSize := by unfold State.setLast; split <;> rfl
@[simp] theorem State.setLast_decodedSize (s : State) (p : Planes) : (s.setLast p).decodedSize = s.decodedSize := by unfold State.setLast; split <;> rfl
@[simp] theorem State.setLast_recType (s : State) (p : Planes) : (s.setLast p).recType = s.recType := by unfold State.setLast; split <;> rfl
@[simp] theorem State.setLast_recSize (s : State) (p : Planes) : (s.setLast p).recSize = s.recSize := by unfold State.setLast; split <;> rfl
@[simp] theorem State.setLast_recArg (s : State) (p : Planes) : (s.setLast p).recArg = s.recArg := by unfold State.setLast; split <;> rfl
@[simp] theorem State.setLast_pay0 (s : State) (p : Planes) : (s.setLast p).pay0 = s.pay0 := by unfold State.setLast; split <;> rfl
@[simp] theorem State.setLast_payLen (s : State) (p : Planes) : (s.setLast p).payLen = s.payLen := by unfold State.setLast; split <;> rfl
@[simp] theorem State.setLast_root (s : State) (p : Planes) : (s.setLast p).root = s.root := by unfold State.setLast; split <;> rfl
@[simp] theorem State.setLast_child (s : State) (p : Planes) : (s.setLast p).child = s.child := by unfold State.setLast; split <;> rfl
@[simp] theorem State.setLast_pal (s : State) (p : Planes) : (s.setLast p).pal = s.pal := by unfold State.setLast; split <;> rfl
@[simp] theorem State.setLast_cell (s : State) (p : Planes) : (s.setLast p).cell = s.cell := by unfold State.setLast; split <;> rfl
@[simp] theorem State.setLast_quad (s : State) (p : Planes) : (s.setLast p).quad = s.quad := by unfold State.setLast; split <;> rfl
@[simp] theorem State.setLast_nv1 (s : State) (p : Planes) : (s.setLast p).nv1 = s.nv1 := by unfold State.setLast; split <;> rfl
@[simp] theorem State.setLast_nv2 (s : State) (p : Planes) : (s.setLast p).nv2 = s.nv2 := by unfold State.setLast; split <;> rfl
@[simp] theorem State.setLast_pp (s : State) (p : Planes) : (s.setLast p).pp = s.pp := by unfold State.setLast; split <;> rfl
@[simp] theorem State.setLast_inp (s : State) (p : Planes) : (s.setLast p).inp = s.inp := by unfold State.setLast; split <;> rfl
@[simp] theorem State.setLast_idx (s : State) (p : Planes) : (s.setLast p).idx = s.idx := by unfold State.setLast; split <;> rfl
@[simp] theorem State.setLast_pl0 (s : State) (p : Planes) : (s.setLast p).pl0 = (if s.pp then s.pl0 else p) := by unfold State.setLast; split <;> rfl
@[simp] theorem State.setLast_pl1 (s : State) (p : Planes) : (s.setLast p).pl1 = (if s.pp then p else s.pl1) := by unfold State.setLast; split <;> rfl
@[simp] theorem State.setLast_rgba (s : State) (p : Planes) : (s.setLast p).rgba = s.rgba := by unfold State.setLast; split <;> rfl
@[simp] theorem State.setLast_pcm (s : State) (p : Planes) : (s.setLast p).pcm = s.pcm := by unfold State.setLast; split <;> rfl

/-! ### startCommand -/

@[simp] theorem startCommand_params (s : State) : (startCommand s).params = s.params := rfl
@[simp] theorem startCommand_phase (s : State) : (startCommand s).phase = .idle := rfl
@[simp] theorem startCommand_freeCtr (s : State) : (startCommand s).freeCtr = s.freeCtr := rfl
@[simp] theorem startCommand_status (s : State) : (startCommand s).status = s.status.start := rfl
@[simp] theorem startCommand_cfgWidth (s : State) : (startCommand s).cfgWidth = s.cfgWidth := rfl
@[simp] theorem startCommand_cfgHeight (s : State) : (startCommand s).cfgHeight = s.cfgHeight := rfl
@[simp] theorem startCommand_inLen (s : State) : (startCommand s).inLen = s.inLen := rfl
@[simp] theorem startCommand_cmd (s : State) : (startCommand s).cmd = none := rfl
@[simp] theorem startCommand_errCode (s : State) : (startCommand s).errCode = s.errCode := rfl
@[simp] theorem startCommand_errPos (s : State) : (startCommand s).errPos = s.errPos := rfl
@[simp] theorem startCommand_consumed (s : State) : (startCommand s).consumed = 0 := rfl
@[simp] theorem startCommand_pcmLen (s : State) : (startCommand s).pcmLen = 0 := rfl
@[simp] theorem startCommand_pos (s : State) : (startCommand s).pos = 0 := rfl
@[simp] theorem startCommand_ctx (s : State) : (startCommand s).ctx = s.ctx := rfl
@[simp] theorem startCommand_node (s : State) : (startCommand s).node = s.node := rfl
@[simp] theorem startCommand_bitbuf (s : State) : (startCommand s).bitbuf = s.bitbuf := rfl
@[simp] theorem startCommand_bitcnt (s : State) : (startCommand s).bitcnt = s.bitcnt := rfl
@[simp] theorem startCommand_k (s : State) : (startCommand s).k = s.k := rfl
@[simp] theorem startCommand_hcount (s : State) : (startCommand s).hcount = s.hcount := rfl
@[simp] theorem startCommand_hused (s : State) : (startCommand s).hused = s.hused := rfl
@[simp] theorem startCommand_hn (s : State) : (startCommand s).hn = s.hn := rfl
@[simp] theorem startCommand_biasX (s : State) : (startCommand s).biasX = s.biasX := rfl
@[simp] theorem startCommand_biasY (s : State) : (startCommand s).biasY = s.biasY := rfl
@[simp] theorem startCommand_flag (s : State) : (startCommand s).flag = s.flag := rfl
@[simp] theorem startCommand_flagN (s : State) : (startCommand s).flagN = s.flagN := rfl
@[simp] theorem startCommand_mbx (s : State) : (startCommand s).mbx = s.mbx := rfl
@[simp] theorem startCommand_mby (s : State) : (startCommand s).mby = s.mby := rfl
@[simp] theorem startCommand_q (s : State) : (startCommand s).q = s.q := rfl
@[simp] theorem startCommand_sb (s : State) : (startCommand s).sb = s.sb := rfl
@[simp] theorem startCommand_cc (s : State) : (startCommand s).cc = s.cc := rfl
@[simp] theorem startCommand_predL (s : State) : (startCommand s).predL = s.predL := rfl
@[simp] theorem startCommand_predR (s : State) : (startCommand s).predR = s.predR := rfl
@[simp] theorem startCommand_recCmd (s : State) : (startCommand s).recCmd = s.recCmd := rfl
@[simp] theorem startCommand_chunkSize (s : State) : (startCommand s).chunkSize = s.chunkSize := rfl
@[simp] theorem startCommand_decodedSize (s : State) : (startCommand s).decodedSize = s.decodedSize := rfl
@[simp] theorem startCommand_recType (s : State) : (startCommand s).recType = s.recType := rfl
@[simp] theorem startCommand_recSize (s : State) : (startCommand s).recSize = s.recSize := rfl
@[simp] theorem startCommand_recArg (s : State) : (startCommand s).recArg = s.recArg := rfl
@[simp] theorem startCommand_pay0 (s : State) : (startCommand s).pay0 = s.pay0 := rfl
@[simp] theorem startCommand_payLen (s : State) : (startCommand s).payLen = s.payLen := rfl
@[simp] theorem startCommand_root (s : State) : (startCommand s).root = s.root := rfl
@[simp] theorem startCommand_child (s : State) : (startCommand s).child = s.child := rfl
@[simp] theorem startCommand_pal (s : State) : (startCommand s).pal = s.pal := rfl
@[simp] theorem startCommand_cell (s : State) : (startCommand s).cell = s.cell := rfl
@[simp] theorem startCommand_quad (s : State) : (startCommand s).quad = s.quad := rfl
@[simp] theorem startCommand_nv1 (s : State) : (startCommand s).nv1 = s.nv1 := rfl
@[simp] theorem startCommand_nv2 (s : State) : (startCommand s).nv2 = s.nv2 := rfl
@[simp] theorem startCommand_pp (s : State) : (startCommand s).pp = s.pp := rfl
@[simp] theorem startCommand_inp (s : State) : (startCommand s).inp = s.inp := rfl
@[simp] theorem startCommand_idx (s : State) : (startCommand s).idx = s.idx := rfl
@[simp] theorem startCommand_pl0 (s : State) : (startCommand s).pl0 = s.pl0 := rfl
@[simp] theorem startCommand_pl1 (s : State) : (startCommand s).pl1 = s.pl1 := rfl
@[simp] theorem startCommand_rgba (s : State) : (startCommand s).rgba = s.rgba := rfl
@[simp] theorem startCommand_pcm (s : State) : (startCommand s).pcm = [] := rfl

/-! ### finishCommand -/

@[simp] theorem finishCommand_params (s : State) : (finishCommand s).params = s.params := rfl
@[simp] theorem finishCommand_phase (s : State) : (finishCommand s).phase = .idle := rfl
@[simp] theorem finishCommand_freeCtr (s : State) : (finishCommand s).freeCtr = s.freeCtr := rfl
@[simp] theorem finishCommand_status (s : State) : (finishCommand s).status = s.status.finish := rfl
@[simp] theorem finishCommand_cfgWidth (s : State) : (finishCommand s).cfgWidth = s.cfgWidth := rfl
@[simp] theorem finishCommand_cfgHeight (s : State) : (finishCommand s).cfgHeight = s.cfgHeight := rfl
@[simp] theorem finishCommand_inLen (s : State) : (finishCommand s).inLen = s.inLen := rfl
@[simp] theorem finishCommand_cmd (s : State) : (finishCommand s).cmd = s.cmd := rfl
@[simp] theorem finishCommand_errCode (s : State) : (finishCommand s).errCode = s.errCode := rfl
@[simp] theorem finishCommand_errPos (s : State) : (finishCommand s).errPos = s.errPos := rfl
@[simp] theorem finishCommand_consumed (s : State) : (finishCommand s).consumed = s.consumed := rfl
@[simp] theorem finishCommand_pcmLen (s : State) : (finishCommand s).pcmLen = s.pcmLen := rfl
@[simp] theorem finishCommand_pos (s : State) : (finishCommand s).pos = s.pos := rfl
@[simp] theorem finishCommand_ctx (s : State) : (finishCommand s).ctx = s.ctx := rfl
@[simp] theorem finishCommand_node (s : State) : (finishCommand s).node = s.node := rfl
@[simp] theorem finishCommand_bitbuf (s : State) : (finishCommand s).bitbuf = s.bitbuf := rfl
@[simp] theorem finishCommand_bitcnt (s : State) : (finishCommand s).bitcnt = s.bitcnt := rfl
@[simp] theorem finishCommand_k (s : State) : (finishCommand s).k = s.k := rfl
@[simp] theorem finishCommand_hcount (s : State) : (finishCommand s).hcount = s.hcount := rfl
@[simp] theorem finishCommand_hused (s : State) : (finishCommand s).hused = s.hused := rfl
@[simp] theorem finishCommand_hn (s : State) : (finishCommand s).hn = s.hn := rfl
@[simp] theorem finishCommand_biasX (s : State) : (finishCommand s).biasX = s.biasX := rfl
@[simp] theorem finishCommand_biasY (s : State) : (finishCommand s).biasY = s.biasY := rfl
@[simp] theorem finishCommand_flag (s : State) : (finishCommand s).flag = s.flag := rfl
@[simp] theorem finishCommand_flagN (s : State) : (finishCommand s).flagN = s.flagN := rfl
@[simp] theorem finishCommand_mbx (s : State) : (finishCommand s).mbx = s.mbx := rfl
@[simp] theorem finishCommand_mby (s : State) : (finishCommand s).mby = s.mby := rfl
@[simp] theorem finishCommand_q (s : State) : (finishCommand s).q = s.q := rfl
@[simp] theorem finishCommand_sb (s : State) : (finishCommand s).sb = s.sb := rfl
@[simp] theorem finishCommand_cc (s : State) : (finishCommand s).cc = s.cc := rfl
@[simp] theorem finishCommand_predL (s : State) : (finishCommand s).predL = s.predL := rfl
@[simp] theorem finishCommand_predR (s : State) : (finishCommand s).predR = s.predR := rfl
@[simp] theorem finishCommand_recCmd (s : State) : (finishCommand s).recCmd = s.recCmd := rfl
@[simp] theorem finishCommand_chunkSize (s : State) : (finishCommand s).chunkSize = s.chunkSize := rfl
@[simp] theorem finishCommand_decodedSize (s : State) : (finishCommand s).decodedSize = s.decodedSize := rfl
@[simp] theorem finishCommand_recType (s : State) : (finishCommand s).recType = s.recType := rfl
@[simp] theorem finishCommand_recSize (s : State) : (finishCommand s).recSize = s.recSize := rfl
@[simp] theorem finishCommand_recArg (s : State) : (finishCommand s).recArg = s.recArg := rfl
@[simp] theorem finishCommand_pay0 (s : State) : (finishCommand s).pay0 = s.pay0 := rfl
@[simp] theorem finishCommand_payLen (s : State) : (finishCommand s).payLen = s.payLen := rfl
@[simp] theorem finishCommand_root (s : State) : (finishCommand s).root = s.root := rfl
@[simp] theorem finishCommand_child (s : State) : (finishCommand s).child = s.child := rfl
@[simp] theorem finishCommand_pal (s : State) : (finishCommand s).pal = s.pal := rfl
@[simp] theorem finishCommand_cell (s : State) : (finishCommand s).cell = s.cell := rfl
@[simp] theorem finishCommand_quad (s : State) : (finishCommand s).quad = s.quad := rfl
@[simp] theorem finishCommand_nv1 (s : State) : (finishCommand s).nv1 = s.nv1 := rfl
@[simp] theorem finishCommand_nv2 (s : State) : (finishCommand s).nv2 = s.nv2 := rfl
@[simp] theorem finishCommand_pp (s : State) : (finishCommand s).pp = s.pp := rfl
@[simp] theorem finishCommand_inp (s : State) : (finishCommand s).inp = s.inp := rfl
@[simp] theorem finishCommand_idx (s : State) : (finishCommand s).idx = s.idx := rfl
@[simp] theorem finishCommand_pl0 (s : State) : (finishCommand s).pl0 = s.pl0 := rfl
@[simp] theorem finishCommand_pl1 (s : State) : (finishCommand s).pl1 = s.pl1 := rfl
@[simp] theorem finishCommand_rgba (s : State) : (finishCommand s).rgba = s.rgba := rfl
@[simp] theorem finishCommand_pcm (s : State) : (finishCommand s).pcm = s.pcm := rfl

/-! ### finishRecord -/

@[simp] theorem finishRecord_params (s : State) : (finishRecord s).params = s.params := rfl
@[simp] theorem finishRecord_phase (s : State) : (finishRecord s).phase = .idle := rfl
@[simp] theorem finishRecord_freeCtr (s : State) : (finishRecord s).freeCtr = s.freeCtr := rfl
@[simp] theorem finishRecord_status (s : State) : (finishRecord s).status = s.status.finish := rfl
@[simp] theorem finishRecord_cfgWidth (s : State) : (finishRecord s).cfgWidth = s.cfgWidth := rfl
@[simp] theorem finishRecord_cfgHeight (s : State) : (finishRecord s).cfgHeight = s.cfgHeight := rfl
@[simp] theorem finishRecord_inLen (s : State) : (finishRecord s).inLen = s.inLen := rfl
@[simp] theorem finishRecord_cmd (s : State) : (finishRecord s).cmd = s.cmd := rfl
@[simp] theorem finishRecord_errCode (s : State) : (finishRecord s).errCode = s.errCode := rfl
@[simp] theorem finishRecord_errPos (s : State) : (finishRecord s).errPos = s.errPos := rfl
@[simp] theorem finishRecord_consumed (s : State) : (finishRecord s).consumed = BitVec.ofNat 32 (s.pay0.toNat + s.payLen.toNat) := rfl
@[simp] theorem finishRecord_pcmLen (s : State) : (finishRecord s).pcmLen = s.pcmLen := rfl
@[simp] theorem finishRecord_pos (s : State) : (finishRecord s).pos = BitVec.ofNat 32 (s.pay0.toNat + s.payLen.toNat) := rfl
@[simp] theorem finishRecord_ctx (s : State) : (finishRecord s).ctx = s.ctx := rfl
@[simp] theorem finishRecord_node (s : State) : (finishRecord s).node = s.node := rfl
@[simp] theorem finishRecord_bitbuf (s : State) : (finishRecord s).bitbuf = s.bitbuf := rfl
@[simp] theorem finishRecord_bitcnt (s : State) : (finishRecord s).bitcnt = s.bitcnt := rfl
@[simp] theorem finishRecord_k (s : State) : (finishRecord s).k = s.k := rfl
@[simp] theorem finishRecord_hcount (s : State) : (finishRecord s).hcount = s.hcount := rfl
@[simp] theorem finishRecord_hused (s : State) : (finishRecord s).hused = s.hused := rfl
@[simp] theorem finishRecord_hn (s : State) : (finishRecord s).hn = s.hn := rfl
@[simp] theorem finishRecord_biasX (s : State) : (finishRecord s).biasX = s.biasX := rfl
@[simp] theorem finishRecord_biasY (s : State) : (finishRecord s).biasY = s.biasY := rfl
@[simp] theorem finishRecord_flag (s : State) : (finishRecord s).flag = s.flag := rfl
@[simp] theorem finishRecord_flagN (s : State) : (finishRecord s).flagN = s.flagN := rfl
@[simp] theorem finishRecord_mbx (s : State) : (finishRecord s).mbx = s.mbx := rfl
@[simp] theorem finishRecord_mby (s : State) : (finishRecord s).mby = s.mby := rfl
@[simp] theorem finishRecord_q (s : State) : (finishRecord s).q = s.q := rfl
@[simp] theorem finishRecord_sb (s : State) : (finishRecord s).sb = s.sb := rfl
@[simp] theorem finishRecord_cc (s : State) : (finishRecord s).cc = s.cc := rfl
@[simp] theorem finishRecord_predL (s : State) : (finishRecord s).predL = s.predL := rfl
@[simp] theorem finishRecord_predR (s : State) : (finishRecord s).predR = s.predR := rfl
@[simp] theorem finishRecord_recCmd (s : State) : (finishRecord s).recCmd = s.recCmd := rfl
@[simp] theorem finishRecord_chunkSize (s : State) : (finishRecord s).chunkSize = s.chunkSize := rfl
@[simp] theorem finishRecord_decodedSize (s : State) : (finishRecord s).decodedSize = s.decodedSize := rfl
@[simp] theorem finishRecord_recType (s : State) : (finishRecord s).recType = s.recType := rfl
@[simp] theorem finishRecord_recSize (s : State) : (finishRecord s).recSize = s.recSize := rfl
@[simp] theorem finishRecord_recArg (s : State) : (finishRecord s).recArg = s.recArg := rfl
@[simp] theorem finishRecord_pay0 (s : State) : (finishRecord s).pay0 = s.pay0 := rfl
@[simp] theorem finishRecord_payLen (s : State) : (finishRecord s).payLen = s.payLen := rfl
@[simp] theorem finishRecord_root (s : State) : (finishRecord s).root = s.root := rfl
@[simp] theorem finishRecord_child (s : State) : (finishRecord s).child = s.child := rfl
@[simp] theorem finishRecord_pal (s : State) : (finishRecord s).pal = s.pal := rfl
@[simp] theorem finishRecord_cell (s : State) : (finishRecord s).cell = s.cell := rfl
@[simp] theorem finishRecord_quad (s : State) : (finishRecord s).quad = s.quad := rfl
@[simp] theorem finishRecord_nv1 (s : State) : (finishRecord s).nv1 = s.nv1 := rfl
@[simp] theorem finishRecord_nv2 (s : State) : (finishRecord s).nv2 = s.nv2 := rfl
@[simp] theorem finishRecord_pp (s : State) : (finishRecord s).pp = s.pp := rfl
@[simp] theorem finishRecord_inp (s : State) : (finishRecord s).inp = s.inp := rfl
@[simp] theorem finishRecord_idx (s : State) : (finishRecord s).idx = s.idx := rfl
@[simp] theorem finishRecord_pl0 (s : State) : (finishRecord s).pl0 = s.pl0 := rfl
@[simp] theorem finishRecord_pl1 (s : State) : (finishRecord s).pl1 = s.pl1 := rfl
@[simp] theorem finishRecord_rgba (s : State) : (finishRecord s).rgba = s.rgba := rfl
@[simp] theorem finishRecord_pcm (s : State) : (finishRecord s).pcm = s.pcm := rfl

/-! ### clearFault -/

@[simp] theorem clearFault_params (s : State) : (clearFault s).params = s.params := rfl
@[simp] theorem clearFault_phase (s : State) : (clearFault s).phase = s.phase := rfl
@[simp] theorem clearFault_freeCtr (s : State) : (clearFault s).freeCtr = s.freeCtr := rfl
@[simp] theorem clearFault_status (s : State) : (clearFault s).status = { s.status with err := false } := rfl
@[simp] theorem clearFault_cfgWidth (s : State) : (clearFault s).cfgWidth = s.cfgWidth := rfl
@[simp] theorem clearFault_cfgHeight (s : State) : (clearFault s).cfgHeight = s.cfgHeight := rfl
@[simp] theorem clearFault_inLen (s : State) : (clearFault s).inLen = s.inLen := rfl
@[simp] theorem clearFault_cmd (s : State) : (clearFault s).cmd = s.cmd := rfl
@[simp] theorem clearFault_errCode (s : State) : (clearFault s).errCode = 0 := rfl
@[simp] theorem clearFault_errPos (s : State) : (clearFault s).errPos = 0 := rfl
@[simp] theorem clearFault_consumed (s : State) : (clearFault s).consumed = s.consumed := rfl
@[simp] theorem clearFault_pcmLen (s : State) : (clearFault s).pcmLen = s.pcmLen := rfl
@[simp] theorem clearFault_pos (s : State) : (clearFault s).pos = s.pos := rfl
@[simp] theorem clearFault_ctx (s : State) : (clearFault s).ctx = s.ctx := rfl
@[simp] theorem clearFault_node (s : State) : (clearFault s).node = s.node := rfl
@[simp] theorem clearFault_bitbuf (s : State) : (clearFault s).bitbuf = s.bitbuf := rfl
@[simp] theorem clearFault_bitcnt (s : State) : (clearFault s).bitcnt = s.bitcnt := rfl
@[simp] theorem clearFault_k (s : State) : (clearFault s).k = s.k := rfl
@[simp] theorem clearFault_hcount (s : State) : (clearFault s).hcount = s.hcount := rfl
@[simp] theorem clearFault_hused (s : State) : (clearFault s).hused = s.hused := rfl
@[simp] theorem clearFault_hn (s : State) : (clearFault s).hn = s.hn := rfl
@[simp] theorem clearFault_biasX (s : State) : (clearFault s).biasX = s.biasX := rfl
@[simp] theorem clearFault_biasY (s : State) : (clearFault s).biasY = s.biasY := rfl
@[simp] theorem clearFault_flag (s : State) : (clearFault s).flag = s.flag := rfl
@[simp] theorem clearFault_flagN (s : State) : (clearFault s).flagN = s.flagN := rfl
@[simp] theorem clearFault_mbx (s : State) : (clearFault s).mbx = s.mbx := rfl
@[simp] theorem clearFault_mby (s : State) : (clearFault s).mby = s.mby := rfl
@[simp] theorem clearFault_q (s : State) : (clearFault s).q = s.q := rfl
@[simp] theorem clearFault_sb (s : State) : (clearFault s).sb = s.sb := rfl
@[simp] theorem clearFault_cc (s : State) : (clearFault s).cc = s.cc := rfl
@[simp] theorem clearFault_predL (s : State) : (clearFault s).predL = s.predL := rfl
@[simp] theorem clearFault_predR (s : State) : (clearFault s).predR = s.predR := rfl
@[simp] theorem clearFault_recCmd (s : State) : (clearFault s).recCmd = s.recCmd := rfl
@[simp] theorem clearFault_chunkSize (s : State) : (clearFault s).chunkSize = s.chunkSize := rfl
@[simp] theorem clearFault_decodedSize (s : State) : (clearFault s).decodedSize = s.decodedSize := rfl
@[simp] theorem clearFault_recType (s : State) : (clearFault s).recType = s.recType := rfl
@[simp] theorem clearFault_recSize (s : State) : (clearFault s).recSize = s.recSize := rfl
@[simp] theorem clearFault_recArg (s : State) : (clearFault s).recArg = s.recArg := rfl
@[simp] theorem clearFault_pay0 (s : State) : (clearFault s).pay0 = s.pay0 := rfl
@[simp] theorem clearFault_payLen (s : State) : (clearFault s).payLen = s.payLen := rfl
@[simp] theorem clearFault_root (s : State) : (clearFault s).root = s.root := rfl
@[simp] theorem clearFault_child (s : State) : (clearFault s).child = s.child := rfl
@[simp] theorem clearFault_pal (s : State) : (clearFault s).pal = s.pal := rfl
@[simp] theorem clearFault_cell (s : State) : (clearFault s).cell = s.cell := rfl
@[simp] theorem clearFault_quad (s : State) : (clearFault s).quad = s.quad := rfl
@[simp] theorem clearFault_nv1 (s : State) : (clearFault s).nv1 = s.nv1 := rfl
@[simp] theorem clearFault_nv2 (s : State) : (clearFault s).nv2 = s.nv2 := rfl
@[simp] theorem clearFault_pp (s : State) : (clearFault s).pp = s.pp := rfl
@[simp] theorem clearFault_inp (s : State) : (clearFault s).inp = s.inp := rfl
@[simp] theorem clearFault_idx (s : State) : (clearFault s).idx = s.idx := rfl
@[simp] theorem clearFault_pl0 (s : State) : (clearFault s).pl0 = s.pl0 := rfl
@[simp] theorem clearFault_pl1 (s : State) : (clearFault s).pl1 = s.pl1 := rfl
@[simp] theorem clearFault_rgba (s : State) : (clearFault s).rgba = s.rgba := rfl
@[simp] theorem clearFault_pcm (s : State) : (clearFault s).pcm = s.pcm := rfl

/-! ### freePcmLen -/

@[simp] theorem freePcmLen_params (s : State) : (freePcmLen s).params = s.params := rfl
@[simp] theorem freePcmLen_phase (s : State) : (freePcmLen s).phase = s.phase := rfl
@[simp] theorem freePcmLen_freeCtr (s : State) : (freePcmLen s).freeCtr = s.freeCtr + 1 := rfl
@[simp] theorem freePcmLen_status (s : State) : (freePcmLen s).status = s.status := rfl
@[simp] theorem freePcmLen_cfgWidth (s : State) : (freePcmLen s).cfgWidth = s.cfgWidth := rfl
@[simp] theorem freePcmLen_cfgHeight (s : State) : (freePcmLen s).cfgHeight = s.cfgHeight := rfl
@[simp] theorem freePcmLen_inLen (s : State) : (freePcmLen s).inLen = s.inLen := rfl
@[simp] theorem freePcmLen_cmd (s : State) : (freePcmLen s).cmd = s.cmd := rfl
@[simp] theorem freePcmLen_errCode (s : State) : (freePcmLen s).errCode = s.errCode := rfl
@[simp] theorem freePcmLen_errPos (s : State) : (freePcmLen s).errPos = s.errPos := rfl
@[simp] theorem freePcmLen_consumed (s : State) : (freePcmLen s).consumed = s.consumed := rfl
@[simp] theorem freePcmLen_pcmLen (s : State) : (freePcmLen s).pcmLen = Config.freePcmLen s.freeCtr := rfl
@[simp] theorem freePcmLen_pos (s : State) : (freePcmLen s).pos = s.pos := rfl
@[simp] theorem freePcmLen_ctx (s : State) : (freePcmLen s).ctx = s.ctx := rfl
@[simp] theorem freePcmLen_node (s : State) : (freePcmLen s).node = s.node := rfl
@[simp] theorem freePcmLen_bitbuf (s : State) : (freePcmLen s).bitbuf = s.bitbuf := rfl
@[simp] theorem freePcmLen_bitcnt (s : State) : (freePcmLen s).bitcnt = s.bitcnt := rfl
@[simp] theorem freePcmLen_k (s : State) : (freePcmLen s).k = s.k := rfl
@[simp] theorem freePcmLen_hcount (s : State) : (freePcmLen s).hcount = s.hcount := rfl
@[simp] theorem freePcmLen_hused (s : State) : (freePcmLen s).hused = s.hused := rfl
@[simp] theorem freePcmLen_hn (s : State) : (freePcmLen s).hn = s.hn := rfl
@[simp] theorem freePcmLen_biasX (s : State) : (freePcmLen s).biasX = s.biasX := rfl
@[simp] theorem freePcmLen_biasY (s : State) : (freePcmLen s).biasY = s.biasY := rfl
@[simp] theorem freePcmLen_flag (s : State) : (freePcmLen s).flag = s.flag := rfl
@[simp] theorem freePcmLen_flagN (s : State) : (freePcmLen s).flagN = s.flagN := rfl
@[simp] theorem freePcmLen_mbx (s : State) : (freePcmLen s).mbx = s.mbx := rfl
@[simp] theorem freePcmLen_mby (s : State) : (freePcmLen s).mby = s.mby := rfl
@[simp] theorem freePcmLen_q (s : State) : (freePcmLen s).q = s.q := rfl
@[simp] theorem freePcmLen_sb (s : State) : (freePcmLen s).sb = s.sb := rfl
@[simp] theorem freePcmLen_cc (s : State) : (freePcmLen s).cc = s.cc := rfl
@[simp] theorem freePcmLen_predL (s : State) : (freePcmLen s).predL = s.predL := rfl
@[simp] theorem freePcmLen_predR (s : State) : (freePcmLen s).predR = s.predR := rfl
@[simp] theorem freePcmLen_recCmd (s : State) : (freePcmLen s).recCmd = s.recCmd := rfl
@[simp] theorem freePcmLen_chunkSize (s : State) : (freePcmLen s).chunkSize = s.chunkSize := rfl
@[simp] theorem freePcmLen_decodedSize (s : State) : (freePcmLen s).decodedSize = s.decodedSize := rfl
@[simp] theorem freePcmLen_recType (s : State) : (freePcmLen s).recType = s.recType := rfl
@[simp] theorem freePcmLen_recSize (s : State) : (freePcmLen s).recSize = s.recSize := rfl
@[simp] theorem freePcmLen_recArg (s : State) : (freePcmLen s).recArg = s.recArg := rfl
@[simp] theorem freePcmLen_pay0 (s : State) : (freePcmLen s).pay0 = s.pay0 := rfl
@[simp] theorem freePcmLen_payLen (s : State) : (freePcmLen s).payLen = s.payLen := rfl
@[simp] theorem freePcmLen_root (s : State) : (freePcmLen s).root = s.root := rfl
@[simp] theorem freePcmLen_child (s : State) : (freePcmLen s).child = s.child := rfl
@[simp] theorem freePcmLen_pal (s : State) : (freePcmLen s).pal = s.pal := rfl
@[simp] theorem freePcmLen_cell (s : State) : (freePcmLen s).cell = s.cell := rfl
@[simp] theorem freePcmLen_quad (s : State) : (freePcmLen s).quad = s.quad := rfl
@[simp] theorem freePcmLen_nv1 (s : State) : (freePcmLen s).nv1 = s.nv1 := rfl
@[simp] theorem freePcmLen_nv2 (s : State) : (freePcmLen s).nv2 = s.nv2 := rfl
@[simp] theorem freePcmLen_pp (s : State) : (freePcmLen s).pp = s.pp := rfl
@[simp] theorem freePcmLen_inp (s : State) : (freePcmLen s).inp = s.inp := rfl
@[simp] theorem freePcmLen_idx (s : State) : (freePcmLen s).idx = s.idx := rfl
@[simp] theorem freePcmLen_pl0 (s : State) : (freePcmLen s).pl0 = s.pl0 := rfl
@[simp] theorem freePcmLen_pl1 (s : State) : (freePcmLen s).pl1 = s.pl1 := rfl
@[simp] theorem freePcmLen_rgba (s : State) : (freePcmLen s).rgba = s.rgba := rfl
@[simp] theorem freePcmLen_pcm (s : State) : (freePcmLen s).pcm = s.pcm := rfl

/-! ### forgetOutputs -/

@[simp] theorem forgetOutputs_params (s : State) : (forgetOutputs s).params = s.params := by unfold forgetOutputs; split <;> simp
@[simp] theorem forgetOutputs_phase (s : State) : (forgetOutputs s).phase = s.phase := by unfold forgetOutputs; split <;> simp
@[simp] theorem forgetOutputs_status (s : State) : (forgetOutputs s).status = s.status := by unfold forgetOutputs; split <;> simp
@[simp] theorem forgetOutputs_cfgWidth (s : State) : (forgetOutputs s).cfgWidth = s.cfgWidth := by unfold forgetOutputs; split <;> simp
@[simp] theorem forgetOutputs_cfgHeight (s : State) : (forgetOutputs s).cfgHeight = s.cfgHeight := by unfold forgetOutputs; split <;> simp
@[simp] theorem forgetOutputs_inLen (s : State) : (forgetOutputs s).inLen = s.inLen := by unfold forgetOutputs; split <;> simp
@[simp] theorem forgetOutputs_cmd (s : State) : (forgetOutputs s).cmd = s.cmd := by unfold forgetOutputs; split <;> simp
@[simp] theorem forgetOutputs_errCode (s : State) : (forgetOutputs s).errCode = s.errCode := by unfold forgetOutputs; split <;> simp
@[simp] theorem forgetOutputs_errPos (s : State) : (forgetOutputs s).errPos = s.errPos := by unfold forgetOutputs; split <;> simp
@[simp] theorem forgetOutputs_consumed (s : State) : (forgetOutputs s).consumed = s.consumed := by unfold forgetOutputs; split <;> simp
@[simp] theorem forgetOutputs_pos (s : State) : (forgetOutputs s).pos = s.pos := by unfold forgetOutputs; split <;> simp
@[simp] theorem forgetOutputs_ctx (s : State) : (forgetOutputs s).ctx = s.ctx := by unfold forgetOutputs; split <;> simp
@[simp] theorem forgetOutputs_node (s : State) : (forgetOutputs s).node = s.node := by unfold forgetOutputs; split <;> simp
@[simp] theorem forgetOutputs_bitbuf (s : State) : (forgetOutputs s).bitbuf = s.bitbuf := by unfold forgetOutputs; split <;> simp
@[simp] theorem forgetOutputs_bitcnt (s : State) : (forgetOutputs s).bitcnt = s.bitcnt := by unfold forgetOutputs; split <;> simp
@[simp] theorem forgetOutputs_k (s : State) : (forgetOutputs s).k = s.k := by unfold forgetOutputs; split <;> simp
@[simp] theorem forgetOutputs_hcount (s : State) : (forgetOutputs s).hcount = s.hcount := by unfold forgetOutputs; split <;> simp
@[simp] theorem forgetOutputs_hused (s : State) : (forgetOutputs s).hused = s.hused := by unfold forgetOutputs; split <;> simp
@[simp] theorem forgetOutputs_hn (s : State) : (forgetOutputs s).hn = s.hn := by unfold forgetOutputs; split <;> simp
@[simp] theorem forgetOutputs_biasX (s : State) : (forgetOutputs s).biasX = s.biasX := by unfold forgetOutputs; split <;> simp
@[simp] theorem forgetOutputs_biasY (s : State) : (forgetOutputs s).biasY = s.biasY := by unfold forgetOutputs; split <;> simp
@[simp] theorem forgetOutputs_flag (s : State) : (forgetOutputs s).flag = s.flag := by unfold forgetOutputs; split <;> simp
@[simp] theorem forgetOutputs_flagN (s : State) : (forgetOutputs s).flagN = s.flagN := by unfold forgetOutputs; split <;> simp
@[simp] theorem forgetOutputs_mbx (s : State) : (forgetOutputs s).mbx = s.mbx := by unfold forgetOutputs; split <;> simp
@[simp] theorem forgetOutputs_mby (s : State) : (forgetOutputs s).mby = s.mby := by unfold forgetOutputs; split <;> simp
@[simp] theorem forgetOutputs_q (s : State) : (forgetOutputs s).q = s.q := by unfold forgetOutputs; split <;> simp
@[simp] theorem forgetOutputs_sb (s : State) : (forgetOutputs s).sb = s.sb := by unfold forgetOutputs; split <;> simp
@[simp] theorem forgetOutputs_cc (s : State) : (forgetOutputs s).cc = s.cc := by unfold forgetOutputs; split <;> simp
@[simp] theorem forgetOutputs_predL (s : State) : (forgetOutputs s).predL = s.predL := by unfold forgetOutputs; split <;> simp
@[simp] theorem forgetOutputs_predR (s : State) : (forgetOutputs s).predR = s.predR := by unfold forgetOutputs; split <;> simp
@[simp] theorem forgetOutputs_recCmd (s : State) : (forgetOutputs s).recCmd = s.recCmd := by unfold forgetOutputs; split <;> simp
@[simp] theorem forgetOutputs_chunkSize (s : State) : (forgetOutputs s).chunkSize = s.chunkSize := by unfold forgetOutputs; split <;> simp
@[simp] theorem forgetOutputs_decodedSize (s : State) : (forgetOutputs s).decodedSize = s.decodedSize := by unfold forgetOutputs; split <;> simp
@[simp] theorem forgetOutputs_recType (s : State) : (forgetOutputs s).recType = s.recType := by unfold forgetOutputs; split <;> simp
@[simp] theorem forgetOutputs_recSize (s : State) : (forgetOutputs s).recSize = s.recSize := by unfold forgetOutputs; split <;> simp
@[simp] theorem forgetOutputs_recArg (s : State) : (forgetOutputs s).recArg = s.recArg := by unfold forgetOutputs; split <;> simp
@[simp] theorem forgetOutputs_pay0 (s : State) : (forgetOutputs s).pay0 = s.pay0 := by unfold forgetOutputs; split <;> simp
@[simp] theorem forgetOutputs_payLen (s : State) : (forgetOutputs s).payLen = s.payLen := by unfold forgetOutputs; split <;> simp
@[simp] theorem forgetOutputs_root (s : State) : (forgetOutputs s).root = s.root := by unfold forgetOutputs; split <;> simp
@[simp] theorem forgetOutputs_child (s : State) : (forgetOutputs s).child = s.child := by unfold forgetOutputs; split <;> simp
@[simp] theorem forgetOutputs_pal (s : State) : (forgetOutputs s).pal = s.pal := by unfold forgetOutputs; split <;> simp
@[simp] theorem forgetOutputs_cell (s : State) : (forgetOutputs s).cell = s.cell := by unfold forgetOutputs; split <;> simp
@[simp] theorem forgetOutputs_quad (s : State) : (forgetOutputs s).quad = s.quad := by unfold forgetOutputs; split <;> simp
@[simp] theorem forgetOutputs_nv1 (s : State) : (forgetOutputs s).nv1 = s.nv1 := by unfold forgetOutputs; split <;> simp
@[simp] theorem forgetOutputs_nv2 (s : State) : (forgetOutputs s).nv2 = s.nv2 := by unfold forgetOutputs; split <;> simp
@[simp] theorem forgetOutputs_pp (s : State) : (forgetOutputs s).pp = s.pp := by unfold forgetOutputs; split <;> simp
@[simp] theorem forgetOutputs_inp (s : State) : (forgetOutputs s).inp = s.inp := by unfold forgetOutputs; split <;> simp

/-! ### raiseFault -/

@[simp] theorem raiseFault_params (s : State) (kind : Kind) : (raiseFault s kind).params = s.params := by simp [raiseFault]
@[simp] theorem raiseFault_phase (s : State) (kind : Kind) : (raiseFault s kind).phase = .idle := by simp [raiseFault]
@[simp] theorem raiseFault_freeCtr (s : State) (kind : Kind) : (raiseFault s kind).freeCtr = (forgetOutputs s).freeCtr := by simp [raiseFault]
@[simp] theorem raiseFault_status (s : State) (kind : Kind) : (raiseFault s kind).status = s.status.fail := by simp [raiseFault]
@[simp] theorem raiseFault_cfgWidth (s : State) (kind : Kind) : (raiseFault s kind).cfgWidth = s.cfgWidth := by simp [raiseFault]
@[simp] theorem raiseFault_cfgHeight (s : State) (kind : Kind) : (raiseFault s kind).cfgHeight = s.cfgHeight := by simp [raiseFault]
@[simp] theorem raiseFault_inLen (s : State) (kind : Kind) : (raiseFault s kind).inLen = s.inLen := by simp [raiseFault]
@[simp] theorem raiseFault_cmd (s : State) (kind : Kind) : (raiseFault s kind).cmd = none := by simp [raiseFault]
@[simp] theorem raiseFault_errCode (s : State) (kind : Kind) : (raiseFault s kind).errCode = (if s.status.err then s.errCode else kind.code) := by simp [raiseFault]
@[simp] theorem raiseFault_errPos (s : State) (kind : Kind) : (raiseFault s kind).errPos = (if s.status.err then s.errPos else s.pos) := by simp [raiseFault]
@[simp] theorem raiseFault_consumed (s : State) (kind : Kind) : (raiseFault s kind).consumed = 0 := by simp [raiseFault]
@[simp] theorem raiseFault_pcmLen (s : State) (kind : Kind) : (raiseFault s kind).pcmLen = (forgetOutputs s).pcmLen := by simp [raiseFault]
@[simp] theorem raiseFault_pos (s : State) (kind : Kind) : (raiseFault s kind).pos = s.pos := by simp [raiseFault]
@[simp] theorem raiseFault_ctx (s : State) (kind : Kind) : (raiseFault s kind).ctx = s.ctx := by simp [raiseFault]
@[simp] theorem raiseFault_node (s : State) (kind : Kind) : (raiseFault s kind).node = s.node := by simp [raiseFault]
@[simp] theorem raiseFault_bitbuf (s : State) (kind : Kind) : (raiseFault s kind).bitbuf = s.bitbuf := by simp [raiseFault]
@[simp] theorem raiseFault_bitcnt (s : State) (kind : Kind) : (raiseFault s kind).bitcnt = s.bitcnt := by simp [raiseFault]
@[simp] theorem raiseFault_k (s : State) (kind : Kind) : (raiseFault s kind).k = s.k := by simp [raiseFault]
@[simp] theorem raiseFault_hcount (s : State) (kind : Kind) : (raiseFault s kind).hcount = s.hcount := by simp [raiseFault]
@[simp] theorem raiseFault_hused (s : State) (kind : Kind) : (raiseFault s kind).hused = s.hused := by simp [raiseFault]
@[simp] theorem raiseFault_hn (s : State) (kind : Kind) : (raiseFault s kind).hn = s.hn := by simp [raiseFault]
@[simp] theorem raiseFault_biasX (s : State) (kind : Kind) : (raiseFault s kind).biasX = s.biasX := by simp [raiseFault]
@[simp] theorem raiseFault_biasY (s : State) (kind : Kind) : (raiseFault s kind).biasY = s.biasY := by simp [raiseFault]
@[simp] theorem raiseFault_flag (s : State) (kind : Kind) : (raiseFault s kind).flag = s.flag := by simp [raiseFault]
@[simp] theorem raiseFault_flagN (s : State) (kind : Kind) : (raiseFault s kind).flagN = s.flagN := by simp [raiseFault]
@[simp] theorem raiseFault_mbx (s : State) (kind : Kind) : (raiseFault s kind).mbx = s.mbx := by simp [raiseFault]
@[simp] theorem raiseFault_mby (s : State) (kind : Kind) : (raiseFault s kind).mby = s.mby := by simp [raiseFault]
@[simp] theorem raiseFault_q (s : State) (kind : Kind) : (raiseFault s kind).q = s.q := by simp [raiseFault]
@[simp] theorem raiseFault_sb (s : State) (kind : Kind) : (raiseFault s kind).sb = s.sb := by simp [raiseFault]
@[simp] theorem raiseFault_cc (s : State) (kind : Kind) : (raiseFault s kind).cc = s.cc := by simp [raiseFault]
@[simp] theorem raiseFault_predL (s : State) (kind : Kind) : (raiseFault s kind).predL = s.predL := by simp [raiseFault]
@[simp] theorem raiseFault_predR (s : State) (kind : Kind) : (raiseFault s kind).predR = s.predR := by simp [raiseFault]
@[simp] theorem raiseFault_recCmd (s : State) (kind : Kind) : (raiseFault s kind).recCmd = s.recCmd := by simp [raiseFault]
@[simp] theorem raiseFault_chunkSize (s : State) (kind : Kind) : (raiseFault s kind).chunkSize = s.chunkSize := by simp [raiseFault]
@[simp] theorem raiseFault_decodedSize (s : State) (kind : Kind) : (raiseFault s kind).decodedSize = s.decodedSize := by simp [raiseFault]
@[simp] theorem raiseFault_recType (s : State) (kind : Kind) : (raiseFault s kind).recType = s.recType := by simp [raiseFault]
@[simp] theorem raiseFault_recSize (s : State) (kind : Kind) : (raiseFault s kind).recSize = s.recSize := by simp [raiseFault]
@[simp] theorem raiseFault_recArg (s : State) (kind : Kind) : (raiseFault s kind).recArg = s.recArg := by simp [raiseFault]
@[simp] theorem raiseFault_pay0 (s : State) (kind : Kind) : (raiseFault s kind).pay0 = s.pay0 := by simp [raiseFault]
@[simp] theorem raiseFault_payLen (s : State) (kind : Kind) : (raiseFault s kind).payLen = s.payLen := by simp [raiseFault]
@[simp] theorem raiseFault_root (s : State) (kind : Kind) : (raiseFault s kind).root = s.root := by simp [raiseFault]
@[simp] theorem raiseFault_child (s : State) (kind : Kind) : (raiseFault s kind).child = s.child := by simp [raiseFault]
@[simp] theorem raiseFault_pal (s : State) (kind : Kind) : (raiseFault s kind).pal = s.pal := by simp [raiseFault]
@[simp] theorem raiseFault_cell (s : State) (kind : Kind) : (raiseFault s kind).cell = s.cell := by simp [raiseFault]
@[simp] theorem raiseFault_quad (s : State) (kind : Kind) : (raiseFault s kind).quad = s.quad := by simp [raiseFault]
@[simp] theorem raiseFault_nv1 (s : State) (kind : Kind) : (raiseFault s kind).nv1 = s.nv1 := by simp [raiseFault]
@[simp] theorem raiseFault_nv2 (s : State) (kind : Kind) : (raiseFault s kind).nv2 = s.nv2 := by simp [raiseFault]
@[simp] theorem raiseFault_pp (s : State) (kind : Kind) : (raiseFault s kind).pp = s.pp := by simp [raiseFault]
@[simp] theorem raiseFault_inp (s : State) (kind : Kind) : (raiseFault s kind).inp = s.inp := by simp [raiseFault]
@[simp] theorem raiseFault_idx (s : State) (kind : Kind) : (raiseFault s kind).idx = (forgetOutputs s).idx := by simp [raiseFault]
@[simp] theorem raiseFault_pl0 (s : State) (kind : Kind) : (raiseFault s kind).pl0 = (forgetOutputs s).pl0 := by simp [raiseFault]
@[simp] theorem raiseFault_pl1 (s : State) (kind : Kind) : (raiseFault s kind).pl1 = (forgetOutputs s).pl1 := by simp [raiseFault]
@[simp] theorem raiseFault_rgba (s : State) (kind : Kind) : (raiseFault s kind).rgba = (forgetOutputs s).rgba := by simp [raiseFault]
@[simp] theorem raiseFault_pcm (s : State) (kind : Kind) : (raiseFault s kind).pcm = (forgetOutputs s).pcm := by simp [raiseFault]

/-! ### latchCommand -/

@[simp] theorem latchCommand_params (command : Word) (s : State) : (latchCommand command s).params = s.params := rfl
@[simp] theorem latchCommand_phase (command : Word) (s : State) : (latchCommand command s).phase = s.phase := rfl
@[simp] theorem latchCommand_freeCtr (command : Word) (s : State) : (latchCommand command s).freeCtr = s.freeCtr := rfl
@[simp] theorem latchCommand_status (command : Word) (s : State) : (latchCommand command s).status = s.status := rfl
@[simp] theorem latchCommand_cfgWidth (command : Word) (s : State) : (latchCommand command s).cfgWidth = s.cfgWidth := rfl
@[simp] theorem latchCommand_cfgHeight (command : Word) (s : State) : (latchCommand command s).cfgHeight = s.cfgHeight := rfl
@[simp] theorem latchCommand_inLen (command : Word) (s : State) : (latchCommand command s).inLen = s.inLen := rfl
@[simp] theorem latchCommand_cmd (command : Word) (s : State) : (latchCommand command s).cmd = s.cmd := rfl
@[simp] theorem latchCommand_errCode (command : Word) (s : State) : (latchCommand command s).errCode = s.errCode := rfl
@[simp] theorem latchCommand_errPos (command : Word) (s : State) : (latchCommand command s).errPos = s.errPos := rfl
@[simp] theorem latchCommand_consumed (command : Word) (s : State) : (latchCommand command s).consumed = s.consumed := rfl
@[simp] theorem latchCommand_pcmLen (command : Word) (s : State) : (latchCommand command s).pcmLen = s.pcmLen := rfl
@[simp] theorem latchCommand_pos (command : Word) (s : State) : (latchCommand command s).pos = BitVec.ofNat 32 (s.pos.toNat + 4) := rfl
@[simp] theorem latchCommand_ctx (command : Word) (s : State) : (latchCommand command s).ctx = s.ctx := rfl
@[simp] theorem latchCommand_node (command : Word) (s : State) : (latchCommand command s).node = s.node := rfl
@[simp] theorem latchCommand_bitbuf (command : Word) (s : State) : (latchCommand command s).bitbuf = s.bitbuf := rfl
@[simp] theorem latchCommand_bitcnt (command : Word) (s : State) : (latchCommand command s).bitcnt = s.bitcnt := rfl
@[simp] theorem latchCommand_k (command : Word) (s : State) : (latchCommand command s).k = s.k := rfl
@[simp] theorem latchCommand_hcount (command : Word) (s : State) : (latchCommand command s).hcount = s.hcount := rfl
@[simp] theorem latchCommand_hused (command : Word) (s : State) : (latchCommand command s).hused = s.hused := rfl
@[simp] theorem latchCommand_hn (command : Word) (s : State) : (latchCommand command s).hn = s.hn := rfl
@[simp] theorem latchCommand_biasX (command : Word) (s : State) : (latchCommand command s).biasX = s.biasX := rfl
@[simp] theorem latchCommand_biasY (command : Word) (s : State) : (latchCommand command s).biasY = s.biasY := rfl
@[simp] theorem latchCommand_flag (command : Word) (s : State) : (latchCommand command s).flag = s.flag := rfl
@[simp] theorem latchCommand_flagN (command : Word) (s : State) : (latchCommand command s).flagN = s.flagN := rfl
@[simp] theorem latchCommand_mbx (command : Word) (s : State) : (latchCommand command s).mbx = s.mbx := rfl
@[simp] theorem latchCommand_mby (command : Word) (s : State) : (latchCommand command s).mby = s.mby := rfl
@[simp] theorem latchCommand_q (command : Word) (s : State) : (latchCommand command s).q = s.q := rfl
@[simp] theorem latchCommand_sb (command : Word) (s : State) : (latchCommand command s).sb = s.sb := rfl
@[simp] theorem latchCommand_cc (command : Word) (s : State) : (latchCommand command s).cc = s.cc := rfl
@[simp] theorem latchCommand_predL (command : Word) (s : State) : (latchCommand command s).predL = s.predL := rfl
@[simp] theorem latchCommand_predR (command : Word) (s : State) : (latchCommand command s).predR = s.predR := rfl
@[simp] theorem latchCommand_recCmd (command : Word) (s : State) : (latchCommand command s).recCmd = command := rfl
@[simp] theorem latchCommand_chunkSize (command : Word) (s : State) : (latchCommand command s).chunkSize = s.chunkSize := rfl
@[simp] theorem latchCommand_decodedSize (command : Word) (s : State) : (latchCommand command s).decodedSize = s.decodedSize := rfl
@[simp] theorem latchCommand_recType (command : Word) (s : State) : (latchCommand command s).recType = s.recType := rfl
@[simp] theorem latchCommand_recSize (command : Word) (s : State) : (latchCommand command s).recSize = s.recSize := rfl
@[simp] theorem latchCommand_recArg (command : Word) (s : State) : (latchCommand command s).recArg = s.recArg := rfl
@[simp] theorem latchCommand_pay0 (command : Word) (s : State) : (latchCommand command s).pay0 = s.pay0 := rfl
@[simp] theorem latchCommand_payLen (command : Word) (s : State) : (latchCommand command s).payLen = s.payLen := rfl
@[simp] theorem latchCommand_root (command : Word) (s : State) : (latchCommand command s).root = s.root := rfl
@[simp] theorem latchCommand_child (command : Word) (s : State) : (latchCommand command s).child = s.child := rfl
@[simp] theorem latchCommand_pal (command : Word) (s : State) : (latchCommand command s).pal = s.pal := rfl
@[simp] theorem latchCommand_cell (command : Word) (s : State) : (latchCommand command s).cell = s.cell := rfl
@[simp] theorem latchCommand_quad (command : Word) (s : State) : (latchCommand command s).quad = s.quad := rfl
@[simp] theorem latchCommand_nv1 (command : Word) (s : State) : (latchCommand command s).nv1 = s.nv1 := rfl
@[simp] theorem latchCommand_nv2 (command : Word) (s : State) : (latchCommand command s).nv2 = s.nv2 := rfl
@[simp] theorem latchCommand_pp (command : Word) (s : State) : (latchCommand command s).pp = s.pp := rfl
@[simp] theorem latchCommand_inp (command : Word) (s : State) : (latchCommand command s).inp = s.inp := rfl
@[simp] theorem latchCommand_idx (command : Word) (s : State) : (latchCommand command s).idx = s.idx := rfl
@[simp] theorem latchCommand_pl0 (command : Word) (s : State) : (latchCommand command s).pl0 = s.pl0 := rfl
@[simp] theorem latchCommand_pl1 (command : Word) (s : State) : (latchCommand command s).pl1 = s.pl1 := rfl
@[simp] theorem latchCommand_rgba (command : Word) (s : State) : (latchCommand command s).rgba = s.rgba := rfl
@[simp] theorem latchCommand_pcm (command : Word) (s : State) : (latchCommand command s).pcm = s.pcm := rfl

/-! ### emitPixel -/

@[simp] theorem emitPixel_params (s : State) : (emitPixel s).params = s.params := rfl
@[simp] theorem emitPixel_phase (s : State) : (emitPixel s).phase = s.phase := rfl
@[simp] theorem emitPixel_freeCtr (s : State) : (emitPixel s).freeCtr = s.freeCtr := rfl
@[simp] theorem emitPixel_status (s : State) : (emitPixel s).status = s.status := rfl
@[simp] theorem emitPixel_cfgWidth (s : State) : (emitPixel s).cfgWidth = s.cfgWidth := rfl
@[simp] theorem emitPixel_cfgHeight (s : State) : (emitPixel s).cfgHeight = s.cfgHeight := rfl
@[simp] theorem emitPixel_inLen (s : State) : (emitPixel s).inLen = s.inLen := rfl
@[simp] theorem emitPixel_cmd (s : State) : (emitPixel s).cmd = s.cmd := rfl
@[simp] theorem emitPixel_errCode (s : State) : (emitPixel s).errCode = s.errCode := rfl
@[simp] theorem emitPixel_errPos (s : State) : (emitPixel s).errPos = s.errPos := rfl
@[simp] theorem emitPixel_consumed (s : State) : (emitPixel s).consumed = s.consumed := rfl
@[simp] theorem emitPixel_pcmLen (s : State) : (emitPixel s).pcmLen = s.pcmLen := rfl
@[simp] theorem emitPixel_pos (s : State) : (emitPixel s).pos = s.pos := rfl
@[simp] theorem emitPixel_ctx (s : State) : (emitPixel s).ctx = s.node.setWidth 8 := rfl
@[simp] theorem emitPixel_node (s : State) : (emitPixel s).node = s.node := rfl
@[simp] theorem emitPixel_bitbuf (s : State) : (emitPixel s).bitbuf = s.bitbuf := rfl
@[simp] theorem emitPixel_bitcnt (s : State) : (emitPixel s).bitcnt = s.bitcnt := rfl
@[simp] theorem emitPixel_k (s : State) : (emitPixel s).k = s.k + 1 := rfl
@[simp] theorem emitPixel_hcount (s : State) : (emitPixel s).hcount = s.hcount := rfl
@[simp] theorem emitPixel_hused (s : State) : (emitPixel s).hused = s.hused := rfl
@[simp] theorem emitPixel_hn (s : State) : (emitPixel s).hn = s.hn := rfl
@[simp] theorem emitPixel_biasX (s : State) : (emitPixel s).biasX = s.biasX := rfl
@[simp] theorem emitPixel_biasY (s : State) : (emitPixel s).biasY = s.biasY := rfl
@[simp] theorem emitPixel_flag (s : State) : (emitPixel s).flag = s.flag := rfl
@[simp] theorem emitPixel_flagN (s : State) : (emitPixel s).flagN = s.flagN := rfl
@[simp] theorem emitPixel_mbx (s : State) : (emitPixel s).mbx = s.mbx := rfl
@[simp] theorem emitPixel_mby (s : State) : (emitPixel s).mby = s.mby := rfl
@[simp] theorem emitPixel_q (s : State) : (emitPixel s).q = s.q := rfl
@[simp] theorem emitPixel_sb (s : State) : (emitPixel s).sb = s.sb := rfl
@[simp] theorem emitPixel_cc (s : State) : (emitPixel s).cc = s.cc := rfl
@[simp] theorem emitPixel_predL (s : State) : (emitPixel s).predL = s.predL := rfl
@[simp] theorem emitPixel_predR (s : State) : (emitPixel s).predR = s.predR := rfl
@[simp] theorem emitPixel_recCmd (s : State) : (emitPixel s).recCmd = s.recCmd := rfl
@[simp] theorem emitPixel_chunkSize (s : State) : (emitPixel s).chunkSize = s.chunkSize := rfl
@[simp] theorem emitPixel_decodedSize (s : State) : (emitPixel s).decodedSize = s.decodedSize := rfl
@[simp] theorem emitPixel_recType (s : State) : (emitPixel s).recType = s.recType := rfl
@[simp] theorem emitPixel_recSize (s : State) : (emitPixel s).recSize = s.recSize := rfl
@[simp] theorem emitPixel_recArg (s : State) : (emitPixel s).recArg = s.recArg := rfl
@[simp] theorem emitPixel_pay0 (s : State) : (emitPixel s).pay0 = s.pay0 := rfl
@[simp] theorem emitPixel_payLen (s : State) : (emitPixel s).payLen = s.payLen := rfl
@[simp] theorem emitPixel_root (s : State) : (emitPixel s).root = s.root := rfl
@[simp] theorem emitPixel_child (s : State) : (emitPixel s).child = s.child := rfl
@[simp] theorem emitPixel_pal (s : State) : (emitPixel s).pal = s.pal := rfl
@[simp] theorem emitPixel_cell (s : State) : (emitPixel s).cell = s.cell := rfl
@[simp] theorem emitPixel_quad (s : State) : (emitPixel s).quad = s.quad := rfl
@[simp] theorem emitPixel_nv1 (s : State) : (emitPixel s).nv1 = s.nv1 := rfl
@[simp] theorem emitPixel_nv2 (s : State) : (emitPixel s).nv2 = s.nv2 := rfl
@[simp] theorem emitPixel_pp (s : State) : (emitPixel s).pp = s.pp := rfl
@[simp] theorem emitPixel_inp (s : State) : (emitPixel s).inp = s.inp := rfl
@[simp] theorem emitPixel_idx (s : State) : (emitPixel s).idx = s.idx.write s.k.toNat (s.node.setWidth 8) := rfl
@[simp] theorem emitPixel_pl0 (s : State) : (emitPixel s).pl0 = s.pl0 := rfl
@[simp] theorem emitPixel_pl1 (s : State) : (emitPixel s).pl1 = s.pl1 := rfl
@[simp] theorem emitPixel_rgba (s : State) : (emitPixel s).rgba = s.rgba := rfl
@[simp] theorem emitPixel_pcm (s : State) : (emitPixel s).pcm = s.pcm := rfl

/-! ### pushSample -/

@[simp] theorem pushSample_params (n : Nat) (p : Half) (s : State) : (pushSample n p s).params = s.params := rfl
@[simp] theorem pushSample_phase (n : Nat) (p : Half) (s : State) : (pushSample n p s).phase = s.phase := rfl
@[simp] theorem pushSample_freeCtr (n : Nat) (p : Half) (s : State) : (pushSample n p s).freeCtr = s.freeCtr := rfl
@[simp] theorem pushSample_status (n : Nat) (p : Half) (s : State) : (pushSample n p s).status = s.status := rfl
@[simp] theorem pushSample_cfgWidth (n : Nat) (p : Half) (s : State) : (pushSample n p s).cfgWidth = s.cfgWidth := rfl
@[simp] theorem pushSample_cfgHeight (n : Nat) (p : Half) (s : State) : (pushSample n p s).cfgHeight = s.cfgHeight := rfl
@[simp] theorem pushSample_inLen (n : Nat) (p : Half) (s : State) : (pushSample n p s).inLen = s.inLen := rfl
@[simp] theorem pushSample_cmd (n : Nat) (p : Half) (s : State) : (pushSample n p s).cmd = s.cmd := rfl
@[simp] theorem pushSample_errCode (n : Nat) (p : Half) (s : State) : (pushSample n p s).errCode = s.errCode := rfl
@[simp] theorem pushSample_errPos (n : Nat) (p : Half) (s : State) : (pushSample n p s).errPos = s.errPos := rfl
@[simp] theorem pushSample_consumed (n : Nat) (p : Half) (s : State) : (pushSample n p s).consumed = s.consumed := rfl
@[simp] theorem pushSample_pcmLen (n : Nat) (p : Half) (s : State) : (pushSample n p s).pcmLen = s.pcmLen := rfl
@[simp] theorem pushSample_pos (n : Nat) (p : Half) (s : State) : (pushSample n p s).pos = s.pos := rfl
@[simp] theorem pushSample_ctx (n : Nat) (p : Half) (s : State) : (pushSample n p s).ctx = s.ctx := rfl
@[simp] theorem pushSample_node (n : Nat) (p : Half) (s : State) : (pushSample n p s).node = s.node := rfl
@[simp] theorem pushSample_bitbuf (n : Nat) (p : Half) (s : State) : (pushSample n p s).bitbuf = s.bitbuf := rfl
@[simp] theorem pushSample_bitcnt (n : Nat) (p : Half) (s : State) : (pushSample n p s).bitcnt = s.bitcnt := rfl
@[simp] theorem pushSample_k (n : Nat) (p : Half) (s : State) : (pushSample n p s).k = s.k := rfl
@[simp] theorem pushSample_hcount (n : Nat) (p : Half) (s : State) : (pushSample n p s).hcount = s.hcount := rfl
@[simp] theorem pushSample_hused (n : Nat) (p : Half) (s : State) : (pushSample n p s).hused = s.hused := rfl
@[simp] theorem pushSample_hn (n : Nat) (p : Half) (s : State) : (pushSample n p s).hn = s.hn := rfl
@[simp] theorem pushSample_biasX (n : Nat) (p : Half) (s : State) : (pushSample n p s).biasX = s.biasX := rfl
@[simp] theorem pushSample_biasY (n : Nat) (p : Half) (s : State) : (pushSample n p s).biasY = s.biasY := rfl
@[simp] theorem pushSample_flag (n : Nat) (p : Half) (s : State) : (pushSample n p s).flag = s.flag := rfl
@[simp] theorem pushSample_flagN (n : Nat) (p : Half) (s : State) : (pushSample n p s).flagN = s.flagN := rfl
@[simp] theorem pushSample_mbx (n : Nat) (p : Half) (s : State) : (pushSample n p s).mbx = s.mbx := rfl
@[simp] theorem pushSample_mby (n : Nat) (p : Half) (s : State) : (pushSample n p s).mby = s.mby := rfl
@[simp] theorem pushSample_q (n : Nat) (p : Half) (s : State) : (pushSample n p s).q = s.q := rfl
@[simp] theorem pushSample_sb (n : Nat) (p : Half) (s : State) : (pushSample n p s).sb = s.sb := rfl
@[simp] theorem pushSample_cc (n : Nat) (p : Half) (s : State) : (pushSample n p s).cc = s.cc := rfl
@[simp] theorem pushSample_predL (n : Nat) (p : Half) (s : State) : (pushSample n p s).predL = s.predL := rfl
@[simp] theorem pushSample_predR (n : Nat) (p : Half) (s : State) : (pushSample n p s).predR = s.predR := rfl
@[simp] theorem pushSample_recCmd (n : Nat) (p : Half) (s : State) : (pushSample n p s).recCmd = s.recCmd := rfl
@[simp] theorem pushSample_chunkSize (n : Nat) (p : Half) (s : State) : (pushSample n p s).chunkSize = s.chunkSize := rfl
@[simp] theorem pushSample_decodedSize (n : Nat) (p : Half) (s : State) : (pushSample n p s).decodedSize = s.decodedSize := rfl
@[simp] theorem pushSample_recType (n : Nat) (p : Half) (s : State) : (pushSample n p s).recType = s.recType := rfl
@[simp] theorem pushSample_recSize (n : Nat) (p : Half) (s : State) : (pushSample n p s).recSize = s.recSize := rfl
@[simp] theorem pushSample_recArg (n : Nat) (p : Half) (s : State) : (pushSample n p s).recArg = s.recArg := rfl
@[simp] theorem pushSample_pay0 (n : Nat) (p : Half) (s : State) : (pushSample n p s).pay0 = s.pay0 := rfl
@[simp] theorem pushSample_payLen (n : Nat) (p : Half) (s : State) : (pushSample n p s).payLen = s.payLen := rfl
@[simp] theorem pushSample_root (n : Nat) (p : Half) (s : State) : (pushSample n p s).root = s.root := rfl
@[simp] theorem pushSample_child (n : Nat) (p : Half) (s : State) : (pushSample n p s).child = s.child := rfl
@[simp] theorem pushSample_pal (n : Nat) (p : Half) (s : State) : (pushSample n p s).pal = s.pal := rfl
@[simp] theorem pushSample_cell (n : Nat) (p : Half) (s : State) : (pushSample n p s).cell = s.cell := rfl
@[simp] theorem pushSample_quad (n : Nat) (p : Half) (s : State) : (pushSample n p s).quad = s.quad := rfl
@[simp] theorem pushSample_nv1 (n : Nat) (p : Half) (s : State) : (pushSample n p s).nv1 = s.nv1 := rfl
@[simp] theorem pushSample_nv2 (n : Nat) (p : Half) (s : State) : (pushSample n p s).nv2 = s.nv2 := rfl
@[simp] theorem pushSample_pp (n : Nat) (p : Half) (s : State) : (pushSample n p s).pp = s.pp := rfl
@[simp] theorem pushSample_inp (n : Nat) (p : Half) (s : State) : (pushSample n p s).inp = s.inp := rfl
@[simp] theorem pushSample_idx (n : Nat) (p : Half) (s : State) : (pushSample n p s).idx = s.idx := rfl
@[simp] theorem pushSample_pl0 (n : Nat) (p : Half) (s : State) : (pushSample n p s).pl0 = s.pl0 := rfl
@[simp] theorem pushSample_pl1 (n : Nat) (p : Half) (s : State) : (pushSample n p s).pl1 = s.pl1 := rfl
@[simp] theorem pushSample_rgba (n : Nat) (p : Half) (s : State) : (pushSample n p s).rgba = s.rgba := rfl
@[simp] theorem pushSample_pcm (n : Nat) (p : Half) (s : State) : (pushSample n p s).pcm = (s.pcm.write (2 * n) (p.extractLsb' 0 8)).write (2 * n + 1) (p.extractLsb' 8 8) := rfl

/-! ### The roles of the plane sets -/

@[simp] theorem State.setCurrent_current (s : State) (p : Planes) : (s.setCurrent p).current = p := by
  unfold State.setCurrent State.current; split <;> simp_all

@[simp] theorem State.setCurrent_last (s : State) (p : Planes) : (s.setCurrent p).last = s.last := by
  unfold State.setCurrent State.last; split <;> simp_all

@[simp] theorem State.setLast_last (s : State) (p : Planes) : (s.setLast p).last = p := by
  unfold State.setLast State.last; split <;> simp_all

@[simp] theorem State.setLast_current (s : State) (p : Planes) : (s.setLast p).current = s.current := by
  unfold State.setLast State.current; split <;> simp_all

/-! ### The flags -/

@[simp] theorem Status.start_busy (st : Status) : st.start.busy = true := rfl
@[simp] theorem Status.start_done (st : Status) : st.start.done = false := rfl
@[simp] theorem Status.start_err (st : Status) : st.start.err = st.err := rfl
@[simp] theorem Status.start_frame (st : Status) : st.start.frame = false := rfl
@[simp] theorem Status.start_audio (st : Status) : st.start.audio = false := rfl
@[simp] theorem Status.start_built (st : Status) : st.start.built = st.built := rfl
@[simp] theorem Status.start_seeded (st : Status) : st.start.seeded = st.seeded := rfl
@[simp] theorem Status.start_cbook (st : Status) : st.start.cbook = st.cbook := rfl
@[simp] theorem Status.finish_busy (st : Status) : st.finish.busy = false := rfl
@[simp] theorem Status.finish_done (st : Status) : st.finish.done = true := rfl
@[simp] theorem Status.finish_err (st : Status) : st.finish.err = st.err := rfl
@[simp] theorem Status.finish_frame (st : Status) : st.finish.frame = st.frame := rfl
@[simp] theorem Status.finish_audio (st : Status) : st.finish.audio = st.audio := rfl
@[simp] theorem Status.finish_built (st : Status) : st.finish.built = st.built := rfl
@[simp] theorem Status.finish_seeded (st : Status) : st.finish.seeded = st.seeded := rfl
@[simp] theorem Status.finish_cbook (st : Status) : st.finish.cbook = st.cbook := rfl
@[simp] theorem Status.fail_busy (st : Status) : st.fail.busy = false := rfl
@[simp] theorem Status.fail_done (st : Status) : st.fail.done = false := rfl
@[simp] theorem Status.fail_err (st : Status) : st.fail.err = true := rfl
@[simp] theorem Status.fail_frame (st : Status) : st.fail.frame = false := rfl
@[simp] theorem Status.fail_audio (st : Status) : st.fail.audio = false := rfl
@[simp] theorem Status.fail_built (st : Status) : st.fail.built = st.built := rfl
@[simp] theorem Status.fail_seeded (st : Status) : st.fail.seeded = st.seeded := rfl
@[simp] theorem Status.fail_cbook (st : Status) : st.fail.cbook = st.cbook := rfl

end Sys2Proof.Machine
end

