-- ==== Sys2Proof/Laws/Ops.lean ====
section
/-! SUPPORT. What each shared operation can answer, said once: the provers cite these instead of unfolding. -/

namespace Sys2Proof.Machine

/-! ### Sequencing -/

theorem bind_ok_iff {α β : Type} (x : Run α) (f : α → Run β) (b : β) :
    (x >>= f) = .ok b ↔ ∃ a, x = .ok a ∧ f a = .ok b := by
  cases x <;> simp [bind, Except.bind]

theorem bind_error_iff {α β : Type} (x : Run α) (f : α → Run β) (e : Stop) :
    (x >>= f) = .error e ↔ x = .error e ∨ ∃ a, x = .ok a ∧ f a = .error e := by
  cases x <;> simp [bind, Except.bind]

@[simp] theorem ok_bind {α β : Type} (a : α) (f : α → Run β) : ((Except.ok a : Run α) >>= f) = f a := rfl

@[simp] theorem error_bind {α β : Type} (e : Stop) (f : α → Run β) : ((Except.error e : Run α) >>= f) = .error e := rfl

@[simp] theorem raise_bind {α β : Type} (s : State) (kind : Kind) (f : α → Run β) :
    ((raise s kind : Run α) >>= f) = raise s kind := rfl

@[simp] theorem raise_ne_ok {α : Type} (s : State) (kind : Kind) (a : α) : (raise s kind : Run α) ≠ .ok a := by
  simp [raise]

@[simp] theorem raise_eq_raised_iff {α : Type} (s t : State) (kind kind' : Kind) :
    (raise s kind : Run α) = .error (.raised t kind') ↔ s = t ∧ kind = kind' := by
  simp [raise]

@[simp] theorem raise_ne_stuck {α : Type} (s : State) (kind : Kind) (f : Fault) :
    (raise s kind : Run α) ≠ .error (.stuck f) := by
  simp [raise]

@[simp] theorem conclude_ok (s : State) : conclude (.ok s) = .next s := rfl

@[simp] theorem conclude_raise (s : State) (kind : Kind) : conclude (raise s kind) = .next (raiseFault s kind) := rfl

@[simp] theorem conclude_raised (s : State) (kind : Kind) :
    conclude (.error (.raised s kind)) = .next (raiseFault s kind) := rfl

@[simp] theorem conclude_stuck (f : Fault) : conclude (.error (.stuck f)) = .fault f := rfl

/-- A meaning answers a next state by reaching its end or by fault entry. -/
theorem conclude_eq_next_iff (r : Run State) (t : State) :
    conclude r = .next t ↔ r = .ok t ∨ ∃ s kind, r = .error (.raised s kind) ∧ t = raiseFault s kind := by
  rcases r with (⟨s, kind⟩ | f) | s <;> simp [conclude, eq_comm]

/-- A meaning never refuses. -/
theorem conclude_ne_refused (r : Run State) (x : Refusal) : conclude r ≠ .refused x := by
  rcases r with (⟨s, kind⟩ | f) | s <;> simp [conclude]

@[simp] theorem known_eq_ok_iff {α : Type} (sp : Space) (base len : Nat) (o : Option α) (x : α) :
    known sp base len o = .ok x ↔ o = some x := by
  cases o <;> simp [known]

@[simp] theorem known_some {α : Type} (sp : Space) (base len : Nat) (x : α) : known sp base len (some x) = .ok x := rfl

@[simp] theorem known_ne_raised {α : Type} (sp : Space) (base len : Nat) (o : Option α) (s : State) (kind : Kind) :
    known sp base len o ≠ .error (.raised s kind) := by
  cases o <;> simp [known]

@[simp] theorem readIn_eq_ok_iff (s : State) (base n : Nat) (bs : List Byte) :
    readIn s base n = .ok bs ↔ s.inp.readRun base n = some bs := known_eq_ok_iff ..

@[simp] theorem readInByte_eq_ok_iff (s : State) (a : Nat) (v : Byte) :
    readInByte s a = .ok v ↔ s.inp.read a = some v := known_eq_ok_iff ..

/-! ### Admission -/

/-- `admission` starts the command; it is refused exactly while ERR = 1. -/
theorem admission_eq_ok_iff (s t : State) : admission s = .ok t ↔ s.status.err = false ∧ t = startCommand s := by
  unfold admission
  by_cases h : s.status.err
  · simp [h]
  · simp only [startCommand_status, Status.start_err, h]
    exact ⟨fun e => ⟨trivial, (Except.ok.inj e).symm⟩, fun e => congrArg Except.ok e.2.symm⟩

theorem admission_of_err (s : State) (h : s.status.err = true) : admission s = raise (startCommand s) .state := by
  simp [admission, h]

theorem admission_of_noErr (s : State) (h : s.status.err = false) : admission s = .ok (startCommand s) := by
  simp [admission, h]

/-! ### Payload bytes and codes -/

/-- `NextByte` answers the byte under the cursor and moves past it, inside the payload only. -/
theorem nextByte_eq_ok_iff (s t : State) (v : Byte) :
    nextByte s = .ok (v, t) ↔ s.pos.toNat < s.payEnd ∧ s.inp.read s.pos.toNat = some v ∧ t = s.advance 1 := by
  unfold nextByte
  split
  · simp; omega
  · simp only [bind_ok_iff, readInByte_eq_ok_iff, Except.ok.injEq, Prod.mk.injEq]
    constructor
    · rintro ⟨a, h, rfl, rfl⟩
      exact ⟨by omega, h, rfl⟩
    · rintro ⟨_, h, rfl⟩
      exact ⟨v, h, rfl, rfl⟩

/-- `NextByte` raises CodecDecodeError exactly at the end of the payload, where it stands. -/
theorem nextByte_eq_raised_iff (s t : State) (kind : Kind) :
    nextByte s = .error (.raised t kind) ↔ s.payEnd ≤ s.pos.toNat ∧ t = s ∧ kind = .codecDecode := by
  unfold nextByte
  split
  · next h => simp [h, eq_comm]
  · next h => simp [bind_error_iff, readInByte, h]

/-- What a refilled bit reservoir is: nothing but `bitbuf`, `bitcnt` and the cursor moved. -/
theorem refillBits_cases (s t : State) (h : refillBits s = .ok t) :
    (s.bitcnt ≠ 0 ∧ t = s) ∨
    (s.bitcnt = 0 ∧ s.pos.toNat < s.payEnd ∧
      ∃ v, s.inp.read s.pos.toNat = some v ∧ t = { s.advance 1 with bitbuf := v, bitcnt := 8 }) := by
  unfold refillBits at h
  split at h
  · next h0 =>
    rw [bind_ok_iff] at h
    obtain ⟨⟨v, u⟩, hu, ht⟩ := h
    obtain ⟨hp, hv, rfl⟩ := (nextByte_eq_ok_iff _ _ _).1 hu
    exact .inr ⟨h0, hp, v, hv, by simpa using ht.symm⟩
  · next h0 => exact .inl ⟨h0, by simpa using h.symm⟩

/-- `NextBit` is a refill and the taking of bit 0. -/
theorem nextBit_eq_ok_iff (s t : State) (b : Bool) :
    nextBit s = .ok (b, t) ↔ ∃ u, refillBits s = .ok u ∧ takeBit u = (b, t) := by
  simp [nextBit, bind_ok_iff]

/-- What `NextBit` changes: the reservoir and the cursor. -/
theorem nextBit_frame (s t : State) (b : Bool) (h : nextBit s = .ok (b, t)) :
    t = { s with bitbuf := t.bitbuf, bitcnt := t.bitcnt, pos := t.pos } := by
  obtain ⟨u, hu, ht⟩ := (nextBit_eq_ok_iff _ _ _).1 h
  simp only [takeBit, Prod.mk.injEq] at ht
  rcases refillBits_cases _ _ hu with ⟨_, rfl⟩ | ⟨_, _, v, _, rfl⟩
  · rw [← ht.2]
  · rw [← ht.2]; rfl

/-- `NextBit` raises only at the end of the payload with an empty reservoir (41 R180). -/
theorem nextBit_eq_raised_iff (s t : State) (kind : Kind) :
    nextBit s = .error (.raised t kind) ↔
      s.bitcnt = 0 ∧ s.payEnd ≤ s.pos.toNat ∧ t = s ∧ kind = .codecDecode := by
  unfold nextBit refillBits
  split
  · next h0 =>
    simp only [bind_error_iff, nextByte_eq_raised_iff, h0, true_and]
    simp
  · next h0 => simp [h0]

/-- What a refilled flag word is. -/
theorem refillFlag_cases (s t : State) (h : refillFlag s = .ok t) :
    (s.flagN ≠ 0 ∧ t = s) ∨
    (s.flagN = 0 ∧ s.pos.toNat < s.payEnd ∧ (s.advance 1).pos.toNat < s.payEnd ∧
      ∃ lo hi, s.inp.read s.pos.toNat = some lo ∧ s.inp.read (s.advance 1).pos.toNat = some hi ∧
        t = { (s.advance 1).advance 1 with flag := le16 lo hi, flagN := 8 }) := by
  unfold refillFlag at h
  split at h
  · next h0 =>
    simp only [bind_ok_iff] at h
    obtain ⟨⟨lo, u⟩, hu, ⟨hi, w⟩, hw, ht⟩ := h
    obtain ⟨hp, hlo, rfl⟩ := (nextByte_eq_ok_iff _ _ _).1 hu
    obtain ⟨hp', hhi, rfl⟩ := (nextByte_eq_ok_iff _ _ _).1 hw
    exact .inr ⟨h0, hp, hp', lo, hi, hlo, hhi, by simpa using ht.symm⟩
  · next h0 => exact .inl ⟨h0, by simpa using h.symm⟩

/-- `NextId` is a refill and the taking of one id. -/
theorem nextId_eq_ok_iff (s t : State) (id : BitVec 2) :
    nextId s = .ok (id, t) ↔ ∃ u, refillFlag s = .ok u ∧ takeId u = (id, t) := by
  simp [nextId, bind_ok_iff]

/-- What taking an id changes: the flag word and its count, the same way in both orders but for the shift. -/
theorem takeId_frame (s : State) : (takeId s).2 = { s with flag := (takeId s).2.flag, flagN := s.flagN - 1 } := by
  unfold takeId
  split <;> rfl

/-- What `NextId` changes: the flag word, its count and the cursor. -/
theorem nextId_frame (s t : State) (id : BitVec 2) (h : nextId s = .ok (id, t)) :
    t = { s with flag := t.flag, flagN := t.flagN, pos := t.pos } := by
  obtain ⟨u, hu, ht⟩ := (nextId_eq_ok_iff _ _ _).1 h
  have hf := takeId_frame u
  rw [ht] at hf
  simp only at hf
  rcases refillFlag_cases _ _ hu with ⟨_, rfl⟩ | ⟨_, _, _, lo, hi, _, _, rfl⟩
  · rw [hf]
  · rw [hf]; rfl

/-- `rd32` answers the four bytes under the cursor, little-endian, and moves past them. -/
theorem readField32_eq_ok_iff (s t : State) (v : Word) :
    readField32 s = .ok (v, t) ↔ s.pos.toNat + 4 ≤ s.inLen.toNat ∧ t = s.advance 4 ∧
      ∃ bs, s.inp.readRun s.pos.toNat 4 = some bs ∧
        v = le32 (bs.getD 0 0) (bs.getD 1 0) (bs.getD 2 0) (bs.getD 3 0) := by
  unfold readField32 State.short
  split
  · next h => simp at h; simp; omega
  · next h =>
    simp only [decide_eq_true_eq, Nat.not_lt] at h
    simp only [bind_ok_iff, readIn_eq_ok_iff, Except.ok.injEq, Prod.mk.injEq]
    constructor
    · rintro ⟨bs, hbs, rfl, rfl⟩
      exact ⟨h, rfl, bs, hbs, rfl⟩
    · rintro ⟨_, rfl, bs, hbs, rfl⟩
      exact ⟨bs, hbs, rfl, rfl⟩

/-! ### Chunks and records -/

/-- The state a chunk's unit starts in. -/
def chunkEntry (type : Half) (size : Word) (arg : Half) (s : State) : State :=
  { s with recType := type, recSize := size, recArg := arg, pos := 8, pay0 := 8, payLen := size }

/-- A chunk is entered exactly when its payload is present (40 R148). -/
theorem enterChunk_eq (type : Half) (size : Word) (arg : Half) (s : State) :
    enterChunk type size arg s =
      if s.inLen.toNat < 8 + size.toNat then raise (chunkEntry type size arg s) .truncated
      else .ok (chunkEntry type size arg s) := by
  unfold enterChunk State.payloadShort State.payEnd chunkEntry
  simp

/-- The end of a CIN frame: every pixel through the palette, then the end of the record (41 R192, 40 R147). -/
theorem finishCinFrame_eq_ok_iff (s t : State) :
    finishCinFrame s = .ok t ↔ ∃ is, s.idx.readRun 0 s.npix = some is ∧
      t = finishRecord { s with rgba := s.rgba.overlay (is.flatMap (palettePixel s.pal)),
                                status := { s.status with frame := true } } := by
  simp only [finishCinFrame, bind_ok_iff, known_eq_ok_iff, Except.ok.injEq]
  exact exists_congr fun _ => and_congr_right fun _ => eq_comm

/-- The end of a VQ frame: every pixel through CSC, the swap, then the end of the record (42 R238, R239; 40 R151). -/
theorem finishVqFrame_eq_ok_iff (s t : State) :
    finishVqFrame s = .ok t ↔ ∃ y u v, s.current.y.readRun 0 s.npix = some y ∧ s.current.u.readRun 0 s.npix = some u ∧
      s.current.v.readRun 0 s.npix = some v ∧
      t = finishRecord { s with rgba := s.rgba.overlay (yuvPixels y u v), pp := !s.pp,
                                status := { s.status with frame := true } } := by
  simp only [finishVqFrame, bind_ok_iff, known_eq_ok_iff, Except.ok.injEq]
  constructor
  · rintro ⟨y, hy, u, hu, v, hv, rfl⟩
    exact ⟨y, u, v, hy, hu, hv, rfl⟩
  · rintro ⟨y, u, v, hy, hu, hv, rfl⟩
    exact ⟨y, hy, u, hu, v, hv, rfl⟩

/-- The frame-start copy (42 R215). -/
theorem copyFrame_eq_ok_iff (s t : State) :
    copyFrame s = .ok t ↔ ∃ y u v, s.last.y.readRun 0 s.npix = some y ∧ s.last.u.readRun 0 s.npix = some u ∧
      s.last.v.readRun 0 s.npix = some v ∧ t = s.setCurrent (s.current.overlay y u v) := by
  simp only [copyFrame, bind_ok_iff, known_eq_ok_iff, Except.ok.injEq]
  constructor
  · rintro ⟨y, hy, u, hu, v, hv, rfl⟩
    exact ⟨y, u, v, hy, hu, hv, rfl⟩
  · rintro ⟨y, u, v, hy, hu, hv, rfl⟩
    exact ⟨y, hy, u, hu, v, hv, rfl⟩

/-- A CIN frame has 1 to 1,048,576 pixels. -/
theorem npix_of_cinDimsOk (s : State) (h : s.cinDimsOk = true) : 0 < s.npix ∧ s.npix ≤ 1048576 := by
  simp only [State.cinDimsOk, decide_eq_true_eq] at h
  refine ⟨Nat.mul_pos (by omega) (by omega), ?_⟩
  exact Nat.mul_le_mul (by omega : s.width ≤ 1024) (by omega : s.height ≤ 1024)

/-- Adding to the cursor below the end of the address space does not wrap. -/
theorem toNat_ofNat_add (a : Word) (n : Nat) (h : a.toNat + n < 2 ^ 32) :
    (BitVec.ofNat 32 (a.toNat + n)).toNat = a.toNat + n := by
  rw [BitVec.toNat_ofNat, Nat.mod_eq_of_lt h]

/-- `rd32` on four known bytes. -/
theorem readField32_of_bytes (s : State) (a b c d : Byte) (h : s.pos.toNat + 4 ≤ s.inLen.toNat)
    (hr : s.inp.readRun s.pos.toNat 4 = some [a, b, c, d]) : readField32 s = .ok (le32 a b c d, s.advance 4) :=
  (readField32_eq_ok_iff _ _ _).2 ⟨h, rfl, [a, b, c, d], hr, rfl⟩

/-- A record whose size fields pass every check goes on to the frame decode, with the fields latched and the payload after
them (40 R145). -/
theorem cinBody_of_fields (s : State) (a0 a1 a2 a3 b0 b1 b2 b3 : Byte)
    (ha : s.inp.readRun s.pos.toNat 4 = some [a0, a1, a2, a3])
    (hb : s.inp.readRun (s.pos.toNat + 4) 4 = some [b0, b1, b2, b3])
    (hlen : s.pos.toNat + 8 ≤ s.inLen.toNat) (hmin : 4 ≤ (le32 a0 a1 a2 a3).toNat)
    (hpix : (le32 b0 b1 b2 b3).toNat = s.npix)
    (hpay : s.pos.toNat + 4 + (le32 a0 a1 a2 a3).toNat ≤ s.inLen.toNat) :
    cinBody s = huffmanFrame { s with
      chunkSize := le32 a0 a1 a2 a3, decodedSize := le32 b0 b1 b2 b3, pos := BitVec.ofNat 32 (s.pos.toNat + 8)
      pay0 := BitVec.ofNat 32 (s.pos.toNat + 8), payLen := le32 a0 a1 a2 a3 - 4 } := by
  have hbound := s.inLen.isLt
  generalize hA : le32 a0 a1 a2 a3 = A at *
  have e1 : readField32 s = .ok (A, s.advance 4) := by
    rw [← hA]
    exact readField32_of_bytes s _ _ _ _ (by omega) ha
  have hp : (s.advance 4).pos.toNat = s.pos.toNat + 4 := toNat_ofNat_add _ _ (by omega)
  have e2 := readField32_of_bytes { (s.advance 4) with chunkSize := A } b0 b1 b2 b3
    (by show (s.advance 4).pos.toNat + 4 ≤ s.inLen.toNat; omega)
    (by show s.inp.readRun (s.advance 4).pos.toNat 4 = _; rw [hp]; exact hb)
  have e3 : ({ (s.advance 4) with chunkSize := A }.advance 4).pos = BitVec.ofNat 32 (s.pos.toNat + 8) := by
    show BitVec.ofNat 32 ((s.advance 4).pos.toNat + 4) = _
    rw [hp]
  simp only [cinBody, e1, ok_bind, e2]
  generalize le32 b0 b1 b2 b3 = B at *
  rw [if_neg (by omega), if_neg (fun hn => hn hpix), if_neg, e3]
  · rfl
  · have h7 : (A - 4).toNat = A.toNat - 4 := by bv_omega
    have h8 := toNat_ofNat_add s.pos 8 (by omega)
    intro hh
    have hh : s.inLen.toNat < ({ (s.advance 4) with chunkSize := A }.advance 4).pos.toNat + (A - 4).toNat :=
      of_decide_eq_true hh
    rw [e3, h7, h8] at hh
    omega

/-- The frame decode of a payload that is not empty starts with the pixels (41 R177). -/
theorem huffmanFrame_of_payload (s : State) (h : s.payLen ≠ 0) :
    huffmanFrame s = startPixels s.npix { s with ctx := 0, bitcnt := 0, k := 0, phase := .huffman } := by
  unfold huffmanFrame
  rw [if_neg (fun hh => h hh.2)]

/-- A pixel in a context that has a tree starts at its root (41 R178). -/
theorem startPixels_of_tree (n : Nat) (s : State) (hn : 0 < n) (h : 256 ≤ (entry s.root s.ctx).toNat) :
    startPixels n s = .ok { s with node := entry s.root s.ctx } := by
  cases n with
  | zero => omega
  | succ n => simp [startPixels, h]

/-- Fewer than `n` bytes of IN are left. -/
theorem State.short_iff (s : State) (n : Nat) : s.short n = true ↔ s.inLen.toNat < s.pos.toNat + n :=
  decide_eq_true_iff

/-- `rd32` past IN_LEN (40 R146). -/
theorem readField32_of_short (s : State) (h : s.inLen.toNat < s.pos.toNat + 4) :
    readField32 s = raise s .truncated := by
  unfold readField32
  rw [if_pos ((s.short_iff 4).2 h)]

/-- The faults of the fields of a CIN record, each with the cursor it reports (40 R145, R146; 41 R177): all that has
changed by then is the cursor and the latches. -/
theorem cinBody_faults (s : State) (a0 a1 a2 a3 b0 b1 b2 b3 : Byte) :
    let size := (le32 a0 a1 a2 a3).toNat
    let decoded := (le32 b0 b1 b2 b3).toNat
    let faults := fun kind pos => ∃ t, cinBody s = raise t kind ∧ t.pos = BitVec.ofNat 32 pos ∧
      t = { s with
        pos := t.pos, chunkSize := t.chunkSize, decodedSize := t.decodedSize, pay0 := t.pay0, payLen := t.payLen }
    (s.inLen.toNat < s.pos.toNat + 4 → faults .truncated s.pos.toNat) ∧
    (s.pos.toNat + 4 ≤ s.inLen.toNat → s.inp.readRun s.pos.toNat 4 = some [a0, a1, a2, a3] →
      (s.inLen.toNat < s.pos.toNat + 8 → faults .truncated (s.pos.toNat + 4)) ∧
      (s.pos.toNat + 8 ≤ s.inLen.toNat → s.inp.readRun (s.pos.toNat + 4) 4 = some [b0, b1, b2, b3] →
        (size < 4 → faults .sizeMismatch (s.pos.toNat + 8)) ∧
        (4 ≤ size → decoded ≠ s.npix → faults .sizeMismatch (s.pos.toNat + 8)) ∧
        (4 ≤ size → decoded = s.npix → s.inLen.toNat < s.pos.toNat + 4 + size →
          faults .truncated (s.pos.toNat + 8)) ∧
        (size = 4 → decoded = s.npix → 0 < s.npix → faults .codecDecode (s.pos.toNat + 8)))) := by
  have hbound := s.inLen.isLt
  refine ⟨fun h => ?_, fun h4 ha => ?_⟩
  · exact ⟨s, by rw [cinBody, readField32_of_short s h]; rfl, by simp, rfl⟩
  · have e1 := readField32_of_bytes s _ _ _ _ h4 ha
    generalize le32 a0 a1 a2 a3 = A at *
    have hp : (s.advance 4).pos.toNat = s.pos.toNat + 4 := toNat_ofNat_add _ _ (by omega)
    refine ⟨fun h => ?_, fun h8 hb => ?_⟩
    · have e := readField32_of_short { s.advance 4 with chunkSize := A }
        (show s.inLen.toNat < (s.advance 4).pos.toNat + 4 by omega)
      exact ⟨{ s.advance 4 with chunkSize := A }, by simp only [cinBody, e1, ok_bind, e, raise_bind], rfl, rfl⟩
    · have e2 := readField32_of_bytes { s.advance 4 with chunkSize := A } b0 b1 b2 b3
        (show (s.advance 4).pos.toNat + 4 ≤ s.inLen.toNat by omega)
        (show s.inp.readRun (s.advance 4).pos.toNat 4 = _ by rw [hp]; exact hb)
      have e3 : ({ s.advance 4 with chunkSize := A }.advance 4).pos = BitVec.ofNat 32 (s.pos.toNat + 8) := by
        show BitVec.ofNat 32 ((s.advance 4).pos.toNat + 4) = _
        rw [hp]
      have h8' := toNat_ofNat_add s.pos 8 (by omega)
      generalize le32 b0 b1 b2 b3 = B at *
      generalize hu : { s.advance 4 with chunkSize := A }.advance 4 = u at *
      have hu' : u = { s with pos := u.pos, chunkSize := u.chunkSize } := by rw [← hu]; rfl
      have hnp : ({ u with decodedSize := B } : State).npix = s.npix := by rw [← hu]; rfl
      have hil : u.inLen = s.inLen := by rw [← hu]; rfl
      have hs7 : 4 ≤ A.toNat → (A - 4).toNat = A.toNat - 4 := by intro h; bv_omega
      simp only [cinBody, e1, ok_bind, e2]
      refine ⟨fun h => ?_, fun h h' => ?_, fun h h' h'' => ?_, fun h h' h'' => ?_⟩
      · rw [if_pos h]
        exact ⟨_, rfl, e3, by rw [← hu]; rfl⟩
      · rw [if_neg (by omega), if_pos (by rwa [hnp])]
        exact ⟨_, rfl, e3, by rw [← hu]; rfl⟩
      · rw [if_neg (by omega), if_neg (by rw [hnp]; omega), if_pos]
        · exact ⟨_, rfl, e3, by rw [← hu]; rfl⟩
        · refine decide_eq_true (show u.inLen.toNat < u.pos.toNat + (A - 4).toNat from ?_)
          rw [hil, e3, h8', hs7 h]; omega
      · have hA : A - 4 = 0 := by bv_omega
        rw [if_neg (by omega), if_neg (by rw [hnp]; omega), if_neg, huffmanFrame, if_pos]
        · exact ⟨_, rfl, e3, by rw [← hu]; rfl⟩
        · exact ⟨h''.trans_eq hnp.symm, hA⟩
        · intro hh
          have hh : u.inLen.toNat < u.pos.toNat + (A - 4).toNat := of_decide_eq_true hh
          rw [hil, e3, h8', hA] at hh
          simp at hh; omega

/-- The palette of a CIN record, when all its 768 bytes are there (41 R186). -/
theorem cinPalette_of_bytes (s : State) (p : List Byte) (h : s.pos.toNat + 768 ≤ s.inLen.toNat)
    (hr : s.inp.readRun s.pos.toNat 768 = some p) : cinPalette s = .ok ({ s with pal := paletteOf p }.advance 768) := by
  unfold cinPalette
  rw [if_neg (by rw [State.short_iff]; omega), (readIn_eq_ok_iff ..).2 hr]
  rfl

/-! ### Sound chunks -/

/-- The end of a sound chunk whose output length fits PCM_LEN (43 R266, 40 R151). -/
theorem finishSound_of_short (s : State) (h : s.payLen.toNat < 2 ^ 31) : finishSound s =
    finishRecord { s with
      pcmLen := BitVec.ofNat 32 (2 * s.payLen.toNat), status := { s.status with audio := true } } := by
  unfold finishSound pcmLength
  rw [if_pos (by omega)]

/-! ### Fault entry -/

/-- What a fault may lose: the outputs, the plane set `current`, `PCM_LEN`; nothing else (60 R291). -/
theorem forgetOutputs_frame (s : State) : forgetOutputs s =
    { s with
      pcmLen := (forgetOutputs s).pcmLen, freeCtr := (forgetOutputs s).freeCtr, pl0 := (forgetOutputs s).pl0
      pl1 := (forgetOutputs s).pl1, pcm := (forgetOutputs s).pcm, idx := (forgetOutputs s).idx
      rgba := (forgetOutputs s).rgba } := by
  unfold forgetOutputs State.setCurrent freePcmLen
  (repeat' split) <;> rfl

/-- A fault never touches `last`. -/
theorem forgetOutputs_last (s : State) : (forgetOutputs s).last = s.last := by
  unfold forgetOutputs State.setCurrent freePcmLen State.last
  (repeat' split) <;> simp_all

/-! ### Block operations -/

/-- A cell is stamped exactly when it is loaded (42 R232, R233, R236), and nothing but `current` changes. -/
theorem stampCell_eq_ok_iff (scale x y : Nat) (c : Byte) (s t : State) :
    stampCell scale x y c s = .ok t ↔ c.toNat < s.nv1 ∧
      t = s.setCurrent (s.current.writes
        (blockWrites s.width x y (2 * scale) fun i j => (entry s.cell c).luma (j / scale * 2 + i / scale))
        (blockWrites s.width x y (2 * scale) fun _ _ => (entry s.cell c).u)
        (blockWrites s.width x y (2 * scale) fun _ _ => (entry s.cell c).v)) := by
  unfold stampCell
  split
  · simp; omega
  · next h => simp only [Nat.not_le] at h; simp [h, eq_comm]

/-- Nothing but `current` changes when a cell is stamped. -/
theorem stampCell_frame (scale x y : Nat) (c : Byte) (s t : State) (h : stampCell scale x y c s = .ok t) :
    ∃ p, t = s.setCurrent p := ⟨_, ((stampCell_eq_ok_iff ..).1 h).2⟩

/-- Writing `current` twice leaves the second. -/
@[simp] theorem State.setCurrent_setCurrent (s : State) (p r : Planes) :
    (s.setCurrent p).setCurrent r = s.setCurrent r := by
  unfold State.setCurrent
  split <;> simp_all

/-- A quad is stamped when it and its four cells are loaded (42 R234, R235), and nothing but `current` changes. -/
theorem stampQuad_frame (scale x y : Nat) (j : Byte) (s t : State) (h : stampQuad scale x y j s = .ok t) :
    j.toNat < s.nv2 ∧ ∃ p, t = s.setCurrent p := by
  unfold stampQuad at h
  split at h
  · simp at h
  · next hj =>
    simp only [bind_ok_iff] at h
    obtain ⟨s1, h1, s2, h2, s3, h3, h4⟩ := h
    obtain ⟨p1, rfl⟩ := stampCell_frame _ _ _ _ _ _ h1
    obtain ⟨p2, rfl⟩ := stampCell_frame _ _ _ _ _ _ h2
    obtain ⟨p3, rfl⟩ := stampCell_frame _ _ _ _ _ _ h3
    obtain ⟨p4, rfl⟩ := stampCell_frame _ _ _ _ _ _ h4
    exact ⟨by omega, p4, by simp⟩

/-- A block is copied when its source lies in the frame (42 R226, R227), and nothing but `current` changes. -/
theorem copyBlock_frame (n x y : Nat) (b : Byte) (s t : State) (h : copyBlock n x y b s = .ok t) :
    ∃ p, t = s.setCurrent p := by
  unfold copyBlock at h
  simp only at h
  split at h
  · simp at h
  · simp only [bind_ok_iff] at h
    obtain ⟨_, _, _, _, _, _, h⟩ := h
    exact ⟨_, (Except.ok.inj h).symm⟩

/-- Where a block's writes go: row y + j, column x + i. -/
theorem mem_blockOffsets (n : Nat) (o : Nat × Nat) : o ∈ blockOffsets n ↔ o.1 < n ∧ o.2 < n := by
  simp only [blockOffsets, List.mem_flatMap, List.mem_map, List.mem_range]
  constructor
  · rintro ⟨j, hj, i, hi, rfl⟩
    exact ⟨hi, hj⟩
  · rintro ⟨hi, hj⟩
    exact ⟨o.2, hj, o.1, hi, rfl⟩

/-- The addresses of a block inside the width of the frame are all different. -/
theorem nodup_blockWrites (w x y n : Nat) (f : Nat → Nat → Byte) (hx : x + n ≤ w) :
    ((blockWrites w x y n f).map Prod.fst).Nodup := by
  have hoff : (blockOffsets n).Nodup := by
    refine List.nodup_flatMap.2 ⟨fun j _ => List.Nodup.map (fun a b h => (Prod.mk.inj h).1) List.nodup_range, ?_⟩
    refine List.nodup_range.imp ?_
    intro a b hab
    simp only [Function.onFun, List.disjoint_left, List.mem_map, List.mem_range]
    rintro o ⟨i, _, rfl⟩ ⟨i', _, h⟩
    exact hab (Prod.mk.inj h).2.symm
  rw [blockWrites, List.map_map]
  refine List.Nodup.map_on ?_ hoff
  rintro ⟨i, j⟩ hij ⟨i', j'⟩ hij' h
  rw [mem_blockOffsets] at hij hij'
  simp only [Function.comp_apply] at h hij hij'
  have hj : y + j = y + j' := by
    have h1 : ((y + j) * w + (x + i)) / w = y + j := by
      rw [Nat.mul_comm, Nat.mul_add_div (by omega), Nat.div_eq_of_lt (by omega), Nat.add_zero]
    have h2 : ((y + j') * w + (x + i')) / w = y + j' := by
      rw [Nat.mul_comm, Nat.mul_add_div (by omega), Nat.div_eq_of_lt (by omega), Nat.add_zero]
    rw [← h1, ← h2, h]
  rw [hj] at h
  simp only [Prod.mk.injEq]
  omega

/-! ### The scan -/

/-- The scan's four ways on (42 R216): within the macroblock, along the row, to the next row, to the end. -/
theorem nextQuadrant_cases (s t : State) (h : nextQuadrant s = .ok t) :
    (s.q < 3 ∧ t = { s with q := s.q + 1, phase := .quadrant }) ∨
    (¬ s.q < 3 ∧ s.mbx + 1 < s.width / 16 ∧ t = { s with q := 0, mbx := s.mbx + 1, phase := .quadrant }) ∨
    (¬ s.q < 3 ∧ ¬ s.mbx + 1 < s.width / 16 ∧ s.mby + 1 < s.height / 16 ∧
      t = { s with q := 0, mbx := 0, mby := s.mby + 1, phase := .quadrant }) ∨
    (¬ s.q < 3 ∧ ¬ s.mbx + 1 < s.width / 16 ∧ ¬ s.mby + 1 < s.height / 16 ∧ finishVqFrame s = .ok t) := by
  unfold nextQuadrant at h
  split at h
  · next hq => exact .inl ⟨hq, (Except.ok.inj h).symm⟩
  · next hq =>
    split at h
    · next hx => exact .inr (.inl ⟨hq, hx, (Except.ok.inj h).symm⟩)
    · next hx =>
      split at h
      · next hy => exact .inr (.inr (.inl ⟨hq, hx, hy, (Except.ok.inj h).symm⟩))
      · next hy => exact .inr (.inr (.inr ⟨hq, hx, hy, h⟩))

/-- The scan raises no fault of the block. -/
theorem nextQuadrant_ne_raised (s t : State) (kind : Kind) : nextQuadrant s ≠ .error (.raised t kind) := by
  unfold nextQuadrant finishVqFrame
  repeat' split
  all_goals simp [bind_error_iff]

/-! ### The step -/

/-- What a step can be: waiting, a fault of the fetch, an instruction, or a word that names none. -/
theorem step_cases (s : State) :
    (∃ stop, fetch s = .error stop ∧ step s = conclude (.error stop)) ∨
    (fetch s = .ok none ∧ step s = .next s) ∨
    (∃ f bs i, fetch s = .ok (some (f, bs)) ∧ decode s.params f bs = .ok i ∧ step s = exec i s) ∨
    (∃ f bs e, fetch s = .ok (some (f, bs)) ∧ decode s.params f bs = .error e ∧ step s = rejectCode e bs s) := by
  unfold step
  rcases hf : fetch s with stop | (_ | ⟨f, bs⟩)
  · exact .inl ⟨stop, rfl, rfl⟩
  · exact .inr (.inl ⟨rfl, rfl⟩)
  · rcases hd : decode s.params f bs with e | i
    · exact .inr (.inr (.inr ⟨f, bs, e, rfl, hd, by simp [hd]⟩))
    · exact .inr (.inr (.inl ⟨f, bs, i, rfl, hd, by simp [hd]⟩))

end Sys2Proof.Machine
end

