-- ==== Sys2Proof/Laws/PerInstr.lean ====
section
/-! SUPPORT. A law per instruction: the code of an instruction has the length of its format (30_encoding.md). -/

namespace Sys2Proof.Laws.CodeLength

/-- How many bytes hold one code of a format: 1 of a host command, 4 of a CIN command word, 8 of a RoQ preamble, 1 of a
DPCM code; a vector id and a Huffman bit are given in one byte. -/
def codeLength : Format → Nat
  | .hostcmd => 1
  | .cinrec => 4
  | .roqchunk => 8
  | .id8 => 1
  | .id4 => 1
  | .dpcm8 => 1
  | .hbit => 1

/-- The bytes of an instruction are as many as its format has, under all parameters. -/
def Statement (i : Instr) : Prop := ∀ p, (encode p i).length = codeLength i.format

theorem rst : Statement .rst := fun _ => rfl
theorem clrerr : Statement .clrerr := fun _ => rfl
theorem hufBuild : Statement .hufBuild := fun _ => rfl
theorem cinRec : Statement .cinRec := fun _ => rfl
theorem palLoad : Statement .palLoad := fun _ => rfl
theorem palDefault : Statement .palDefault := fun _ => rfl
theorem vqSeed : Statement .vqSeed := fun _ => rfl
theorem roqChunk : Statement .roqChunk := fun _ => rfl
theorem cinVideo : Statement .cinVideo := fun _ => rfl
theorem cinPalvideo : Statement .cinPalvideo := fun _ => rfl
theorem cinRsvd : Statement .cinRsvd := fun _ => rfl
theorem roqInfo (size : Word) (arg : Half) : Statement (.roqInfo size arg) := fun _ => rfl
theorem roqCodebook (size : Word) (arg : Half) : Statement (.roqCodebook size arg) := fun _ => rfl
theorem roqVq (size : Word) (arg : Half) : Statement (.roqVq size arg) := fun _ => rfl
theorem roqJpeg (size : Word) (arg : Half) : Statement (.roqJpeg size arg) := fun _ => rfl
theorem roqHang (size : Word) (arg : Half) : Statement (.roqHang size arg) := fun _ => rfl
theorem roqSndMono (size : Word) (arg : Half) : Statement (.roqSndMono size arg) := fun _ => rfl
theorem roqSndStereo (size : Word) (arg : Half) : Statement (.roqSndStereo size arg) := fun _ => rfl
theorem mot8 : Statement .mot8 := fun _ => rfl
theorem fcc8 : Statement .fcc8 := fun _ => rfl
theorem sld8 : Statement .sld8 := fun _ => rfl
theorem ccc8 : Statement .ccc8 := fun _ => rfl
theorem mot4 : Statement .mot4 := fun _ => rfl
theorem fcc4 : Statement .fcc4 := fun _ => rfl
theorem sld4 : Statement .sld4 := fun _ => rfl
theorem ccc4 : Statement .ccc4 := fun _ => rfl
theorem dpcmPos (m : BitVec 7) : Statement (.dpcmPos m) := fun _ => rfl
theorem dpcmNeg (m : BitVec 7) : Statement (.dpcmNeg m) := fun _ => rfl
theorem hufStep0 : Statement .hufStep0 := fun _ => rfl
theorem hufStep1 : Statement .hufStep1 := fun _ => rfl

end Sys2Proof.Laws.CodeLength
end

