-- ==== Sys2Proof/Laws/Trees.lean ====
section
/-! SUPPORT. The construction of one context's tree (41 R171 to R176): what a pick can be, what one pass of the loop
leaves, and the invariant of the whole loop. -/

namespace Sys2Proof.Machine

/-- The equation of one entry of the scan. -/
theorem scanPick_entry (c : Half) (used : Bool) (l : List (Half × Bool)) (i : Nat) (best : Option (Nat × Half)) :
    scanPick ((c, used) :: l) i best = if used = true ∨ c = 0 then scanPick l (i + 1) best else
      match best with
      | none => scanPick l (i + 1) (some (i, c))
      | some (j, m) =>
        if c.toNat < m.toNat then scanPick l (i + 1) (some (i, c)) else scanPick l (i + 1) (some (j, m)) := by
  cases best <;> rfl

/-- One entry of the scan: the best so far stays, or the entry replaces it. -/
theorem scanPick_cons (c : Half) (used : Bool) (l : List (Half × Bool)) (i : Nat) (best : Option (Nat × Half))
    (hb : ∀ p ∈ best, p.1 < i) :
    ∃ next, scanPick ((c, used) :: l) i best = scanPick l (i + 1) next ∧ (∀ r ∈ next, r.1 < i + 1) ∧
      (next = none → best = none ∧ (used = false → c = 0)) ∧
      ∀ r ∈ next, (best = some r ∨ used = false ∧ c ≠ 0 ∧ r = (i, c)) ∧
        (∀ p ∈ best, r.2.toNat < p.2.toNat ∨ r = p) ∧
        (used = false → c ≠ 0 → r.2.toNat < c.toNat ∨ (r.2.toNat = c.toNat ∧ r.1 ≤ i)) := by
  rw [scanPick_entry]
  split
  · next hskip =>
    refine ⟨best, rfl, fun r hr => Nat.lt_succ_of_lt (hb r hr), fun h => ⟨h, fun hu => ?_⟩, fun r hr =>
      ⟨.inl hr, fun p hp => .inr (Option.some.inj (hr.symm.trans hp)), fun hu hc => ?_⟩⟩
    · exact hskip.resolve_left (by simp [hu])
    · exact absurd (hskip.resolve_left (by simp [hu])) hc
  · next hskip =>
    obtain ⟨hu, hc⟩ : used = false ∧ c ≠ 0 := by simpa [not_or] using hskip
    have itself : ∀ r ∈ some (i, c), r = (i, c) := fun r hr => (Option.some.inj hr).symm
    cases best with
    | none =>
      refine ⟨some (i, c), rfl, fun r hr => ?_, nofun, fun r hr => ?_⟩ <;> obtain rfl := itself r hr
      · exact Nat.lt_succ_self i
      · exact ⟨.inr ⟨hu, hc, rfl⟩, nofun, fun _ _ => .inr ⟨rfl, Nat.le_refl i⟩⟩
    | some q =>
      obtain ⟨j, m⟩ := q
      have hj : j < i := hb (j, m) rfl
      dsimp only
      split
      · next hlt =>
        refine ⟨some (i, c), rfl, fun r hr => ?_, nofun, fun r hr => ?_⟩ <;> obtain rfl := itself r hr
        · exact Nat.lt_succ_self i
        · exact ⟨.inr ⟨hu, hc, rfl⟩, fun p hp => .inl (by obtain rfl := Option.some.inj hp; exact hlt),
            fun _ _ => .inr ⟨rfl, Nat.le_refl i⟩⟩
      · next hlt =>
        refine ⟨some (j, m), rfl, fun r hr => ?_, nofun, fun r hr => ?_⟩ <;> obtain rfl := Option.some.inj hr
        · exact Nat.lt_succ_of_lt hj
        · exact ⟨.inl rfl, fun p hp => .inr (Option.some.inj hp), fun _ _ => by dsimp only; omega⟩

/-- The scan answers nothing when nothing is unused and nonzero, else a least count and its lowest index (41 R172). -/
theorem scanPick_takes_least (l : List (Half × Bool)) : ∀ (i : Nat) (best : Option (Nat × Half)), (∀ p ∈ best, p.1 < i) →
    (scanPick l i best = none → best = none ∧ ∀ (k : Nat) (c : Half), l[k]? = some (c, false) → c = 0) ∧
    ∀ r, scanPick l i best = some r →
      (best = some r ∨ ∃ k : Nat, l[k]? = some (r.2, false) ∧ r.2 ≠ 0 ∧ r.1 = i + k) ∧
      (∀ p ∈ best, r.2.toNat < p.2.toNat ∨ r = p) ∧
      ∀ (k : Nat) (c : Half), l[k]? = some (c, false) → c ≠ 0 →
        r.2.toNat < c.toNat ∨ (r.2.toNat = c.toNat ∧ r.1 ≤ i + k) := by
  induction l with
  | nil =>
    exact fun i best _ => ⟨fun h => ⟨h, nofun⟩, fun r h =>
      ⟨.inl h, fun p hp => .inr (Option.some.inj (h.symm.trans hp)), nofun⟩⟩
  | cons x l ih =>
    obtain ⟨c, used⟩ := x
    intro i best hb
    obtain ⟨next, e, hn, h0, h1⟩ := scanPick_cons c used l i best hb
    obtain ⟨g0, g1⟩ := ih (i + 1) next hn
    have head : ∀ d, ((c, used) :: l)[0]? = some (d, false) → c = d ∧ used = false := fun d h => by simpa using h
    rw [e]
    refine ⟨fun h => ⟨(h0 (g0 h).1).1, fun k d hk => ?_⟩, fun r h => ?_⟩
    · cases k with
      | zero => obtain ⟨rfl, hu⟩ := head d hk; exact (h0 (g0 h).1).2 hu
      | succ k => exact (g0 h).2 k d (by simpa using hk)
    · obtain ⟨a, b, f⟩ := g1 r h
      refine ⟨?_, fun p hp => ?_, fun k d hk hd => ?_⟩
      · rcases a with a | ⟨k, a1, a2, a3⟩
        · rcases (h1 r a).1 with h | ⟨hu, hc, rfl⟩
          · exact .inl h
          · exact .inr ⟨0, by simp [hu], hc, rfl⟩
        · exact .inr ⟨k + 1, by simpa using a1, a2, by omega⟩
      · cases hne : next with
        | none => rw [(h0 hne).1] at hp; cases hp
        | some q =>
          rcases b q hne with h | rfl
          · rcases (h1 q hne).2.1 p hp with h' | rfl
            · exact .inl (h.trans h')
            · exact .inl h
          · exact (h1 r hne).2.1 p hp
      · cases k with
        | zero =>
          obtain ⟨rfl, hu⟩ := head d hk
          cases hne : next with
          | none => exact absurd ((h0 hne).2 hu) hd
          | some q =>
            have h2 := (h1 q hne).2.2 hu hd
            rcases b q hne with h | rfl <;> omega
        | succ k =>
          have := f k d (by simpa using hk) hd
          omega

/-- A node is marked used. -/
abbrev BuildState.used (b : BuildState) (i : Nat) : Bool := b.hused.toList.getD i false

/-- What the scan of a pick sees: the unused nodes below `hn` with their counts. -/
theorem mem_scanned (b : BuildState) (h : b.hn.toNat ≤ 512) (k : Nat) (c : Half) :
    ((b.hcount.toList.zip b.hused.toList).take b.hn.toNat)[k]? = some (c, false) ↔
      k < b.hn.toNat ∧ b.used k = false ∧ b.count k = c := by
  by_cases hk : k < b.hn.toNat
  · have h5 : k < 512 := by omega
    have e1 : b.hcount.toList[k]? = some (b.count k) := by
      simp [BuildState.count, List.getD_eq_getElem?_getD, h5]
    have e2 : b.hused.toList[k]? = some (b.used k) := by
      simp [BuildState.used, List.getD_eq_getElem?_getD, h5]
    rw [List.getElem?_take, if_pos hk, List.getElem?_zip_eq_some, e1, e2]
    simp only [Option.some.injEq, hk, true_and]
    exact and_comm
  · rw [List.getElem?_take, if_neg hk]; simp [hk]

/-- Pick finds nothing exactly when no unused node below `hn` has a count. -/
theorem pick_eq_none_iff (b : BuildState) (h : b.hn.toNat ≤ 512) :
    pick b = none ↔ ∀ i, i < b.hn.toNat → b.used i = false → (b.count i).toNat = 0 := by
  obtain ⟨h1, h2⟩ := scanPick_takes_least ((b.hcount.toList.zip b.hused.toList).take b.hn.toNat) 0 none (by simp)
  unfold pick
  cases hs : scanPick ((b.hcount.toList.zip b.hused.toList).take b.hn.toNat) 0 none with
  | none =>
    simp only [true_iff]
    intro i hi hu
    have := (h1 hs).2 i (b.count i) ((mem_scanned b h _ _).2 ⟨hi, hu, rfl⟩)
    simp [this]
  | some r =>
    simp only [reduceCtorEq, false_iff]
    intro hall
    obtain ⟨a | ⟨k, a1, a2, a3⟩, -, -⟩ := h2 r hs
    · cases a
    · obtain ⟨k1, k2, k3⟩ := (mem_scanned b h _ _).1 a1
      exact a2 (BitVec.eq_of_toNat_eq (by rw [← k3, hall k k1 k2]; rfl))

/-- All that a successful pick says and does (41 R172). -/
theorem pick_eq_some (b b' : BuildState) (h : b.hn.toNat ≤ 512) (i : Nat) (hp : pick b = some (i, b')) :
    (i < b.hn.toNat ∧ b.used i = false ∧ (b.count i).toNat ≠ 0) ∧
    (∀ j, j < b.hn.toNat → b.used j = false → (b.count j).toNat ≠ 0 →
      (b.count i).toNat < (b.count j).toNat ∨ ((b.count i).toNat = (b.count j).toNat ∧ i ≤ j)) ∧
    b' = { b with hused := b.hused.setIfInBounds i true } := by
  obtain ⟨h1, h2⟩ := scanPick_takes_least ((b.hcount.toList.zip b.hused.toList).take b.hn.toNat) 0 none (by simp)
  unfold pick at hp
  cases hs : scanPick ((b.hcount.toList.zip b.hused.toList).take b.hn.toNat) 0 none with
  | none => rw [hs] at hp; cases hp
  | some r =>
    rw [hs] at hp
    obtain ⟨ri, rm⟩ := r
    simp only [Option.some.injEq, Prod.mk.injEq] at hp
    obtain ⟨rfl, rfl⟩ := hp
    obtain ⟨a | ⟨k, a1, a2, a3⟩, -, e⟩ := h2 _ hs
    · cases a
    · obtain ⟨k1, k2, k3⟩ := (mem_scanned b h _ _).1 a1
      simp only [Nat.zero_add] at a3 e
      subst a3
      refine ⟨⟨k1, k2, ?_⟩, ?_, rfl⟩
      · rw [k3]; intro h0; exact a2 (BitVec.eq_of_toNat_eq h0)
      · intro j j1 j2 j3
        rw [k3]
        exact e j (b.count j) ((mem_scanned b h _ _).2 ⟨j1, j2, rfl⟩) (by intro h0; rw [h0] at j3; exact j3 rfl)

/-- The count of a node as a number. -/
abbrev BuildState.weight (b : BuildState) (i : Nat) : Nat := (b.count i).toNat

/-- The candidates of the next pick (41 R172). -/
def BuildState.free (b : BuildState) : Finset Nat :=
  (Finset.range b.hn.toNat).filter fun i => b.used i = false ∧ b.weight i ≠ 0

/-- The nodes made so far: two children each, in the order of Pick, the first two of the nodes below with a count and no
parent before; no child twice; nothing at or beyond `hn` (41 R173, R176). -/
def TreeSoFar (b : BuildState) : Prop :=
  256 ≤ b.hn.toNat ∧ b.hn.toNat ≤ 511 ∧ b.table.length = 2 * (b.hn.toNat - 256) ∧ (b.table.map Prod.snd).Nodup ∧
  (∀ k d, 256 ≤ k → b.hn.toNat ≤ k → b.table.lookup (childKey k d) = none) ∧
  ∀ n, 256 ≤ n → n < b.hn.toNat → ∃ x y : BitVec 9, b.table.lookup (childKey n false) = some x ∧
    b.table.lookup (childKey n true) = some y ∧ x.toNat < n ∧ y.toNat < n ∧ b.weight x.toNat ≠ 0 ∧ b.weight y.toNat ≠ 0 ∧
    b.weight n = b.weight x.toNat + b.weight y.toNat ∧ lighter b.weight x.toNat y.toNat ∧
    ∀ m < n, b.weight m ≠ 0 →
      (∀ k bit, 256 ≤ k → k < n → b.table.lookup (childKey k bit) ≠ some (BitVec.ofNat 9 m)) →
      m = x.toNat ∨ m = y.toNat ∨ lighter b.weight y.toNat m

/-- The invariant of the loop of 41 R173 in a context with `z` nonzero counts: a used node has a parent, no sum leaves 16
bits, and each pass turns one candidate fewer into one node more (41 R175). -/
def LoopInvariant (z : Nat) (b : BuildState) : Prop :=
  TreeSoFar b ∧
  (∀ m < b.hn.toNat, b.weight m ≠ 0 → b.used m = true →
    ∃ k d, 256 ≤ k ∧ k < b.hn.toNat ∧ b.table.lookup (childKey k d) = some (BitVec.ofNat 9 m)) ∧
  (∀ p ∈ b.table, b.used p.2.toNat = true) ∧
  (∑ i ∈ b.free, b.weight i ≤ 65280) ∧ b.hn.toNat + b.free.card = 256 + z ∧ z ≤ 256 ∧ (1 ≤ z → b.free.Nonempty) ∧
  ∀ m, b.hn.toNat ≤ m → b.used m = false

/-- Marking one node marks that node alone. -/
theorem used_mark (b : BuildState) (i m : Nat) (hi : i < 512) :
    ({ b with hused := b.hused.setIfInBounds i true } : BuildState).used m = (b.used m || decide (m = i)) := by
  by_cases hm : m < 512
  · simp only [BuildState.used, List.getD_eq_getElem?_getD]
    simp [Vector.toList_setIfInBounds, hm]
    by_cases h : i = m <;> simp [h, eq_comm]
  · have : m ≠ i := by omega
    simp only [BuildState.used, List.getD_eq_getElem?_getD]
    simp [hm, this]

/-- A new node takes its count and changes no other. -/
theorem count_add (b : BuildState) (n m : Nat) (v : Half) (hn : n < 512) (t : ChildTable) (h' : BitVec 10) :
    ({ b with table := t, hcount := b.hcount.setIfInBounds n v, hn := h' } : BuildState).count m =
      if m = n then v else b.count m := by
  simp only [BuildState.count, List.getD_eq_getElem?_getD]
  by_cases hm : m < 512
  · simp [Vector.toList_setIfInBounds, hm]
    by_cases h : n = m <;> simp [h, eq_comm]
  · have : m ≠ n := by omega
    simp [hm, this]

/-- Internal nodes and bits have keys of their own. -/
theorem childKey_inj (k n : Nat) (d e : Bool) (hk : 256 ≤ k) (hn : 256 ≤ n) :
    childKey k d = childKey n e ↔ k = n ∧ d = e := by
  unfold childKey
  cases d <;> cases e <;> simp <;> omega

/-- The two picks of a pass: the first two candidates in the order of Pick. -/
theorem two_picks (z : Nat) (b b1 b2 : BuildState) (i j : Nat) (hI : LoopInvariant z b)
    (h1 : pick b = some (i, b1)) (h2 : pick b1 = some (j, b2)) :
    i ∈ b.free ∧ j ∈ b.free ∧ lighter b.weight i j ∧ (∀ m ∈ b.free, m = i ∨ m = j ∨ lighter b.weight j m) ∧
    b2 = { b with hused := (b.hused.setIfInBounds i true).setIfInBounds j true } ∧ b.hn.toNat ≤ 510 := by
  obtain ⟨⟨hT1, hT2, -⟩, -, -, -, hc, hz, -, -⟩ := hI
  obtain ⟨⟨a1, a2, a3⟩, a4, rfl⟩ := pick_eq_some b b1 (by omega) i h1
  obtain ⟨⟨c1, c2, c3⟩, c4, rfl⟩ := pick_eq_some _ b2 (by exact (by omega : b.hn.toNat ≤ 512)) j h2
  have hi : i < 512 := by omega
  rw [used_mark b i j hi] at c2
  simp only [Bool.or_eq_false_iff, decide_eq_false_iff_not] at c2
  have mi : i ∈ b.free := Finset.mem_filter.2 ⟨Finset.mem_range.2 a1, a2, a3⟩
  have mj : j ∈ b.free := by
    simp only [BuildState.free, Finset.mem_filter, Finset.mem_range]; exact ⟨c1, c2.1, c3⟩
  have lij : lighter b.weight i j := by
    rcases a4 j c1 c2.1 c3 with h | h
    · exact .inl h
    · exact .inr ⟨h.1, by omega⟩
  refine ⟨mi, mj, lij, ?_, rfl, ?_⟩
  · intro m hm
    simp only [BuildState.free, Finset.mem_filter, Finset.mem_range] at hm
    by_cases e : m = i
    · exact .inl e
    by_cases e' : m = j
    · exact .inr (.inl e')
    right; right
    rcases c4 m hm.1 (by rw [used_mark b i m hi]; rw [hm.2.1, decide_eq_false e]; rfl) hm.2.2 with h | h
    · exact .inl h
    · exact .inr ⟨h.1, by have := h.2; omega⟩
  · have : ({i, j} : Finset Nat) ⊆ b.free := by
      intro x hx; simp at hx; rcases hx with rfl | rfl <;> assumption
    have := Finset.card_le_card this
    rw [Finset.card_pair (by intro e; exact c2.2 e.symm)] at this
    omega

/-- Adding a node adds its two children and nothing else. -/
theorem lookup_addNode (t : ChildTable) (n : Nat) (x y : BitVec 9) (k : Nat) (d : Bool) (hn : 256 ≤ n) (hk : 256 ≤ k)
    (hne : t.lookup (childKey n false) = none ∧ t.lookup (childKey n true) = none) :
    (t ++ [(childKey n false, x), (childKey n true, y)]).lookup (childKey k d) =
      if k = n then some (if d then y else x) else t.lookup (childKey k d) := by
  rw [List.lookup_append]
  by_cases h : k = n
  · subst h
    cases d
    · rw [hne.1]; simp [List.lookup]
    · have e : (childKey k true == childKey k false) = false := by
        rw [beq_eq_false_iff_ne]
        intro e
        simpa using ((childKey_inj k k true false hk hk).1 e).2
      rw [hne.2]
      simp [List.lookup, e]
  · rw [if_neg h]
    have e1 : (childKey k d == childKey n false) = false := by
      rw [beq_eq_false_iff_ne]; intro e; exact h ((childKey_inj k n d false hk hn).1 e).1
    have e2 : (childKey k d == childKey n true) = false := by
      rw [beq_eq_false_iff_ne]; intro e; exact h ((childKey_inj k n d true hk hn).1 e).1
    simp [List.lookup, e1, e2]

/-- One pass keeps the invariant, makes one node and changes no count below it. -/
theorem combine_keeps_invariant (z : Nat) (b : BuildState) (i j : Nat) (hI : LoopInvariant z b)
    (mi : i ∈ b.free) (mj : j ∈ b.free) (lij : lighter b.weight i j)
    (hmin : ∀ m ∈ b.free, m = i ∨ m = j ∨ lighter b.weight j m)
    (h510 : b.hn.toNat ≤ 510) (c : BuildState)
    (hc : c = combine { b with hused := (b.hused.setIfInBounds i true).setIfInBounds j true } i j) :
    LoopInvariant z c ∧ c.hn.toNat = b.hn.toNat + 1 ∧ ∀ m < b.hn.toNat, c.count m = b.count m := by
  obtain ⟨⟨hT1, hT2, hT3, hT4, hT5, hT6⟩, hU, hV, hS, hC, hz, hne, hbey⟩ := hI
  have fi := (Finset.mem_filter.1 mi); have fj := Finset.mem_filter.1 mj
  obtain ⟨fi1, fi2, fi3⟩ := fi; obtain ⟨fj1, fj2, fj3⟩ := fj
  rw [Finset.mem_range] at fi1 fj1
  set n := b.hn.toNat with hnd
  have hij : i ≠ j := by rintro rfl; rcases lij with h | h <;> omega
  have hsum2 : b.weight i + b.weight j ≤ 65280 := by
    have : ({i, j} : Finset Nat) ⊆ b.free := by intro x hx; simp at hx; rcases hx with rfl | rfl <;> assumption
    have := Finset.sum_le_sum_of_subset (f := b.weight) this
    rw [Finset.sum_pair hij] at this
    omega
  have hhn : c.hn.toNat = n + 1 := by
    rw [hc]; simp only [combine]; rw [BitVec.toNat_add]; show (b.hn.toNat + 1) % 1024 = _; omega
  have hcnt : ∀ m, c.count m = if m = n then b.count i + b.count j else b.count m := by
    intro m; rw [hc]; exact count_add { b with hused := _ } n m _ (by omega) _ _
  have hnum : ∀ m, m ≠ n → c.weight m = b.weight m := by
    intro m hm
    simp only [BuildState.weight, hcnt, if_neg hm]
  have hnumn : c.weight n = b.weight i + b.weight j := by
    simp only [BuildState.weight, hcnt, if_true, BitVec.toNat_add]
    simp only [BuildState.weight] at hsum2; omega
  have hused : ∀ m, c.used m = (b.used m || decide (m = i) || decide (m = j)) := by
    intro m; rw [hc]
    have := used_mark { b with hused := b.hused.setIfInBounds i true } j m (by omega)
    rw [used_mark b i m (by omega)] at this
    exact this
  have htab : c.table = b.table ++ [(childKey n false, BitVec.ofNat 9 i), (childKey n true, BitVec.ofNat 9 j)] := by
    rw [hc]; rfl
  have hlk : ∀ k d, 256 ≤ k → c.table.lookup (childKey k d) =
      if k = n then some (if d then BitVec.ofNat 9 j else BitVec.ofNat 9 i) else b.table.lookup (childKey k d) := by
    intro k d hk
    rw [htab]
    exact lookup_addNode _ _ _ _ _ _ hT1 hk ⟨hT5 n _ hT1 (Nat.le_refl _), hT5 n _ hT1 (Nat.le_refl _)⟩
  have ni : (BitVec.ofNat 9 i).toNat = i := by rw [BitVec.toNat_ofNat]; omega
  have nj : (BitVec.ofNat 9 j).toNat = j := by rw [BitVec.toNat_ofNat]; omega
  have hfree : c.free = insert n ((b.free.erase i).erase j) := by
    ext m
    simp only [BuildState.free, Finset.mem_filter, Finset.mem_range, Finset.mem_insert, Finset.mem_erase, hhn, hused]
    by_cases hm : m = n
    · rw [hm, hnumn, hbey n (Nat.le_refl _)]
      simp only [show n ≠ i by omega, show n ≠ j by omega, decide_false, Bool.or_false, true_or, iff_true, true_and]
      omega
    · rw [hnum m hm]
      by_cases e1 : m = i
      · simp [e1]; omega
      by_cases e2 : m = j
      · simp [e2]; omega
      simp only [e1, e2, hm, decide_false, Bool.or_false, false_or, ne_eq, not_false_eq_true, true_and, ← hnd]
      constructor
      · rintro ⟨h1, h2⟩; exact ⟨by omega, h2⟩
      · rintro ⟨h1, h2⟩; exact ⟨by omega, h2⟩
  have nn : n ∉ (b.free.erase i).erase j := by
    intro h
    have := (Finset.mem_filter.1 (Finset.mem_of_mem_erase (Finset.mem_of_mem_erase h))).1
    simp at this; omega
  have mj' : j ∈ b.free.erase i := Finset.mem_erase.2 ⟨fun e => hij e.symm, mj⟩
  refine ⟨⟨⟨by omega, by omega, ?_, ?_, ?_, ?_⟩, ?_, ?_, ?_, ?_, hz, ?_, ?_⟩, hhn, ?_⟩
  · rw [htab, List.length_append, hT3, hhn]; simp; omega
  · rw [htab, List.map_append, List.nodup_append]
    refine ⟨hT4, ?_, ?_⟩
    · simp; intro e; apply hij; rw [← ni, e, nj]
    · intro a ha e he
      obtain ⟨p, hp, rfl⟩ := List.mem_map.1 ha
      have := hV p hp
      rintro rfl
      simp at he
      rcases he with h | h
      · rw [h, ni] at this; rw [this] at fi2; cases fi2
      · rw [h, nj] at this; rw [this] at fj2; cases fj2
  · intro k d hk1 hk2
    rw [hlk k d hk1, if_neg (by omega)]; exact hT5 k d hk1 (by omega)
  · intro k hk1 hk2
    rw [hhn] at hk2
    by_cases hkn : k = n
    · rw [hkn]
      refine ⟨_, _, by rw [hlk n false hT1, if_pos rfl], by rw [hlk n true hT1, if_pos rfl], ?_⟩
      simp only [Bool.false_eq_true, if_false, if_true, ni, nj]
      rw [hnum i (by omega), hnum j (by omega)]
      refine ⟨fi1, fj1, fi3, fj3, hnumn, ?_, ?_⟩
      · rcases lij with h | h
        · left; rw [hnum i (by omega), hnum j (by omega)]; exact h
        · right; rw [hnum i (by omega), hnum j (by omega)]; exact h
      · intro m hm h0 hp
        rw [hnum m (by omega)] at h0
        have hu : b.used m = false := by
          by_contra hu
          obtain ⟨k', d', q1, q2, q3⟩ := hU m hm h0 (by simpa using hu)
          apply hp k' d' q1 q2
          rw [hlk k' d' q1, if_neg (by omega)]; exact q3
        rcases hmin m (Finset.mem_filter.2 ⟨Finset.mem_range.2 hm, hu, h0⟩) with h | h | h
        · exact .inl h
        · exact .inr (.inl h)
        · right; right; unfold lighter; rw [hnum m (by omega), hnum j (by omega)]; exact h
    · obtain ⟨x, y, q1, q2, q3, q4, q5, q6, q7, q8, q9⟩ := hT6 k hk1 (by omega)
      refine ⟨x, y, by rw [hlk k false hk1, if_neg hkn]; exact q1, by rw [hlk k true hk1, if_neg hkn]; exact q2, q3, q4,
        ?_, ?_, ?_, ?_, ?_⟩
      · rw [hnum _ (by omega)]; exact q5
      · rw [hnum _ (by omega)]; exact q6
      · rw [hnum k (by omega), hnum x.toNat (by omega), hnum y.toNat (by omega)]; exact q7
      · unfold lighter; rw [hnum x.toNat (by omega), hnum y.toNat (by omega)]; exact q8
      · intro m hm h0 hp
        rw [hnum m (by omega)] at h0
        rcases q9 m hm h0 (fun k' d' w1 w2 => by
          have := hp k' d' w1 w2
          rwa [hlk k' d' w1, if_neg (by omega)] at this) with h | h | h
        · exact .inl h
        · exact .inr (.inl h)
        · right; right; unfold lighter; rw [hnum m (by omega), hnum y.toNat (by omega)]; exact h
  · intro m hm h0 hu
    rw [hhn] at hm
    rw [hused] at hu
    by_cases e0 : m = n
    · rw [e0, hbey n (Nat.le_refl _)] at hu
      simp [show n ≠ i by omega, show n ≠ j by omega] at hu
    by_cases e1 : m = i
    · exact ⟨n, false, hT1, by omega, by rw [hlk n false hT1, if_pos rfl, e1]; rfl⟩
    by_cases e2 : m = j
    · exact ⟨n, true, hT1, by omega, by rw [hlk n true hT1, if_pos rfl, e2]; rfl⟩
    rw [decide_eq_false e1, decide_eq_false e2] at hu
    obtain ⟨k', d', q1, q2, q3⟩ := hU m (by omega) (by rwa [hnum m e0] at h0) (by simpa using hu)
    exact ⟨k', d', q1, by omega, by rw [hlk k' d' q1, if_neg (by omega)]; exact q3⟩
  · intro p hp
    rw [htab, List.mem_append] at hp
    rw [hused]
    rcases hp with hp | hp
    · rw [hV p hp]; rfl
    · simp at hp
      rcases hp with rfl | rfl
      · simp [ni]
      · simp [nj]
  · rw [hfree, Finset.sum_insert nn, hnumn]
    have e1 := Finset.add_sum_erase b.free b.weight mi
    have e2 := Finset.add_sum_erase (b.free.erase i) b.weight mj'
    have e3 : ∑ x ∈ (b.free.erase i).erase j, c.weight x = ∑ x ∈ (b.free.erase i).erase j, b.weight x :=
      Finset.sum_congr rfl fun x hx => hnum x (fun e => nn (e ▸ hx))
    omega
  · rw [hfree, Finset.card_insert_of_notMem nn, Finset.card_erase_of_mem mj', Finset.card_erase_of_mem mi, hhn]
    have : ({i, j} : Finset Nat) ⊆ b.free := by intro x hx; simp at hx; rcases hx with rfl | rfl <;> assumption
    have := Finset.card_le_card this
    rw [Finset.card_pair hij] at this
    omega
  · intro _; rw [hfree]; exact Finset.insert_nonempty _ _
  · intro m hm
    rw [hhn] at hm
    rw [hused, hbey m (by omega), decide_eq_false (by omega : m ≠ i), decide_eq_false (by omega : m ≠ j)]; rfl
  · intro m hm; rw [hcnt, if_neg (by omega)]

/-- The loop makes `z - 1` nodes and keeps every count it began with (41 R175). -/
theorem combineAll_builds (z : Nat) (fuel : Nat) : ∀ b : BuildState, LoopInvariant z b → b.free.card ≤ fuel + 1 →
    TreeSoFar (combineAll fuel b) ∧ (combineAll fuel b).hn.toNat = (if 1 ≤ z then 255 + z else 256) ∧
    ∀ m < b.hn.toNat, (combineAll fuel b).count m = b.count m := by
  induction fuel with
  | zero =>
    intro b hI hf
    have hz : (b.hn.toNat) = (if 1 ≤ z then 255 + z else 256) := by
      obtain ⟨⟨hT1, _⟩, -, -, -, hC, hz, hne, -⟩ := hI
      split
      · have := Finset.card_pos.2 (hne (by assumption)); omega
      · omega
    exact ⟨hI.1, hz, fun _ _ => rfl⟩
  | succ fuel ih =>
    intro b hI hf
    have hI' := hI
    obtain ⟨⟨hT1, hT2, -⟩, -, -, -, hC, hz, hne, -⟩ := hI'
    unfold combineAll
    cases h1 : pick b with
    | none =>
      refine ⟨hI.1, ?_, fun _ _ => rfl⟩
      have h0 := (pick_eq_none_iff b (by omega)).1 h1
      have : b.free = ∅ := by
        ext m; simp only [BuildState.free, Finset.mem_filter, Finset.mem_range, Finset.notMem_empty, iff_false]
        rintro ⟨q1, q2, q3⟩; exact q3 (h0 m q1 q2)
      show b.hn.toNat = _
      split
      · have := hne (by assumption); simp_all
      · omega
    | some r =>
      obtain ⟨i, b1⟩ := r
      dsimp only
      obtain ⟨a1, a2, a3⟩ := pick_eq_some b b1 (by omega) i h1
      cases h2 : pick b1 with
      | none =>
        subst a3
        have h0 := (pick_eq_none_iff { b with hused := b.hused.setIfInBounds i true }
          (show b.hn.toNat ≤ 512 by omega)).1 h2
        refine ⟨hI.1, ?_, fun _ _ => rfl⟩
        have hfi : b.free ⊆ {i} := by
          intro m hm
          obtain ⟨q1, q2, q3⟩ := Finset.mem_filter.1 hm
          by_contra hmi
          simp at hmi
          exact q3 (h0 m (by simpa using q1) (by rw [used_mark b i m (by omega), q2, decide_eq_false hmi]; rfl))
        have := Finset.card_le_card hfi
        simp at this
        show b.hn.toNat = _
        split
        · have := Finset.card_pos.2 (hne (by assumption)); omega
        · omega
      | some r2 =>
        obtain ⟨j, b2⟩ := r2
        dsimp only
        obtain ⟨p1, p2, p3, p4, p5, p6⟩ := two_picks z b b1 b2 i j hI h1 h2
        subst p5
        obtain ⟨c1, c2, c3⟩ := combine_keeps_invariant z b i j hI p1 p2 p3 p4 p6 _ rfl
        obtain ⟨d1, d2, d3⟩ := ih _ c1 (by have := c1.2.2.2.2.1; omega)
        exact ⟨d1, d2, fun m hm => by rw [d3 m (by omega), c3 m hm]⟩

/-- The counts the loop begins with (41 R171). -/
theorem count_initContext (counts : List Byte) (m : Nat) :
    ((initContext counts).count m).toNat = if m < 256 then (counts.getD m 0).toNat else 0 := by
  simp only [BuildState.count, initContext, List.getD_eq_getElem?_getD]
  by_cases h : m < 512
  · simp only [Vector.getElem?_toList, Vector.getElem?_ofFn, h, dif_pos, Option.getD_some]
    split
    · rw [BitVec.toNat_setWidth]
      have := (counts.getD m 0).isLt
      simp only [List.getD_eq_getElem?_getD] at this ⊢
      omega
    · rfl
  · simp only [Vector.getElem?_toList, Vector.getElem?_ofFn, h, dif_neg, not_false_eq_true, Option.getD_none]
    rw [if_neg (by omega)]; rfl

/-- No node is used at first (41 R171). -/
theorem used_initContext (counts : List Byte) (m : Nat) : (initContext counts).used m = false := by
  simp only [BuildState.used, initContext, List.getD_eq_getElem?_getD]
  by_cases h : m < 512
  · rw [Vector.getElem?_toList, Vector.getElem?_replicate, if_pos h]; rfl
  · rw [Vector.getElem?_toList, Vector.getElem?_replicate, if_neg h]; rfl

/-- The first candidates are the nonzero tokens. -/
theorem card_free_initContext (counts : List Byte) :
    (initContext counts).free.card =
      ((List.range 256).filter fun t => decide (counts.getD t 0 ≠ 0)).length := by
  have : (initContext counts).free = (Finset.range 256).filter fun t => counts.getD t 0 ≠ 0 := by
    ext m
    simp only [BuildState.free, Finset.mem_filter, Finset.mem_range, used_initContext, BuildState.weight,
      count_initContext, true_and]
    show m < 256 ∧ _ ↔ _
    constructor
    · rintro ⟨h1, h2⟩; rw [if_pos h1] at h2; exact ⟨h1, fun h => h2 (by rw [h]; rfl)⟩
    · rintro ⟨h1, h2⟩; rw [if_pos h1]; exact ⟨h1, fun h => h2 (BitVec.eq_of_toNat_eq h)⟩
  rw [this]; rfl

/-- The loop begins in its invariant. -/
theorem initContext_invariant (counts : List Byte) :
    LoopInvariant ((List.range 256).filter fun t => decide (counts.getD t 0 ≠ 0)).length (initContext counts) := by
  have hz : ((List.range 256).filter fun t => decide (counts.getD t 0 ≠ 0)).length ≤ 256 := by
    have := List.length_filter_le (fun t => decide (counts.getD t 0 ≠ 0)) (List.range 256)
    rwa [List.length_range] at this
  have h256 : (initContext counts).hn.toNat = 256 := rfl
  refine ⟨⟨by omega, by omega, by rw [h256]; rfl, List.nodup_nil, fun _ _ _ _ => rfl, ?_⟩, ?_, ?_, ?_, ?_, hz, ?_, ?_⟩
  · intro n h1 h2; exact absurd h2 (by show ¬ n < 256; omega)
  · intro m _ _ h; rw [used_initContext] at h; cases h
  · intro p hp; simp [initContext] at hp
  · have h1 : ∀ i ∈ (initContext counts).free, (initContext counts).weight i ≤ 255 := by
      intro i _
      simp only [BuildState.weight, count_initContext]
      split
      · have := (counts.getD i 0).isLt; omega
      · omega
    have := Finset.sum_le_card_nsmul _ _ _ h1
    have h2 := card_free_initContext counts
    rw [h2] at this
    simp only [smul_eq_mul] at this
    exact le_trans this (by omega)
  · rw [card_free_initContext]; rfl
  · intro h; rw [← Finset.card_pos, card_free_initContext]; exact h
  · intro m _; exact used_initContext counts m

/-- The counts of a context are its 256 bytes of the histogram (30 R121). -/
theorem getD_contextCounts (hist : List Byte) (c t : Nat) (h : t < 256) :
    (contextCounts hist c).getD t 0 = hist.getD (c * 256 + t) 0 := by
  simp [contextCounts, List.getD_eq_getElem?_getD, h]

end Sys2Proof.Machine
end

