-- ==== Sys2Proof/Tests/Slice0.lean ====
section
/-! SUPPORT. The implementer's own tests. Expected values come from spec/95_test_vectors.md and the tables of
spec/30_encoding.md; a witness_ theorem shows that the hypotheses of the statement it is named after can be met. -/

namespace Sys2Proof.Tests

set_option Elab.async false

open Sys2Proof Sys2Proof.Machine

/-! ### Well-formedness: every check refuses an ill-formed term -/

/-- The defaults with one chunk type used twice. -/
def twoAlike : Params := { Params.default with typeVq := 0x1001 }

theorem test_wf_default : Params.default.wf = true := by decide +kernel
theorem test_wf_refuses_equal_types : twoAlike.typesDistinct = false ∧ twoAlike.wf = false := by decide +kernel
theorem test_wf_refuses_dim_not_multiple_of_16 :
    ({ Params.default with roqDimMax := 1000 }).dimMaxOk = false ∧ ({ Params.default with roqDimMax := 1000 }).wf = false := by
  decide +kernel
theorem test_wf_refuses_dim_beyond_16_bits : ({ Params.default with roqDimMax := 65536 }).wf = false := by decide +kernel
theorem test_wf_refuses_chunk_without_type : (Instr.roqVq 10 0).wf twoAlike = false ∧ Instr.mot8.wf twoAlike = true := by
  decide +kernel

/-! ### Decoding: words written out from the tables of 30_encoding.md -/

theorem test_decode_hostcmd :
    ([0b00000001, 0b00000010, 0b00010000, 0b00010001, 0b00010010, 0b00010011, 0b00100000, 0b00100001] : List Byte).map
      (fun c => decode Params.default .hostcmd [c]) =
    [.ok .rst, .ok .clrerr, .ok .hufBuild, .ok .cinRec, .ok .palLoad, .ok .palDefault, .ok .vqSeed, .ok .roqChunk] := by
  decide +kernel
theorem test_decode_cinrec :
    ([[0, 0, 0, 0], [1, 0, 0, 0], [2, 0, 0, 0], [3, 0, 0, 0], [0, 1, 0, 0]] : List (List Byte)).map
      (decode Params.default .cinrec) =
    [.ok .cinVideo, .ok .cinPalvideo, .ok .cinRsvd, .error (.undefinedRecord 3), .error (.undefinedRecord 256)] := by
  decide +kernel
theorem test_decode_roqchunk :
    ([0x01, 0x02, 0x11, 0x12, 0x13, 0x20, 0x21, 0x30] : List Byte).map
      (fun low => decode Params.default .roqchunk [low, 0x10, 0x04, 0x03, 0x02, 0x01, 0xFE, 0x12]) =
    [.ok (.roqInfo 0x01020304 0x12FE), .ok (.roqCodebook 0x01020304 0x12FE), .ok (.roqVq 0x01020304 0x12FE),
      .ok (.roqJpeg 0x01020304 0x12FE), .ok (.roqHang 0x01020304 0x12FE), .ok (.roqSndMono 0x01020304 0x12FE),
      .ok (.roqSndStereo 0x01020304 0x12FE), .error (.unknownChunk 0x1030)] := by
  decide +kernel
theorem test_decode_ids :
    ([0b00, 0b01, 0b10, 0b11] : List Byte).map (fun c => decode Params.default .id8 [c]) =
      [.ok .mot8, .ok .fcc8, .ok .sld8, .ok .ccc8] ∧
    ([0b00, 0b01, 0b10, 0b11] : List Byte).map (fun c => decode Params.default .id4 [c]) =
      [.ok .mot4, .ok .fcc4, .ok .sld4, .ok .ccc4] ∧
    decode Params.default .id8 [4] = .error (.badLength .id8) := by
  decide +kernel
theorem test_decode_dpcm_and_bits :
    ([0b00000011, 0b01111111, 0b10000000, 0b11111111] : List Byte).map (fun c => decode Params.default .dpcm8 [c]) =
      [.ok (.dpcmPos 3), .ok (.dpcmPos 127), .ok (.dpcmNeg 0), .ok (.dpcmNeg 127)] ∧
    ([0, 1] : List Byte).map (fun c => decode Params.default .hbit [c]) = [.ok .hufStep0, .ok .hufStep1] ∧
    decode Params.default .hostcmd [0x7F] = .error (.undefinedCommand 0x7F) ∧
    decode Params.default .hostcmd [] = .error (.badLength .hostcmd) := by
  decide +kernel
theorem test_table_words :
    [(8, 0x12), (32, 1), (16, 0x1002), (8, 3), (8, 0x85), (2, 1), (1, 1), (8, 0)].map (fun w => decodeTableWord w.1 w.2) =
      [some .palLoad, some .cinPalvideo, some (.roqCodebook 0 0), some .ccc8, some (.dpcmNeg 5), some .fcc8,
        some .hufStep1, some .mot8] := by
  decide +kernel

/-! ### Small states -/

/-- The state of an outcome that is one. -/
def outcomeState (o : Host.Outcome State Fault Refusal) : Option State :=
  match o with
  | .next s => some s
  | .fault _ => none
  | .refused _ => none

/-- One instruction, and one field of what it leaves. -/
def after {α : Type} (i : Instr) (s : State) (f : State → α) : Option α := (outcomeState (exec i s)).map f

/-- The reset state with the bytes of a command in IN and its code pending. -/
def pending (code : Byte) (input : List Byte) : State :=
  { State.reset with
    inp := Memory.layout 0 input, inLen := BitVec.ofNat 32 input.length, cmd := some code
    status := State.reset.status.start }

/-- The same with a fault held (V-CTL23). -/
def faulted (code : Byte) : State :=
  { pending code [] with errCode := 5, errPos := 12, status := { (pending code []).status with err := true } }

/-- Trees in which every context has the one node 256 = (0, 1). -/
def twoLeafRoot : Vector (BitVec 9) 256 := Vector.replicate 256 256

/-- The children of those trees. -/
def twoLeafChild : Vector ChildTable 256 := Vector.replicate 256 [(0, 0), (1, 1)]

/-- A record of a W x 1 CIN frame, at its command word. -/
def record (w : Half) (input : List Byte) : State :=
  { pending 0 input with
    cmd := none, phase := .cinRecord, cfgWidth := w, cfgHeight := 1, root := twoLeafRoot, child := twoLeafChild
    status := { State.reset.status.start with built := true } }

/-- The walk of a 2 x 1 frame at pixel `k`, with `n` bits left in the reservoir and one more payload byte. -/
def walk (k : BitVec 21) (n : Nat) (bits : Byte) : State :=
  { record 2 ([0, 0, 0, 0, 5, 0, 0, 0, 2, 0, 0, 0] ++ [0x02]) with
    phase := .huffman, pay0 := 12, payLen := 1, pos := 12, k := k, node := 256, bitcnt := n, bitbuf := bits
    idx := Memory.layout 0 (List.replicate k.toNat 7) }

/-- The same with contexts that have no tree, but for context 0. -/
def degenerateWalk (d : Degenerate) : State :=
  { walk 0 2 0b01 with root := Vector.ofFn fun i => if i.val = 0 then 256 else 255
                       params := { Params.default with hufDegenerate := d } }

/-- A plane set of n black elements. -/
def black (n : Nat) : Planes :=
  ⟨Memory.layout 0 (List.replicate n 0), Memory.layout 0 (List.replicate n 128), Memory.layout 0 (List.replicate n 128)⟩

/-- A 16 x 16 RoQ chunk at its preamble, seeded. -/
def chunk (input : List Byte) : State :=
  { pending 0 input with
    cmd := none, phase := .roqRecord, cfgWidth := 16, cfgHeight := 16, pl0 := black 256
    status := { State.reset.status.start with seeded := true } }

/-- The codebook CB1 of spec/95_test_vectors.md, section 6. -/
def withCb1 (s : State) : State :=
  { s with
    cell := (s.cell.set 0 ⟨10, 20, 30, 40, 100, 200⟩).set 1 ⟨50, 60, 70, 80, 110, 210⟩
    quad := s.quad.set 0 ⟨0, 1, 1, 0⟩, nv1 := 2, nv2 := 1 }

/-- A 16 x 16 frame of CB1 at quadrant 0, with 8 copies of one id in hand and the payload bytes given. -/
def frame (flag : Half) (payload : List Byte) : State :=
  { withCb1 (chunk (List.replicate 8 0 ++ payload)) with
    phase := .quadrant, pos := 8, pay0 := 8, payLen := BitVec.ofNat 32 payload.length, flag := flag, flagN := 8
    pl1 := black 256 }

/-- A sound chunk at its first code. -/
def sound (p : Phase) (payload : List Byte) : State :=
  { pending 0 (List.replicate 8 0 ++ payload) with
    cmd := none, phase := p, pos := 8, pay0 := 8, payLen := BitVec.ofNat 32 payload.length, predL := 0xFFFE }

/-! ### One instruction at a time -/

theorem test_rst : after .rst (faulted 1) (fun t => (t.status.word, t.errCode, t.errPos)) = some (0x02, 0, 0) := by decide +kernel
theorem test_clrerr : after .clrerr (faulted 2) (fun t => (t.status.word, t.errCode, t.errPos)) = some (0x02, 0, 0) := by
  decide +kernel
theorem test_refused_while_err :
    after .palDefault (faulted 0x13) (fun t => (t.status.word, t.errCode, t.errPos)) = some (0x04, 5, 12) := by decide +kernel
theorem test_hufBuild_short :
    after .hufBuild (pending 0x10 [1, 2]) (fun t => (t.status.word, t.errCode)) = some (0x04, 3) := by decide +kernel
/-- Context 0 of V-HUF1: the count 3 of token 0 ties with node 256. -/
theorem test_build_context_0 :
    let b := buildContext (3 :: 1 :: 2 :: List.replicate 253 0)
    (b.root, b.table) = (257, [(0, 1), (1, 2), (2, 0), (3, 256)]) := by decide +kernel
theorem test_cinRec_without_trees :
    after .cinRec (pending 0x11 [0, 0, 0, 0]) (fun t => (t.status.word, t.errCode)) = some (0x04, 7) := by decide +kernel
/-- V-CTL5. -/
theorem test_cinRec_short :
    after .cinRec { record 4 [0, 0, 0] with phase := .idle, cmd := some 0x11 } (fun t => (t.errCode, t.errPos)) =
      some (3, 0) := by decide +kernel
theorem test_palLoad_short : after .palLoad (pending 0x12 [1]) (fun t => (t.errCode, t.status.done)) = some (3, false) := by
  decide +kernel
/-- V-PAL2 and V-PAL3. -/
theorem test_palette_six_bit :
    entry (paletteOf (0x3F :: 0x20 :: List.replicate 766 0)) 0 = ⟨255, 130, 0⟩ ∧
    entry (paletteOf (0x40 :: 0x20 :: List.replicate 766 0)) 0 = ⟨64, 32, 0⟩ := by decide +kernel
theorem test_palDefault : after .palDefault (pending 0x13 []) (fun t => (t.status.word, entry t.pal 0x80)) =
    some (0x02, ⟨0x80, 0x80, 0x80⟩) := by decide +kernel
theorem test_vqSeed :
    after .vqSeed { pending 0x20 [] with cfgWidth := 16, cfgHeight := 16 }
      (fun t => (t.status.word, t.last.y.read 255, t.last.u.read 255, t.last.v.read 256)) =
      some (0x42, some 0, some 128, none) := by decide +kernel
/-- V-CTL21. -/
theorem test_vqSeed_dimensions :
    after .vqSeed { pending 0x20 [] with cfgWidth := 16, cfgHeight := 24 } (fun t => (t.errCode, t.status.seeded)) =
      some (2, false) := by decide +kernel
/-- V-CTL13. -/
theorem test_roqChunk_short :
    after .roqChunk (pending 0x21 [1, 2, 3, 4, 5, 6, 7]) (fun t => (t.errCode, t.errPos)) = some (3, 0) := by decide +kernel
/-- L1. -/
theorem test_cinVideo_empty_payload :
    after .cinVideo (record 16 [0, 0, 0, 0, 4, 0, 0, 0, 16, 0, 0, 0]) (fun t => (t.status.word, t.errCode, t.errPos)) =
      some (0x24, 5, 12) := by decide +kernel
/-- V-CTL10. -/
theorem test_cinVideo_wrong_size :
    after .cinVideo (record 16 [0, 0, 0, 0, 7, 0, 0, 0, 15, 0, 0, 0, 0xDA, 0x4C, 0x3E]) (fun t => (t.errCode, t.errPos)) =
      some (4, 12) := by decide +kernel
/-- V-CTL8. -/
theorem test_cinPalvideo_short :
    after .cinPalvideo (record 16 [1, 0, 0, 0, 9]) (fun t => (t.errCode, t.errPos, entry t.pal 1)) =
      some (3, 4, ⟨1, 1, 1⟩) := by decide +kernel
/-- V-CTL6. -/
theorem test_cinRsvd :
    after .cinRsvd (record 16 [2, 0, 0, 0]) (fun t => (t.errCode, t.errPos, t.status.word)) = some (1, 4, 0x24) := by decide +kernel
/-- V-CTL16 and V-CTL17. -/
theorem test_roqHang :
    after (.roqHang 2 0) (chunk [0x13, 0x10, 2, 0, 0, 0, 0, 0, 0xAA, 0xBB]) (fun t => (t.consumed, t.status.word)) =
      some (10, 0x42) ∧
    after (.roqHang 0xFFFFFFFF 0) (chunk (List.replicate 8 0)) (fun t => (t.errCode, t.errPos)) = some (3, 8) := by decide +kernel
/-- V-CTL18. -/
theorem test_roqJpeg : after (.roqJpeg 0 0x1234) (chunk (List.replicate 8 0)) (fun t => (t.consumed, t.recArg)) =
    some (8, 0x1234) := by decide +kernel
/-- P4, step 2. -/
theorem test_roqInfo : after (.roqInfo 8 0) (chunk (List.replicate 16 0)) (fun t => (t.consumed, t.cfgWidth)) =
    some (16, 16) := by decide +kernel
/-- CB1. -/
theorem test_roqCodebook :
    after (.roqCodebook 16 0x0201) (chunk (List.replicate 8 0 ++ [10, 20, 30, 40, 100, 200, 50, 60, 70, 80, 110, 210, 0, 1, 1, 0]))
      (fun t => (t.nv1, t.nv2, entry t.cell 1, entry t.quad 0, t.consumed, t.status.word)) =
      some (2, 1, ⟨50, 60, 70, 80, 110, 210⟩, ⟨0, 1, 1, 0⟩, 24, 0xC2) := by decide +kernel
/-- V-CB2 and V-CB3: too little payload for 256 quads. -/
theorem test_codebook_counts :
    (cellCount 0, quadCount 0 2560, quadCount 0 2559, cellCount 0x0100, quadCount 0x0100 6) = (256, 256, 0, 1, 0) := by decide +kernel
theorem test_roqVq :
    after (.roqVq 2 0x01FF) (chunk (List.replicate 10 0))
      (fun t => (t.phase, t.biasX, t.biasY, t.current.u.read 255, t.last.y.read 0)) =
      some (.quadrant, 1, 0xFF, some 128, some 0) := by decide +kernel
/-- V-CTL20. -/
theorem test_roqVq_unseeded :
    after (.roqVq 2 0) { chunk (List.replicate 10 0) with status := State.reset.status.start } (fun t => (t.errCode, t.errPos)) =
      some (7, 8) := by decide +kernel
/-- V-SND4. -/
theorem test_roqSndMono_empty :
    after (.roqSndMono 0 0x1234) (chunk (List.replicate 8 0)) (fun t => (t.pcmLen, t.pcm, t.status.audio, t.predL)) =
      some (0, [], true, 0x1234) := by decide +kernel
/-- V-SND5. -/
theorem test_roqSndStereo_seeds :
    after (.roqSndStereo 4 0x12FE) (chunk (List.replicate 12 0)) (fun t => (t.predL, t.predR, t.phase)) =
      some (0x1200, 0xFE00, .sndStereo) := by decide +kernel
theorem test_mot8 : after .mot8 (frame 0 []) (fun t => (t.q, t.pos, t.flagN, t.phase)) = some (1, 8, 7, .quadrant) := by
  decide +kernel
/-- V-VQ4: motion byte 0x9F at (0, 0) leaves the frame. -/
theorem test_fcc8_outside : after .fcc8 (frame 0x4000 [0x9F]) (fun t => (t.errCode, t.errPos, t.pp, t.status.word)) =
    some (5, 9, false, 0x44) := by decide +kernel
theorem test_fcc8_inside : after .fcc8 (frame 0x4000 [0x00]) (fun t => (t.q, t.current.y.read 0, t.pos)) =
    some (1, some 0, 9) := by decide +kernel
/-- V-VQ1: the first rows of the quadrant at (0, 0). -/
theorem test_sld8 :
    after .sld8 (frame 0x8000 [0]) (fun t => ([0, 2, 5, 7, 8, 34, 112, 119].map t.current.y.read, t.current.u.read 4)) =
      some ([some 10, some 20, some 50, some 60, some 0, some 40, some 70, some 40], some 110) := by decide +kernel
theorem test_ccc8 : after .ccc8 (frame 0xC000 []) (fun t => (t.phase, t.sb, t.pos)) = some (.subBlock, 0, 8) := by decide +kernel
theorem test_mot4 :
    after .mot4 { frame 0 [] with phase := .subBlock, sb := 3, q := 1 } (fun t => (t.phase, t.q)) = some (.quadrant, 2) := by
  decide +kernel
theorem test_fcc4 :
    after .fcc4 { frame 0x4000 [0x88] with phase := .subBlock } (fun t => (t.phase, t.sb, t.pos)) =
      some (.subBlock, 1, 9) := by decide +kernel
/-- V-VQ3: the sub-block at (8, 0). -/
theorem test_sld4 :
    after .sld4 { frame 0x8000 [0] with phase := .subBlock, q := 1 } (fun t => [8, 9, 10, 24, 40, 42].map t.current.y.read) =
      some [some 10, some 20, some 50, some 30, some 50, some 10] := by decide +kernel
/-- V-VQ1: the sub-block at (12, 12), cells 1, 0, 0, 1. -/
theorem test_ccc4 :
    after .ccc4 { frame 0xC000 [1, 0, 0, 1] with phase := .subBlock, q := 3, sb := 2 }
      (fun t => (t.pos, [200, 202, 232, 234].map t.current.y.read)) = some (12, [some 50, some 10, some 10, some 50]) := by
  decide +kernel
/-- V-VQ4: cell 2 is not loaded. -/
theorem test_ccc4_not_loaded :
    after .ccc4 { frame 0xC000 [0, 1, 2, 0] with phase := .subBlock } (fun t => (t.errCode, t.errPos)) = some (5, 11) := by
  decide +kernel
/-- The first two steps of V-SND1: 0xFFFE + 1, and - 1 from 0xFFFE. -/
theorem test_dpcmPos : after (.dpcmPos 1) (sound .sndMono [1, 1]) (fun t => (t.predL, t.pcm, t.pos)) =
    some (0xFFFF, [(0, 0xFF), (1, 0xFF)], 9) := by decide +kernel
theorem test_dpcmNeg_ends : after (.dpcmNeg 1) (sound .sndMono [0x81]) (fun t => (t.predL, t.pcmLen, t.status.word)) =
    some (0xFFFD, 2, 0x12) := by decide +kernel
theorem test_hufStep0 : after .hufStep0 (walk 0 1 0) (fun t => (t.idx.read 0, t.ctx, t.k, t.node, t.phase)) =
    some (some 0, 0, 1, 256, .huffman) := by decide +kernel
/-- The second bit of 0b10 ends the frame: pixels 7 and 1, grey 7 and 1. -/
theorem test_hufStep1_ends : after .hufStep1 (walk 1 1 1)
    (fun t => (t.rgba.map Prod.snd, t.consumed, t.status.word)) = some ([7, 7, 7, 255, 1, 1, 1, 255], 13, 0x2A) := by decide +kernel

/-! ### One step -/

/-- Every command code placed after reset is fetched, decoded and run; an idle block waits. -/
theorem test_step_runs_placed_word :
    (outcomeState (step (State.reset.withFetchWord 8 0x13))).map (fun t => t.status.word) = some 0x02 ∧
    (outcomeState (step (State.reset.withFetchWord 8 0x7F))).map (fun t => t.predL) = some 0x3F01 ∧
    (outcomeState (step (State.reset.withFetchWord 16 0x1020))).map (fun t => t.status.audio) = some true ∧
    (outcomeState (step State.reset)).map (fun t => (t.phase, t.status.word)) = some (.idle, 0) := by decide +kernel
/-- 41 R179: payload byte 0xDA yields 0, 1, 0, 1, 1, 0, 1, 1. -/
theorem test_bit_order :
    ((List.range 8).map fun n => ((0xDA : Byte) >>> n).getLsbD 0) = [false, true, false, true, true, false, true, true] := by
  decide +kernel
/-- V-VQ1: flag word 0x871B is 10 00 01 11 00 01 10 11; V-VQ6: from the other end 3, 2, 1, ... -/
theorem test_id_order :
    (takeId (frame 0x871B [])).1 = 2 ∧
    (takeId { frame 0x871B [] with params := { Params.default with idOrder := .lsbFirst } }).1 = 3 := by decide +kernel
/-- V-VQ2 and V-VQ5. -/
theorem test_motion_vectors :
    [motionVector 1 0xFF 0x09, motionVector 1 0xFF 0xF1, motionVector 1 0xFF 0xCF, motionVector 0x80 0x80 0xFF,
      motionVector 0x7F 0x7F 0x00] = [(7, 0), (-8, 8), (-5, -6), (121, 121), (-119, -119)] := by decide +kernel
/-- L5. -/
theorem test_delta : ([0, 1, 2, 16, 127, 128, 129, 131, 255] : List Byte).map delta =
    [0, 1, 4, 256, 16129, 0, -1, -9, -16129] := by decide +kernel
/-- V-CTL22. -/
theorem test_seeded_cleared_by_width :
    (outcomeState (writeReg 0 16 { chunk [] with status := { State.reset.status with seeded := true } })).map
      (fun t => t.status.word) = some 0 := by decide +kernel

/-! ### The hypotheses of the statements can be met, clause by clause, at the boundary values of their ranges -/

theorem witness_DecodeOfEncode :
    (Instr.roqVq 0xFFFFFFFF 0).wf Params.default = true ∧ (Instr.dpcmNeg 127).wf twoAlike = true := by decide +kernel
theorem witness_EncodeOfDecode :
    decode Params.default .dpcm8 [0xFF] = .ok (.dpcmNeg 127) ∧
    decode twoAlike .roqchunk [0x01, 0x10, 0, 0, 0, 0, 0, 0] = .ok (.roqInfo 0 0) := by decide +kernel
theorem witness_StepRunsTheDecodedInstruction :
    fetch (State.reset.withFetchWord 8 0x13) = .ok (some (.hostcmd, [0x13])) ∧
    decode (State.reset.withFetchWord 8 0x13).params .hostcmd [0x13] = .ok .palDefault ∧
    Instr.palDefault.wf (State.reset.withFetchWord 8 0x13).params = true ∧
    [0x13] = encode (State.reset.withFetchWord 8 0x13).params .palDefault ∧
    fetch (sound .sndMono []) = .error (.raised (sound .sndMono []) .codecDecode) := ⟨rfl, rfl, rfl, rfl, rfl⟩
theorem witness_FetchReadsTheNextCode_commands :
    (State.reset.phase = .idle ∧ State.reset.cmd = none) ∧
    ((pending 0x7F []).phase = .idle ∧ (pending 0x7F []).cmd = some 0x7F) := by decide +kernel
theorem witness_FetchReadsTheNextCode_records :
    ((record 1 [1, 2, 3, 4]).phase = .cinRecord ∧
      (record 1 [1, 2, 3, 4]).pos.toNat + 4 ≤ (record 1 [1, 2, 3, 4]).inLen.toNat ∧
      (record 1 [1, 2, 3, 4]).inp.readRun (record 1 [1, 2, 3, 4]).pos.toNat 4 = some [1, 2, 3, 4]) ∧
    ((chunk (List.replicate 8 9)).phase = .roqRecord ∧
      (chunk (List.replicate 8 9)).pos.toNat + 8 ≤ (chunk (List.replicate 8 9)).inLen.toNat ∧
      (chunk (List.replicate 8 9)).inp.readRun (chunk (List.replicate 8 9)).pos.toNat 8 =
        some (List.replicate 8 9)) := by decide +kernel
theorem witness_FetchReadsTheNextCode_bits_and_ids :
    ((walk 0 0 0).phase = .huffman ∧ ∃ t, nextBit (walk 0 0 0) = .ok (false, t)) ∧
    ((frame 0xC000 []).phase = .quadrant ∧ ∃ t, nextId (frame 0xC000 []) = .ok (3, t)) ∧
    (({ frame 0xC000 [] with phase := .subBlock }).phase = .subBlock ∧
      ∃ t, nextId { frame 0xC000 [] with phase := .subBlock } = .ok (3, t)) :=
  ⟨⟨rfl, _, rfl⟩, ⟨rfl, _, rfl⟩, rfl, _, rfl⟩
theorem witness_FetchReadsTheNextCode_sound :
    ((sound .sndMono [5]).phase = .sndMono ∧ (sound .sndMono [5]).pos.toNat < (sound .sndMono [5]).payEnd ∧
      (sound .sndMono [5]).inp.read (sound .sndMono [5]).pos.toNat = some 5) ∧
    ((sound .sndStereo [5, 6]).phase = .sndStereo ∧
      (sound .sndStereo [5, 6]).pos.toNat + 1 < (sound .sndStereo [5, 6]).payEnd ∧
      (sound .sndStereo [5, 6]).inp.read (sound .sndStereo [5, 6]).pos.toNat = some 5) ∧
    (let s := { sound .sndStereo [5, 6] with pos := 9 }
     s.payOffset % 2 = 1 ∧ s.pos.toNat < s.payEnd ∧ s.inp.read s.pos.toNat = some 6) := by decide +kernel
theorem witness_UndefinedWordsRaiseTheirFaults :
    ((pending 0x00 []).status.err = false ∧ (pending 0x00 []).phase = .idle ∧ (pending 0x00 []).cmd = some 0x00 ∧
      (0x00 : Byte) ∉ ([0x01, 0x02, 0x10, 0x11, 0x12, 0x13, 0x20, 0x21] : List Byte)) ∧
    ((record 1 [3, 0, 0, 0]).phase = .cinRecord ∧ (record 1 [3, 0, 0, 0]).pos = 0 ∧
      4 ≤ (record 1 [3, 0, 0, 0]).inLen.toNat ∧ (record 1 [3, 0, 0, 0]).inp.readRun 0 4 = some [3, 0, 0, 0] ∧
      3 ≤ (le32 3 0 0 0).toNat) ∧
    ((chunk (List.replicate 8 9)).phase = .roqRecord ∧ (chunk (List.replicate 8 9)).pos = 0 ∧
      (chunk (List.replicate 8 9)).status.err = false ∧
      (chunk (List.replicate 8 9)).inp.readRun 0 8 = some [9, 9, 9, 9, 9, 9, 9, 9] ∧
      8 ≤ (chunk (List.replicate 8 9)).inLen.toNat ∧
      le16 9 9 ∉ (chunk (List.replicate 8 9)).params.types) := by decide +kernel
theorem witness_FaultEntryReportsAndKeeps : State.reset.status.err = false ∧ (faulted 0x11).status.err = true := by
  decide +kernel
theorem witness_ResetLeavesWhatTheSpecSays : State.reset.status.busy = false := by decide +kernel
theorem witness_PalDefaultLoadsTheGreyRamp : (pending 0x13 []).status.err = false := by decide +kernel
theorem witness_FirstFaultIsKept :
    (faulted 0x12).phase = .idle ∧ (faulted 0x12).cmd = some 0x12 ∧ (faulted 0x12).status.err = true ∧
    (faulted 0x00).cmd = some 0x00 ∧ (faulted 0x00).status.err = true := by decide +kernel
theorem witness_DimensionWriteClearsSeeded :
    State.reset.status.busy = false ∧ (pending 0x13 []).status.busy = true := by decide +kernel
theorem witness_CmdWriteStartsACommand :
    (State.reset.status.busy = false ∧ State.reset.phase = .idle) ∧ (pending 0x13 []).status.busy = true := by
  decide +kernel
theorem witness_PalLoadDetectsSixBits_six :
    (pending 0x12 (List.replicate 768 63)).status.err = false ∧
    768 ≤ (pending 0x12 (List.replicate 768 63)).inLen.toNat ∧
    (pending 0x12 (List.replicate 768 63)).inp.readRun 0 768 = some (List.replicate 768 63) ∧
    (∀ v ∈ List.replicate 768 (63 : Byte), v.toNat ≤ 63) :=
  ⟨rfl, by decide +kernel, by decide +kernel, fun v h => by rw [List.eq_of_mem_replicate h]; decide⟩
theorem witness_PalLoadDetectsSixBits_eight :
    (pending 0x12 (List.replicate 768 64)).inp.readRun 0 768 = some (List.replicate 768 64) ∧
    (∃ v ∈ List.replicate 768 (64 : Byte), 63 < v.toNat) ∧
    (pending 0x12 (List.replicate 767 64)).inLen.toNat < 768 ∧
    (pending 0x12 (List.replicate 767 64)).status.err = false :=
  ⟨by decide +kernel, ⟨64, List.mem_replicate.2 ⟨by decide, rfl⟩, by decide⟩, by decide +kernel, rfl⟩
theorem witness_PickTakesTheLowestCount :
    (initContext (0 :: 2 :: 2 :: List.replicate 253 0)).hn.toNat ≤ 512 ∧
    (pick (initContext (0 :: 2 :: 2 :: List.replicate 253 0))).map Prod.fst = some 1 ∧
    ((pick (initContext (0 :: 2 :: 2 :: List.replicate 253 0))).bind fun r => pick r.2).map Prod.fst = some 2 ∧
    (initContext (0 :: 2 :: 2 :: List.replicate 253 0)).hn.toNat < 512 ∧
    (pick (initContext [3])).map Prod.fst = some 0 ∧
    ((pick (initContext [3])).bind fun r => pick r.2).map Prod.fst = none ∧
    (pick (initContext [])).map Prod.fst = none := by decide +kernel
theorem witness_HufBuildMakesWholeTrees :
    (pending 0x10 (List.replicate 65536 1)).status.err = false ∧
    65536 ≤ (pending 0x10 (List.replicate 65536 1)).inLen.toNat ∧
    (pending 0x10 (List.replicate 65536 1)).inp.readRun 0 65536 = some (List.replicate 65536 1) := by
  refine ⟨rfl, ?_, ?_⟩
  · simp only [pending, List.length_replicate]; decide
  · have h := Memory.readRun_layout (List.replicate 65536 1)
    rwa [List.length_replicate] at h
theorem witness_HufBuildMakesWholeTrees_short :
    (pending 0x10 (List.replicate 65535 1)).status.err = false ∧
    (pending 0x10 (List.replicate 65535 1)).inLen.toNat < 65536 := by
  refine ⟨rfl, ?_⟩
  simp only [pending, List.length_replicate]; decide
theorem witness_CinRecIsAdmittedInOrder :
    (let s := { record 1024 [0, 0, 0, 0] with phase := .idle, cmd := some 0x11 }
     s.status.err = false ∧ s.status.built = true ∧ s.cinDimsOk = true ∧ 4 ≤ s.inLen.toNat) ∧
    ((pending 0x11 []).status.err = false ∧ (pending 0x11 []).status.built = false) ∧
    ((record 1025 []).status.built = true ∧ (record 1025 []).cinDimsOk = false ∧ (record 0 []).cinDimsOk = false) ∧
    ((record 1 [0, 0, 0]).status.built = true ∧ (record 1 [0, 0, 0]).cinDimsOk = true ∧
      (record 1 [0, 0, 0]).inLen.toNat < 4) := by decide +kernel
theorem witness_CinVideoStartsTheFrame :
    let s := record 1 [0, 0, 0, 0, 5, 0, 0, 0, 1, 0, 0, 0, 0xFF]
    s.pos = 0 ∧ s.cinDimsOk = true ∧ s.inp.readRun 4 4 = some [5, 0, 0, 0] ∧ s.inp.readRun 8 4 = some [1, 0, 0, 0] ∧
    4 < (le32 5 0 0 0).toNat ∧ (le32 1 0 0 0).toNat = s.npix ∧ 8 + (le32 5 0 0 0).toNat ≤ s.inLen.toNat ∧
    256 ≤ (entry s.root 0).toNat := by decide +kernel
theorem witness_CinPalvideoLoadsThePaletteFirst :
    let s := record 1 ([1, 0, 0, 0] ++ List.replicate 768 63 ++ [5, 0, 0, 0, 1, 0, 0, 0, 0xFF])
    s.pos = 0 ∧ s.cinDimsOk = true ∧ s.inp.readRun 4 768 = some (List.replicate 768 63) ∧
    s.inp.readRun 772 4 = some [5, 0, 0, 0] ∧ s.inp.readRun 776 4 = some [1, 0, 0, 0] ∧
    4 < (le32 5 0 0 0).toNat ∧ (le32 1 0 0 0).toNat = s.npix ∧ 776 + (le32 5 0 0 0).toNat ≤ s.inLen.toNat ∧
    256 ≤ (entry s.root 0).toNat := by decide +kernel
theorem witness_CinPalvideoLoadsThePaletteFirst_faults :
    (let s := record 1 (List.replicate 771 1)
     s.pos = 0 ∧ s.status.err = false ∧ s.inLen.toNat < 772) ∧
    (let s := record 1 (List.replicate 772 1)
     s.pos = 0 ∧ s.status.err = false ∧ 772 ≤ s.inLen.toNat ∧ s.inLen.toNat < 776 ∧
       s.inp.readRun 4 768 = some (List.replicate 768 1)) ∧
    (let s := record 1 (List.replicate 772 1 ++ [3, 0, 0, 0, 1, 0, 0])
     776 ≤ s.inLen.toNat ∧ s.inLen.toNat < 780 ∧ s.inp.readRun 772 4 = some [3, 0, 0, 0]) := by decide +kernel
theorem witness_CinPalvideoLoadsThePaletteFirst_size_faults :
    (let s := record 1 (List.replicate 772 1 ++ [3, 0, 0, 0, 2, 0, 0, 0])
     s.status.err = false ∧ s.cinDimsOk = true ∧ s.inp.readRun 4 768 = some (List.replicate 768 1) ∧
       780 ≤ s.inLen.toNat ∧ s.inp.readRun 772 4 = some [3, 0, 0, 0] ∧ s.inp.readRun 776 4 = some [2, 0, 0, 0] ∧
       (le32 3 0 0 0).toNat < 4 ∧ (le32 2 0 0 0).toNat ≠ s.npix) ∧
    (let s := record 1 (List.replicate 772 1 ++ [4, 0, 0, 0, 1, 0, 0, 0])
     780 ≤ s.inLen.toNat ∧ s.inp.readRun 772 4 = some [4, 0, 0, 0] ∧ s.inp.readRun 776 4 = some [1, 0, 0, 0] ∧
       (le32 4 0 0 0).toNat = 4 ∧ (le32 1 0 0 0).toNat = s.npix ∧ s.inLen.toNat < 776 + (le32 5 0 0 0).toNat) := by
  decide +kernel
theorem witness_CinRsvdRaisesFormatError :
    (record 1 [2, 0, 0, 0]).phase = .cinRecord ∧ (record 1 [2, 0, 0, 0]).pos = 0 ∧
    (record 1 [2, 0, 0, 0]).status.err = false := by decide +kernel
theorem witness_CinVideoFaultsInOrder :
    (let s := record 1 (List.replicate 7 0)
     s.pos = 0 ∧ s.status.err = false ∧ s.cinDimsOk = true ∧ s.inLen.toNat < 8) ∧
    (let s := record 1 [0, 0, 0, 0, 3, 0, 0, 0, 9, 0, 0]
     8 ≤ s.inLen.toNat ∧ s.inLen.toNat < 12 ∧ s.inp.readRun 4 4 = some [3, 0, 0, 0]) ∧
    (let s := record 1 [0, 0, 0, 0, 3, 0, 0, 0, 2, 0, 0, 0]
     12 ≤ s.inLen.toNat ∧ s.inp.readRun 4 4 = some [3, 0, 0, 0] ∧ s.inp.readRun 8 4 = some [2, 0, 0, 0] ∧
       (le32 3 0 0 0).toNat < 4 ∧ 4 ≤ (le32 4 0 0 0).toNat ∧ (le32 2 0 0 0).toNat ≠ s.npix) ∧
    (let s := record 1 [0, 0, 0, 0, 5, 0, 0, 0, 1, 0, 0, 0]
     s.inp.readRun 4 4 = some [5, 0, 0, 0] ∧ s.inp.readRun 8 4 = some [1, 0, 0, 0] ∧ (le32 1 0 0 0).toNat = s.npix ∧
       s.inLen.toNat < 8 + (le32 5 0 0 0).toNat ∧ (le32 4 0 0 0).toNat = 4) := by decide +kernel
theorem witness_BitsComeLeastSignificantFirst :
    (walk 0 1 1).bitcnt ≠ 0 ∧
    ((walk 0 0 0).bitcnt = 0 ∧ (walk 0 0 0).pos.toNat < (walk 0 0 0).payEnd ∧
      (walk 0 0 0).inp.read (walk 0 0 0).pos.toNat = some 2) ∧
    (let s := { walk 0 0 0 with pos := 13 }
     s.bitcnt = 0 ∧ s.payEnd ≤ s.pos.toNat) := by decide +kernel
theorem witness_HufStepFollowsTheChild :
    (Instr.hufStep1, true) ∈ [(Instr.hufStep0, false), (.hufStep1, true)] ∧
    (∃ u, nextBit (walk 0 1 1) = .ok (true, u)) ∧ (walk 0 1 1).childOf true = some 1 ∧ (1 : BitVec 9).toNat < 256 ∧
    (walk 0 1 1).cinDimsOk = true ∧ (walk 0 1 1).k.toNat + 1 < (walk 0 1 1).npix ∧
    256 ≤ (entry (walk 0 1 1).root ((1 : BitVec 9).setWidth 8)).toNat :=
  ⟨by decide, ⟨_, rfl⟩, by decide +kernel, by decide, by decide +kernel, by decide +kernel, by decide +kernel⟩
/-- An internal child: the root 257 = (0, 256) of V-HUF1's context 0, on bit 1. -/
theorem witness_HufStepFollowsTheChild_internal :
    let s := { walk 0 1 1 with node := 257, child := Vector.replicate 256 [(0, 1), (1, 2), (2, 0), (3, 256)] }
    (∃ u, nextBit s = .ok (true, u)) ∧ s.childOf true = some 256 ∧ 256 ≤ (256 : BitVec 9).toNat :=
  ⟨⟨_, rfl⟩, by decide +kernel, by decide⟩
theorem witness_LastPixelEndsTheFrame :
    (∃ u, nextBit (walk 1 1 1) = .ok (true, u)) ∧ (walk 1 1 1).childOf true = some 1 ∧ (walk 1 1 1).cinDimsOk = true ∧
    (walk 1 1 1).k.toNat + 1 = (walk 1 1 1).npix ∧
    ((walk 1 1 1).idx.write (walk 1 1 1).k.toNat ((1 : BitVec 9).setWidth 8)).readRun 0 (walk 1 1 1).npix = some [7, 1] :=
  ⟨⟨_, rfl⟩, by decide +kernel, by decide +kernel, by decide +kernel, by decide +kernel⟩
theorem witness_HufStepFaults :
    (let s := { walk 0 0 0 with pos := 13 }
     s.status.err = false ∧ s.phase = .huffman ∧ s.bitcnt = 0 ∧ s.payEnd ≤ s.pos.toNat) ∧
    ((∃ u, nextBit { walk 0 1 1 with node := 300 } = .ok (true, u)) ∧
      ({ walk 0 1 1 with node := 300 }).childOf true = none) ∧
    ((∃ u, nextBit (degenerateWalk .fault) = .ok (true, u)) ∧ (degenerateWalk .fault).childOf true = some 1 ∧
      (degenerateWalk .fault).cinDimsOk = true ∧
      (degenerateWalk .fault).k.toNat + 1 < (degenerateWalk .fault).npix ∧
      (entry (degenerateWalk .fault).root ((1 : BitVec 9).setWidth 8)).toNat < 256 ∧
      (degenerateWalk .fault).params.hufDegenerate = .fault) :=
  ⟨by decide +kernel, ⟨⟨_, rfl⟩, by decide +kernel⟩, ⟨_, rfl⟩, by decide +kernel, by decide +kernel, by decide +kernel,
    by decide +kernel, by decide +kernel⟩
/-- A frame whose first pixel is degenerate, in both kinds of record. -/
theorem witness_HufStepFaults_first_pixel :
    let treeless (s : State) : State :=
      { s with root := Vector.replicate 256 255, params := { Params.default with hufDegenerate := .fault } }
    (let s := treeless (record 1 [0, 0, 0, 0, 5, 0, 0, 0, 1, 0, 0, 0, 0xFF])
     s.pos = 0 ∧ s.status.err = false ∧ s.cinDimsOk = true ∧ s.inp.readRun 4 4 = some [5, 0, 0, 0] ∧
       s.inp.readRun 8 4 = some [1, 0, 0, 0] ∧ 4 < (le32 5 0 0 0).toNat ∧ (le32 1 0 0 0).toNat = s.npix ∧
       4 + 4 + (le32 5 0 0 0).toNat ≤ s.inLen.toNat ∧ (entry s.root 0).toNat < 256 ∧ s.params.hufDegenerate = .fault) ∧
    (let s := treeless (record 1 ([1, 0, 0, 0] ++ List.replicate 768 63 ++ [5, 0, 0, 0, 1, 0, 0, 0, 0xFF]))
     s.pos = 0 ∧ s.cinDimsOk = true ∧ s.inp.readRun 4 768 = some (List.replicate 768 63) ∧
       s.inp.readRun 772 4 = some [5, 0, 0, 0] ∧ s.inp.readRun 776 4 = some [1, 0, 0, 0] ∧
       772 + 4 + (le32 5 0 0 0).toNat ≤ s.inLen.toNat ∧ (entry s.root 0).toNat < 256) := by decide +kernel
theorem witness_DegenerateContextsEmit255 :
    (let s := { degenerateWalk .emitRoot with ctx := 3 }
     s.idx.wf = true ∧ s.cinDimsOk = true ∧ s.params.hufDegenerate = .emitRoot ∧ entry s.root s.ctx = 255 ∧
       s.k.toNat + 2 = s.npix ∧ entry s.root 255 = 255 ∧ s.idx.full s.k.toNat = true) ∧
    (let s := { degenerateWalk .emitRoot with ctx := 0, root := Vector.ofFn fun i => if i.val = 0 then 255 else 256 }
     entry s.root s.ctx = 255 ∧ s.k.toNat + 2 = s.npix ∧ 256 ≤ (entry s.root 255).toNat) ∧
    (let s := { walk 1 0 0 with ctx := 0, root := Vector.ofFn fun i => if i.val = 0 then 255 else 256 }
     s.idx.wf = true ∧ s.cinDimsOk = true ∧ s.params.hufDegenerate = .emitRoot ∧ entry s.root s.ctx = 255 ∧
       s.k.toNat + 1 = s.npix ∧ 256 ≤ (entry s.root 255).toNat ∧ s.idx.full s.k.toNat = true) := by decide +kernel
theorem twoLeaf_whole (c : Byte) : treeWhole (entry twoLeafRoot c) (entry twoLeafChild c) := by
  intro n h1 h2
  have hr : entry twoLeafRoot c = 256 := by simp [entry, twoLeafRoot]
  have hc : entry twoLeafChild c = [(0, 0), (1, 1)] := by simp [entry, twoLeafChild]
  rw [hr] at h2
  obtain rfl : n = 256 := Nat.le_antisymm h2 h1
  rw [hc]
  exact ⟨0, 1, rfl, rfl, by decide, by decide⟩
theorem witness_WalksStayOnWholeTrees :
    (walk 0 1 1).treesOk ∧ (∃ t, step (walk 0 1 1) = .next t) ∧ (walk 0 1 1).phase = .huffman ∧
    (∃ u, nextBit (walk 0 1 1) = .ok (true, u)) ∧ (record 1 []).treesOk := by
  refine ⟨⟨fun _ => twoLeaf_whole, nofun, fun _ => ⟨rfl, by decide, by decide +kernel⟩⟩, ⟨_, rfl⟩, rfl, ⟨_, rfl⟩,
    ⟨fun _ => twoLeaf_whole, fun _ => rfl, nofun⟩⟩
theorem witness_RoqChunkReadsItsPreamble :
    ((pending 0x21 (List.replicate 8 0)).status.err = false ∧ 8 ≤ (pending 0x21 (List.replicate 8 0)).inLen.toNat) ∧
    (pending 0x21 (List.replicate 7 0)).inLen.toNat < 8 := by decide +kernel
theorem witness_SkippedChunksChangeNothing :
    let s := chunk (List.replicate 10 0)
    (Instr.roqHang 2 7, s.params.typeHang) ∈ [(Instr.roqInfo 2 7, s.params.typeInfo), (.roqJpeg 2 7, s.params.typeJpeg),
      (.roqHang 2 7, s.params.typeHang)] ∧ 8 + (2 : Word).toNat ≤ s.inLen.toNat := by decide +kernel
theorem witness_TruncatedChunksKeepEverything :
    let s := chunk (List.replicate 8 0)
    s.phase = .roqRecord ∧ s.status.err = false ∧ s.inLen.toNat < 8 + (1 : Word).toNat ∧
    s.inLen.toNat < 8 + (0xFFFFFFFF : Word).toNat := by decide +kernel
theorem witness_CodebookCountsFollowTheArgument :
    (0x00FF : Half).toNat / 256 = 0 ∧ (0x0100 : Half).toNat / 256 ≠ 0 ∧ (0x0001 : Half).toNat % 256 ≠ 0 ∧
    ((0x0100 : Half).toNat % 256 = 0 ∧ cellCount 0x0100 * 6 + 256 * 4 ≤ 1030 ∧ 1029 < cellCount 0x0100 * 6 + 256 * 4) := by
  decide +kernel
theorem witness_CodebookIsReplacedWhole :
    (let s := chunk (List.replicate 18 0)
     8 + (10 : Word).toNat ≤ s.inLen.toNat ∧
       cellCount 0x0101 * 6 + quadCount 0x0101 (10 : Word).toNat * 4 ≤ (10 : Word).toNat ∧
       s.inp.readRun 8 (cellCount 0x0101 * 6 + quadCount 0x0101 (10 : Word).toNat * 4) = some (List.replicate 10 0)) ∧
    (let s := chunk (List.replicate 17 0)
     8 + (9 : Word).toNat ≤ s.inLen.toNat ∧
       (9 : Word).toNat < cellCount 0x0101 * 6 + quadCount 0x0101 (9 : Word).toNat * 4 ∧ s.status.err = false ∧
       s.phase = .roqRecord) := by decide +kernel
theorem witness_VqSeedBlackensLast :
    (let s := { pending 0x20 [] with cfgWidth := 65520, cfgHeight := 16 }
     s.status.err = false ∧ s.roqDimsOk = true) ∧
    (let s := { pending 0x20 [] with cfgWidth := 65520, cfgHeight := 0 }
     s.status.err = false ∧ s.roqDimsOk = false) := by decide +kernel
theorem witness_VqFrameStartsAsACopyOfLast :
    (let s := chunk (List.replicate 8 0)
     8 + (0 : Word).toNat ≤ s.inLen.toNat ∧ s.roqDimsOk = true ∧ s.status.seeded = true ∧ s.last.full s.npix = true ∧
       s.canonical = true) ∧
    (let s := { chunk (List.replicate 8 0) with cfgHeight := 24 }
     s.status.err = false ∧ s.phase = .roqRecord ∧ s.roqDimsOk = false) ∧
    (let s := { chunk (List.replicate 8 0) with status := State.reset.status.start }
     s.status.err = false ∧ s.phase = .roqRecord ∧ s.roqDimsOk = true ∧ s.status.seeded = false) := by decide +kernel
theorem witness_IdsComeFromTheFlagWord :
    ((frame 0 []).flagN ≠ 0 ∧ (frame 0 []).params.idOrder = .msbFirst) ∧
    (let s := { frame 0 [] with params := { Params.default with idOrder := .lsbFirst } }
     s.flagN ≠ 0 ∧ s.params.idOrder = .lsbFirst) ∧
    (let s := { frame 0 [0x1B, 0x87] with flagN := 0 }
     s.flagN = 0 ∧ s.payEnd < 2 ^ 32 ∧ s.pos.toNat + 2 ≤ s.payEnd ∧ s.inp.read s.pos.toNat = some 0x1B ∧
       s.inp.read (s.pos.toNat + 1) = some 0x87) ∧
    (let s := { frame 0 [] with flagN := 0 }
     s.flagN = 0 ∧ s.payEnd ≤ s.pos.toNat) ∧
    (let s := { frame 0 [0x1B] with flagN := 0 }
     s.flagN = 0 ∧ s.payEnd < 2 ^ 32 ∧ s.pos.toNat + 1 = s.payEnd ∧ s.inp.read s.pos.toNat = some 0x1B) := by
  decide +kernel
theorem witness_ScanVisitsQuadrantsInOrder :
    (let s := { frame 0 [] with q := 2 }
     s.q ≤ 3 ∧ s.mbx < s.width / 16 ∧ s.mby < s.height / 16 ∧ s.quadrantIndex + 1 < s.quadrants) ∧
    (let s := { frame 0 [] with q := 3, cfgHeight := 32 }
     s.q ≤ 3 ∧ s.mbx < s.width / 16 ∧ s.mby < s.height / 16 ∧ s.quadrantIndex + 1 < s.quadrants) := by decide +kernel
theorem witness_LastQuadrantMaterializesAndSwaps :
    let s := { frame 0 [] with q := 3 }
    s.q = 3 ∧ s.mbx + 1 = s.width / 16 ∧ s.mby + 1 = s.height / 16 ∧ s.canonical = true ∧
    s.current.full s.npix = true := by decide +kernel
theorem witness_SkipAndSubdivideWriteNothing :
    (∃ u, nextId { frame 0 [] with sb := 2, q := 2 } = .ok (0, u)) ∧
    ({ frame 0 [] with sb := 3, q := 3 }).canonical = true ∧
    ({ frame 0 [] with sb := 3, q := 3 }).current.full ({ frame 0 [] with sb := 3, q := 3 }).npix = true :=
  ⟨⟨_, rfl⟩, by decide +kernel, by decide +kernel⟩
/-- V-VQ4: motion byte 0x00 at (0, 0) takes the quadrant at (8, 8), the last one inside. -/
theorem witness_MotionCopyComesFromLast :
    let s := frame 0x4000 [0x00]
    (∃ u, nextId s = .ok (1, u) ∧ u.pos.toNat < s.payEnd ∧ s.inp.read u.pos.toNat = some 0x00) ∧
    ((8 : Nat) : Int) = s.x8 + (motionVector s.biasX s.biasY 0x00).1 ∧
    ((8 : Nat) : Int) = s.y8 + (motionVector s.biasX s.biasY 0x00).2 ∧
    8 + 8 ≤ s.width ∧ 8 + 8 ≤ s.height ∧ s.x8 + 8 ≤ s.width ∧ s.y8 + 8 ≤ s.height ∧ s.canonical = true ∧
    s.last.full s.npix = true ∧ s.current.full s.npix = true :=
  ⟨⟨_, rfl, by decide +kernel, by decide +kernel⟩, by decide +kernel⟩
theorem witness_QuadIsStamped :
    let s := { frame 0x8000 [0] with q := 3 }
    (∃ u, nextId s = .ok (2, u) ∧ u.pos.toNat < s.payEnd ∧ s.inp.read u.pos.toNat = some 0) ∧
    (0 : Byte).toNat < s.nv2 ∧ (entry s.quad 0).i0.toNat < s.nv1 ∧ (entry s.quad 0).i1.toNat < s.nv1 ∧
    (entry s.quad 0).i2.toNat < s.nv1 ∧ (entry s.quad 0).i3.toNat < s.nv1 ∧ s.x8 + 4 * 2 ≤ s.width ∧
    s.y8 + 4 * 2 ≤ s.height ∧ s.canonical = true ∧ s.current.full s.npix = true :=
  ⟨⟨_, rfl, by decide +kernel, by decide +kernel⟩, by decide +kernel⟩
theorem witness_FourCellsAreStamped :
    let s := { frame 0xC000 [1, 0, 0, 1] with q := 3, sb := 3, phase := .subBlock }
    (∃ u, nextId s = .ok (3, u) ∧ u.pos.toNat + 4 ≤ s.payEnd ∧ s.inp.readRun u.pos.toNat 4 = some [1, 0, 0, 1]) ∧
    s.payEnd < 2 ^ 32 ∧ (1 : Byte).toNat < s.nv1 ∧ (0 : Byte).toNat < s.nv1 ∧ s.x4 + 4 ≤ s.width ∧
    s.y4 + 4 ≤ s.height ∧ s.canonical = true ∧ s.current.full s.npix = true :=
  ⟨⟨_, rfl, by decide +kernel, by decide +kernel⟩, by decide +kernel⟩
/-- V-VQ4 again: a missing byte, sources (-1, ...) and (16, 8), quad 1 of 1, and a quad that names cell 2. -/
theorem witness_BadVectorOperandsFault :
    ((∃ u, nextId (frame 0x4000 []) = .ok (1, u) ∧ (frame 0x4000 []).payEnd ≤ u.pos.toNat)) ∧
    ((∃ u, nextId (frame 0x4000 [0x9F]) = .ok (1, u) ∧ u.pos.toNat < (frame 0x4000 [0x9F]).payEnd ∧
        (frame 0x4000 [0x9F]).inp.read u.pos.toNat = some 0x9F)) ∧
    (frame 0x4000 [0x9F]).status.err = false ∧
    ((frame 0x4000 [0x9F]).x8 : Int) + (motionVector 0 0 0x9F).1 < 0 ∧
    ((frame 0x1000 [0x00]).width : Int) < ({ frame 0x1000 [0x00] with q := 1 }).x8 + (motionVector 0 0 0x00).1 + 8 ∧
    (frame 0x8000 [1]).nv2 ≤ (1 : Byte).toNat ∧
    (let s := { frame 0x8000 [0] with quad := (frame 0 []).quad.set 0 ⟨0, 0, 0, 2⟩ }
     (0 : Byte).toNat < s.nv2 ∧ ∃ m ∈ [(entry s.quad 0).i0, (entry s.quad 0).i1, (entry s.quad 0).i2, (entry s.quad 0).i3],
       s.nv1 ≤ m.toNat) :=
  ⟨⟨_, rfl, by decide +kernel⟩, ⟨_, rfl, by decide +kernel, by decide +kernel⟩, by decide +kernel⟩
/-- V-VQ4's CCC4 with cells 0, 1 and 2 of 2; and the same cut short. -/
theorem witness_BadVectorOperandsFault_cells :
    (let s := frame 0xC000 [0, 1, 2]
     s.payEnd < 2 ^ 32 ∧ s.pos.toNat + 2 < s.payEnd ∧ s.inp.readRun s.pos.toNat 3 = some [0, 1, 2] ∧
       (0 : Byte).toNat < s.nv1 ∧ (1 : Byte).toNat < s.nv1 ∧ s.nv1 ≤ (2 : Byte).toNat) ∧
    (let s := frame 0xC000 [0, 1]
     s.pos.toNat + 2 = s.payEnd) ∧
    (∃ u, nextId (frame 0xC000 [0, 1, 2]) = .ok (3, u) ∧ u.pos = (frame 0xC000 [0, 1, 2]).pos) :=
  ⟨by decide +kernel, by decide +kernel, _, rfl, by decide +kernel⟩
theorem witness_FaultedVqChunkKeepsLast :
    let s := frame 0x4000 [0x9F]
    Instr.fcc8.format ∈ [Format.id8, Format.id4] ∧ s.phase ∈ [Phase.quadrant, Phase.subBlock] ∧ s.status.err = false ∧
    ∃ t, exec .fcc8 s = .next t ∧ t.status.err = true :=
  ⟨by decide, by decide +kernel, by decide +kernel, _, rfl, by decide +kernel⟩
theorem witness_SoundChunkSeedsItsPredictors :
    (8 + (1 : Word).toNat ≤ (chunk (List.replicate 9 0)).inLen.toNat ∧ (1 : Word) ≠ 0) ∧
    8 + (0 : Word).toNat ≤ (chunk (List.replicate 8 0)).inLen.toNat := by decide +kernel
theorem witness_DpcmCodeAdvancesOnePredictor :
    (let s := sound .sndMono [5]
     s.payEnd < 2 ^ 32 ∧ s.payLen.toNat < 2 ^ 31 ∧ s.pay0.toNat ≤ s.pos.toNat ∧ s.pos.toNat < s.payEnd ∧
       s.phase ≠ .sndStereo ∧ s.pos.toNat + 1 = s.payEnd) ∧
    (let s := sound .sndMono [5, 6]
     s.pos.toNat < s.payEnd ∧ s.phase ≠ .sndStereo ∧ s.pos.toNat + 1 < s.payEnd) ∧
    (let s := sound .sndStereo [5]
     s.pos.toNat < s.payEnd ∧ s.phase = .sndStereo ∧ ¬ (s.phase = .sndStereo ∧ (s.pos.toNat - s.pay0.toNat) % 2 = 1)) ∧
    (let s := { sound .sndStereo [5, 6] with pos := 9 }
     s.phase = .sndStereo ∧ (s.pos.toNat - s.pay0.toNat) % 2 = 1 ∧ s.pos.toNat + 1 = s.payEnd) ∧
    (let s := { sound .sndStereo [5, 6, 7] with pos := 9 }
     s.phase = .sndStereo ∧ (s.pos.toNat - s.pay0.toNat) % 2 = 1 ∧ s.pos.toNat + 1 < s.payEnd) := by decide +kernel
/-- V-SND1's payload, one even and one odd length. -/
theorem witness_sound_chunks :
    let s := chunk (List.replicate 8 0 ++ [1, 1, 2, 0x81])
    s.canonical = true ∧ s.status.err = false ∧ s.pcm = [] ∧ (4 : Word).toNat < 2 ^ 31 ∧
    8 + (4 : Word).toNat ≤ s.inLen.toNat ∧ s.inp.readRun 8 (4 : Word).toNat = some [1, 1, 2, 0x81] ∧
    s.inp.readRun 8 (3 : Word).toNat = some [1, 1, 2] := by decide +kernel
/-- An instruction that completes, for the statements about every instruction; it is none of those they except. -/
theorem witness_whole_machine_rules :
    (∃ t, exec .mot8 (frame 0 []) = .next t) ∧ Instr.mot8 ∉ [Instr.hufBuild, .rst, .palLoad, .palDefault, .cinPalvideo, .vqSeed] ∧
    (∃ t, exec (.roqHang 0 0) { chunk (List.replicate 8 0) with status := { State.reset.status.start with err := true } } = .next t) :=
  ⟨⟨_, rfl⟩, by decide, ⟨_, rfl⟩⟩
theorem witness_OnlyColoursDependOnThePalette :
    sameButColours (walk 1 1 1) { walk 1 1 1 with rgba := [(0, 9)] } ∧ ∃ t, step (walk 1 1 1) = .next t := ⟨rfl, _, rfl⟩
theorem witness_StepKeepsMemoriesCanonicalAndRegistersInRange :
    (∃ t, step (frame 0 []) = .next t) ∧ (frame 0 []).canonical = true ∧ (frame 0 []).ranged = true :=
  ⟨⟨_, rfl⟩, by decide +kernel, by decide +kernel⟩
theorem witness_StepKeepsFlagsInAgreement : (frame 0 []).flagsAgree ∧ ∃ t, step (frame 0 []) = .next t :=
  ⟨by unfold State.flagsAgree; decide +kernel, _, rfl⟩
/-- Every phase has a live state. -/
theorem witness_live_states :
    State.reset.live = true ∧ (pending 0x13 []).live = true ∧ (record 1 [0, 0, 0, 0]).live = true ∧
    (walk 1 1 1).live = true ∧ (chunk (List.replicate 8 0)).live = true ∧ (frame 0 []).live = true ∧
    ({ frame 0 [] with phase := .subBlock, sb := 3 }).live = true ∧ (sound .sndMono [5]).live = true ∧
    (sound .sndStereo [5]).live = true := by decide +kernel

end Sys2Proof.Tests
end

section
/-! The delta table and the predictor step of the sound codes (10 R53, 43 R260, 43 R268). -/

namespace Sys2Proof.Machine

theorem delta_of_le_127 {c : Byte} (h : c.toNat ≤ 127) : delta c = c.toNat * c.toNat :=
  if_pos (Nat.lt_succ_of_le h)

theorem delta_of_128_le {c : Byte} (h : 128 ≤ c.toNat) :
    delta c = -((c.toNat - 128) * (c.toNat - 128)) :=
  if_neg (Nat.not_lt.mpr h)

/-- Both halves of the table in one form: a sign and a magnitude of seven bits. -/
theorem delta_eq_square_or_neg_square (c : Byte) :
    ∃ m : Nat, m ≤ 127 ∧ (delta c = (m * m : Nat) ∨ delta c = -(m * m : Nat)) := by
  obtain hpos | hneg := Nat.lt_or_ge c.toNat 128
  · exact ⟨c.toNat, by omega, .inl (by rw [delta_of_le_127 (by omega), Nat.cast_mul])⟩
  · have hbyte := c.isLt
    refine ⟨c.toNat - 128, by omega, .inr ?_⟩
    rw [delta_of_128_le hneg, Nat.cast_mul, Nat.cast_sub hneg, Nat.cast_ofNat]

theorem delta_mem_range (c : Byte) : -16129 ≤ delta c ∧ delta c ≤ 16129 := by
  obtain ⟨m, hm, hdelta⟩ := delta_eq_square_or_neg_square c
  have hsquare : m * m ≤ 127 * 127 := Nat.mul_le_mul hm hm
  omega

/-- No saturation, whatever the delta: the sum is reduced modulo 65,536 (43 R268). -/
theorem advancePredictor_toNat (p : Half) (d : Int) :
    ((advancePredictor p d).toNat : Int) = ((p.toNat : Int) + d) % 65536 := by
  have hnonneg : 0 ≤ ((p.toNat : Int) + d) % 65536 := Int.emod_nonneg _ (by decide)
  rw [advancePredictor, BitVec.toNat_ofInt]
  exact Int.toNat_of_nonneg hnonneg

/-- A predictor is determined by its value modulo 65,536. -/
theorem advancePredictor_eq_iff (p q : Half) (d : Int) :
    advancePredictor p d = q ↔ ((p.toNat : Int) + d) % 65536 = q.toNat := by
  rw [← BitVec.toNat_inj, ← advancePredictor_toNat, Nat.cast_inj]

/-- Settles O47: each half of the table by its own equation, the range from the magnitude of seven bits, and the three
wraps by the sum modulo 65,536. -/
theorem deltaIsASignedSquareAndPredictorsWrap : Obligations.DeltaIsASignedSquareAndPredictorsWrap := by
  refine ⟨fun _ => delta_of_le_127, fun _ => delta_of_128_le, delta_mem_range, ?zero, ?negZero,
    fun p c => advancePredictor_toNat p (delta c), ?signWrap, ?signWrapBack, ?wrapToZero⟩
  case zero => exact (delta_of_le_127 (c := 0) (by decide)).trans (by decide)
  case negZero => exact (delta_of_128_le (c := 128) (by decide)).trans (by decide)
  case signWrap => exact (advancePredictor_eq_iff ..).mpr (by decide)
  case signWrapBack => exact (advancePredictor_eq_iff ..).mpr (by decide)
  case wrapToZero => exact (advancePredictor_eq_iff ..).mpr (by decide)

end Sys2Proof.Machine
end

section
/-! `Expand6`, the palette's six-bit expansion (41 R190). -/

namespace Sys2Proof.Machine

/-- A six-bit value loses no bit to the shift: `s = v << 2` is in 0..252. -/
theorem toNat_shiftLeft_two {v : Byte} (hv : v.toNat ≤ 63) : (v <<< 2).toNat = v.toNat <<< 2 := by
  have hbyte : v.toNat <<< 2 < 2 ^ 8 := by
    rw [Nat.shiftLeft_eq]
    omega
  rw [BitVec.toNat_shiftLeft, Nat.mod_eq_of_lt hbyte]

/-- The top two of the six bits, taken from `s` or from `v`. -/
theorem shiftLeft_two_shiftRight_six {v : Byte} (hv : v.toNat ≤ 63) : (v <<< 2) >>> 6 = v >>> 4 := by
  apply BitVec.eq_of_toNat_eq
  rw [BitVec.toNat_ushiftRight, BitVec.toNat_ushiftRight, toNat_shiftLeft_two hv, Nat.shiftLeft_eq,
    Nat.shiftRight_eq_div_pow, Nat.shiftRight_eq_div_pow]
  omega

/-- The two parts share no bit, so the expansion is their sum. -/
theorem expand6_toNat {v : Byte} (hv : v.toNat ≤ 63) :
    (expand6 v).toNat = 4 * v.toNat + v.toNat / 16 := by
  have hlow : v.toNat >>> 4 < 2 ^ 2 := by
    rw [Nat.shiftRight_eq_div_pow]
    omega
  calc (expand6 v).toNat
      = v.toNat <<< 2 ||| v.toNat >>> 4 := by
        rw [expand6, BitVec.toNat_or, toNat_shiftLeft_two hv, BitVec.toNat_ushiftRight]
    _ = v.toNat <<< 2 + v.toNat >>> 4 := (Nat.shiftLeft_add_eq_or_of_lt hlow _).symm
    _ = 4 * v.toNat + v.toNat / 16 := by
        rw [Nat.shiftLeft_eq, Nat.shiftRight_eq_div_pow, Nat.mul_comm]

theorem expand6_toNat_lt {v w : Byte} (hlt : v.toNat < w.toNat) (hw : w.toNat ≤ 63) :
    (expand6 v).toNat < (expand6 w).toNat := by
  rw [expand6_toNat (by omega), expand6_toNat hw]
  omega

/-- Settles O14: the second formula is the model's own, the first agrees with it on the top two bits, and the order follows
from the expansion's value as a number. -/
theorem expandSixReplicatesTheTopBits : Obligations.ExpandSixReplicatesTheTopBits := by
  refine ⟨fun v hv => ⟨?formulaThroughShift, rfl⟩, ?zero, ?top, fun _ _ => expand6_toNat_lt⟩
  case formulaThroughShift => rw [shiftLeft_two_shiftRight_six hv, expand6]
  case zero => exact BitVec.eq_of_toNat_eq (expand6_toNat (v := 0) (by decide))
  case top => exact BitVec.eq_of_toNat_eq (expand6_toNat (v := 63) (by decide))

end Sys2Proof.Machine
end

section
/-! Decoding and encoding agree (30_encoding.md). -/

namespace Sys2Proof

/-! ### Little-endian fields -/

theorem le16_bytes16 (v : Half) : le16 (v.extractLsb' 0 8) (v.extractLsb' 8 8) = v :=
  (BitVec.extractLsb'_append_extractLsb'_eq_extractLsb' (by rfl)).trans BitVec.extractLsb'_eq_self

theorem le32_bytes32 (v : Word) :
    le32 (v.extractLsb' 0 8) (v.extractLsb' 8 8) (v.extractLsb' 16 8) (v.extractLsb' 24 8) = v := by
  rw [le32, BitVec.extractLsb'_append_extractLsb'_eq_extractLsb' (by rfl),
    BitVec.extractLsb'_append_extractLsb'_eq_extractLsb' (by rfl),
    BitVec.extractLsb'_append_extractLsb'_eq_extractLsb' (by rfl)]
  exact BitVec.extractLsb'_eq_self

theorem bytes16_le16 (b0 b1 : Byte) : bytes16 (le16 b0 b1) = [b0, b1] := by
  rw [bytes16, le16, BitVec.extractLsb'_append_eq_right, BitVec.extractLsb'_append_eq_left]

theorem bytes32_le32 (b0 b1 b2 b3 : Byte) : bytes32 (le32 b0 b1 b2 b3) = [b0, b1, b2, b3] := by
  simp only [bytes32, le32, BitVec.extractLsb'_append_eq_right, BitVec.extractLsb'_append_eq_of_le, Nat.le_refl,
    Nat.reduceLeDiff, Nat.reduceSub, BitVec.extractLsb'_eq_self]

/-! ### Formats -/

/-- A preamble decodes by its three fields (30 R105). -/
theorem decode_encodeChunk (p : Params) (type : Half) (size : Word) (arg : Half) :
    decode p .roqchunk (encodeChunk type size arg) = decodeChunk p type size arg :=
  congr (congr (congrArg (decodeChunk p) (le16_bytes16 type)) (le32_bytes32 size)) (le16_bytes16 arg)

/-- The preamble of three decoded fields is the bytes they were read from. -/
theorem encodeChunk_le (b0 b1 b2 b3 b4 b5 b6 b7 : Byte) :
    encodeChunk (le16 b0 b1) (le32 b2 b3 b4 b5) (le16 b6 b7) = [b0, b1, b2, b3, b4, b5, b6, b7] := by
  rw [encodeChunk, bytes16_le16, bytes16_le16, bytes32_le32]
  rfl

/-- Which of the seven types a decoded chunk has (30 R106). -/
theorem decodeChunk_eq_ok {p : Params} {type : Half} {size : Word} {arg : Half} {i : Instr}
    (h : decodeChunk p type size arg = .ok i) : i.format = .roqchunk ∧ encode p i = encodeChunk type size arg := by
  unfold decodeChunk at h
  repeat' split at h
  all_goals cases h
  all_goals exact ⟨rfl, by rw [‹type = _›]; rfl⟩

/-- Under distinct type numbers a chunk's own number selects its row (00 R8, 30 R106). -/
theorem decodeChunk_of_typesDistinct {p : Params} (h : p.typesDistinct = true) {i : Instr}
    (hi : i.format = .roqchunk) :
    ∃ type size arg, encode p i = encodeChunk type size arg ∧ decodeChunk p type size arg = .ok i := by
  simp only [Params.typesDistinct, Params.types, allDistinct, List.contains_cons, List.contains_nil, Bool.or_false,
    Bool.and_true, Bool.not_or, Bool.and_eq_true, Bool.not_eq_true', beq_eq_false_iff_ne, ne_eq, Bool.not_false] at h
  cases i <;> cases hi
  all_goals exact ⟨_, _, _, rfl, by simp only [decodeChunk, eq_comm, h, if_true, if_false]⟩

/-- The sign class and the magnitude of a DPCM code (30 R119). -/
theorem decodeDpcm_append (s : BitVec 1) (m : BitVec 7) :
    decodeDpcm (s ++ m) = if s.getLsbD 0 then .dpcmNeg m else .dpcmPos m := by
  have hsign : (s ++ m).getLsbD 7 = s.getLsbD 0 := by simp only [BitVec.getLsbD_append]; rfl
  rw [decodeDpcm, hsign, BitVec.extractLsb'_append_eq_right]

/-- A byte is its sign class before its magnitude. -/
theorem byte_eq_sign_append (c : Byte) : c = BitVec.ofBool (c.getLsbD 7) ++ c.extractLsb' 0 7 := by
  ext i hi
  rw [BitVec.getElem_append]
  split
  · simp [BitVec.getLsbD_eq_getElem hi]
  · obtain rfl : i = 7 := by omega
    simp

theorem encode_decodeDpcm (p : Params) (c : Byte) :
    (decodeDpcm c).format = .dpcm8 ∧ encode p (decodeDpcm c) = [c] := by
  have hbits := byte_eq_sign_append c
  unfold decodeDpcm
  split
  · next h => rw [h] at hbits; exact ⟨rfl, congrArg (· :: []) hbits.symm⟩
  · next h => rw [Bool.not_eq_true] at h; rw [h] at hbits; exact ⟨rfl, congrArg (· :: []) hbits.symm⟩

/-- A vector id or a Huffman bit is the byte that holds it. -/
theorem encode_decodeId8 (p : Params) (c : Byte) (h : c.toNat < 4) :
    (decodeId8 (c.extractLsb' 0 2)).format = .id8 ∧ encode p (decodeId8 (c.extractLsb' 0 2)) = [c] := by
  obtain ⟨n, hn, rfl⟩ : ∃ n < 4, c = BitVec.ofNat 8 n := ⟨c.toNat, h, by simp⟩
  interval_cases n <;> exact ⟨rfl, rfl⟩

theorem encode_decodeId4 (p : Params) (c : Byte) (h : c.toNat < 4) :
    (decodeId4 (c.extractLsb' 0 2)).format = .id4 ∧ encode p (decodeId4 (c.extractLsb' 0 2)) = [c] := by
  obtain ⟨n, hn, rfl⟩ : ∃ n < 4, c = BitVec.ofNat 8 n := ⟨c.toNat, h, by simp⟩
  interval_cases n <;> exact ⟨rfl, rfl⟩

theorem encode_decodeBit (p : Params) (c : Byte) (h : c.toNat < 2) :
    (decodeBit (c.getLsbD 0)).format = .hbit ∧ encode p (decodeBit (c.getLsbD 0)) = [c] := by
  obtain ⟨n, hn, rfl⟩ : ∃ n < 2, c = BitVec.ofNat 8 n := ⟨c.toNat, h, by simp⟩
  interval_cases n <;> exact ⟨rfl, rfl⟩

theorem encode_of_decodeHostCmd {p : Params} {c : Byte} {i : Instr} (h : decodeHostCmd c = .ok i) :
    i.format = .hostcmd ∧ encode p i = [c] := by
  unfold decodeHostCmd at h
  repeat' split at h
  all_goals cases h
  all_goals exact ⟨rfl, congrArg (· :: []) ‹c = _›.symm⟩

theorem encode_of_decodeRecord {p : Params} {v : Word} {i : Instr} (h : decodeRecord v = .ok i) :
    i.format = .cinrec ∧ encode p i = bytes32 v := by
  unfold decodeRecord at h
  repeat' split at h
  all_goals cases h
  all_goals exact ⟨rfl, congrArg bytes32 ‹v = _›.symm⟩

/-! ### The statements -/

/-- Settles O1, by cases on the instruction: the fields of a chunk and a DPCM code go through their own lemmas, every
other word is closed. -/
theorem decodeOfEncode : Obligations.DecodeOfEncode := by
  intro p i hi
  by_cases hchunk : i.format = .roqchunk
  · rw [Instr.wf, hchunk] at hi
    obtain ⟨type, size, arg, he, hd⟩ := decodeChunk_of_typesDistinct hi hchunk
    rw [hchunk, he, decode_encodeChunk, hd]
  · cases i
    case dpcmPos m => exact congrArg Except.ok (decodeDpcm_append 0 m)
    case dpcmNeg m => exact congrArg Except.ok (decodeDpcm_append 1 m)
    case roqInfo | roqCodebook | roqVq | roqJpeg | roqHang | roqSndMono | roqSndStereo => exact absurd rfl hchunk
    all_goals rfl

/-- Settles O2, by cases on the format and the number of bytes. -/
theorem encodeOfDecode : Obligations.EncodeOfDecode := by
  intro p f bytes i h
  unfold decode at h
  split at h
  case h_1 c => exact encode_of_decodeHostCmd h
  case h_2 b0 b1 b2 b3 =>
    obtain ⟨hf, he⟩ := encode_of_decodeRecord (p := p) h
    exact ⟨hf, he.trans (bytes32_le32 ..)⟩
  case h_3 b0 b1 b2 b3 b4 b5 b6 b7 =>
    obtain ⟨hf, he⟩ := decodeChunk_eq_ok h
    exact ⟨hf, he.trans (encodeChunk_le ..)⟩
  case h_4 c =>
    split at h
    · next hc => cases h; exact encode_decodeId8 p c hc
    · cases h
  case h_5 c =>
    split at h
    · next hc => cases h; exact encode_decodeId4 p c hc
    · cases h
  case h_6 c => cases h; exact encode_decodeDpcm p c
  case h_7 c =>
    split at h
    · next hc => cases h; exact encode_decodeBit p c hc
    · cases h
  case h_8 => cases h

/-- Settles O3. -/
theorem wordsOfTheTablesDecode : Obligations.WordsOfTheTablesDecode :=
  ⟨rfl, rfl, rfl, rfl, rfl, rfl, rfl, rfl, rfl⟩

end Sys2Proof
end

section
/-! The sequencer: what a step fetches and runs (40 section 1), and fault entry (60 section 3). -/

namespace Sys2Proof.Machine

theorem short_of_le {s : State} {n : Nat} (h : s.pos.toNat + n ≤ s.inLen.toNat) : s.short n = false :=
  decide_eq_false (Nat.not_lt.2 h)

theorem short_of_lt {s : State} {n : Nat} (h : s.inLen.toNat < s.pos.toNat + n) : s.short n = true :=
  decide_eq_true h

/-- The byte under the cursor, inside the payload. -/
theorem nextByte_of_read {s : State} {v : Byte} (hp : s.pos.toNat < s.payEnd) (hv : s.inp.read s.pos.toNat = some v) :
    nextByte s = .ok (v, s.advance 1) := (nextByte_eq_ok_iff _ _ _).2 ⟨hp, hv, rfl⟩

/-- No byte is left (42 R222). -/
theorem nextByte_of_payEnd_le {s : State} (h : s.payEnd ≤ s.pos.toNat) : nextByte s = raise s .codecDecode :=
  (nextByte_eq_raised_iff _ _ _).2 ⟨h, rfl, rfl⟩

/-- Settles O4: the third way of `step_cases`, and the first when the code cannot be read; a word of the instruction's own
decodes by O1. -/
theorem stepRunsTheDecodedInstruction : Obligations.StepRunsTheDecodedInstruction := by
  intro s
  have runs : ∀ f bytes i, fetch s = .ok (some (f, bytes)) → decode s.params f bytes = .ok i → step s = exec i s := by
    intro f bytes i hf hd
    simp only [step, hf, hd]
  refine ⟨fun f bytes i hf => ⟨runs f bytes i hf, ?_⟩, fun v kind hf => ?_⟩
  · rintro hwf rfl rfl
    exact runs _ _ i hf (decodeOfEncode s.params i hwf)
  · simp only [step, hf, conclude_raised]

/-- Settles O5, phase by phase. -/
theorem fetchReadsTheNextCode : Obligations.FetchReadsTheNextCode := by
  intro s
  refine ⟨fun hp hc => ?idle, fun c hp hc => ?command, fun bs hp hl hr => ?record, fun bs hp hl hr => ?chunk,
    fun b t hp hb => ?bit, fun id t hp hid => ?quadrant, fun id t hp hid => ?subBlock, fun c hp hl hr => ?mono,
    fun c hp hl hpair hr => ?stereo⟩
  case idle =>
    have hf : fetch s = .ok none := by simp only [fetch, hp, hc]
    exact ⟨hf, by simp only [step, hf]⟩
  case command => simp only [fetch, hp, hc]
  case record =>
    simp only [fetch, hp, short_of_le hl, Bool.false_eq_true, if_false, readIn, hr, known_some, ok_bind]
  case chunk =>
    simp only [fetch, hp, short_of_le hl, Bool.false_eq_true, if_false, readIn, hr, known_some, ok_bind]
  case bit => simp only [fetch, hp, hb, ok_bind]
  case quadrant => simp only [fetch, hp, hid, ok_bind]
  case subBlock => simp only [fetch, hp, hid, ok_bind]
  case mono => simp only [fetch, hp, nextByte_of_read hl hr, ok_bind]
  case stereo =>
    have hwhole : ¬ (s.payOffset % 2 = 0 ∧ s.payEnd ≤ s.pos.toNat + 1) := by omega
    simp only [fetch, hp, hwhole, nextByte_of_read hl hr, ok_bind, if_false]

/-- A fault leaves `last` alone. -/
@[simp] theorem raiseFault_last (s : State) (kind : Kind) : (raiseFault s kind).last = s.last :=
  forgetOutputs_last s

/-- Settles O7. -/
theorem faultEntryReportsAndKeeps : Obligations.FaultEntryReportsAndKeeps := by
  intro s kind
  refine ⟨fun h => ⟨?_, ?_⟩, fun h => ⟨?_, ?_⟩, ?_⟩
  all_goals simp [*, Status.fail]

/-- A fault before any output is touched loses none. -/
theorem forgetOutputs_of_idle {s : State} (h : s.phase = .idle) : forgetOutputs s = s := by
  simp only [forgetOutputs, h]

/-- Settles O9. -/
theorem clrerrKeepsTheTables : Obligations.ClrerrKeepsTheTables := fun _ => rfl

end Sys2Proof.Machine
end

section
/-! Reset and the host port (10 sections 4, 5 and 9). -/

namespace Sys2Proof.Machine

theorem entry_ofFn {α : Type} (f : Fin 256 → α) (i : Byte) : entry (Vector.ofFn f) i = f i.toFin := by
  simp [entry]

theorem entry_replicate {α : Type} (x : α) (i : Byte) : entry (Vector.replicate 256 x) i = x := by
  simp [entry]

/-- The grey ramp, entry by entry (41 R191). -/
theorem entry_greyRamp (i : Byte) : entry greyRamp i = ⟨i, i, i⟩ := by
  simp [greyRamp, entry_ofFn]

/-- The bits of STATUS as the host reads them (10 R33). -/
theorem Status.getLsbD_word (st : Status) {i : Nat} (hi : i < 8) :
    st.word.getLsbD i = [st.busy, st.done, st.err, st.frame, st.audio, st.built, st.seeded, st.cbook].getD i false := by
  simp only [Status.word, bit, BitVec.getLsbD_append, BitVec.getLsbD_ofBool, List.getD_eq_getElem?_getD]
  interval_cases i <;> simp

/-- STATUS extended to a word holds the same bits. -/
theorem Status.getLsbD_word_setWidth (st : Status) {i : Nat} (hi : i < 8) :
    (st.word.setWidth 32).getLsbD i =
      [st.busy, st.done, st.err, st.frame, st.audio, st.built, st.seeded, st.cbook].getD i false := by
  rw [BitVec.getLsbD_setWidth, Status.getLsbD_word st hi, decide_eq_true (by omega), Bool.true_and]

/-- Settles O10. -/
theorem resetLeavesWhatTheSpecSays : Obligations.ResetLeavesWhatTheSpecSays := by
  refine ⟨rfl, rfl, rfl, rfl, rfl, rfl, rfl, rfl, rfl, rfl, rfl, rfl, fun c n b => ?children, entry_greyRamp, rfl, rfl,
    fun s => ⟨⟨s.status.word.setWidth 32, ?reads, ?small, s.status.getLsbD_word_setWidth (i := 0) (by decide),
      s.status.getLsbD_word_setWidth (i := 1) (by decide), s.status.getLsbD_word_setWidth (i := 2) (by decide),
      s.status.getLsbD_word_setWidth (i := 3) (by decide), s.status.getLsbD_word_setWidth (i := 4) (by decide),
      s.status.getLsbD_word_setWidth (i := 5) (by decide), s.status.getLsbD_word_setWidth (i := 6) (by decide),
      s.status.getLsbD_word_setWidth (i := 7) (by decide)⟩, fun hb => ?registers⟩⟩
  case children => rw [State.reset, entry_replicate]; rfl
  case reads => simp [hostReadReg, regValue]
  case small => rw [BitVec.toNat_setWidth_of_le (by omega)]; exact s.status.word.isLt
  case registers => simp [hostReadReg, regValue, hb]

/-- Settles O11: RST forgets the state but for the parameters and the model's counter. -/
theorem rstRestoresTheResetState : Obligations.RstRestoresTheResetState := by
  intro s
  have hword : (⟨false, true, false, false, false, false, false, false⟩ : Status).word = 0x02 := by decide
  refine ⟨finishCommand (resetState s), rfl, hword, rfl, rfl, rfl, rfl, rfl, rfl, rfl, rfl, rfl, rfl, fun c n b => ?_, rfl,
    rfl, rfl, entry_greyRamp, rfl, rfl⟩
  show (entry (Vector.replicate 256 []) c).lookup _ = none
  rw [entry_replicate]
  rfl

/-- Settles O12. -/
theorem dimensionWriteClearsSeeded : Obligations.DimensionWriteClearsSeeded := by
  refine ⟨rfl, rfl, fun s v => ⟨fun h => ⟨⟨_, ?_, rfl, ?_⟩, ⟨_, ?_, rfl, ?_⟩⟩, fun h => ⟨?_, ?_⟩⟩⟩
  all_goals simp [writeReg, hostReadReg, regValue, unseed, h]

/-- Settles O13. -/
theorem cmdWriteStartsACommand : Obligations.CmdWriteStartsACommand := by
  intro s v
  refine ⟨fun h => ?ignored, fun h hp => ⟨_, ?written, rfl, rfl, ?pending, rfl⟩, ?reads⟩
  case ignored => simp [writeReg, h]
  case written => simp [writeReg, h]
  case pending => simp [fetch, hp]
  case reads => simp [hostReadReg, regValue]

/-- Settles O60. -/
theorem resetMeetsTheInvariants : Obligations.ResetMeetsTheInvariants := by
  refine ⟨rfl, rfl, ?flags, rfl, ?trees⟩
  case flags => simp [State.flagsAgree, State.reset, State.running]
  case trees => simp [State.treesOk, State.reset]

end Sys2Proof.Machine
end

section
/-! Commands and operands that need no invariant (40 sections 3 and 4, 41 section 4, 42 section 4, 30 section 5). -/

namespace Sys2Proof.Machine

@[simp] theorem Status.start_fail (st : Status) : st.start.fail = st.fail := rfl

/-- Settles O16. -/
theorem palDefaultLoadsTheGreyRamp : Obligations.PalDefaultLoadsTheGreyRamp := by
  intro s hs
  have hexec : exec .palDefault s = .next (finishCommand { startCommand s with pal := greyRamp }) := by
    simp only [exec, execPalDefault, admission_of_noErr s hs, ok_bind, conclude_ok]
  exact ⟨_, hexec, entry_greyRamp, rfl⟩

/-- Settles O22. -/
theorem cinRsvdRaisesFormatError : Obligations.CinRsvdRaisesFormatError := by
  intro s hp hpos herr
  refine ⟨_, rfl, ?_⟩
  simp [hp, hpos, herr, forgetOutputs, Kind.code]

/-- Settles O24. -/
theorem bitsComeLeastSignificantFirst : Obligations.BitsComeLeastSignificantFirst := by
  intro s
  refine ⟨fun h => ?_, fun v h hp hv => ?_, fun h hp => ?_⟩
  · rw [nextBit, refillBits, if_neg h]; rfl
  · rw [nextBit, refillBits, if_pos h, nextByte_of_read hp hv]; rfl
  · rw [nextBit, refillBits, if_pos h, nextByte_of_payEnd_le hp]; rfl

/-- Settles O30. -/
theorem roqChunkReadsItsPreamble : Obligations.RoqChunkReadsItsPreamble := by
  intro s hs
  simp only [exec, execRoqChunk, admission_of_noErr s hs, ok_bind]
  refine ⟨fun h => ?_, fun h => ?_⟩
  · rw [short_of_le (by simpa using h)]; rfl
  · rw [short_of_lt (by simpa using h)]
    exact ⟨_, rfl, by simp [hs, forgetOutputs, Kind.code]⟩

/-- A chunk whose payload is present (40 R148). -/
theorem enterChunk_of_present (type : Half) {size : Word} (arg : Half) {s : State} (h : 8 + size.toNat ≤ s.inLen.toNat) :
    enterChunk type size arg s = .ok (chunkEntry type size arg s) := by
  rw [enterChunk_eq, if_neg (by omega)]

/-- Settles O31. -/
theorem skippedChunksChangeNothing : Obligations.SkippedChunksChangeNothing := by
  intro s size arg i type hi h
  have skipped : ∀ type, conclude (enterChunk type size arg s >>= fun s => .ok (finishRecord s)) =
      .next (finishRecord (chunkEntry type size arg s)) := fun type => by
    rw [enterChunk_of_present type arg h, ok_bind, conclude_ok]
  simp only [List.mem_cons, Prod.mk.injEq, List.not_mem_nil, or_false] at hi
  rcases hi with ⟨rfl, rfl⟩ | ⟨rfl, rfl⟩ | ⟨rfl, rfl⟩ <;> exact skipped _

/-- The bytes of a chunk's argument as numbers. -/
theorem argHigh_toNat (arg : Half) : (argHigh arg).toNat = arg.toNat / 256 := by
  have := arg.isLt
  rw [argHigh, BitVec.extractLsb'_toNat, Nat.shiftRight_eq_div_pow]
  omega

theorem argLow_toNat (arg : Half) : (argLow arg).toNat = arg.toNat % 256 := by
  rw [argLow, BitVec.extractLsb'_toNat]
  rfl

/-- Settles O33. -/
theorem codebookCountsFollowTheArgument : Obligations.CodebookCountsFollowTheArgument := by
  intro arg size
  have hhigh : argHigh arg = 0 ↔ arg.toNat / 256 = 0 := by rw [← argHigh_toNat]; exact BitVec.toNat_inj.symm
  have hlow : argLow arg = 0 ↔ arg.toNat % 256 = 0 := by rw [← argLow_toNat]; exact BitVec.toNat_inj.symm
  refine ⟨fun h => ?_, fun h => ?_, fun h => ?_, fun h hs => ?_, fun h hs => ?_⟩
  · rw [cellCount, if_pos (hhigh.2 h)]
  · rw [cellCount, if_neg (mt hhigh.1 h), argHigh_toNat]
  · rw [quadCount, if_pos (mt hlow.1 h), argLow_toNat]
  · rw [quadCount, if_neg (not_not.2 (hlow.2 h)), if_pos hs]
  · rw [quadCount, if_neg (not_not.2 (hlow.2 h)), if_neg (Nat.not_le.2 hs)]

/-- Settles O38. -/
theorem motionVectorIsEightLessNibbleLessBias : Obligations.MotionVectorIsEightLessNibbleLessBias := by
  intro biasX biasY b
  have hhigh : (b >>> 4).toNat = b.toNat / 16 := by rw [BitVec.toNat_ushiftRight, Nat.shiftRight_eq_div_pow]
  have hlow : (b &&& (0x0F : Byte)).toNat = b.toNat % 16 := by
    rw [BitVec.toNat_and]; exact Nat.and_two_pow_sub_one_eq_mod b.toNat 4
  have hx := BitVec.toInt_lt (x := biasX)
  have hx' := BitVec.le_toInt (x := biasX)
  have hy := BitVec.toInt_lt (x := biasY)
  have hy' := BitVec.le_toInt (x := biasY)
  have hb := b.isLt
  have h0 : (0 : Byte).toInt = 0 := rfl
  simp only [motionVector]
  rw [hhigh, hlow, h0]
  omega

/-- The seeds of a stereo chunk as numbers (92 D38). -/
theorem stereoSeedL_eq (arg : Half) : stereoSeedL arg = BitVec.ofNat 16 (arg.toNat / 256 * 256) := by
  have hshift : stereoSeedL arg = arg >>> 8 <<< 8 := by
    rw [stereoSeedL]
    ext i hi
    interval_cases i <;> simp
  apply BitVec.eq_of_toNat_eq
  rw [hshift, BitVec.toNat_shiftLeft, BitVec.toNat_ushiftRight, Nat.shiftLeft_eq, Nat.shiftRight_eq_div_pow,
    BitVec.toNat_ofNat]

theorem stereoSeedR_eq (arg : Half) : stereoSeedR arg = BitVec.ofNat 16 (arg.toNat % 256 * 256) := by
  apply BitVec.eq_of_toNat_eq
  have hlow : (arg &&& (0x00FF : Half)).toNat = arg.toNat % 256 := Nat.and_two_pow_sub_one_eq_mod arg.toNat 8
  rw [stereoSeedR, BitVec.toNat_shiftLeft, hlow, Nat.shiftLeft_eq, BitVec.toNat_ofNat]

/-- The state a mono chunk waits in for its first code (43 R262). -/
def monoEntry (size : Word) (arg : Half) (s : State) : State :=
  { chunkEntry s.params.typeSndMono size arg s with predL := arg, phase := .sndMono }

/-- The state a stereo chunk waits in for its first code (43 R264). -/
def stereoEntry (size : Word) (arg : Half) (s : State) : State :=
  { chunkEntry s.params.typeSndStereo size arg s with
    predL := stereoSeedL arg, predR := stereoSeedR arg, phase := .sndStereo }

/-- ROQ.SND_MONO with its payload present: an empty one is done at once (43 R261). -/
theorem execRoqSndMono_of_present {size : Word} (arg : Half) {s : State} (h : 8 + size.toNat ≤ s.inLen.toNat) :
    execRoqSndMono size arg s =
      .next (if size = 0 then finishSound (monoEntry size arg s) else monoEntry size arg s) := by
  rw [execRoqSndMono, enterChunk_of_present _ arg h]
  rfl

/-- ROQ.SND_STEREO with its payload present (43 R264). -/
theorem execRoqSndStereo_of_present {size : Word} (arg : Half) {s : State} (h : 8 + size.toNat ≤ s.inLen.toNat) :
    execRoqSndStereo size arg s =
      .next (if size = 0 then finishSound (stereoEntry size arg s) else stereoEntry size arg s) := by
  rw [execRoqSndStereo, enterChunk_of_present _ arg h]
  rfl

/-- Settles O48. -/
theorem soundChunkSeedsItsPredictors : Obligations.SoundChunkSeedsItsPredictors := by
  intro s size arg h
  simp only [exec, execRoqSndMono_of_present arg h, execRoqSndStereo_of_present arg h]
  rw [← stereoSeedL_eq, ← stereoSeedR_eq]
  refine ⟨fun hs => ?payload, fun hs => ?empty⟩
  case payload =>
    rw [if_neg hs, if_neg hs]
    exact ⟨rfl, rfl⟩
  case empty =>
    subst hs
    rw [if_pos rfl, if_pos rfl, finishSound_of_short _ (by decide : (0 : Word).toNat < 2 ^ 31),
      finishSound_of_short _ (by decide : (0 : Word).toNat < 2 ^ 31)]
    exact ⟨rfl, rfl⟩

end Sys2Proof.Machine
end

section
/-! What a run of a meaning can be, as one predicate with a rule per way of composing runs. -/

namespace Sys2Proof.Machine

/-- Every result of the run is in `P`, every fault it raises is in `Q`, and the model stops in it only if `stuck`. -/
def Meets {α : Type} (stuck : Prop) (P : α → Prop) (Q : State → Kind → Prop) : Run α → Prop
  | .ok a => P a
  | .error (.raised u kind) => Q u kind
  | .error (.stuck _) => stuck

section
variable {α β : Type} {stuck : Prop} {P : α → Prop} {Q : State → Kind → Prop}

theorem meets_ok {a : α} (h : P a) : Meets stuck P Q (.ok a) := h

theorem meets_raise {u : State} {kind : Kind} (h : Q u kind) : Meets stuck P Q (raise u kind) := h

theorem meets_known {sp : Space} {base len : Nat} {o : Option α} (h : ∀ x, o = some x → P x) (hn : o = none → stuck) :
    Meets stuck P Q (known sp base len o) := by
  cases o with
  | none => exact hn rfl
  | some x => exact h x rfl

theorem meets_bind {P' : β → Prop} {x : Run β} {f : β → Run α} (hx : Meets stuck P' Q x)
    (hf : ∀ b, P' b → Meets stuck P Q (f b)) : Meets stuck P Q (x >>= f) := by
  rcases x with (⟨u, kind⟩ | fault) | b
  · exact hx
  · exact hx
  · exact hf b hx

theorem meets_mono {stuck' : Prop} {P' : α → Prop} {Q' : State → Kind → Prop} {r : Run α} (h : Meets stuck' P' Q' r)
    (hs : stuck' → stuck) (hP : ∀ a, P' a → P a) (hQ : ∀ u kind, Q' u kind → Q u kind) : Meets stuck P Q r := by
  rcases r with (⟨u, kind⟩ | fault) | a
  · exact hQ u kind h
  · exact hs h
  · exact hP a h

/-- A result may be taken together with the equation that gave it. -/
theorem meets_remember {r : Run α} (h : Meets stuck P Q r) : Meets stuck (fun a => P a ∧ r = .ok a) Q r := by
  rcases r with (⟨u, kind⟩ | fault) | a
  · exact h
  · exact h
  · exact ⟨h, rfl⟩

/-- Where nothing is asked of a stop, the equations for results and faults say all. -/
theorem meets_of_eqs {r : Run α} (hok : ∀ a, r = .ok a → P a)
    (hraised : ∀ u kind, r = .error (.raised u kind) → Q u kind) :
    Meets True P Q r := by
  rcases r with (⟨u, kind⟩ | fault) | a
  · exact hraised u kind rfl
  · trivial
  · exact hok a rfl

end

/-- What a meaning that meets `P` and `Q` answers: a state in `P`, or fault entry from `Q`. -/
def Concludes (stuck : Prop) (P : State → Prop) (Q : State → Kind → Prop) : Host.Outcome State Fault Refusal → Prop
  | .next t => P t ∨ ∃ u kind, Q u kind ∧ t = raiseFault u kind
  | .fault _ => stuck
  | .refused _ => False

theorem concludes_of_meets {stuck : Prop} {P : State → Prop} {Q : State → Kind → Prop} {r : Run State}
    (h : Meets stuck P Q r) : Concludes stuck P Q (conclude r) := by
  rcases r with (⟨u, kind⟩ | fault) | t
  · exact .inr ⟨u, kind, h, rfl⟩
  · exact h
  · exact .inl h

end Sys2Proof.Machine
end

section
/-! The frame of a running command: what no meaning touches before its end. -/

namespace Sys2Proof.Machine

/-- What holds of the state of a command that began in `b`, up to its end or its fault: only working registers, latches,
IDX, PCM and `current` have changed, and they are as canonical and as far in their ranges as they were. -/
structure Works (b s : State) : Prop where
  params : s.params = b.params
  status : s.status = b.status
  cfgWidth : s.cfgWidth = b.cfgWidth
  cfgHeight : s.cfgHeight = b.cfgHeight
  inLen : s.inLen = b.inLen
  inp : s.inp = b.inp
  cmd : s.cmd = b.cmd
  errCode : s.errCode = b.errCode
  errPos : s.errPos = b.errPos
  root : s.root = b.root
  child : s.child = b.child
  pal : s.pal = b.pal
  cell : s.cell = b.cell
  quad : s.quad = b.quad
  nv1 : s.nv1 = b.nv1
  nv2 : s.nv2 = b.nv2
  pp : s.pp = b.pp
  last : s.last = b.last
  rgba : s.rgba = b.rgba
  canonical : b.canonical = true → s.canonical = true
  ranged : b.ranged = true → s.ranged = true

theorem Works.refl (s : State) : Works s s := by
  constructor <;> first | rfl | exact id

theorem ranged_iff (s : State) : s.ranged = true ↔
    s.bitcnt ≤ 8 ∧ s.flagN ≤ 8 ∧ s.q ≤ 3 ∧ s.sb ≤ 3 ∧ s.cc ≤ 3 ∧ s.nv1 ≤ 256 ∧ s.nv2 ≤ 256 := decide_eq_true_iff

theorem canonical_iff (s : State) : s.canonical = true ↔
    s.inp.wf = true ∧ s.idx.wf = true ∧ s.last.wf = true ∧ s.current.wf = true ∧ s.rgba.wf = true ∧ s.pcm.wf = true := by
  simp only [State.canonical, Bool.and_eq_true, State.last, State.current]
  split <;> tauto

/-- Faults of a command that began in `b`: raised in a state of that command, and of one of the kinds given. -/
def RaisesOnly (b : State) (kinds : List Kind) (u : State) (kind : Kind) : Prop := Works b u ∧ kind ∈ kinds

section
variable {b s : State}

theorem Works.advance (h : Works b s) (n : Nat) : Works b (s.advance n) := { h with }

theorem nextByte_works (h : Works b s) :
    Meets True (fun x : Byte × State => Works b x.2) (RaisesOnly b [.codecDecode]) (nextByte s) := by
  refine meets_of_eqs (fun x hx => ?_) (fun u kind hu => ?_)
  · obtain ⟨-, -, hx⟩ := (nextByte_eq_ok_iff s x.2 x.1).1 hx
    exact hx ▸ h.advance 1
  · obtain ⟨-, rfl, rfl⟩ := (nextByte_eq_raised_iff _ _ _).1 hu
    exact ⟨h, by simp⟩

theorem nextBit_works (h : Works b s) :
    Meets True (fun x : Bool × State => Works b x.2) (RaisesOnly b [.codecDecode]) (nextBit s) := by
  have refilled : Meets True (Works b) (RaisesOnly b [.codecDecode]) (refillBits s) := by
    unfold refillBits
    split
    · refine meets_bind (nextByte_works h) fun x hx => meets_ok { hx with ranged := fun hb => ?_ }
      have := (ranged_iff _).1 (hx.ranged hb)
      simp only [ranged_iff]
      omega
    · exact meets_ok h
  refine meets_bind refilled fun u hu => meets_ok { hu with ranged := fun hb => ?_ }
  have := (ranged_iff _).1 (hu.ranged hb)
  simp only [ranged_iff, takeBit]
  omega

theorem nextId_works (h : Works b s) :
    Meets True (fun x : BitVec 2 × State => Works b x.2) (RaisesOnly b [.codecDecode]) (nextId s) := by
  have refilled : Meets True (Works b) (RaisesOnly b [.codecDecode]) (refillFlag s) := by
    unfold refillFlag
    split
    · refine meets_bind (nextByte_works h) fun x hx => meets_bind (nextByte_works hx) fun y hy =>
        meets_ok { hy with ranged := fun hb => ?_ }
      have := (ranged_iff _).1 (hy.ranged hb)
      simp only [ranged_iff]
      omega
    · exact meets_ok h
  refine meets_bind refilled fun u hu => meets_ok ?_
  rw [takeId_frame]
  refine { hu with ranged := fun hb => ?_ }
  have := (ranged_iff _).1 (hu.ranged hb)
  simp only [ranged_iff]
  omega

theorem readField32_works (h : Works b s) :
    Meets True (fun x : Word × State => Works b x.2) (RaisesOnly b [.truncated]) (readField32 s) := by
  unfold readField32
  split
  · exact meets_raise ⟨h, by simp⟩
  · exact meets_bind (P' := fun _ => True) (meets_known (fun _ _ => trivial) fun _ => trivial) fun _ _ =>
      meets_ok (h.advance 4)

/-- Writing `current` stays inside the command. -/
theorem Works.setCurrent (h : Works b s) {p : Planes} (hp : s.current.wf = true → p.wf = true) :
    Works b (s.setCurrent p) := by
  constructor
  case last => rw [State.setCurrent_last, h.last]
  case canonical =>
    intro hb
    have := (canonical_iff _).1 (h.canonical hb)
    simp only [canonical_iff, State.setCurrent_last, State.setCurrent_current, State.setCurrent_inp,
      State.setCurrent_idx, State.setCurrent_rgba, State.setCurrent_pcm]
    tauto
  case ranged =>
    intro hb
    have := (ranged_iff _).1 (h.ranged hb)
    simp only [ranged_iff, State.setCurrent_bitcnt, State.setCurrent_flagN, State.setCurrent_q, State.setCurrent_sb,
      State.setCurrent_cc, State.setCurrent_nv1, State.setCurrent_nv2]
    exact this
  all_goals simp [h.params, h.status, h.cfgWidth, h.cfgHeight, h.inLen, h.inp, h.cmd, h.errCode, h.errPos, h.root,
    h.child, h.pal, h.cell, h.quad, h.nv1, h.nv2, h.pp, h.rgba]

end

/-- How a meaning that began in `b` ends without a fault: it waits for the next code of a unit, in one of the phases
given, or it ends the command. -/
def Continues (b : State) (phases : List Phase) (ends : State → State → Prop) (t : State) : Prop :=
  (Works b t ∧ t.phase ∈ phases) ∨ ∃ u, Works b u ∧ ends u t

end Sys2Proof.Machine
end

section
/-! The units inside their frame: CIN (41 section 2), VQ (42), sound (43). -/

namespace Sys2Proof.Machine

section
variable {b s : State}

/-! ### CIN -/

/-- The end of a CIN record in state `u` (41 R184, R192). -/
def CinEnds (u t : State) : Prop :=
  ∃ bs, t = finishRecord { u with rgba := u.rgba.overlay bs, status := { u.status with frame := true } }

theorem emitPixel_works (h : Works b s) : Works b (emitPixel s) := by
  refine { h with canonical := fun hb => ?_ }
  obtain ⟨h1, h2, h3⟩ := (canonical_iff _).1 (h.canonical hb)
  exact (canonical_iff _).2 ⟨h1, Memory.wf_write _ _ _ h2, h3⟩

theorem startPixels_works (n : Nat) (h : Works b s) :
    Meets True (Continues b [s.phase] CinEnds) (RaisesOnly b [.codecDecode]) (startPixels n s) := by
  induction n generalizing s with
  | zero =>
    refine meets_bind (P' := fun _ => True) (meets_known (fun _ _ => trivial) fun _ => trivial) fun is _ => ?_
    exact meets_ok (.inr ⟨s, h, _, rfl⟩)
  | succ n ih =>
    have hroot : Works b { s with node := entry s.root s.ctx } := { h with }
    unfold startPixels
    dsimp only
    split
    · exact meets_ok (.inl ⟨hroot, by simp⟩)
    · split
      · exact meets_raise ⟨hroot, by simp⟩
      · exact ih (emitPixel_works hroot)

theorem huffmanFrame_works (h : Works b s) :
    Meets True (Continues b [.huffman] CinEnds) (RaisesOnly b [.codecDecode]) (huffmanFrame s) := by
  unfold huffmanFrame
  split
  · exact meets_raise ⟨h, by simp⟩
  · refine startPixels_works (s := { s with ctx := 0, bitcnt := 0, k := 0, phase := .huffman }) _
      { h with ranged := fun hb => ?_ }
    have := (ranged_iff _).1 (h.ranged hb)
    simp only [ranged_iff]
    omega

theorem nextBit_phase {u : State} {bit : Bool} (h : nextBit s = .ok (bit, u)) : u.phase = s.phase := by
  rw [nextBit_frame s u bit h]

theorem hufStep_works (bit : Bool) (h : Works b s) :
    Meets True (Continues b [s.phase] CinEnds) (RaisesOnly b [.codecDecode]) (hufStep bit s) := by
  refine meets_bind (meets_remember (nextBit_works h)) ?_
  rintro ⟨_, u⟩ ⟨hu, e⟩
  replace hu : Works b u := hu
  rw [← nextBit_phase e]
  dsimp only
  split
  · exact meets_raise ⟨hu, by simp⟩
  · next child _ =>
    have hnode : Works b { u with node := child } := { hu with }
    split
    · exact meets_ok (.inl ⟨hnode, by simp⟩)
    · exact startPixels_works _ (emitPixel_works hnode)

theorem RaisesOnly.mono {kinds kinds' : List Kind} {u : State} {kind : Kind} (h : RaisesOnly b kinds u kind)
    (hk : kinds ⊆ kinds') : RaisesOnly b kinds' u kind := ⟨h.1, hk h.2⟩

/-- The checks of a CIN record's fields, and the frame behind them. -/
theorem cinBody_works (h : Works b s) :
    Meets True (Continues b [.huffman] CinEnds) (RaisesOnly b [.truncated, .sizeMismatch, .codecDecode]) (cinBody s) := by
  have field : ∀ {s}, Works b s → Meets True (fun x : Word × State => Works b x.2)
      (RaisesOnly b [.truncated, .sizeMismatch, .codecDecode]) (readField32 s) := fun hs =>
    meets_mono (readField32_works hs) id (fun _ => id) fun _ _ hq => hq.mono (by simp)
  refine meets_bind (field h) ?_
  rintro ⟨size, s1⟩ h1
  replace h1 : Works b { s1 with chunkSize := size } := { h1 with }
  refine meets_bind (field h1) ?_
  rintro ⟨decoded, s2⟩ h2
  replace h2 : Works b { s2 with decodedSize := decoded } := { h2 with }
  dsimp only
  split
  · exact meets_raise ⟨h2, by simp⟩
  · split
    · exact meets_raise ⟨h2, by simp⟩
    · have h3 : Works b { s2 with decodedSize := decoded, pay0 := s2.pos, payLen := size - 4 } := { h2 with }
      split
      · exact meets_raise ⟨h3, by simp⟩
      · exact meets_mono (huffmanFrame_works h3) id (fun _ => id) fun _ _ hq => hq.mono (by simp)

/-- The palette of a record changes the palette and the cursor. -/
theorem cinPalette_cases {t : State} (h : cinPalette s = .ok t) : ∃ p, t = { s with pal := p }.advance 768 := by
  unfold cinPalette at h
  split at h
  · simp at h
  · obtain ⟨p, -, h⟩ := (bind_ok_iff _ _ _).1 h
    exact ⟨paletteOf p, (Except.ok.inj h).symm⟩

theorem cinPalette_raises (h : Works b s) : Meets True (fun _ => True) (RaisesOnly b [.truncated]) (cinPalette s) := by
  unfold cinPalette
  split
  · exact meets_raise ⟨h, by simp⟩
  · exact meets_bind (P' := fun _ => True) (meets_known (fun _ _ => trivial) fun _ => trivial) fun _ _ =>
      meets_ok trivial

theorem latchCommand_works (h : Works b s) (command : Word) : Works b (latchCommand command s) := { h with }

/-! ### RoQ chunks -/

theorem chunkEntry_works (h : Works b s) (type : Half) (size : Word) (arg : Half) :
    Works b (chunkEntry type size arg s) := { h with }

theorem enterChunk_works (h : Works b s) (type : Half) (size : Word) (arg : Half) :
    Meets True (fun t => Works b t ∧ t = chunkEntry type size arg s) (RaisesOnly b [.truncated])
      (enterChunk type size arg s) := by
  rw [enterChunk_eq]
  split
  · exact meets_raise ⟨chunkEntry_works h .., by simp⟩
  · exact meets_ok ⟨chunkEntry_works h .., rfl⟩

/-- The end of a codebook chunk (42 R212): the counts are at most 256. -/
def CodebookEnds (u t : State) : Prop :=
  ∃ n1 n2 bs, n1 ≤ 256 ∧ n2 ≤ 256 ∧
    t = finishRecord { loadCodebook n1 n2 bs u with status := { u.status with cbook := true } }

theorem cellCount_le (arg : Half) : cellCount arg ≤ 256 := by
  have := (argHigh arg).isLt
  unfold cellCount
  split <;> omega

theorem quadCount_le (arg : Half) (n : Nat) : quadCount arg n ≤ 256 := by
  have := (argLow arg).isLt
  unfold quadCount
  (repeat' split) <;> omega

theorem codebookChunk_works (h : Works b s) :
    Meets True (Continues b [] CodebookEnds) (RaisesOnly b [.truncated]) (codebookChunk s) := by
  unfold codebookChunk
  dsimp only
  split
  · exact meets_raise ⟨h, by simp⟩
  · refine meets_bind (P' := fun _ => True) (meets_known (fun _ _ => trivial) fun _ => trivial) fun bs _ => ?_
    exact meets_ok (.inr ⟨s, h, _, _, bs, cellCount_le _, quadCount_le .., rfl⟩)

/-- The end of a VQ chunk (42 R238, R239). -/
def VqEnds (u t : State) : Prop :=
  ∃ bs, t = finishRecord
    { u with rgba := u.rgba.overlay bs, pp := !u.pp, status := { u.status with frame := true } }

theorem Planes.wf_overlay {p : Planes} (y u v : List Byte) (h : p.wf = true) : (p.overlay y u v).wf = true := by
  simp only [Planes.wf, Bool.and_eq_true] at h ⊢
  exact ⟨⟨Memory.wf_overlay _ _ h.1.1, Memory.wf_overlay _ _ h.1.2⟩, Memory.wf_overlay _ _ h.2⟩

theorem Planes.wf_writes {p : Planes} (y u v : List Host.Cell) (h : p.wf = true) : (p.writes y u v).wf = true := by
  simp only [Planes.wf, Bool.and_eq_true] at h ⊢
  exact ⟨⟨Memory.wf_writes _ _ h.1.1, Memory.wf_writes _ _ h.1.2⟩, Memory.wf_writes _ _ h.2⟩

theorem copyFrame_works (h : Works b s) :
    Meets True (Works b) (RaisesOnly b []) (copyFrame s) := by
  refine meets_of_eqs (fun t ht => ?_) (fun u kind hu => ?_)
  · obtain ⟨y, u, v, -, -, -, rfl⟩ := (copyFrame_eq_ok_iff _ _).1 ht
    exact h.setCurrent (Planes.wf_overlay y u v)
  · simp [copyFrame, bind_error_iff] at hu

theorem vqFrame_works (h : Works b s) :
    Meets True (Continues b [.quadrant] fun _ _ => False) (RaisesOnly b [.dimension, .state]) (vqFrame s) := by
  have hbias : Works b { s with biasX := argHigh s.recArg, biasY := argLow s.recArg } := { h with }
  unfold vqFrame
  split
  · exact meets_raise ⟨h, by simp⟩
  · split
    · exact meets_raise ⟨h, by simp⟩
    · refine meets_bind (meets_mono (copyFrame_works hbias) id (fun _ => id) fun _ _ hq => hq.mono (by simp))
        fun t ht => meets_ok (.inl ⟨{ ht with ranged := fun hb => ?_ }, by simp⟩)
      have := (ranged_iff _).1 (ht.ranged hb)
      simp only [ranged_iff]
      omega

/-! ### Vector codes -/

theorem finishVqFrame_works (h : Works b s) (phases : List Phase) (kinds : List Kind) :
    Meets True (Continues b phases VqEnds) (RaisesOnly b kinds) (finishVqFrame s) := by
  refine meets_of_eqs (fun t ht => ?_) (fun u kind hu => ?_)
  · obtain ⟨y, u, v, -, -, -, rfl⟩ := (finishVqFrame_eq_ok_iff _ _).1 ht
    exact .inr ⟨s, h, _, rfl⟩
  · simp [finishVqFrame, bind_error_iff] at hu

theorem nextQuadrant_works (h : Works b s) :
    Meets True (Continues b [.quadrant, .subBlock] VqEnds) (RaisesOnly b [.codecDecode]) (nextQuadrant s) := by
  have moved : ∀ q mbx mby, q ≤ 3 → Works b { s with q := q, mbx := mbx, mby := mby, phase := .quadrant } := by
    refine fun q mbx mby hq => { h with ranged := fun hb => ?_ }
    have := (ranged_iff _).1 (h.ranged hb)
    simp only [ranged_iff]
    omega
  unfold nextQuadrant
  split
  · exact meets_ok (.inl ⟨moved _ _ _ (by omega), by simp⟩)
  · split
    · exact meets_ok (.inl ⟨moved _ _ _ (by omega), by simp⟩)
    · split
      · exact meets_ok (.inl ⟨moved _ _ _ (by omega), by simp⟩)
      · exact finishVqFrame_works h _ _

theorem nextSubBlock_works (h : Works b s) :
    Meets True (Continues b [.quadrant, .subBlock] VqEnds) (RaisesOnly b [.codecDecode]) (nextSubBlock s) := by
  unfold nextSubBlock
  split
  · refine meets_ok (.inl ⟨{ h with ranged := fun hb => ?_ }, by simp⟩)
    have := (ranged_iff _).1 (h.ranged hb)
    simp only [ranged_iff]
    omega
  · exact nextQuadrant_works h

theorem copyBlock_works (h : Works b s) (n x y : Nat) (byte : Byte) :
    Meets True (Works b) (RaisesOnly b [.codecDecode]) (copyBlock n x y byte s) := by
  unfold copyBlock
  dsimp only
  split
  · exact meets_raise ⟨h, by simp⟩
  · have any : ∀ {o : Option (List Host.Cell)} {base : Nat}, Meets True (fun _ => True) (RaisesOnly b [.codecDecode])
        (known .last base n o) := meets_known (fun _ _ => trivial) fun _ => trivial
    exact meets_bind any fun wy _ => meets_bind any fun wu _ => meets_bind any fun wv _ =>
      meets_ok (h.setCurrent (Planes.wf_writes wy wu wv))

theorem stampCell_works (h : Works b s) (scale x y : Nat) (c : Byte) :
    Meets True (Works b) (RaisesOnly b [.codecDecode]) (stampCell scale x y c s) := by
  unfold stampCell
  split
  · exact meets_raise ⟨h, by simp⟩
  · exact meets_ok (h.setCurrent fun hp => Planes.wf_writes _ _ _ hp)

theorem stampQuad_works (h : Works b s) (scale x y : Nat) (j : Byte) :
    Meets True (Works b) (RaisesOnly b [.codecDecode]) (stampQuad scale x y j s) := by
  unfold stampQuad
  split
  · exact meets_raise ⟨h, by simp⟩
  · exact meets_bind (stampCell_works h ..) fun _ h1 => meets_bind (stampCell_works h1 ..) fun _ h2 =>
      meets_bind (stampCell_works h2 ..) fun _ h3 => stampCell_works h3 ..

theorem cellTurn_works (h : Works b s) {cc : Nat} (hcc : cc ≤ 3) :
    Meets True (Works b) (RaisesOnly b [.codecDecode]) (cellTurn cc s) := by
  refine meets_bind (nextByte_works (s := { s with cc := cc }) { h with ranged := fun hb => ?_ }) fun x hx =>
    stampCell_works hx ..
  have := (ranged_iff _).1 (h.ranged hb)
  simp only [ranged_iff]
  omega

/-! ### Sound -/

/-- The end of a sound chunk in state `u` (43 R266). -/
def SoundEnds (u t : State) : Prop := t = finishSound u

theorem pushSample_works (h : Works b s) (n : Nat) (p : Half) : Works b (pushSample n p s) := by
  refine { h with canonical := fun hb => ?_ }
  obtain ⟨h1, h2, h3, h4, h5, h6⟩ := (canonical_iff _).1 (h.canonical hb)
  exact (canonical_iff _).2 ⟨h1, h2, h3, h4, h5, Memory.wf_write _ _ _ (Memory.wf_write _ _ _ h6)⟩

/-- The state after a code's sample is out: one predictor has advanced by `d` (43 R260, R263, R265). -/
def emitSample (d : Int) (s : State) : State :=
  if s.rightTurn then
    { (pushSample s.payOffset (advancePredictor s.predR d) s).advance 1 with predR := advancePredictor s.predR d }
  else
    { (pushSample s.payOffset (advancePredictor s.predL d) s).advance 1 with predL := advancePredictor s.predL d }

/-- A code emits its sample, and the last one of a mono payload or of a pair ends the chunk. -/
theorem dpcmStep_eq (d : Int) (s : State) : dpcmStep d s =
    if s.payEnd ≤ (emitSample d s).pos.toNat ∧ (s.phase ≠ .sndStereo ∨ s.rightTurn = true) then
      finishSound (emitSample d s)
    else emitSample d s := by
  unfold dpcmStep emitSample
  cases s.rightTurn <;> rfl

theorem emitSample_works (h : Works b s) (d : Int) : Works b (emitSample d s) ∧ (emitSample d s).phase = s.phase := by
  unfold emitSample
  split
  · have hp := (pushSample_works h s.payOffset (advancePredictor s.predR d)).advance 1
    exact ⟨{ hp with }, rfl⟩
  · have hp := (pushSample_works h s.payOffset (advancePredictor s.predL d)).advance 1
    exact ⟨{ hp with }, rfl⟩

theorem dpcmStep_works (h : Works b s) (d : Int) : Continues b [s.phase] SoundEnds (dpcmStep d s) := by
  obtain ⟨hw, hp⟩ := emitSample_works h d
  rw [dpcmStep_eq]
  split
  · exact .inr ⟨_, hw, rfl⟩
  · exact .inl ⟨hw, by simp [hp]⟩

end

end Sys2Proof.Machine
end

section
/-! What an instruction answers, said once for all thirty. -/

namespace Sys2Proof.Machine

/-- The kinds of fault that the codes of a format raise (60 R280 to R287); no code raises `seek`. -/
def kindsOf : Format → List Kind
  | .hostcmd => [.state, .dimension, .truncated]
  | .cinrec => [.format, .truncated, .sizeMismatch, .codecDecode]
  | .roqchunk => [.truncated, .dimension, .state]
  | .id8 | .id4 | .dpcm8 | .hbit => [.codecDecode]

/-- The state an instruction's work begins in: a host command starts the command, HUF.BUILD may clear BUILT before its work
(log 13), CIN.PALVIDEO may load a palette before its record. -/
def Begins (i : Instr) (s b : State) : Prop :=
  match i with
  | .rst | .clrerr | .cinRec | .palLoad | .palDefault | .vqSeed | .roqChunk => b = startCommand s
  | .hufBuild => ∃ built : Bool, (built = true → s.status.built = true) ∧
      b = { startCommand s with status := { s.status.start with built := built } }
  | .cinPalvideo => ∃ p, b = { s with pal := p }
  | .cinVideo | .cinRsvd | .roqInfo .. | .roqCodebook .. | .roqVq .. | .roqJpeg .. | .roqHang .. | .roqSndMono ..
  | .roqSndStereo .. | .mot8 | .fcc8 | .sld8 | .ccc8 | .mot4 | .fcc4 | .sld4 | .ccc4 | .dpcmPos _ | .dpcmNeg _
  | .hufStep0 | .hufStep1 => b = s

/-- The phases in which an instruction leaves the block waiting for the next code, when it was read in phase `p`. -/
def goesTo (i : Instr) (p : Phase) : List Phase :=
  match i with
  | .cinRec => [.cinRecord]
  | .roqChunk => [.roqRecord]
  | .cinVideo | .cinPalvideo => [.huffman]
  | .roqVq .. => [.quadrant]
  | .roqSndMono .. => [.sndMono]
  | .roqSndStereo .. => [.sndStereo]
  | .mot8 | .fcc8 | .sld8 | .ccc8 | .mot4 | .fcc4 | .sld4 | .ccc4 => [.quadrant, .subBlock]
  | .dpcmPos _ | .dpcmNeg _ | .hufStep0 | .hufStep1 => [p]
  | .rst | .clrerr | .hufBuild | .palLoad | .palDefault | .vqSeed | .cinRsvd | .roqInfo .. | .roqCodebook ..
  | .roqJpeg .. | .roqHang .. => []

/-- The end of VQ.SEED (40 R154). -/
def SeedEnds (u t : State) : Prop :=
  t = finishCommand
    { u.setLast (u.last.overlay (List.replicate u.npix 0) (List.replicate u.npix 128) (List.replicate u.npix 128)) with
      status := { u.status with seeded := true } }

/-- The end of HUF.BUILD (41 R170). -/
def BuildEnds (u t : State) : Prop :=
  ∃ hist, t = finishCommand
    { (buildTrees hist u).advance 65536 with consumed := 65536, status := { u.status with built := true } }

/-- How an instruction ends its command without a fault, from the last state `u` of its work. -/
def Ends (i : Instr) (u t : State) : Prop :=
  match i with
  | .hufBuild => BuildEnds u t
  | .palLoad => ∃ p, t = finishCommand { ({ u with pal := p } : State).advance 768 with consumed := 768 }
  | .palDefault => t = finishCommand { u with pal := greyRamp }
  | .vqSeed => SeedEnds u t
  | .cinVideo | .cinPalvideo | .hufStep0 | .hufStep1 => CinEnds u t
  | .roqInfo .. | .roqJpeg .. | .roqHang .. => t = finishRecord u
  | .roqCodebook .. => CodebookEnds u t
  | .roqSndMono .. | .roqSndStereo .. | .dpcmPos _ | .dpcmNeg _ => SoundEnds u t
  | .mot8 | .fcc8 | .sld8 | .ccc8 | .mot4 | .fcc4 | .sld4 | .ccc4 => VqEnds u t
  | .rst | .clrerr | .cinRec | .roqChunk | .cinRsvd | .roqVq .. => False

/-- What an instruction other than RST and CLRERR answers: it goes on or ends from a state of its work, which a host
command reaches only without ERR; or it faults in one. -/
def Answers (i : Instr) (s : State) : Host.Outcome State Fault Refusal → Prop :=
  Concludes True
    (fun t => ∃ b, Begins i s b ∧ (i.format = .hostcmd → s.status.err = false) ∧ Continues b (goesTo i b.phase) (Ends i) t)
    (fun u kind => ∃ b, Begins i s b ∧ RaisesOnly b (kindsOf i.format) u kind)

/-- A meaning whose work begins in the state it is run in. -/
theorem answers_of_meets {i : Instr} {s : State} {kinds : List Kind} {phases : List Phase} {ends : State → State → Prop}
    {r : Run State} (hb : Begins i s s) (hf : i.format ≠ .hostcmd) (hk : kinds ⊆ kindsOf i.format)
    (hp : phases ⊆ goesTo i s.phase) (he : ∀ u t, ends u t → Ends i u t)
    (h : Meets True (Continues s phases ends) (RaisesOnly s kinds) r) : Answers i s (conclude r) := by
  refine concludes_of_meets (meets_mono h id (fun t ht => ⟨s, hb, fun hh => absurd hh hf, ?_⟩)
    fun u kind hu => ⟨s, hb, hu.mono hk⟩)
  exact ht.imp (fun hw => ⟨hw.1, hp hw.2⟩) fun ⟨u, hu, hut⟩ => ⟨u, hu, he u t hut⟩

/-- A host command: it is refused with ERR, else its work begins in the started state. -/
theorem answers_of_admission {i : Instr} {s : State} {f : State → Run State} (hb : Begins i s (startCommand s))
    (hf : i.format = .hostcmd)
    (h : s.status.err = false → Meets True (fun t => ∃ b, Begins i s b ∧ Continues b (goesTo i b.phase) (Ends i) t)
      (fun u kind => ∃ b, Begins i s b ∧ RaisesOnly b (kindsOf .hostcmd) u kind) (f (startCommand s))) :
    Answers i s (conclude (admission s >>= f)) := by
  refine concludes_of_meets ?_
  cases herr : s.status.err with
  | true =>
    rw [admission_of_err s herr, raise_bind, hf]
    exact meets_raise ⟨_, hb, Works.refl _, by simp [kindsOf]⟩
  | false =>
    rw [admission_of_noErr s herr, ok_bind, hf]
    exact meets_mono (h herr) id (fun t ⟨b, hb, ht⟩ => ⟨b, hb, fun _ => rfl, ht⟩) fun _ _ => id

theorem execHufBuild_answers (s : State) : Answers .hufBuild s (execHufBuild s) := by
  refine answers_of_admission ⟨s.status.built, id, rfl⟩ rfl fun _ => ?_
  have hb : Begins .hufBuild s { startCommand s with status := { s.status.start with built := false } } :=
    ⟨false, by simp, rfl⟩
  dsimp only
  split
  · exact meets_raise ⟨_, hb, Works.refl _, by simp [kindsOf]⟩
  · refine meets_bind (P' := fun _ => True) (meets_known (fun _ _ => trivial) fun _ => trivial) fun hist _ => ?_
    exact meets_ok ⟨_, hb, .inr ⟨_, Works.refl _, hist, rfl⟩⟩

theorem execCinRec_answers (s : State) : Answers .cinRec s (execCinRec s) := by
  refine answers_of_admission rfl rfl fun _ => ?_
  have hrec : Works (startCommand s) { startCommand s with phase := .cinRecord } := { Works.refl (startCommand s) with }
  dsimp only
  split
  · exact meets_raise ⟨_, rfl, Works.refl _, by simp [kindsOf]⟩
  · split
    · exact meets_raise ⟨_, rfl, Works.refl _, by simp [kindsOf]⟩
    · split
      · exact meets_raise ⟨_, rfl, hrec, by simp [kindsOf]⟩
      · exact meets_ok ⟨_, rfl, .inl ⟨hrec, by simp [goesTo]⟩⟩

theorem execPalLoad_answers (s : State) : Answers .palLoad s (execPalLoad s) := by
  refine answers_of_admission rfl rfl fun _ => ?_
  dsimp only
  split
  · exact meets_raise ⟨_, rfl, Works.refl _, by simp [kindsOf]⟩
  · refine meets_bind (P' := fun _ => True) (meets_known (fun _ _ => trivial) fun _ => trivial) fun p _ => ?_
    exact meets_ok ⟨_, rfl, .inr ⟨_, Works.refl _, paletteOf p, rfl⟩⟩

theorem execPalDefault_answers (s : State) : Answers .palDefault s (execPalDefault s) :=
  answers_of_admission rfl rfl fun _ => meets_ok ⟨_, rfl, .inr ⟨_, Works.refl _, rfl⟩⟩

theorem execVqSeed_answers (s : State) : Answers .vqSeed s (execVqSeed s) := by
  refine answers_of_admission rfl rfl fun _ => ?_
  dsimp only
  split
  · exact meets_raise ⟨_, rfl, Works.refl _, by simp [kindsOf]⟩
  · rw [State.setLast_status]
    exact meets_ok ⟨_, rfl, .inr ⟨_, Works.refl _, rfl⟩⟩

theorem execRoqChunk_answers (s : State) : Answers .roqChunk s (execRoqChunk s) := by
  refine answers_of_admission rfl rfl fun _ => ?_
  have hrec : Works (startCommand s) { startCommand s with phase := .roqRecord } := { Works.refl (startCommand s) with }
  dsimp only
  split
  · exact meets_raise ⟨_, rfl, hrec, by simp [kindsOf]⟩
  · exact meets_ok ⟨_, rfl, .inl ⟨hrec, by simp [goesTo]⟩⟩

theorem execCinVideo_answers (s : State) : Answers .cinVideo s (execCinVideo s) :=
  answers_of_meets rfl (by decide) (by simp [kindsOf, Instr.format]) (by simp [goesTo]) (fun _ _ => id)
    (cinBody_works (latchCommand_works (Works.refl s) 0))

theorem execCinPalvideo_answers (s : State) : Answers .cinPalvideo s (execCinPalvideo s) := by
  have hlatch := latchCommand_works (Works.refl s) 1
  refine concludes_of_meets (meets_bind (meets_mono (meets_remember (cinPalette_raises hlatch)) id (fun _ => id)
    fun u kind hu => ⟨s, ⟨s.pal, rfl⟩, hu.mono (by simp [kindsOf, Instr.format])⟩) fun t ht => ?_)
  obtain ⟨p, rfl⟩ := cinPalette_cases ht.2
  have hpal : Works { s with pal := p } ({ latchCommand 1 s with pal := p } : State) :=
    latchCommand_works (Works.refl { s with pal := p }) 1
  exact meets_mono (cinBody_works (hpal.advance 768)) id
    (fun t ht => ⟨_, ⟨p, rfl⟩, fun h => absurd h (by decide), ht⟩)
    fun u kind hu => ⟨_, ⟨p, rfl⟩, hu.mono (by simp [kindsOf, Instr.format])⟩

theorem execCinRsvd_answers (s : State) : Answers .cinRsvd s (execCinRsvd s) :=
  concludes_of_meets (meets_raise ⟨s, rfl, latchCommand_works (Works.refl s) 2, by simp [kindsOf, Instr.format]⟩)

/-- A chunk: its payload is missing, or its unit works on it. -/
theorem answers_of_enterChunk {i : Instr} {type : Half} {size : Word} {arg : Half} {s : State} {f : State → Run State}
    {kinds : List Kind} (hb : Begins i s s) (hf : i.format = .roqchunk) (hk : kinds ⊆ kindsOf .roqchunk)
    (h : ∀ u, Works s u → Meets True (Continues s (goesTo i s.phase) (Ends i)) (RaisesOnly s kinds) (f u)) :
    Answers i s (conclude (enterChunk type size arg s >>= f)) := by
  refine answers_of_meets (kinds := kindsOf .roqchunk) hb (by simp [hf]) (by simp [hf]) (List.Subset.refl _)
    (fun _ _ => id) ?_
  exact meets_bind (meets_mono (enterChunk_works (Works.refl s) type size arg) id (fun _ => id)
    fun _ _ hq => hq.mono (by simp [kindsOf])) fun u hu => meets_mono (h u hu.1) id (fun _ => id) fun _ _ hq => hq.mono hk

theorem execRoqInfo_answers (size : Word) (arg : Half) (s : State) :
    Answers (.roqInfo size arg) s (execRoqInfo size arg s) :=
  answers_of_enterChunk (kinds := []) rfl rfl (by simp) fun u hu => meets_ok (.inr ⟨u, hu, rfl⟩)

theorem execRoqJpeg_answers (size : Word) (arg : Half) (s : State) :
    Answers (.roqJpeg size arg) s (execRoqJpeg size arg s) :=
  answers_of_enterChunk (kinds := []) rfl rfl (by simp) fun u hu => meets_ok (.inr ⟨u, hu, rfl⟩)

theorem execRoqHang_answers (size : Word) (arg : Half) (s : State) :
    Answers (.roqHang size arg) s (execRoqHang size arg s) :=
  answers_of_enterChunk (kinds := []) rfl rfl (by simp) fun u hu => meets_ok (.inr ⟨u, hu, rfl⟩)

theorem execRoqCodebook_answers (size : Word) (arg : Half) (s : State) :
    Answers (.roqCodebook size arg) s (execRoqCodebook size arg s) :=
  answers_of_enterChunk rfl rfl (by simp [kindsOf]) fun _ hu => codebookChunk_works hu

theorem execRoqVq_answers (size : Word) (arg : Half) (s : State) :
    Answers (.roqVq size arg) s (execRoqVq size arg s) :=
  answers_of_enterChunk rfl rfl (by simp [kindsOf]) fun _ hu => vqFrame_works hu

/-- A sound chunk with its predictors seeded: it waits, or, with no payload, it ends. -/
theorem sound_continues {b u : State} {phases : List Phase} (h : Works b u) (hp : u.phase ∈ phases) :
    Continues b phases SoundEnds (if u.payLen = 0 then finishSound u else u) := by
  split
  · exact .inr ⟨u, h, rfl⟩
  · exact .inl ⟨h, hp⟩

theorem execRoqSndMono_answers (size : Word) (arg : Half) (s : State) :
    Answers (.roqSndMono size arg) s (execRoqSndMono size arg s) :=
  answers_of_enterChunk (kinds := []) rfl rfl (by simp) fun u hu =>
    sound_continues (u := { u with predL := arg, phase := .sndMono }) { hu with } (by simp [goesTo])

theorem execRoqSndStereo_answers (size : Word) (arg : Half) (s : State) :
    Answers (.roqSndStereo size arg) s (execRoqSndStereo size arg s) :=
  answers_of_enterChunk (kinds := []) rfl rfl (by simp) fun u hu =>
    sound_continues (u := { u with predL := stereoSeedL arg, predR := stereoSeedR arg, phase := .sndStereo })
      { hu with } (by simp [goesTo])

theorem hufStep_answers {i : Instr} (bit : Bool) (s : State) (hb : Begins i s s) (hf : i.format = .hbit)
    (hp : goesTo i s.phase = [s.phase]) (he : Ends i = CinEnds) : Answers i s (conclude (hufStep bit s)) := by
  refine answers_of_meets hb (by simp [hf]) (by rw [hf]; exact List.Subset.refl _) ?_ (fun u t => ?_)
    (hufStep_works bit (Works.refl s))
  · rw [hp]; exact List.Subset.refl _
  · rw [he]; exact id

/-- A vector code: its id is taken, then its unit works. -/
theorem answers_of_nextId {i : Instr} {s : State} {f : BitVec 2 × State → Run State} (hb : Begins i s s)
    (hf : kindsOf i.format = [.codecDecode]) (hp : goesTo i s.phase = [.quadrant, .subBlock]) (he : Ends i = VqEnds)
    (h : ∀ x, Works s x.2 → Meets True (Continues s [.quadrant, .subBlock] VqEnds) (RaisesOnly s [.codecDecode]) (f x)) :
    Answers i s (conclude (nextId s >>= f)) := by
  refine answers_of_meets hb (fun hh => by simp [hh, kindsOf] at hf) (by rw [hf]; exact List.Subset.refl _)
    (by rw [hp]; exact List.Subset.refl _) (fun u t => by rw [he]; exact id) ?_
  exact meets_bind (nextId_works (Works.refl s)) h

theorem execMot8_answers (s : State) : Answers .mot8 s (execMot8 s) :=
  answers_of_nextId rfl rfl rfl rfl fun _ h => nextQuadrant_works h

theorem execFcc8_answers (s : State) : Answers .fcc8 s (execFcc8 s) :=
  answers_of_nextId rfl rfl rfl rfl fun _ h => meets_bind (nextByte_works h) fun _ h =>
    meets_bind (copyBlock_works h ..) fun _ h => nextQuadrant_works h

theorem execSld8_answers (s : State) : Answers .sld8 s (execSld8 s) :=
  answers_of_nextId rfl rfl rfl rfl fun _ h => meets_bind (nextByte_works h) fun _ h =>
    meets_bind (stampQuad_works h ..) fun _ h => nextQuadrant_works h

theorem execCcc8_answers (s : State) : Answers .ccc8 s (execCcc8 s) := by
  refine answers_of_nextId rfl rfl rfl rfl fun x h => meets_ok (.inl ⟨{ h with ranged := fun hb => ?_ }, by simp⟩)
  have := (ranged_iff _).1 (h.ranged hb)
  simp only [ranged_iff]
  omega

theorem execMot4_answers (s : State) : Answers .mot4 s (execMot4 s) :=
  answers_of_nextId rfl rfl rfl rfl fun _ h => nextSubBlock_works h

theorem execFcc4_answers (s : State) : Answers .fcc4 s (execFcc4 s) :=
  answers_of_nextId rfl rfl rfl rfl fun _ h => meets_bind (nextByte_works h) fun _ h =>
    meets_bind (copyBlock_works h ..) fun _ h => nextSubBlock_works h

theorem execSld4_answers (s : State) : Answers .sld4 s (execSld4 s) :=
  answers_of_nextId rfl rfl rfl rfl fun _ h => meets_bind (nextByte_works h) fun _ h =>
    meets_bind (stampQuad_works h ..) fun _ h => nextSubBlock_works h

theorem execCcc4_answers (s : State) : Answers .ccc4 s (execCcc4 s) :=
  answers_of_nextId rfl rfl rfl rfl fun _ h => meets_bind (cellTurn_works h (by omega)) fun _ h =>
    meets_bind (cellTurn_works h (by omega)) fun _ h => meets_bind (cellTurn_works h (by omega)) fun _ h =>
    meets_bind (cellTurn_works h (by omega)) fun _ h => nextSubBlock_works h

theorem dpcmStep_answers {i : Instr} (d : Int) (s : State) (hb : Begins i s s) (hf : i.format = .dpcm8)
    (hp : goesTo i s.phase = [s.phase]) (he : Ends i = SoundEnds) : Answers i s (.next (dpcmStep d s)) := by
  refine .inl ⟨s, hb, by simp [hf], ?_⟩
  rw [hp, he]
  exact dpcmStep_works (Works.refl s) d

/-- Every instruction but RST and CLRERR answers as `Answers` says. -/
theorem exec_answers (i : Instr) (s : State) (hrst : i ≠ .rst) (hclr : i ≠ .clrerr) : Answers i s (exec i s) := by
  cases i
  case rst => exact absurd rfl hrst
  case clrerr => exact absurd rfl hclr
  case hufBuild => exact execHufBuild_answers s
  case cinRec => exact execCinRec_answers s
  case palLoad => exact execPalLoad_answers s
  case palDefault => exact execPalDefault_answers s
  case vqSeed => exact execVqSeed_answers s
  case roqChunk => exact execRoqChunk_answers s
  case cinVideo => exact execCinVideo_answers s
  case cinPalvideo => exact execCinPalvideo_answers s
  case cinRsvd => exact execCinRsvd_answers s
  case roqInfo size arg => exact execRoqInfo_answers size arg s
  case roqCodebook size arg => exact execRoqCodebook_answers size arg s
  case roqVq size arg => exact execRoqVq_answers size arg s
  case roqJpeg size arg => exact execRoqJpeg_answers size arg s
  case roqHang size arg => exact execRoqHang_answers size arg s
  case roqSndMono size arg => exact execRoqSndMono_answers size arg s
  case roqSndStereo size arg => exact execRoqSndStereo_answers size arg s
  case mot8 => exact execMot8_answers s
  case fcc8 => exact execFcc8_answers s
  case sld8 => exact execSld8_answers s
  case ccc8 => exact execCcc8_answers s
  case mot4 => exact execMot4_answers s
  case fcc4 => exact execFcc4_answers s
  case sld4 => exact execSld4_answers s
  case ccc4 => exact execCcc4_answers s
  case dpcmPos m => exact dpcmStep_answers _ s rfl rfl rfl rfl
  case dpcmNeg m => exact dpcmStep_answers _ s rfl rfl rfl rfl
  case hufStep0 => exact hufStep_answers false s rfl rfl rfl rfl
  case hufStep1 => exact hufStep_answers true s rfl rfl rfl rfl

/-- The three ways on from an instruction other than RST and CLRERR. -/
theorem exec_cases {i : Instr} {s t : State} (h : exec i s = .next t) (hrst : i ≠ .rst) (hclr : i ≠ .clrerr) :
    ∃ b, Begins i s b ∧
      ((∃ u kind, Works b u ∧ kind ∈ kindsOf i.format ∧ t = raiseFault u kind) ∨
        (i.format = .hostcmd → s.status.err = false) ∧
          ((Works b t ∧ t.phase ∈ goesTo i b.phase) ∨ ∃ u, Works b u ∧ Ends i u t)) := by
  have ha := exec_answers i s hrst hclr
  rw [h] at ha
  rcases ha with ⟨b, hb, he, ht⟩ | ⟨u, kind, ⟨b, hb, hu, hk⟩, rfl⟩
  · exact ⟨b, hb, .inr ⟨he, ht⟩⟩
  · exact ⟨b, hb, .inl ⟨u, kind, hu, hk, rfl⟩⟩

end Sys2Proof.Machine
end

section
/-! Who writes what: the tables, the inputs, the lasting flags, `last` (10 sections 4 to 6, 42 section 7). -/

namespace Sys2Proof.Machine

/-- What instruction `i` leaves of the tables, the inputs and the lasting flags between two states of its run. -/
structure Owned (i : Instr) (s t : State) : Prop where
  trees : i ≠ .hufBuild → t.root = s.root ∧ t.child = s.child
  codebook : (∀ size arg, i ≠ .roqCodebook size arg) → t.cell = s.cell ∧ t.quad = s.quad ∧ t.nv1 = s.nv1 ∧ t.nv2 = s.nv2
  palette : i ∉ [Instr.palLoad, .palDefault, .cinPalvideo] → t.pal = s.pal
  params : t.params = s.params
  inputs : t.inp = s.inp ∧ t.inLen = s.inLen ∧ t.cfgWidth = s.cfgWidth ∧ t.cfgHeight = s.cfgHeight
  err : s.status.err = true → t.status.err = true
  built : i ≠ .hufBuild → t.status.built = s.status.built
  seeded : i ≠ .vqSeed → t.status.seeded = s.status.seeded
  seededSet : i = .vqSeed → s.status.seeded = true → t.status.seeded = true
  cbook : (∀ size arg, i ≠ .roqCodebook size arg) → t.status.cbook = s.status.cbook
  cbookSet : s.status.cbook = true → t.status.cbook = true

theorem Owned.trans {i : Instr} {s u t : State} (h : Owned i s u) (h' : Owned i u t) : Owned i s t where
  trees hi := ⟨(h'.trees hi).1.trans (h.trees hi).1, (h'.trees hi).2.trans (h.trees hi).2⟩
  codebook hi := by
    obtain ⟨a, b, c, d⟩ := h.codebook hi
    obtain ⟨a', b', c', d'⟩ := h'.codebook hi
    exact ⟨a'.trans a, b'.trans b, c'.trans c, d'.trans d⟩
  palette hi := (h'.palette hi).trans (h.palette hi)
  params := h'.params.trans h.params
  inputs := by
    obtain ⟨a, b, c, d⟩ := h.inputs
    obtain ⟨a', b', c', d'⟩ := h'.inputs
    exact ⟨a'.trans a, b'.trans b, c'.trans c, d'.trans d⟩
  err := h'.err ∘ h.err
  built hi := (h'.built hi).trans (h.built hi)
  seeded hi := (h'.seeded hi).trans (h.seeded hi)
  seededSet hi := h'.seededSet hi ∘ h.seededSet hi
  cbook hi := (h'.cbook hi).trans (h.cbook hi)
  cbookSet := h'.cbookSet ∘ h.cbookSet

theorem Works.owned {i : Instr} {s t : State} (h : Works s t) : Owned i s t := by
  constructor <;> simp [h.root, h.child, h.cell, h.quad, h.nv1, h.nv2, h.pal, h.params, h.inp, h.inLen, h.cfgWidth,
    h.cfgHeight, h.status]

theorem raiseFault_owned {i : Instr} (s : State) (kind : Kind) : Owned i s (raiseFault s kind) := by
  constructor <;> simp

/-- Where the work of an instruction begins, in one form for all of them. -/
theorem begins_cases {i : Instr} {s b : State} (h : Begins i s b) :
    (∃ p, (i ≠ .cinPalvideo → p = s.pal) ∧ i.format ≠ .hostcmd ∧ b = { s with pal := p }) ∨
    ∃ built, (i ≠ .hufBuild → built = s.status.built) ∧ (built = true → s.status.built = true) ∧
      i.format = .hostcmd ∧ b = { startCommand s with status := { s.status.start with built := built } } := by
  cases i
  case hufBuild =>
    obtain ⟨built, hb, rfl⟩ := h
    exact .inr ⟨built, by simp, hb, rfl, rfl⟩
  case cinPalvideo =>
    obtain ⟨p, rfl⟩ := h
    exact .inl ⟨p, by simp, by simp [Instr.format], rfl⟩
  case rst | clrerr | cinRec | palLoad | palDefault | vqSeed | roqChunk =>
    exact .inr ⟨s.status.built, fun _ => rfl, id, rfl, h⟩
  all_goals exact .inl ⟨s.pal, fun _ => rfl, by simp [Instr.format], h⟩

theorem begins_owned {i : Instr} {s b : State} (h : Begins i s b) : Owned i s b := by
  rcases begins_cases h with ⟨p, hp, -, rfl⟩ | ⟨built, hbuilt, -, -, rfl⟩
  · constructor <;> simp_all
  · constructor <;> simp_all

theorem ends_owned {i : Instr} {u t : State} (h : Ends i u t) : Owned i u t := by
  cases i
  case hufBuild => obtain ⟨hist, rfl⟩ := h; constructor <;> simp [buildTrees]
  case palLoad => obtain ⟨p, rfl⟩ := h; constructor <;> simp
  case vqSeed => cases h; constructor <;> simp
  case roqCodebook => obtain ⟨n1, n2, bs, -, -, rfl⟩ := h; constructor <;> simp [loadCodebook]
  case cinVideo | cinPalvideo | hufStep0 | hufStep1 => obtain ⟨bs, rfl⟩ := h; constructor <;> simp
  case mot8 | fcc8 | sld8 | ccc8 | mot4 | fcc4 | sld4 | ccc4 => obtain ⟨bs, rfl⟩ := h; constructor <;> simp
  case roqSndMono | roqSndStereo | dpcmPos | dpcmNeg => cases h; constructor <;> simp [finishSound]
  all_goals cases h
  all_goals constructor <;> simp

/-- The owners of every instruction but RST and CLRERR. -/
theorem exec_owned {i : Instr} {s t : State} (h : exec i s = .next t) (hrst : i ≠ .rst) (hclr : i ≠ .clrerr) :
    Owned i s t := by
  obtain ⟨b, hb, ⟨u, kind, hu, -, rfl⟩ | ⟨-, ⟨ht, -⟩ | ⟨u, hu, ht⟩⟩⟩ := exec_cases h hrst hclr
  · exact (begins_owned hb).trans (hu.owned.trans (raiseFault_owned u kind))
  · exact (begins_owned hb).trans ht.owned
  · exact (begins_owned hb).trans (hu.owned.trans (ends_owned ht))

/-- Settles O52: every instruction but RST and CLRERR has its owners; those two are said in full by O9 and the reset
state. -/
theorem tablesAndInputsHaveFewWriters : Obligations.TablesAndInputsHaveFewWriters := by
  intro i s t h
  by_cases hrst : i = .rst
  · subst hrst
    cases h
    simp [resetState]
  by_cases hclr : i = .clrerr
  · subst hclr
    cases h
    simp
  obtain ⟨trees, codebook, palette, params, inputs, -⟩ := exec_owned h hrst hclr
  refine ⟨fun hi => trees (by simp_all), fun hi _ => codebook hi, fun hi => palette (by simp_all), params, fun _ => inputs⟩

/-- Settles O53, from the same owners. -/
theorem lastingFlagsHaveTheirOwners : Obligations.LastingFlagsHaveTheirOwners := by
  intro i s t h hrst
  by_cases hclr : i = .clrerr
  · subst hclr
    cases h
    simp
  obtain ⟨-, -, -, -, -, err, built, seeded, seededSet, cbook, cbookSet⟩ := exec_owned h hrst hclr
  refine ⟨fun _ => err, built, seeded, ?_, cbook, cbookSet⟩
  by_cases hi : i = .vqSeed
  · exact seededSet hi
  · exact fun hs => (seeded hi).trans hs

theorem last_congr {s t : State} (h0 : t.pl0 = s.pl0) (h1 : t.pl1 = s.pl1) (hp : t.pp = s.pp) : t.last = s.last := by
  rw [State.last, State.last, h0, h1, hp]

/-- How an ending treats `last`: VQ.SEED writes it, the end of a VQ frame swaps it (42 R239, R241). -/
theorem ends_last {i : Instr} {u t : State} (h : Ends i u t) (hi : i ≠ .vqSeed) :
    (t.pp = u.pp ∧ t.last = u.last) ∨
    (t.pp = !u.pp ∧ t.current = u.last ∧ t.status.frame = true ∧ t.status.done = true ∧
      i.format ∈ [Format.id8, Format.id4]) := by
  cases i
  case vqSeed => exact absurd rfl hi
  case hufBuild =>
    obtain ⟨hist, rfl⟩ := h
    exact .inl ⟨by simp [buildTrees], last_congr (by simp [buildTrees]) (by simp [buildTrees]) (by simp [buildTrees])⟩
  case palLoad => obtain ⟨p, rfl⟩ := h; exact .inl ⟨by simp, last_congr (by simp) (by simp) (by simp)⟩
  case roqCodebook =>
    obtain ⟨n1, n2, bs, -, -, rfl⟩ := h
    exact .inl ⟨by simp [loadCodebook],
      last_congr (by simp [loadCodebook]) (by simp [loadCodebook]) (by simp [loadCodebook])⟩
  case cinVideo | cinPalvideo | hufStep0 | hufStep1 => obtain ⟨bs, rfl⟩ := h; exact .inl ⟨rfl, rfl⟩
  case mot8 | fcc8 | sld8 | ccc8 | mot4 | fcc4 | sld4 | ccc4 =>
    obtain ⟨bs, rfl⟩ := h
    refine .inr ⟨rfl, ?_, rfl, rfl, by simp [Instr.format]⟩
    cases hpp : u.pp <;> simp [State.current, State.last, hpp]
  all_goals cases h
  all_goals exact .inl ⟨rfl, rfl⟩

theorem begins_last {i : Instr} {s b : State} (h : Begins i s b) : b.pp = s.pp ∧ b.last = s.last := by
  rcases begins_cases h with ⟨p, -, -, rfl⟩ | ⟨built, -, -, -, rfl⟩
  · exact ⟨rfl, rfl⟩
  · exact ⟨rfl, rfl⟩

/-- Settles O54. -/
theorem lastChangesOnlyBySeedAndSwap : Obligations.LastChangesOnlyBySeedAndSwap := by
  intro i s t h hi
  simp only [List.mem_cons, List.not_mem_nil, or_false, not_or] at hi
  by_cases hclr : i = .clrerr
  · subst hclr
    cases h
    exact .inl ⟨rfl, rfl⟩
  obtain ⟨b, hb, ⟨u, kind, hu, -, rfl⟩ | ⟨-, ⟨ht, -⟩ | ⟨u, hu, ht⟩⟩⟩ := exec_cases h hi.1 hclr
  all_goals obtain ⟨hpp, hlast⟩ := begins_last hb
  · exact .inl ⟨by rw [raiseFault_pp, hu.pp, hpp], by rw [raiseFault_last, hu.last, hlast]⟩
  · exact .inl ⟨ht.pp.trans hpp, ht.last.trans hlast⟩
  · have := ends_last ht hi.2
    rwa [hu.pp, hu.last, hpp, hlast] at this

/-- A vector code works in the state it is run in and ends the frame if it ends the command. -/
theorem begins_vector {i : Instr} {s b : State} (hi : i.format = .id8 ∨ i.format = .id4) (h : Begins i s b) : b = s := by
  cases i <;> simp [Instr.format] at hi
  all_goals exact h

theorem ends_vector {i : Instr} {u t : State} (hi : i.format = .id8 ∨ i.format = .id4) (h : Ends i u t) : VqEnds u t := by
  cases i <;> simp [Instr.format] at hi
  all_goals exact h

/-- Settles O46: a vector code that ends with ERR set has faulted, since neither going on nor ending sets ERR. -/
theorem faultedVqChunkKeepsLast : Obligations.FaultedVqChunkKeepsLast := by
  intro i s t hi _ herr h hterr
  have hvector : i.format = .id8 ∨ i.format = .id4 := by simpa using hi
  have hformat : i.format ≠ .hostcmd := by rcases hvector with h | h <;> simp [h]
  have hkinds : kindsOf i.format = [.codecDecode] := by rcases hvector with h | h <;> rw [h] <;> rfl
  have hends : ∀ u, Ends i u t → t.status.err = u.status.err := by
    intro u hu
    rcases ends_vector hvector hu with ⟨bs, rfl⟩
    rfl
  obtain ⟨b, hb, ⟨u, kind, hu, hk, rfl⟩ | ⟨-, ⟨ht, -⟩ | ⟨u, hu, ht⟩⟩⟩ :=
    exec_cases h (by rintro rfl; exact hformat rfl) (by rintro rfl; exact hformat rfl)
  all_goals obtain rfl := begins_vector hvector hb
  · obtain rfl : kind = .codecDecode := by simpa [hkinds] using hk
    simp [hu.status, hu.pp, hu.last, hu.cell, hu.quad, hu.nv1, hu.nv2, herr, Kind.code]
  · rw [ht.status, herr] at hterr
    cases hterr
  · rw [hends u ht, hu.status, herr] at hterr
    cases hterr

end Sys2Proof.Machine
end

section
/-! What a step can be, and the invariants of 10_state.md: canonical memories, ranges, flags. -/

namespace Sys2Proof.Machine

/-! ### The step -/

/-- The format of the code that a phase reads. -/
def formatOf : Phase → Format
  | .idle => .hostcmd
  | .cinRecord => .cinrec
  | .roqRecord => .roqchunk
  | .huffman => .hbit
  | .quadrant => .id8
  | .subBlock => .id4
  | .sndMono | .sndStereo => .dpcm8

/-- What a fetch answers: nothing, or a code of its phase's format. -/
def Fetched (s : State) (x : Option (Format × List Byte)) : Prop := ∀ f bs, x = some (f, bs) → f = formatOf s.phase

section
variable {s : State} {f : Format} (hf : f = formatOf s.phase)
include hf

theorem fetched_code {Q : State → Kind → Prop} (bs : List Byte) : Meets True (Fetched s) Q (.ok (some (f, bs))) := by
  refine meets_ok fun f' bs' h => ?_
  cases h
  exact hf

/-- A fetch through one of the operand reads. -/
theorem fetched_of_read {α : Type} {P : α → Prop} {r : Run α} (g : α → List Byte)
    (h : Meets True P (RaisesOnly s [.codecDecode]) r) :
    Meets True (Fetched s) (RaisesOnly s [.truncated, .codecDecode]) (r >>= fun x => .ok (some (f, g x))) :=
  meets_bind (meets_mono h id (fun _ => id) fun _ _ hq => hq.mono (by simp)) fun x _ => fetched_code hf (g x)

/-- A fetch of `n` bytes of IN, which may be short. -/
theorem fetched_of_readIn {base n : Nat} : Meets True (Fetched s) (RaisesOnly s [.truncated, .codecDecode])
    (if s.short n then raise s .truncated else readIn s base n >>= fun bs => .ok (some (f, bs))) := by
  split
  · exact meets_raise ⟨Works.refl s, by simp⟩
  · exact meets_bind (P' := fun _ => True) (meets_known (fun _ _ => trivial) fun _ => trivial) fun bs _ =>
      fetched_code hf bs

end

theorem fetch_meets (s : State) : Meets True (Fetched s) (RaisesOnly s [.truncated, .codecDecode]) (fetch s) := by
  have hs := Works.refl s
  cases hp : s.phase <;> simp only [fetch, hp]
  case idle =>
    split
    · exact meets_ok (by simp [Fetched])
    · exact fetched_code (congrArg formatOf hp).symm _
  case cinRecord => exact fetched_of_readIn (congrArg formatOf hp).symm
  case roqRecord => exact fetched_of_readIn (congrArg formatOf hp).symm
  case huffman => exact fetched_of_read (congrArg formatOf hp).symm (fun x => [if x.1 then 1 else 0]) (nextBit_works hs)
  case quadrant => exact fetched_of_read (congrArg formatOf hp).symm (fun x => [x.1.setWidth 8]) (nextId_works hs)
  case subBlock => exact fetched_of_read (congrArg formatOf hp).symm (fun x => [x.1.setWidth 8]) (nextId_works hs)
  case sndMono => exact fetched_of_read (congrArg formatOf hp).symm (fun x => [x.1]) (nextByte_works hs)
  case sndStereo =>
    split
    · exact meets_raise ⟨hs, by simp⟩
    · exact fetched_of_read (congrArg formatOf hp).symm (fun x => [x.1]) (nextByte_works hs)

/-- The kinds of fault the block raises (60 R281 to R287). -/
def raisedKinds : List Kind := [.format, .dimension, .truncated, .sizeMismatch, .codecDecode, .state]

theorem kindsOf_subset (f : Format) : kindsOf f ⊆ raisedKinds := by
  intro kind hk
  cases f <;> cases kind <;> simp [kindsOf] at hk <;> decide

/-- A word that names no instruction is refused at admission, or faults in the record it was read in. -/
theorem rejectCode_cases {e : DecodeError} {bytes : List Byte} {s t : State} (h : rejectCode e bytes s = .next t) :
    ∃ u kind, (Works s u ∨ u = startCommand s) ∧ kind ∈ raisedKinds ∧ t = raiseFault u kind := by
  have hs := Works.refl s
  cases e <;> cases h
  case undefinedCommand => exact ⟨_, .state, .inr rfl, by decide, rfl⟩
  case undefinedRecord v => exact ⟨_, .format, .inl (latchCommand_works hs v), by decide, rfl⟩
  case unknownChunk type =>
    have hlatched : ∀ size arg, Works s { s with recType := type, recSize := size, recArg := arg, pos := 8 } :=
      fun _ _ => { hs with }
    exact ⟨_, .format, .inl (hlatched _ _), by decide, rfl⟩
  case badLength => exact ⟨_, .format, .inl hs, by decide, rfl⟩

/-- What a step can be: nothing; a fault without an instruction, in the state of the command or at its start; or an
instruction of the format that the phase reads. -/
theorem step_next_cases {s t : State} (h : step s = .next t) :
    t = s ∨
    (∃ u kind, (Works s u ∨ u = startCommand s) ∧ kind ∈ raisedKinds ∧ t = raiseFault u kind) ∨
    ∃ i, i.format = formatOf s.phase ∧ exec i s = .next t := by
  have hfetch := fetch_meets s
  rcases step_cases s with ⟨stop, hf, hstep⟩ | ⟨hf, hstep⟩ | ⟨f, bs, i, hf, hd, hstep⟩ | ⟨f, bs, e, hf, hd, hstep⟩
  all_goals rw [hf] at hfetch
  all_goals rw [hstep] at h
  · rcases stop with ⟨u, kind⟩ | fault
    · cases h
      obtain ⟨hu, hk⟩ : RaisesOnly s [.truncated, .codecDecode] u kind := hfetch
      exact .inr (.inl ⟨u, kind, .inl hu, (by decide : [Kind.truncated, .codecDecode] ⊆ raisedKinds) hk, rfl⟩)
    · cases h
  · cases h
    exact .inl rfl
  · exact .inr (.inr ⟨i, (encodeOfDecode _ _ _ _ hd).1.trans (hfetch f bs rfl), h⟩)
  · exact .inr (.inl (rejectCode_cases h))

/-! ### Canonical memories and ranges -/

theorem canonical_forgetOutputs {s : State} (h : s.canonical = true) : (forgetOutputs s).canonical = true := by
  have hblank : Planes.blank.wf = true := rfl
  simp only [State.canonical, Bool.and_eq_true] at h ⊢
  unfold forgetOutputs freePcmLen State.setCurrent
  (repeat' split) <;> simp_all

theorem canonical_raiseFault {s : State} (kind : Kind) (h : s.canonical = true) :
    (raiseFault s kind).canonical = true := canonical_forgetOutputs h

theorem ranged_raiseFault {s : State} (kind : Kind) (h : s.ranged = true) : (raiseFault s kind).ranged = true := by
  simp only [ranged_iff, raiseFault_bitcnt, raiseFault_flagN, raiseFault_q, raiseFault_sb, raiseFault_cc,
    raiseFault_nv1, raiseFault_nv2]
  exact (ranged_iff s).1 h

/-- Both invariants at once: what a step carries from one state to the next. -/
def Sound (s t : State) : Prop :=
  (s.canonical = true → t.canonical = true) ∧ (s.ranged = true → t.ranged = true)

theorem Sound.trans {s u t : State} (h : Sound s u) (h' : Sound u t) : Sound s t := ⟨h'.1 ∘ h.1, h'.2 ∘ h.2⟩

theorem Works.sound {s t : State} (h : Works s t) : Sound s t := ⟨h.canonical, h.ranged⟩

theorem raiseFault_sound (s : State) (kind : Kind) : Sound s (raiseFault s kind) :=
  ⟨canonical_raiseFault kind, ranged_raiseFault kind⟩

theorem startCommand_sound (s : State) : Sound s (startCommand s) := by
  refine ⟨fun h => ?_, fun h => h⟩
  simp only [canonical_iff] at h ⊢
  exact ⟨h.1, h.2.1, h.2.2.1, h.2.2.2.1, h.2.2.2.2.1, rfl⟩

theorem begins_sound {i : Instr} {s b : State} (h : Begins i s b) : Sound s b := by
  rcases begins_cases h with ⟨p, -, -, rfl⟩ | ⟨built, -, -, -, rfl⟩
  · exact ⟨id, id⟩
  · exact startCommand_sound s

/-- The end of a frame writes RGBA, and the swap only renames the plane sets. -/
theorem sound_of_rgba {u : State} (bs : List Byte) (pp : Bool) (st : Status) :
    Sound u (finishRecord { u with rgba := u.rgba.overlay bs, pp := pp, status := st }) := by
  refine ⟨fun h => ?_, id⟩
  simp only [State.canonical, Bool.and_eq_true, finishRecord_inp, finishRecord_idx, finishRecord_pl0, finishRecord_pl1,
    finishRecord_rgba, finishRecord_pcm] at h ⊢
  exact ⟨⟨h.1.1, Memory.wf_overlay _ _ h.1.2⟩, h.2⟩

theorem seedEnds_sound {u t : State} (h : SeedEnds u t) : Sound u t := by
  cases h
  refine ⟨fun h => ?_, fun h => ?_⟩
  · have hc := (canonical_iff u).1 h
    have := (canonical_iff (u.setLast (u.last.overlay (List.replicate u.npix 0) (List.replicate u.npix 128)
      (List.replicate u.npix 128)))).2
    refine this ?_
    rw [State.setLast_last, State.setLast_current, State.setLast_inp, State.setLast_idx, State.setLast_rgba,
      State.setLast_pcm]
    exact ⟨hc.1, hc.2.1, Planes.wf_overlay _ _ _ hc.2.2.1, hc.2.2.2⟩
  · simp only [ranged_iff, finishCommand_bitcnt, finishCommand_flagN, finishCommand_q, finishCommand_sb,
      finishCommand_cc, finishCommand_nv1, finishCommand_nv2, State.setLast_bitcnt, State.setLast_flagN,
        State.setLast_q,
      State.setLast_sb, State.setLast_cc, State.setLast_nv1, State.setLast_nv2]
    exact (ranged_iff u).1 h

theorem codebookEnds_sound {u t : State} (h : CodebookEnds u t) : Sound u t := by
  obtain ⟨n1, n2, bs, hn1, hn2, rfl⟩ := h
  refine ⟨fun h => by simpa [State.canonical, loadCodebook] using h, fun h => ?_⟩
  have := (ranged_iff u).1 h
  simp only [ranged_iff, finishRecord_bitcnt, finishRecord_flagN, finishRecord_q, finishRecord_sb, finishRecord_cc,
    finishRecord_nv1, finishRecord_nv2, loadCodebook]
  omega

theorem buildEnds_sound {u t : State} (h : BuildEnds u t) : Sound u t := by
  obtain ⟨hist, rfl⟩ := h
  exact ⟨fun h => by simpa [State.canonical, buildTrees] using h, fun h => by simpa [ranged_iff, buildTrees] using h⟩

theorem ends_sound {i : Instr} {u t : State} (h : Ends i u t) : Sound u t := by
  cases i
  case hufBuild => exact buildEnds_sound h
  case palLoad =>
    obtain ⟨p, rfl⟩ := h
    exact ⟨fun h => by simpa [State.canonical] using h, fun h => by simpa [ranged_iff] using h⟩
  case vqSeed => exact seedEnds_sound h
  case roqCodebook => exact codebookEnds_sound h
  case cinVideo | cinPalvideo | hufStep0 | hufStep1 =>
    obtain ⟨bs, rfl⟩ := h
    exact sound_of_rgba bs u.pp _
  case mot8 | fcc8 | sld8 | ccc8 | mot4 | fcc4 | sld4 | ccc4 =>
    obtain ⟨bs, rfl⟩ := h
    exact sound_of_rgba bs _ _
  case roqSndMono | roqSndStereo | dpcmPos | dpcmNeg => cases h; exact ⟨id, id⟩
  all_goals cases h
  all_goals exact ⟨id, id⟩

theorem exec_sound {i : Instr} {s t : State} (h : exec i s = .next t) : Sound s t := by
  by_cases hrst : i = .rst
  · subst hrst
    cases h
    exact ⟨fun _ => rfl, fun _ => rfl⟩
  by_cases hclr : i = .clrerr
  · subst hclr
    cases h
    exact startCommand_sound s
  obtain ⟨b, hb, ⟨u, kind, hu, -, rfl⟩ | ⟨-, ⟨ht, -⟩ | ⟨u, hu, ht⟩⟩⟩ := exec_cases h hrst hclr
  · exact (begins_sound hb).trans (hu.sound.trans (raiseFault_sound u kind))
  · exact (begins_sound hb).trans ht.sound
  · exact (begins_sound hb).trans (hu.sound.trans (ends_sound ht))

/-- Settles O56. -/
theorem stepKeepsMemoriesCanonicalAndRegistersInRange :
    Obligations.StepKeepsMemoriesCanonicalAndRegistersInRange := by
  intro s t h
  rcases step_next_cases h with rfl | ⟨u, kind, hu | rfl, -, rfl⟩ | ⟨i, -, hexec⟩
  · exact ⟨id, id⟩
  · exact hu.sound.trans (raiseFault_sound u kind)
  · exact (startCommand_sound s).trans (raiseFault_sound _ kind)
  · exact exec_sound hexec

/-! ### The flags -/

/-- The flags of a command that runs: it was admitted without ERR and has no result yet (40 R144). -/
structure Runs (s : State) : Prop where
  busy : s.status.busy = true
  done : s.status.done = false
  err : s.status.err = false
  frame : s.status.frame = false
  audio : s.status.audio = false
  cmd : s.cmd = none
  errCode : s.errCode = 0
  errPos : s.errPos = 0

theorem flagsAgree_of_runs {s : State} (h : Runs s) (hp : s.phase ≠ .idle) : s.flagsAgree := by
  simp [State.flagsAgree, State.running, h.busy, h.done, h.err, h.frame, h.audio, h.cmd, h.errCode, h.errPos, hp]

theorem runs_of_flagsAgree {s : State} (h : s.flagsAgree) (hp : s.phase ≠ .idle) : Runs s := by
  obtain ⟨hbusy, hrun, hdone, hframe, haudio, hnoerr, -⟩ := h
  obtain ⟨hcmd, herr⟩ := hrun hp
  have hb : s.status.busy = true := by simp [hbusy, State.running, hp]
  have hd : s.status.done = false := by
    by_contra hd
    simp [(hdone (by simpa using hd)).1] at hb
  refine ⟨hb, hd, herr, ?_, ?_, hcmd, (hnoerr herr).1, (hnoerr herr).2⟩
  · by_contra hf
    simp [(hframe (by simpa using hf)).1] at hd
  · by_contra ha
    simp [haudio (by simpa using ha)] at hd

theorem Works.runs {b s : State} (h : Works b s) (hb : Runs b) : Runs s :=
  ⟨by rw [h.status, hb.busy], by rw [h.status, hb.done], by rw [h.status, hb.err], by rw [h.status, hb.frame],
    by rw [h.status, hb.audio], by rw [h.cmd, hb.cmd], by rw [h.errCode, hb.errCode], by rw [h.errPos, hb.errPos]⟩

/-- The fault registers agree with ERR (10 R43, R44). -/
def FaultRegs (s : State) : Prop :=
  (s.status.err = false → s.errCode = 0 ∧ s.errPos = 0) ∧
  (s.status.err = true → s.errCode ∈ raisedKinds.map Kind.code)

theorem State.flagsAgree.faultRegs {s : State} (h : s.flagsAgree) : FaultRegs s := h.2.2.2.2.2

theorem flagsAgree_raiseFault {s : State} {kind : Kind} (h : FaultRegs s) (hk : kind ∈ raisedKinds) :
    (raiseFault s kind).flagsAgree := by
  have hcode : (raiseFault s kind).errCode ∈ raisedKinds.map Kind.code := by
    rw [raiseFault_errCode]
    split
    · next herr => exact h.2 herr
    · exact List.mem_map_of_mem hk
  refine ⟨by simp [State.running], by simp, by simp, by simp, by simp, by simp, fun _ => hcode⟩

/-- An ended command: idle, DONE, at most one result flag, no fault. -/
theorem flagsAgree_of_ended {t : State} (hp : t.phase = .idle) (hcmd : t.cmd = none) (hb : t.status.busy = false)
    (hd : t.status.done = true) (herr : t.status.err = false) (hfa : t.status.frame = true → t.status.audio = false)
    (hcode : t.errCode = 0) (hpos : t.errPos = 0) : t.flagsAgree := by
  simp [State.flagsAgree, State.running, hp, hcmd, hb, hd, herr, hcode, hpos]
  exact hfa

theorem flagsAgree_of_ends {i : Instr} {u t : State} (hu : Runs u) (h : Ends i u t) : t.flagsAgree := by
  have key : ∀ t : State, t.phase = .idle → t.cmd = u.cmd → t.status.busy = false → t.status.done = true →
      t.status.err = u.status.err → (t.status.frame = u.status.frame ∨ t.status.audio = u.status.audio) →
      t.errCode = u.errCode → t.errPos = u.errPos → t.flagsAgree := by
    intro t h1 h2 h3 h4 h5 h6 h7 h8
    refine flagsAgree_of_ended h1 (h2.trans hu.cmd) h3 h4 (h5.trans hu.err) (fun hf => ?_) (h7.trans hu.errCode)
      (h8.trans hu.errPos)
    rcases h6 with h6 | h6
    · rw [h6, hu.frame] at hf
      cases hf
    · exact h6.trans hu.audio
  cases i
  case hufBuild => obtain ⟨hist, rfl⟩ := h; apply key <;> simp [buildTrees]
  case palLoad => obtain ⟨p, rfl⟩ := h; apply key <;> simp
  case vqSeed => cases h; apply key <;> simp
  case roqCodebook => obtain ⟨n1, n2, bs, -, -, rfl⟩ := h; apply key <;> simp [loadCodebook]
  case cinVideo | cinPalvideo | hufStep0 | hufStep1 => obtain ⟨bs, rfl⟩ := h; apply key <;> simp
  case mot8 | fcc8 | sld8 | ccc8 | mot4 | fcc4 | sld4 | ccc4 => obtain ⟨bs, rfl⟩ := h; apply key <;> simp
  case roqSndMono | roqSndStereo | dpcmPos | dpcmNeg => cases h; apply key <;> simp [finishSound]
  all_goals cases h
  all_goals apply key <;> simp

theorem goesTo_ne_idle {i : Instr} {p q : Phase} (h : q ∈ goesTo i p) (hp : i.format ≠ .hostcmd → p ≠ .idle) :
    q ≠ .idle := by
  rintro rfl
  cases i <;> simp_all [goesTo, Instr.format]

theorem formatOf_eq_hostcmd_iff (p : Phase) : formatOf p = .hostcmd ↔ p = .idle := by
  cases p <;> simp [formatOf]

/-- Settles O57: a command runs with the flags of its start, and its end or its fault sets them together. -/
theorem stepKeepsFlagsInAgreement : Obligations.StepKeepsFlagsInAgreement := by
  intro s t hs h
  have hregs := hs.faultRegs
  rcases step_next_cases h with rfl | ⟨u, kind, hu | rfl, hk, rfl⟩ | ⟨i, hf, hexec⟩
  · exact hs
  · refine flagsAgree_raiseFault ?_ hk
    rw [FaultRegs, hu.status, hu.errCode, hu.errPos]
    exact hregs
  · exact flagsAgree_raiseFault hregs hk
  by_cases hrst : i = .rst
  · subst hrst
    cases hexec
    exact flagsAgree_of_ended rfl rfl rfl rfl rfl (fun _ => rfl) rfl rfl
  by_cases hclr : i = .clrerr
  · subst hclr
    cases hexec
    exact flagsAgree_of_ended rfl rfl rfl rfl rfl (fun _ => rfl) rfl rfl
  obtain ⟨b, hb, hways⟩ := exec_cases hexec hrst hclr
  have hbregs : FaultRegs b := by
    rcases begins_cases hb with ⟨p, -, -, rfl⟩ | ⟨built, -, -, -, rfl⟩ <;> exact hregs
  have hruns : (i.format = .hostcmd → s.status.err = false) → Runs b := by
    intro herr
    rcases begins_cases hb with ⟨p, -, hhost, rfl⟩ | ⟨built, -, -, hhost, rfl⟩
    · have := runs_of_flagsAgree hs fun hp => hhost (hf.trans (by rw [hp]; rfl))
      exact { this with }
    · obtain ⟨hcode, hpos⟩ := hregs.1 (herr hhost)
      exact ⟨rfl, rfl, herr hhost, rfl, rfl, rfl, hcode, hpos⟩
  have hphase : i.format ≠ .hostcmd → b.phase ≠ .idle := by
    intro hhost
    rcases begins_cases hb with ⟨p, -, -, rfl⟩ | ⟨built, -, -, hhost', rfl⟩
    · exact fun hp => hhost (hf.trans ((formatOf_eq_hostcmd_iff _).2 hp))
    · exact absurd hhost' hhost
  rcases hways with ⟨u, kind, hu, hk, rfl⟩ | ⟨herr, ⟨ht, hp⟩ | ⟨u, hu, ht⟩⟩
  · refine flagsAgree_raiseFault ?_ (kindsOf_subset _ hk)
    rw [FaultRegs, hu.status, hu.errCode, hu.errPos]
    exact hbregs
  · exact flagsAgree_of_runs (ht.runs (hruns herr)) (goesTo_ne_idle hp hphase)
  · exact flagsAgree_of_ends (hu.runs (hruns herr)) ht

end Sys2Proof.Machine
end

section
/-! The trees: the picks (41 R172, R173), HUF.BUILD (41 R170 to R176), and the walks on whole trees (41 R178 to R181). -/

namespace Sys2Proof.Machine

/-! ### Picks and passes -/

/-- A pass changes no count but the new node's. -/
theorem count_combine_of_ne (b : BuildState) (i j : Nat) {m : Nat} (hm : m ≠ b.hn.toNat) :
    (combine b i j).count m = b.count m := by
  by_cases hn : b.hn.toNat < 512
  · exact (count_add b _ _ _ hn _ _).trans (if_neg hm)
  · simp only [combine, BuildState.count, Vector.setIfInBounds_eq_of_size_le (Nat.not_lt.1 hn)]

/-- Settles O17: the picks are `pick_eq_none_iff` and `pick_eq_some`; a pass is one unfolding of the loop. -/
theorem pickTakesTheLowestCount : Obligations.PickTakesTheLowestCount := by
  intro b hb candidate
  refine ⟨?none, fun i b' h => ?some, fun fuel h => ?ends, fun fuel i b1 h1 h2 => ?endsAfterOne,
    fun fuel i j b1 b2 h1 h2 => ?pass⟩
  case none =>
    rw [pick_eq_none_iff b hb]
    exact forall_congr' fun i => by simp only [candidate]; tauto
  case some =>
    obtain ⟨hi, hleast, hb'⟩ := pick_eq_some b b' hb i h
    exact ⟨hi, fun j hj => hleast j hj.1 hj.2.1 hj.2.2, hb'⟩
  case ends => rw [combineAll, h]
  case endsAfterOne => rw [combineAll, h1]; simp only [h2]
  case pass =>
    obtain ⟨-, -, rfl⟩ := pick_eq_some b b1 hb i h1
    obtain ⟨-, -, rfl⟩ := pick_eq_some { b with hused := b.hused.setIfInBounds i true } b2 hb j h2
    refine ⟨combine { b with hused := (b.hused.setIfInBounds i true).setIfInBounds j true } i j, ?_, rfl, fun hn => ?_,
      fun m hm => count_combine_of_ne _ i j hm, rfl, rfl⟩
    · rw [combineAll, h1]
      dsimp only
      rw [h2]
    · exact (count_add { b with hused := _ } _ _ _ hn _ _).trans (if_pos rfl)

/-! ### HUF.BUILD -/

theorem length_filter_contextCounts (hist : List Byte) (c : Byte) :
    ((List.range 256).filter fun t => decide ((contextCounts hist c.toNat).getD t 0 ≠ 0)).length =
      nonzeroTokens hist c := by
  rw [nonzeroTokens]
  congr 1
  refine List.filter_congr fun t ht => ?_
  rw [getD_contextCounts hist c.toNat t (List.mem_range.1 ht)]

/-- What the loop leaves of one context's counts (41 R175, R176). -/
theorem buildContext_spec (hist : List Byte) (c : Byte) :
    let b := buildContext (contextCounts hist c.toNat)
    TreeSoFar b ∧ b.hn.toNat = (if 1 ≤ nonzeroTokens hist c then 255 + nonzeroTokens hist c else 256) ∧
      ∀ t < 256, b.weight t = (hist.getD (c.toNat * 256 + t) 0).toNat := by
  have hI := initContext_invariant (contextCounts hist c.toNat)
  rw [length_filter_contextCounts] at hI
  have hcard : (initContext (contextCounts hist c.toNat)).free.card ≤ 256 + 1 := by
    have := hI.2.2.2.2.2.1
    rw [card_free_initContext, length_filter_contextCounts]
    omega
  obtain ⟨htree, hn, hcount⟩ := combineAll_builds _ 256 _ hI hcard
  refine ⟨htree, hn, fun t ht => ?_⟩
  show ((combineAll 256 (initContext _)).count t).toNat = _
  rw [hcount t ht, count_initContext, if_pos ht, getD_contextCounts _ _ _ ht]

theorem entry_map_ofFn {α β : Type} (f : Fin 256 → α) (g : α → β) (c : Byte) :
    entry ((Vector.ofFn f).map g) c = g (f c.toFin) := by
  simp [entry]

theorem entry_buildTrees_root (hist : List Byte) (s : State) (c : Byte) :
    entry (buildTrees hist s).root c = (buildContext (contextCounts hist c.toNat)).root := entry_map_ofFn ..

theorem entry_buildTrees_child (hist : List Byte) (s : State) (c : Byte) :
    entry (buildTrees hist s).child c = (buildContext (contextCounts hist c.toNat)).table := entry_map_ofFn ..

/-- The root is the last node made (41 R174). -/
theorem root_toNat {b : BuildState} (h : TreeSoFar b) : b.root.toNat = b.hn.toNat - 1 := by
  obtain ⟨h1, h2, -⟩ := h
  rw [BuildState.root, BitVec.toNat_ofNat]
  omega

/-- HUF.BUILD's trees are whole (41 R176). -/
theorem treeWhole_buildTrees (hist : List Byte) (s : State) (c : Byte) :
    treeWhole (entry (buildTrees hist s).root c) (entry (buildTrees hist s).child c) := by
  rw [entry_buildTrees_root, entry_buildTrees_child]
  obtain ⟨htree, -, -⟩ := buildContext_spec hist c
  intro n hn hroot
  rw [root_toNat htree] at hroot
  obtain ⟨h1, -, -, -, -, hnodes⟩ := htree
  obtain ⟨a, b, ha, hb, hal, hbl, -⟩ := hnodes n hn (by omega)
  exact ⟨a, b, ha, hb, hal, hbl⟩

/-- HUF.BUILD on a whole histogram (41 R170). -/
theorem execHufBuild_of_hist {s : State} {hist : List Byte} (herr : s.status.err = false)
    (hlen : 65536 ≤ s.inLen.toNat) (hr : s.inp.readRun 0 65536 = some hist) :
    execHufBuild s = .next (finishCommand { buildTrees hist s with
      cmd := none, phase := .idle, pcm := [], pcmLen := 0, pos := 65536, consumed := 65536
      status := { s.status.start with built := true } }) := by
  rw [execHufBuild, admission_of_noErr s herr, ok_bind]
  dsimp only
  rw [if_neg (by rw [State.short_iff]; simpa using hlen)]
  rw [readIn, show (startCommand s).inp = s.inp from rfl, hr, known_some, ok_bind, conclude_ok]
  simp [buildTrees, startCommand, finishCommand, State.advance, Status.finish, Status.start]

/-- A histogram cut short (41 R170): BUILT is cleared, nothing else of the tables. -/
theorem execHufBuild_of_short {s : State} (herr : s.status.err = false) (hlen : s.inLen.toNat < 65536) :
    execHufBuild s = .next
      (raiseFault { startCommand s with status := { s.status.start with built := false } } .truncated) := by
  rw [execHufBuild, admission_of_noErr s herr, ok_bind]
  dsimp only
  rw [if_pos (by rw [State.short_iff]; simpa using hlen)]
  rfl

/-- Settles O18, context by context from `buildContext_spec`. -/
theorem hufBuildMakesWholeTrees : Obligations.HufBuildMakesWholeTrees := by
  intro s herr
  refine ⟨fun hlen => ?short, fun hist hlen hr => ⟨_, execHufBuild_of_hist herr hlen hr, fun c => ?tree, ?frame⟩⟩
  case short =>
    refine ⟨_, execHufBuild_of_short herr hlen, ?_⟩
    simp [herr, forgetOutputs, Kind.code, Status.fail, Status.start]
  case frame => simp only [buildTrees, finishCommand, Status.finish]
  case tree =>
    obtain ⟨htree, hn, hcount⟩ := buildContext_spec hist c
    have hroot := root_toNat htree
    have hr' := entry_buildTrees_root hist s c
    have hc' := entry_buildTrees_child hist s c
    dsimp only
    simp only [finishCommand_root, finishCommand_child]
    rw [hr', hc']
    obtain ⟨h256, h511, hlength, hnodup, hbeyond, hnodes⟩ := htree
    generalize buildContext (contextCounts hist c.toNat) = b at *
    generalize nonzeroTokens hist c = z at *
    have leaf : ∀ t < 256, b.weight t ≠ 0 → hist.getD (c.toNat * 256 + t) 0 ≠ 0 := by
      intro t ht hw h0
      rw [hcount t ht, h0] at hw
      exact hw rfl
    refine ⟨?_, ?_, hnodup, ⟨b.weight, hcount, fun n h1 h2 => ?_⟩, fun n bit h1 h2 => hbeyond n bit h1 ?_⟩
    · split at hn <;> split <;> omega
    · split at hn <;> omega
    · obtain ⟨x, y, hx, hy, hxn, hyn, hx0, hy0, hsum, hlight, hfirst⟩ := hnodes n h1 (by split at hn <;> omega)
      exact ⟨x, y, hx, hy, hxn, hyn, fun h => leaf _ h hx0, fun h => leaf _ h hy0, hsum, hlight, hfirst⟩
    · split at hn <;> omega

/-! ### Walks on whole trees -/

/-- A walk that goes on stands on an internal node of the tree of its context. -/
def OnTree (t : State) : Prop :=
  t.phase ≠ .idle → 256 ≤ t.node.toNat ∧ t.node.toNat ≤ (entry t.root t.ctx).toNat

theorem startPixels_onTree (n : Nat) (s : State) : Meets True OnTree (fun _ _ => True) (startPixels n s) := by
  induction n generalizing s with
  | zero =>
    refine meets_bind (P' := fun _ => True) (meets_known (fun _ _ => trivial) fun _ => trivial) fun is _ => ?_
    exact meets_ok fun h => absurd rfl h
  | succ n ih =>
    unfold startPixels
    dsimp only
    split
    · next hroot => exact meets_ok fun _ => ⟨hroot, Nat.le_refl _⟩
    · split
      · exact meets_raise trivial
      · exact ih _

theorem cinBody_onTree (s : State) : Meets True OnTree (fun _ _ => True) (cinBody s) := by
  have field : ∀ s, Meets True (fun _ : Word × State => True) (fun _ _ => True) (readField32 s) := fun s =>
    meets_of_eqs (fun _ _ => trivial) fun _ _ _ => trivial
  refine meets_bind (field s) fun x _ => meets_bind (field _) fun y _ => ?_
  dsimp only
  (repeat' split) <;> try exact meets_raise trivial
  unfold huffmanFrame
  split
  · exact meets_raise trivial
  · exact startPixels_onTree _ _

theorem cinPalvideo_onTree (s : State) : Concludes True OnTree (fun _ _ => True) (execCinPalvideo s) :=
  concludes_of_meets (meets_bind (P' := fun _ => True) (meets_of_eqs (fun _ _ => trivial) fun _ _ _ => trivial)
    fun t _ => cinBody_onTree t)

/-- A consumed bit has a child on a whole tree, and following it stays on the tree (41 R176, R181). -/
theorem childOf_of_treesOk {s : State} (h : s.treesOk) (hp : s.phase = .huffman) (bit : Bool) :
    ∃ e, s.childOf bit = some e ∧ e.toNat < s.node.toNat := by
  obtain ⟨hwhole, -, hwalk⟩ := h
  obtain ⟨hbuilt, h256, hroot⟩ := hwalk hp
  obtain ⟨x, y, hx, hy, hxn, hyn⟩ := hwhole hbuilt s.ctx _ h256 hroot
  have hin : ¬ s.node.toNat < 256 := Nat.not_lt.2 h256
  cases bit
  · exact ⟨x, by rw [State.childOf, if_neg hin, hx], hxn⟩
  · exact ⟨y, by rw [State.childOf, if_neg hin, hy], hyn⟩

/-- Taking a bit moves nothing of the walk. -/
theorem nextBit_treesOk {s u : State} {bit : Bool} (h : s.treesOk) (hb : nextBit s = .ok (bit, u)) : u.treesOk := by
  rw [nextBit_frame s u bit hb]
  exact h

theorem hufStep_onTree {s : State} (h : s.treesOk) (hp : s.phase = .huffman) (bit : Bool) :
    Concludes True OnTree (fun _ _ => True) (conclude (hufStep bit s)) := by
  refine concludes_of_meets (meets_bind (P' := fun x => nextBit s = .ok x)
    (meets_of_eqs (fun _ hx => hx) fun _ _ _ => trivial) ?_)
  rintro ⟨b, u⟩ hb
  have hu := nextBit_treesOk h hb
  have hup : u.phase = .huffman := (nextBit_phase hb).trans hp
  obtain ⟨e, he, hlt⟩ := childOf_of_treesOk hu hup bit
  obtain ⟨-, -, hroot⟩ := hu.2.2 hup
  simp only [he]
  split
  · next h256 => exact meets_ok fun _ => ⟨h256, show e.toNat ≤ (entry u.root u.ctx).toNat by omega⟩
  · exact startPixels_onTree _ _

/-- The record of a CIN.REC that goes on was admitted with BUILT (40 R141). -/
theorem execCinRec_built (s : State) :
    Concludes True (fun t => t.status.built = true) (fun _ _ => True) (execCinRec s) := by
  refine concludes_of_meets (meets_bind (P' := fun _ => True) (meets_of_eqs (fun _ _ => trivial) fun _ _ _ => trivial)
    fun t _ => ?_)
  split
  · exact meets_raise trivial
  · next hbuilt =>
    split
    · exact meets_raise trivial
    · dsimp only
      split
      · exact meets_raise trivial
      · exact meets_ok (by simpa using hbuilt)

/-- A step that leaves the block waiting has not faulted. -/
theorem of_concludes_waiting {P : State → Prop} {Q : State → Kind → Prop} {o : Host.Outcome State Fault Refusal}
    {t : State} (h : Concludes True P Q o) (ho : o = .next t) (hp : t.phase ≠ .idle) : P t := by
  subst ho
  rcases h with h | ⟨u, kind, -, rfl⟩
  · exact h
  · simp at hp

/-- BUILT vouches for the trees. -/
def TreesWhole (s : State) : Prop := s.status.built = true → ∀ c, treeWhole (entry s.root c) (entry s.child c)

theorem Owned.treesWhole {i : Instr} {s t : State} (h : Owned i s t) (hi : i ≠ .hufBuild) (hs : TreesWhole s) :
    TreesWhole t := by
  rw [TreesWhole, h.built hi, (h.trees hi).1, (h.trees hi).2]
  exact hs

/-- A step into `idle` asks nothing of the walk. -/
theorem treesOk_of_idle {t : State} (h : TreesWhole t) (hp : t.phase = .idle) : t.treesOk :=
  ⟨h, by simp [hp], by simp [hp]⟩

theorem treesWhole_of_exec {i : Instr} {s t : State} (hs : TreesWhole s) (h : exec i s = .next t) : TreesWhole t := by
  by_cases hrst : i = .rst
  · subst hrst
    cases h
    intro hb
    cases hb
  by_cases hclr : i = .clrerr
  · subst hclr
    cases h
    exact hs
  by_cases hbuild : i = .hufBuild
  · subst hbuild
    obtain ⟨b, ⟨built, hbuilt, rfl⟩, ⟨u, kind, hu, -, rfl⟩ | ⟨-, ⟨-, hp⟩ | ⟨u, hu, ht⟩⟩⟩ := exec_cases h hrst hclr
    · intro hb
      rw [raiseFault_status, Status.fail_built, hu.status] at hb
      rw [raiseFault_root, raiseFault_child, hu.root, hu.child]
      exact hs (hbuilt hb)
    · simp [goesTo] at hp
    · obtain ⟨hist, rfl⟩ := ht
      exact fun _ c => treeWhole_buildTrees hist u c
  · exact (exec_owned h hrst hclr).treesWhole hbuild hs

theorem ends_idle {i : Instr} {u t : State} (h : Ends i u t) : t.phase = .idle := by
  cases i
  case hufBuild => obtain ⟨hist, rfl⟩ := h; simp
  case palLoad => obtain ⟨p, rfl⟩ := h; simp
  case vqSeed => cases h; simp
  case roqCodebook => obtain ⟨n1, n2, bs, -, -, rfl⟩ := h; simp
  case cinVideo | cinPalvideo | hufStep0 | hufStep1 => obtain ⟨bs, rfl⟩ := h; rfl
  case mot8 | fcc8 | sld8 | ccc8 | mot4 | fcc4 | sld4 | ccc4 => obtain ⟨bs, rfl⟩ := h; rfl
  case roqSndMono | roqSndStereo | dpcmPos | dpcmNeg => cases h; rfl
  all_goals cases h
  all_goals rfl

/-- The phases an instruction leaves the block waiting in. -/
theorem phase_mem_goesTo {i : Instr} {s t : State} (h : exec i s = .next t) (hp : t.phase ≠ .idle) :
    t.phase ∈ goesTo i s.phase := by
  by_cases hrst : i = .rst
  · subst hrst
    cases h
    exact absurd rfl hp
  by_cases hclr : i = .clrerr
  · subst hclr
    cases h
    exact absurd rfl hp
  obtain ⟨b, hb, ⟨u, kind, hu, -, rfl⟩ | ⟨-, ⟨-, ht⟩ | ⟨u, hu, ht⟩⟩⟩ := exec_cases h hrst hclr
  · exact absurd (raiseFault_phase ..) hp
  · rcases begins_cases hb with ⟨p, -, -, rfl⟩ | ⟨built, -, -, hhost, rfl⟩
    · exact ht
    · cases i <;> first | exact ht | simp [Instr.format] at hhost
  · exact absurd (ends_idle ht) hp

/-- Only CIN.REC leads to a CIN record. -/
theorem eq_cinRec_of_goesTo {i : Instr} {p : Phase} (h : Phase.cinRecord ∈ goesTo i p) (hf : i.format = formatOf p) :
    i = .cinRec := by
  cases i
  case cinRec => rfl
  case dpcmPos | dpcmNeg | hufStep0 | hufStep1 =>
    obtain rfl : Phase.cinRecord = p := by simpa [goesTo] using h
    cases hf
  all_goals simp [goesTo] at h

/-- Only the CIN records and the bits lead to a Huffman bit. -/
theorem huffman_of_goesTo {i : Instr} {p : Phase} (h : Phase.huffman ∈ goesTo i p) (hf : i.format = formatOf p) :
    i = .cinVideo ∨ i = .cinPalvideo ∨ i = .hufStep0 ∨ i = .hufStep1 := by
  cases i
  case cinVideo | cinPalvideo | hufStep0 | hufStep1 => simp
  case dpcmPos | dpcmNeg =>
    obtain rfl : Phase.huffman = p := by simpa [goesTo] using h
    cases hf
  all_goals simp [goesTo] at h

theorem phase_of_formatOf_cinrec {p : Phase} (h : .cinrec = formatOf p) : p = .cinRecord := by
  cases p <;> first | rfl | cases h

theorem phase_of_formatOf_hbit {p : Phase} (h : .hbit = formatOf p) : p = .huffman := by
  cases p <;> first | rfl | cases h

/-- Settles O29: the trees change only by HUF.BUILD and RST, and a walk starts at a root and follows children. -/
theorem walksStayOnWholeTrees : Obligations.WalksStayOnWholeTrees := by
  intro s hs
  refine ⟨fun t h => ?step, fun u bit b hp hb => ?child⟩
  case child =>
    obtain ⟨e, he, -⟩ := childOf_of_treesOk (nextBit_treesOk hs hb) ((nextBit_phase hb).trans hp) b
    simp [he]
  case step =>
    obtain ⟨hwhole, hrec, hwalk⟩ := hs
    rcases step_next_cases h with rfl | ⟨u, kind, hu | rfl, -, rfl⟩ | ⟨i, hf, hexec⟩
    · exact ⟨hwhole, hrec, hwalk⟩
    · refine treesOk_of_idle ?_ (raiseFault_phase ..)
      exact ((hu.owned (i := .rst)).trans (raiseFault_owned u kind)).treesWhole (by simp) hwhole
    · refine treesOk_of_idle ?_ (raiseFault_phase ..)
      exact (raiseFault_owned (i := .rst) (startCommand s) kind).treesWhole (by simp) hwhole
    refine ⟨treesWhole_of_exec hwhole hexec, fun hp => ?record, fun hp => ?walk⟩
    case record =>
      have hgoes := phase_mem_goesTo hexec (by simp [hp])
      obtain rfl := eq_cinRec_of_goesTo (hp ▸ hgoes) hf
      exact of_concludes_waiting (execCinRec_built s) hexec (by simp [hp])
    case walk =>
      have hgoes := phase_mem_goesTo hexec (by simp [hp])
      have hidle : t.phase ≠ .idle := by simp [hp]
      rcases huffman_of_goesTo (hp ▸ hgoes) hf with rfl | rfl | rfl | rfl
      · have hbuilt := ((exec_owned hexec (by simp)
          (by simp)).built (by simp)).trans (hrec (phase_of_formatOf_cinrec hf))
        exact ⟨hbuilt, of_concludes_waiting (concludes_of_meets (cinBody_onTree _)) hexec hidle hidle⟩
      · have hbuilt := ((exec_owned hexec (by simp)
          (by simp)).built (by simp)).trans (hrec (phase_of_formatOf_cinrec hf))
        exact ⟨hbuilt, of_concludes_waiting (cinPalvideo_onTree s) hexec hidle hidle⟩
      all_goals
        have hp' := phase_of_formatOf_hbit hf
        have hbuilt := ((exec_owned hexec (by simp) (by simp)).built (by simp)).trans (hwalk hp').1
      · exact ⟨hbuilt, of_concludes_waiting (hufStep_onTree ⟨hwhole, hrec, hwalk⟩ hp' false) hexec hidle hidle⟩
      · exact ⟨hbuilt, of_concludes_waiting (hufStep_onTree ⟨hwhole, hrec, hwalk⟩ hp' true) hexec hidle hidle⟩

end Sys2Proof.Machine
end

section
/-! Two runs that differ only in the colours (70 R337, 20 R74): a relation between runs, with a rule per way of composing
them, and one lemma per operation. -/

namespace Sys2Proof.Machine

/-- `s` with another palette and another image. -/
def paint (p : Vector Rgb 256) (m : Memory) (s : State) : State := { s with pal := p, rgba := m }

/-- `t` is `s` painted over. -/
def Painted (s t : State) : Prop := ∃ p m, t = paint p m s

theorem painted_iff (s t : State) : Painted s t ↔ sameButColours s t := by
  constructor
  · rintro ⟨p, m, rfl⟩
    rfl
  · exact fun h => ⟨t.pal, t.rgba, h⟩

theorem setCurrent_paint (p : Vector Rgb 256) (m : Memory) (s : State) (q : Planes) :
    (paint p m s).setCurrent q = paint p m (s.setCurrent q) := by
  unfold State.setCurrent
  cases hpp : s.pp <;> simp [paint, hpp]

theorem setLast_paint (p : Vector Rgb 256) (m : Memory) (s : State) (q : Planes) :
    (paint p m s).setLast q = paint p m (s.setLast q) := by
  unfold State.setLast
  cases hpp : s.pp <;> simp [paint, hpp]

/-- Fault entry never looks at a colour. -/
theorem painted_raiseFault {s t : State} (h : Painted s t) (kind : Kind) : Painted (raiseFault s kind)
    (raiseFault t kind) := by
  obtain ⟨p, m, rfl⟩ := h
  have hforget : Painted (forgetOutputs s) (forgetOutputs (paint p m s)) := by
    unfold forgetOutputs
    rw [show (paint p m s).phase = s.phase from rfl, setCurrent_paint]
    split
    · exact ⟨p, [], rfl⟩
    · exact ⟨p, [], rfl⟩
    · exact ⟨p, [], rfl⟩
    · exact ⟨p, [], rfl⟩
    · exact ⟨p, m, rfl⟩
    all_goals exact ⟨p, m, rfl⟩
  obtain ⟨p', m', h'⟩ := hforget
  refine ⟨p', m', ?_⟩
  unfold raiseFault
  rw [h']
  rfl

/-- Two runs do the same, up to `R` on their results and up to colours on the states of their faults. -/
def Alike {α : Type} (R : α → α → Prop) : Run α → Run α → Prop
  | .ok a, .ok b => R a b
  | .error (.raised u kind), .error (.raised v kind') => Painted u v ∧ kind = kind'
  | .error (.stuck f), .error (.stuck f') => f = f'
  | _, _ => False

section
variable {α β : Type} {R : α → α → Prop} {s t : State}

theorem alike_ok {a b : α} (h : R a b) : Alike R (.ok a) (.ok b) := h

theorem alike_raise (h : Painted s t) (kind : Kind) : Alike R (raise s kind) (raise t kind) := ⟨h, rfl⟩

theorem alike_refl_known {sp : Space} {base len : Nat} {o : Option α} :
    Alike (fun a b => a = b) (known sp base len o) (known sp base len o) := by
  cases o <;> rfl

theorem alike_ite {c : Prop} [Decidable c] {r1 r1' r2 r2' : Run α} (h1 : c → Alike R r1 r1') (h2 : ¬ c → Alike R r2 r2') :
    Alike R (if c then r1 else r2) (if c then r1' else r2') := by
  split
  · exact h1 ‹_›
  · exact h2 ‹_›

theorem alike_bind {S : β → β → Prop} {x y : Run β} {f g : β → Run α} (hx : Alike S x y)
    (hf : ∀ a b, S a b → Alike R (f a) (g b)) : Alike R (x >>= f) (y >>= g) := by
  rcases x with (⟨u, kind⟩ | fault) | a <;> rcases y with (⟨v, kind'⟩ | fault') | b
  · exact hx
  · exact hx.elim
  · exact hx.elim
  · exact hx.elim
  · exact hx
  · exact hx.elim
  · exact hx.elim
  · exact hx.elim
  · exact hf a b hx

end

/-- Results of the operand reads: the same operand, states alike. -/
def SameOperand {α : Type} (x y : α × State) : Prop := x.1 = y.1 ∧ Painted x.2 y.2

section
variable {s t : State}

theorem Painted.refl (s : State) : Painted s s := ⟨s.pal, s.rgba, rfl⟩

theorem nextByte_alike (h : Painted s t) : Alike SameOperand (nextByte s) (nextByte t) := by
  obtain ⟨p, m, rfl⟩ := h
  refine alike_ite (fun _ => alike_raise ⟨p, m, rfl⟩ _) fun _ => alike_bind alike_refl_known ?_
  rintro v _ rfl
  exact alike_ok ⟨rfl, p, m, rfl⟩

theorem nextBit_alike (h : Painted s t) : Alike SameOperand (nextBit s) (nextBit t) := by
  have refilled : Alike Painted (refillBits s) (refillBits t) := by
    have hbyte := nextByte_alike h
    obtain ⟨p, m, rfl⟩ := h
    refine alike_ite (fun _ => alike_bind hbyte ?_) fun _ => alike_ok ⟨p, m, rfl⟩
    rintro ⟨v, u⟩ ⟨_, _⟩ ⟨rfl, p', m', rfl⟩
    exact alike_ok ⟨p', m', rfl⟩
  refine alike_bind refilled ?_
  rintro u _ ⟨p, m, rfl⟩
  exact alike_ok ⟨rfl, p, m, rfl⟩

theorem nextId_alike (h : Painted s t) : Alike SameOperand (nextId s) (nextId t) := by
  have refilled : Alike Painted (refillFlag s) (refillFlag t) := by
    have hbyte := nextByte_alike h
    obtain ⟨p, m, rfl⟩ := h
    refine alike_ite (fun _ => alike_bind hbyte ?_) fun _ => alike_ok ⟨p, m, rfl⟩
    rintro ⟨lo, u⟩ ⟨_, _⟩ ⟨rfl, hu⟩
    refine alike_bind (nextByte_alike hu) ?_
    rintro ⟨hi, w⟩ ⟨_, _⟩ ⟨rfl, p', m', rfl⟩
    exact alike_ok ⟨p', m', rfl⟩
  refine alike_bind refilled ?_
  rintro u _ ⟨p, m, rfl⟩
  refine alike_ok ?_
  unfold takeId
  rw [show (paint p m u).params = u.params from rfl]
  split
  · exact ⟨rfl, p, m, rfl⟩
  · exact ⟨rfl, p, m, rfl⟩

theorem readField32_alike (h : Painted s t) : Alike SameOperand (readField32 s) (readField32 t) := by
  obtain ⟨p, m, rfl⟩ := h
  refine alike_ite (fun _ => alike_raise ⟨p, m, rfl⟩ _) fun _ => alike_bind alike_refl_known ?_
  rintro bs _ rfl
  exact alike_ok ⟨rfl, p, m, rfl⟩

/-- A command starts, or is refused, alike. -/
theorem admission_alike (h : Painted s t) : Alike Painted (admission s) (admission t) := by
  obtain ⟨p, m, rfl⟩ := h
  exact alike_ite (fun _ => alike_raise ⟨p, m, rfl⟩ _) fun _ => alike_ok ⟨p, m, rfl⟩

/-! ### CIN -/

theorem finishCinFrame_alike (h : Painted s t) : Alike Painted (finishCinFrame s) (finishCinFrame t) := by
  obtain ⟨p, m, rfl⟩ := h
  refine alike_bind alike_refl_known ?_
  rintro is _ rfl
  exact alike_ok ⟨p, _, rfl⟩

theorem startPixels_alike (n : Nat) : ∀ {s t : State}, Painted s t → Alike Painted (startPixels n s) (startPixels n t) := by
  induction n with
  | zero => exact finishCinFrame_alike
  | succ n ih =>
    rintro s _ ⟨p, m, rfl⟩
    refine alike_ite (fun _ => alike_ok ⟨p, m, rfl⟩) fun _ => ?_
    dsimp only
    rw [show (paint p m s).params = s.params from rfl]
    split
    · exact alike_raise ⟨p, m, rfl⟩ _
    · exact ih ⟨p, m, rfl⟩

theorem huffmanFrame_alike (h : Painted s t) : Alike Painted (huffmanFrame s) (huffmanFrame t) := by
  obtain ⟨p, m, rfl⟩ := h
  exact alike_ite (fun _ => alike_raise ⟨p, m, rfl⟩ _) fun _ => startPixels_alike _ ⟨p, m, rfl⟩

theorem hufStep_alike (bit : Bool) (h : Painted s t) : Alike Painted (hufStep bit s) (hufStep bit t) := by
  refine alike_bind (nextBit_alike h) ?_
  rintro ⟨b, u⟩ ⟨_, _⟩ ⟨rfl, p, m, rfl⟩
  dsimp only
  rw [show (paint p m u).childOf bit = u.childOf bit from rfl]
  split
  · exact alike_raise ⟨p, m, rfl⟩ _
  · exact alike_ite (fun _ => alike_ok ⟨p, m, rfl⟩) fun _ => startPixels_alike _ ⟨p, m, rfl⟩

theorem cinBody_alike (h : Painted s t) : Alike Painted (cinBody s) (cinBody t) := by
  refine alike_bind (readField32_alike h) ?_
  rintro ⟨size, s1⟩ ⟨_, _⟩ ⟨rfl, p, m, rfl⟩
  refine alike_bind (readField32_alike (s := { s1 with chunkSize := size }) ⟨p, m, rfl⟩) ?_
  rintro ⟨decoded, s2⟩ ⟨_, _⟩ ⟨rfl, p', m', rfl⟩
  exact alike_ite (fun _ => alike_raise ⟨p', m', rfl⟩ _) fun _ => alike_ite (fun _ => alike_raise ⟨p', m', rfl⟩ _)
    fun _ => alike_ite (fun _ => alike_raise ⟨p', m', rfl⟩ _) fun _ => huffmanFrame_alike ⟨p', m', rfl⟩

theorem cinPalette_alike (h : Painted s t) : Alike Painted (cinPalette s) (cinPalette t) := by
  obtain ⟨p, m, rfl⟩ := h
  refine alike_ite (fun _ => alike_raise ⟨p, m, rfl⟩ _) fun _ => alike_bind alike_refl_known ?_
  rintro bs _ rfl
  exact alike_ok ⟨paletteOf bs, m, rfl⟩

/-! ### RoQ chunks -/

theorem enterChunk_alike (type : Half) (size : Word) (arg : Half) (h : Painted s t) :
    Alike Painted (enterChunk type size arg s) (enterChunk type size arg t) := by
  obtain ⟨p, m, rfl⟩ := h
  exact alike_ite (fun _ => alike_raise ⟨p, m, rfl⟩ _) fun _ => alike_ok ⟨p, m, rfl⟩

theorem codebookChunk_alike (h : Painted s t) : Alike Painted (codebookChunk s) (codebookChunk t) := by
  obtain ⟨p, m, rfl⟩ := h
  refine alike_ite (fun _ => alike_raise ⟨p, m, rfl⟩ _) fun _ => alike_bind alike_refl_known ?_
  rintro bs _ rfl
  exact alike_ok ⟨p, m, rfl⟩

theorem copyFrame_alike (h : Painted s t) : Alike Painted (copyFrame s) (copyFrame t) := by
  obtain ⟨p, m, rfl⟩ := h
  refine alike_bind alike_refl_known ?_
  rintro y _ rfl
  refine alike_bind alike_refl_known ?_
  rintro u _ rfl
  refine alike_bind alike_refl_known ?_
  rintro v _ rfl
  exact alike_ok ⟨p, m, setCurrent_paint ..⟩

theorem vqFrame_alike (h : Painted s t) : Alike Painted (vqFrame s) (vqFrame t) := by
  obtain ⟨p, m, rfl⟩ := h
  refine alike_ite (fun _ => alike_raise ⟨p, m, rfl⟩ _) fun _ => alike_ite (fun _ => alike_raise ⟨p, m, rfl⟩ _) fun _ =>
    alike_bind (copyFrame_alike ⟨p, m, rfl⟩) ?_
  rintro u _ ⟨p', m', rfl⟩
  exact alike_ok ⟨p', m', rfl⟩

theorem finishVqFrame_alike (h : Painted s t) : Alike Painted (finishVqFrame s) (finishVqFrame t) := by
  obtain ⟨p, m, rfl⟩ := h
  refine alike_bind alike_refl_known ?_
  rintro y _ rfl
  refine alike_bind alike_refl_known ?_
  rintro u _ rfl
  refine alike_bind alike_refl_known ?_
  rintro v _ rfl
  exact alike_ok ⟨p, _, rfl⟩

theorem nextQuadrant_alike (h : Painted s t) : Alike Painted (nextQuadrant s) (nextQuadrant t) := by
  have hend := finishVqFrame_alike h
  obtain ⟨p, m, rfl⟩ := h
  exact alike_ite (fun _ => alike_ok ⟨p, m, rfl⟩) fun _ => alike_ite (fun _ => alike_ok ⟨p, m, rfl⟩) fun _ =>
    alike_ite (fun _ => alike_ok ⟨p, m, rfl⟩) fun _ => hend

theorem nextSubBlock_alike (h : Painted s t) : Alike Painted (nextSubBlock s) (nextSubBlock t) := by
  have hend := nextQuadrant_alike h
  obtain ⟨p, m, rfl⟩ := h
  exact alike_ite (fun _ => alike_ok ⟨p, m, rfl⟩) fun _ => hend

theorem copyBlock_alike (n x y : Nat) (b : Byte) (h : Painted s t) :
    Alike Painted (copyBlock n x y b s) (copyBlock n x y b t) := by
  obtain ⟨p, m, rfl⟩ := h
  refine alike_ite (fun _ => alike_raise ⟨p, m, rfl⟩ _) fun _ => alike_bind alike_refl_known ?_
  rintro wy _ rfl
  refine alike_bind alike_refl_known ?_
  rintro wu _ rfl
  refine alike_bind alike_refl_known ?_
  rintro wv _ rfl
  exact alike_ok ⟨p, m, setCurrent_paint ..⟩

theorem stampCell_alike (scale x y : Nat) (c : Byte) (h : Painted s t) :
    Alike Painted (stampCell scale x y c s) (stampCell scale x y c t) := by
  obtain ⟨p, m, rfl⟩ := h
  exact alike_ite (fun _ => alike_raise ⟨p, m, rfl⟩ _) fun _ => alike_ok ⟨p, m, setCurrent_paint ..⟩

theorem stampQuad_alike (scale x y : Nat) (j : Byte) (h : Painted s t) :
    Alike Painted (stampQuad scale x y j s) (stampQuad scale x y j t) := by
  obtain ⟨p, m, rfl⟩ := h
  exact alike_ite (fun _ => alike_raise ⟨p, m, rfl⟩ _) fun _ =>
    alike_bind (stampCell_alike _ _ _ _ ⟨p, m, rfl⟩) fun _ _ h1 => alike_bind (stampCell_alike _ _ _ _ h1) fun _ _ h2 =>
    alike_bind (stampCell_alike _ _ _ _ h2) fun _ _ h3 => stampCell_alike _ _ _ _ h3

theorem cellTurn_alike (cc : Nat) (h : Painted s t) : Alike Painted (cellTurn cc s) (cellTurn cc t) := by
  obtain ⟨p, m, rfl⟩ := h
  refine alike_bind (nextByte_alike (s := { s with cc := cc }) ⟨p, m, rfl⟩) ?_
  rintro ⟨c, u⟩ ⟨_, _⟩ ⟨rfl, p', m', rfl⟩
  exact stampCell_alike 1 (u.x4 + cc % 2 * 2) (u.y4 + cc / 2 * 2) c ⟨p', m', rfl⟩

end

/-! ### Instructions and the step -/

/-- Two outcomes are alike: next states up to colours, or the same stop. -/
def AlikeOutcome : Host.Outcome State Fault Refusal → Host.Outcome State Fault Refusal → Prop
  | .next s, .next t => Painted s t
  | .fault f, .fault f' => f = f'
  | .refused r, .refused r' => r = r'
  | _, _ => False

theorem conclude_alike {r r' : Run State} (h : Alike Painted r r') : AlikeOutcome (conclude r) (conclude r') := by
  rcases r with (⟨u, kind⟩ | fault) | a <;> rcases r' with (⟨v, kind'⟩ | fault') | b
  · obtain ⟨hp, rfl⟩ := h
    exact painted_raiseFault hp kind
  · exact h.elim
  · exact h.elim
  · exact h.elim
  · exact h
  · exact h.elim
  · exact h.elim
  · exact h.elim
  · exact h

theorem finishSound_painted {s t : State} (h : Painted s t) : Painted (finishSound s) (finishSound t) := by
  obtain ⟨p, m, rfl⟩ := h
  exact ⟨p, m, rfl⟩

theorem dpcmStep_painted {s t : State} (d : Int) (h : Painted s t) : Painted (dpcmStep d s) (dpcmStep d t) := by
  obtain ⟨p, m, rfl⟩ := h
  have hemit : emitSample d (paint p m s) = paint p m (emitSample d s) := by
    unfold emitSample
    rw [show (paint p m s).rightTurn = s.rightTurn from rfl]
    cases s.rightTurn <;> rfl
  rw [dpcmStep_eq, dpcmStep_eq, hemit]
  show Painted (if s.payEnd ≤ (emitSample d s).pos.toNat ∧ (s.phase ≠ .sndStereo ∨ s.rightTurn = true)
      then finishSound (emitSample d s) else emitSample d s)
    (if s.payEnd ≤ (emitSample d s).pos.toNat ∧ (s.phase ≠ .sndStereo ∨ s.rightTurn = true)
      then finishSound (paint p m (emitSample d s)) else paint p m (emitSample d s))
  split
  · exact finishSound_painted ⟨p, m, rfl⟩
  · exact ⟨p, m, rfl⟩

section
variable {s t : State}

/-! ### The host commands -/

theorem execVqSeed_alike (h : Painted s t) : AlikeOutcome (execVqSeed s) (execVqSeed t) := by
  refine conclude_alike (alike_bind (admission_alike h) ?_)
  rintro u _ ⟨p, m, rfl⟩
  refine alike_ite (fun _ => alike_raise ⟨p, m, rfl⟩ _) fun _ => alike_ok ⟨p, m, ?_⟩
  exact congrArg (fun v : State => finishCommand { v with status := { v.status with seeded := true } })
    (setLast_paint p m u _)

theorem execCinRec_alike (h : Painted s t) : AlikeOutcome (execCinRec s) (execCinRec t) := by
  refine conclude_alike (alike_bind (admission_alike h) ?_)
  rintro u _ ⟨p, m, rfl⟩
  exact alike_ite (fun _ => alike_raise ⟨p, m, rfl⟩ _) fun _ => alike_ite (fun _ => alike_raise ⟨p, m, rfl⟩ _) fun _ =>
    alike_ite (fun _ => alike_raise ⟨p, m, rfl⟩ _) fun _ => alike_ok ⟨p, m, rfl⟩

theorem execRoqChunk_alike (h : Painted s t) : AlikeOutcome (execRoqChunk s) (execRoqChunk t) := by
  refine conclude_alike (alike_bind (admission_alike h) ?_)
  rintro u _ ⟨p, m, rfl⟩
  exact alike_ite (fun _ => alike_raise ⟨p, m, rfl⟩ _) fun _ => alike_ok ⟨p, m, rfl⟩

theorem execPalLoad_alike (h : Painted s t) : AlikeOutcome (execPalLoad s) (execPalLoad t) := by
  refine conclude_alike (alike_bind (admission_alike h) ?_)
  rintro u _ ⟨p, m, rfl⟩
  refine alike_ite (fun _ => alike_raise ⟨p, m, rfl⟩ _) fun _ => alike_bind alike_refl_known ?_
  rintro bs _ rfl
  exact alike_ok ⟨paletteOf bs, m, by simp [paint, finishCommand, State.advance]⟩

theorem execPalDefault_alike (h : Painted s t) : AlikeOutcome (execPalDefault s) (execPalDefault t) := by
  refine conclude_alike (alike_bind (admission_alike h) ?_)
  rintro u _ ⟨p, m, rfl⟩
  exact alike_ok ⟨greyRamp, m, rfl⟩

theorem execHufBuild_alike (h : Painted s t) : AlikeOutcome (execHufBuild s) (execHufBuild t) := by
  refine conclude_alike (alike_bind (admission_alike h) ?_)
  rintro u _ ⟨p, m, rfl⟩
  refine alike_ite (fun _ => alike_raise ⟨p, m, rfl⟩ _) fun _ => alike_bind alike_refl_known ?_
  rintro hist _ rfl
  exact alike_ok ⟨p, m, by simp [paint, finishCommand, State.advance, buildTrees]⟩

/-! ### The records -/

theorem latchCommand_painted (w : Word) (h : Painted s t) : Painted (latchCommand w s) (latchCommand w t) := by
  obtain ⟨p, m, rfl⟩ := h
  exact ⟨p, m, rfl⟩

theorem execCinPalvideo_alike (h : Painted s t) : AlikeOutcome (execCinPalvideo s) (execCinPalvideo t) :=
  conclude_alike (alike_bind (cinPalette_alike (latchCommand_painted 1 h)) fun _ _ hu => cinBody_alike hu)

theorem Painted.params_eq (h : Painted s t) : t.params = s.params := by
  obtain ⟨p, m, rfl⟩ := h
  rfl

/-- A chunk that is entered and then does `f` is alike if `f` is. -/
theorem chunk_alike (type : Params → Half) (size : Word) (arg : Half) {f : State → Run State}
    (hf : ∀ u v, Painted u v → Alike Painted (f u) (f v)) (h : Painted s t) :
    AlikeOutcome (conclude (enterChunk (type s.params) size arg s >>= f))
      (conclude (enterChunk (type t.params) size arg t >>= f)) := by
  rw [h.params_eq]
  exact conclude_alike (alike_bind (enterChunk_alike _ size arg h) hf)

theorem skipped_alike {u v : State} (h : Painted u v) : Alike Painted (.ok (finishRecord u)) (.ok (finishRecord v)) := by
  obtain ⟨p, m, rfl⟩ := h
  exact alike_ok ⟨p, m, rfl⟩

theorem soundEntry_alike (seed : State → State) (hseed : ∀ u v, Painted u v → Painted (seed u) (seed v))
    {u v : State} (h : Painted u v) :
    Alike Painted (.ok (if (seed u).payLen = 0 then finishSound (seed u) else seed u))
      (.ok (if (seed v).payLen = 0 then finishSound (seed v) else seed v)) := by
  have hs := hseed u v h
  have hfinish := finishSound_painted hs
  have hlen : (seed v).payLen = (seed u).payLen := by
    obtain ⟨p, m, hv⟩ := hs
    rw [hv]
    rfl
  rw [hlen]
  split
  · exact alike_ok hfinish
  · exact alike_ok hs

/-! ### The vector codes -/

/-- A vector code takes its id and goes on alike. -/
theorem code_alike {f : State → Run State} (hf : ∀ u v, Painted u v → Alike Painted (f u) (f v)) (h : Painted s t) :
    AlikeOutcome (conclude (nextId s >>= fun x => f x.2)) (conclude (nextId t >>= fun x => f x.2)) :=
  conclude_alike (alike_bind (nextId_alike h) fun a b hab => hf a.2 b.2 hab.2)

/-- A vector code with one operand byte takes both and goes on alike. -/
theorem operandCode_alike {f : Byte → State → Run State}
    (hf : ∀ b u v, Painted u v → Alike Painted (f b u) (f b v)) (h : Painted s t) :
    AlikeOutcome (conclude (nextId s >>= fun x => nextByte x.2 >>= fun y => f y.1 y.2))
      (conclude (nextId t >>= fun x => nextByte x.2 >>= fun y => f y.1 y.2)) := by
  refine code_alike (f := fun u => nextByte u >>= fun y => f y.1 y.2) (fun u v huv => ?_) h
  refine alike_bind (nextByte_alike huv) ?_
  rintro ⟨b, u'⟩ ⟨_, v'⟩ ⟨rfl, hu'⟩
  exact hf b u' v' hu'

theorem Painted.x8_y8 (h : Painted s t) : t.x8 = s.x8 ∧ t.y8 = s.y8 ∧ t.x4 = s.x4 ∧ t.y4 = s.y4 := by
  obtain ⟨p, m, rfl⟩ := h
  exact ⟨rfl, rfl, rfl, rfl⟩

/-- Every instruction answers alike. -/
theorem exec_alike (i : Instr) (h : Painted s t) : AlikeOutcome (exec i s) (exec i t) := by
  have hblock8 (f : Nat → Nat → Byte → State → Run State)
      (hf : ∀ x y b u v, Painted u v → Alike Painted (f x y b u) (f x y b v)) :
      AlikeOutcome (conclude (nextId s >>= fun x => nextByte x.2 >>= fun y => f y.2.x8 y.2.y8 y.1 y.2 >>= nextQuadrant))
        (conclude (nextId t >>= fun x => nextByte x.2 >>= fun y => f y.2.x8 y.2.y8 y.1 y.2 >>= nextQuadrant)) := by
    refine operandCode_alike (f := fun b u => f u.x8 u.y8 b u >>= nextQuadrant) (fun b u v huv => ?_) h
    obtain ⟨hx, hy, -, -⟩ := huv.x8_y8
    rw [hx, hy]
    exact alike_bind (hf _ _ b u v huv) fun _ _ hw => nextQuadrant_alike hw
  have hblock4 (f : Nat → Nat → Byte → State → Run State)
      (hf : ∀ x y b u v, Painted u v → Alike Painted (f x y b u) (f x y b v)) :
      AlikeOutcome (conclude (nextId s >>= fun x => nextByte x.2 >>= fun y => f y.2.x4 y.2.y4 y.1 y.2 >>= nextSubBlock))
        (conclude (nextId t >>= fun x => nextByte x.2 >>= fun y => f y.2.x4 y.2.y4 y.1 y.2 >>= nextSubBlock)) := by
    refine operandCode_alike (f := fun b u => f u.x4 u.y4 b u >>= nextSubBlock) (fun b u v huv => ?_) h
    obtain ⟨-, -, hx, hy⟩ := huv.x8_y8
    rw [hx, hy]
    exact alike_bind (hf _ _ b u v huv) fun _ _ hw => nextSubBlock_alike hw
  cases i with
  | rst =>
    obtain ⟨p, m, rfl⟩ := h
    exact Painted.refl _
  | clrerr =>
    obtain ⟨p, m, rfl⟩ := h
    exact ⟨p, m, rfl⟩
  | hufBuild => exact execHufBuild_alike h
  | cinRec => exact execCinRec_alike h
  | palLoad => exact execPalLoad_alike h
  | palDefault => exact execPalDefault_alike h
  | vqSeed => exact execVqSeed_alike h
  | roqChunk => exact execRoqChunk_alike h
  | cinVideo => exact conclude_alike (cinBody_alike (latchCommand_painted 0 h))
  | cinPalvideo => exact execCinPalvideo_alike h
  | cinRsvd => exact conclude_alike (alike_raise (latchCommand_painted 2 h) _)
  | roqInfo size arg => exact chunk_alike Params.typeInfo size arg (fun _ _ => skipped_alike) h
  | roqCodebook size arg => exact chunk_alike Params.typeCodebook size arg (fun _ _ => codebookChunk_alike) h
  | roqVq size arg => exact chunk_alike Params.typeVq size arg (fun _ _ => vqFrame_alike) h
  | roqJpeg size arg => exact chunk_alike Params.typeJpeg size arg (fun _ _ => skipped_alike) h
  | roqHang size arg => exact chunk_alike Params.typeHang size arg (fun _ _ => skipped_alike) h
  | roqSndMono size arg =>
    refine chunk_alike Params.typeSndMono size arg (fun u v => ?_) h
    refine soundEntry_alike (fun u => { u with predL := arg, phase := .sndMono }) ?_
    rintro u _ ⟨p, m, rfl⟩
    exact ⟨p, m, rfl⟩
  | roqSndStereo size arg =>
    refine chunk_alike Params.typeSndStereo size arg (fun u v => ?_) h
    refine soundEntry_alike
      (fun u => { u with predL := stereoSeedL arg, predR := stereoSeedR arg, phase := .sndStereo }) ?_
    rintro u _ ⟨p, m, rfl⟩
    exact ⟨p, m, rfl⟩
  | mot8 => exact code_alike (fun _ _ => nextQuadrant_alike) h
  | mot4 => exact code_alike (fun _ _ => nextSubBlock_alike) h
  | fcc8 => exact hblock8 (copyBlock 8) fun x y b _ _ => copyBlock_alike 8 x y b
  | sld8 => exact hblock8 (stampQuad 2) fun x y b _ _ => stampQuad_alike 2 x y b
  | fcc4 => exact hblock4 (copyBlock 4) fun x y b _ _ => copyBlock_alike 4 x y b
  | sld4 => exact hblock4 (stampQuad 1) fun x y b _ _ => stampQuad_alike 1 x y b
  | ccc8 =>
    refine code_alike (f := fun u => .ok { u with sb := 0, phase := .subBlock }) ?_ h
    rintro u _ ⟨p, m, rfl⟩
    exact alike_ok ⟨p, m, rfl⟩
  | ccc4 =>
    refine code_alike
      (f := fun u => cellTurn 0 u >>= fun u => cellTurn 1 u >>= fun u => cellTurn 2 u >>= fun u =>
        cellTurn 3 u >>= nextSubBlock) (fun u v huv => ?_) h
    exact alike_bind (cellTurn_alike 0 huv) fun _ _ h1 => alike_bind (cellTurn_alike 1 h1) fun _ _ h2 =>
      alike_bind (cellTurn_alike 2 h2) fun _ _ h3 => alike_bind (cellTurn_alike 3 h3) fun _ _ => nextSubBlock_alike
  | dpcmPos m => exact dpcmStep_painted _ h
  | dpcmNeg m => exact dpcmStep_painted _ h
  | hufStep0 => exact conclude_alike (hufStep_alike false h)
  | hufStep1 => exact conclude_alike (hufStep_alike true h)

/-- The next code is the same, or the same fault. -/
theorem fetch_alike (h : Painted s t) : Alike (fun a b => a = b) (fetch s) (fetch t) := by
  have hbit := nextBit_alike h
  have hid := nextId_alike h
  have hbyte := nextByte_alike h
  obtain ⟨p, m, rfl⟩ := h
  unfold fetch
  rw [show (paint p m s).phase = s.phase from rfl, show (paint p m s).cmd = s.cmd from rfl]
  cases s.phase with
  | idle =>
    cases s.cmd with
    | none => exact alike_ok rfl
    | some code => exact alike_ok rfl
  | cinRecord =>
    refine alike_ite (fun _ => alike_raise ⟨p, m, rfl⟩ _) fun _ => alike_bind alike_refl_known ?_
    rintro bs _ rfl
    exact alike_ok rfl
  | roqRecord =>
    refine alike_ite (fun _ => alike_raise ⟨p, m, rfl⟩ _) fun _ => alike_bind alike_refl_known ?_
    rintro bs _ rfl
    exact alike_ok rfl
  | huffman =>
    refine alike_bind hbit ?_
    rintro ⟨b, u⟩ ⟨_, v⟩ ⟨rfl, -⟩
    exact alike_ok rfl
  | quadrant =>
    refine alike_bind hid ?_
    rintro ⟨b, u⟩ ⟨_, v⟩ ⟨rfl, -⟩
    exact alike_ok rfl
  | subBlock =>
    refine alike_bind hid ?_
    rintro ⟨b, u⟩ ⟨_, v⟩ ⟨rfl, -⟩
    exact alike_ok rfl
  | sndMono =>
    refine alike_bind hbyte ?_
    rintro ⟨b, u⟩ ⟨_, v⟩ ⟨rfl, -⟩
    exact alike_ok rfl
  | sndStereo =>
    refine alike_ite (fun _ => alike_raise ⟨p, m, rfl⟩ _) fun _ => alike_bind hbyte ?_
    rintro ⟨b, u⟩ ⟨_, v⟩ ⟨rfl, -⟩
    exact alike_ok rfl

theorem rejectCode_alike (e : DecodeError) (bytes : List Byte) (h : Painted s t) :
    AlikeOutcome (rejectCode e bytes s) (rejectCode e bytes t) := by
  obtain ⟨p, m, rfl⟩ := h
  refine conclude_alike ?_
  cases e <;> exact alike_raise ⟨p, m, rfl⟩ _

theorem step_alike (h : Painted s t) : AlikeOutcome (step s) (step t) := by
  have hfetch := fetch_alike h
  unfold step
  rw [h.params_eq]
  rcases hs : fetch s with (⟨u, kind⟩ | fault) | code <;> rcases ht : fetch t with (⟨v, kind'⟩ | fault') | code' <;>
    rw [hs, ht] at hfetch
  · exact conclude_alike hfetch
  · exact hfetch.elim
  · exact hfetch.elim
  · exact hfetch.elim
  · exact conclude_alike hfetch
  · exact hfetch.elim
  · exact hfetch.elim
  · exact hfetch.elim
  · obtain rfl : code = code' := hfetch
    rcases code with - | ⟨f, bytes⟩
    · exact h
    · dsimp only
      split
      · exact exec_alike _ h
      · exact rejectCode_alike _ bytes h

end

/-- Settles O55: both runs take every branch alike, and what they write outside the colours never comes from a colour. -/
theorem onlyColoursDependOnThePalette : Obligations.OnlyColoursDependOnThePalette := by
  intro s t s' h hs
  have halike := step_alike ((painted_iff s t).mpr h)
  rw [hs] at halike
  rcases ht : step t with t' | fault | refusal <;> rw [ht] at halike
  · exact ⟨t', rfl, (painted_iff s' t').mp halike⟩
  · exact halike.elim
  · exact halike.elim

end Sys2Proof.Machine
end

section
/-! What a live state promises its readers: every element a unit may read has a value (20 R70, R73). -/

namespace Sys2Proof.Machine

theorem Memory.read_of_full {m : Memory} (hm : m.wf = true) {n a : Nat} (h : m.full n = true) (ha : a < n) :
    ∃ v, m.read a = some v := Option.isSome_iff_exists.1 ((Memory.full_iff m hm n).1 h a ha)

theorem Memory.readRun_of_full {m : Memory} (hm : m.wf = true) {n base len : Nat} (h : m.full n = true)
    (hb : base + len ≤ n) : ∃ bs, m.readRun base len = some bs :=
  Option.isSome_iff_exists.1 ((Memory.isSome_readRun_iff m hm base len).2 fun i hi =>
    (Memory.full_iff m hm n).1 h (base + i) (by omega))

theorem Memory.full_writes {m : Memory} (hm : m.wf = true) {n : Nat} (h : m.full n = true) (cs : List Host.Cell) :
    (m.writes cs).full n = true := by
  rw [Memory.full_iff _ (Memory.wf_writes cs m hm)]
  exact fun a ha => Memory.isSome_read_writes cs m a ((Memory.full_iff m hm n).1 h a ha)

theorem Memory.full_overlay {m : Memory} (hm : m.wf = true) (bs : List Byte) :
    (m.overlay bs).full bs.length = true := by
  rw [Memory.full_iff _ (Memory.wf_overlay m bs hm)]
  intro a ha
  rw [Memory.read_overlay, if_pos ha]
  simpa using ha

/-- One more element is written at the end. -/
theorem Memory.full_write_succ {m : Memory} (hm : m.wf = true) {n : Nat} (h : m.full n = true) (v : Byte) :
    (m.write n v).full (n + 1) = true := by
  rw [Memory.full_iff _ (Memory.wf_write m n v hm)]
  intro a ha
  rw [Memory.read_write]
  split
  · rfl
  · exact (Memory.full_iff m hm n).1 h a (by omega)

theorem Planes.wf_iff (p : Planes) : p.wf = true ↔ p.y.wf = true ∧ p.u.wf = true ∧ p.v.wf = true := by
  simp [Planes.wf, and_assoc]

theorem Planes.full_def (p : Planes) (n : Nat) :
    p.full n = true ↔ p.y.full n = true ∧ p.u.full n = true ∧ p.v.full n = true := by
  simp [Planes.full, and_assoc]

theorem Planes.full_writes {p : Planes} (hp : p.wf = true) {n : Nat} (h : p.full n = true) (y u v : List Host.Cell) :
    (p.writes y u v).full n = true := by
  obtain ⟨wy, wu, wv⟩ := (Planes.wf_iff p).1 hp
  obtain ⟨fy, fu, fv⟩ := (Planes.full_def p n).1 h
  exact (Planes.full_def _ n).2 ⟨Memory.full_writes wy fy y, Memory.full_writes wu fu u, Memory.full_writes wv fv v⟩

theorem Planes.full_overlay {p : Planes} (hp : p.wf = true) {n : Nat} {y u v : List Byte} (hy : y.length = n)
    (hu : u.length = n) (hv : v.length = n) : (p.overlay y u v).full n = true := by
  obtain ⟨wy, wu, wv⟩ := (Planes.wf_iff p).1 hp
  exact (Planes.full_def _ n).2 ⟨hy ▸ Memory.full_overlay wy y, hu ▸ Memory.full_overlay wu u,
    hv ▸ Memory.full_overlay wv v⟩

/-- The part of liveness that no phase matters for: memories canonical, IN placed, SEEDED vouching for `last`. -/
structure Grounded (s : State) : Prop where
  canonical : s.canonical = true
  inp : s.inp.full s.inLen.toNat = true
  last : s.status.seeded = true → s.last.full s.npix = true

theorem live_iff (s : State) : s.live = true ↔ Grounded s ∧ s.phaseOk = true ∧ (s.phase ≠ .idle → s.cmd = none) := by
  have hlast : (!s.status.seeded || s.last.full s.npix) = true ↔ (s.status.seeded = true → s.last.full s.npix = true) := by
    cases s.status.seeded <;> simp
  have hcmd : (s.phase == .idle || s.cmd.isNone) = true ↔ (s.phase ≠ .idle → s.cmd = none) := by
    by_cases hp : s.phase = .idle <;> simp [hp]
  rw [State.live, Bool.and_eq_true, Bool.and_eq_true, Bool.and_eq_true, Bool.and_eq_true, hlast, hcmd]
  constructor
  · rintro ⟨⟨⟨⟨hc, hi⟩, hl⟩, hp⟩, h⟩
    exact ⟨⟨hc, hi, hl⟩, hp, h⟩
  · rintro ⟨⟨hc, hi, hl⟩, hp, h⟩
    exact ⟨⟨⟨⟨hc, hi⟩, hl⟩, hp⟩, h⟩

section
variable {b s t : State}

theorem Works.npix (h : Works b s) : s.npix = b.npix := by
  simp only [State.npix, State.width, State.height, h.cfgWidth, h.cfgHeight]

theorem Works.cinDimsOk (h : Works b s) : s.cinDimsOk = b.cinDimsOk := by
  unfold State.cinDimsOk State.width State.height
  rw [h.cfgWidth, h.cfgHeight]

theorem Works.roqDimsOk (h : Works b s) : s.roqDimsOk = b.roqDimsOk := by
  unfold State.roqDimsOk State.width State.height
  rw [h.cfgWidth, h.cfgHeight, h.params]

theorem Works.grounded (h : Works b s) (hb : Grounded b) : Grounded s where
  canonical := h.canonical hb.canonical
  inp := by rw [h.inp, h.inLen]; exact hb.inp
  last := by rw [h.status, h.last, h.npix]; exact hb.last

theorem raiseFault_npix (s : State) (kind : Kind) : (raiseFault s kind).npix = s.npix := by
  simp only [State.npix, State.width, State.height, raiseFault_cfgWidth, raiseFault_cfgHeight]

theorem raiseFault_grounded (h : Grounded s) (kind : Kind) : Grounded (raiseFault s kind) where
  canonical := canonical_raiseFault kind h.canonical
  inp := by rw [raiseFault_inp, raiseFault_inLen]; exact h.inp
  last := by rw [raiseFault_status, Status.fail_seeded, raiseFault_last, raiseFault_npix]; exact h.last

theorem startCommand_grounded (h : Grounded s) : Grounded (startCommand s) where
  canonical := (startCommand_sound s).1 h.canonical
  inp := h.inp
  last := h.last

theorem Grounded.wf_inp (h : Grounded s) : s.inp.wf = true := ((canonical_iff s).1 h.canonical).1

theorem Grounded.wf_current (h : Grounded s) : s.current.wf = true := ((canonical_iff s).1 h.canonical).2.2.2.1

theorem Grounded.wf_last (h : Grounded s) : s.last.wf = true := ((canonical_iff s).1 h.canonical).2.2.1

/-- A read of IN below IN_LEN does not stop the model. -/
theorem Grounded.readIn (h : Grounded s) {base n : Nat} (hb : base + n ≤ s.inLen.toNat) : ∃ bs, readIn s base n = .ok bs := by
  obtain ⟨bs, hbs⟩ := Memory.readRun_of_full h.wf_inp h.inp hb
  exact ⟨bs, (readIn_eq_ok_iff ..).2 hbs⟩

end

/-- What is known of a run in general and what is known of its results go together. -/
theorem meets_and {α : Type} {P P' : α → Prop} {Q Q' : State → Kind → Prop} {r : Run α} (h : Meets True P Q r)
    (h' : Meets False P' Q' r) : Meets False (fun a => P a ∧ P' a) (fun u kind => Q u kind ∧ Q' u kind) r := by
  rcases r with (⟨u, kind⟩ | fault) | a
  · exact ⟨h, h'⟩
  · exact h'
  · exact ⟨h, h'⟩

/-- A run that is safe, whatever it answers. -/
abbrev Safely {α : Type} (P : α → Prop) (r : Run α) : Prop := Meets False P (fun _ _ => True) r

theorem Safely.mono {α : Type} {P P' : α → Prop} {r : Run α} (h : Safely P r) (hP : ∀ a, P a → P' a) : Safely P' r :=
  meets_mono h id hP fun _ _ => id

theorem safely_bind_ok {α β : Type} {P : α → Prop} {x : Run β} {b : β} {f : β → Run α} (hx : x = .ok b)
    (hf : Safely P (f b)) : Safely P (x >>= f) := by
  rw [hx, ok_bind]
  exact hf

/-- What is known of the states of a run and what is known of its results go together. -/
theorem safely_and {α : Type} {P P' : α → Prop} {Q : State → Kind → Prop} {r : Run α} (h : Meets True P Q r)
    (h' : Safely P' r) : Safely (fun a => P a ∧ P' a) r :=
  meets_mono (meets_and h h') id (fun _ => id) fun _ _ _ => trivial

/-- How an instruction ends: the block is idle, or its next phase has what it relies on and a smaller budget. -/
def Proceeds (n : Nat) (t : State) : Prop := t.phase = .idle ∨ t.phaseOk = true ∧ t.budget < n

/-! ### The payload -/

section
variable {s : State}

theorem payloadOk_iff (s : State) : s.payloadOk = true ↔
    s.pay0.toNat ≤ s.pos.toNat ∧ s.pos.toNat ≤ s.payEnd ∧ s.payEnd ≤ s.inLen.toNat := decide_eq_true_iff

/-- The cursor moves inside the payload without wrap. -/
theorem advance_payload (h : s.payloadOk = true) (hp : s.pos.toNat < s.payEnd) :
    (s.advance 1).payloadOk = true ∧ (s.advance 1).pos.toNat = s.pos.toNat + 1 := by
  obtain ⟨h0, h1, h2⟩ := (payloadOk_iff s).1 h
  have hlen := s.inLen.isLt
  have hpos : (s.advance 1).pos.toNat = s.pos.toNat + 1 := toNat_ofNat_add _ _ (by omega)
  refine ⟨(payloadOk_iff _).2 ?_, hpos⟩
  rw [hpos]
  exact ⟨by show s.pay0.toNat ≤ _; omega, by show _ ≤ s.payEnd; omega, h2⟩

theorem nextByte_safely (hg : Grounded s) (hpay : s.payloadOk = true) :
    Safely (fun x => s.pos.toNat < s.payEnd ∧ x.2 = s.advance 1) (nextByte s) := by
  obtain ⟨h0, h1, h2⟩ := (payloadOk_iff s).1 hpay
  unfold nextByte
  split
  · exact meets_raise trivial
  · next hend =>
    obtain ⟨v, hv⟩ := Memory.read_of_full hg.wf_inp hg.inp (show s.pos.toNat < s.inLen.toNat by omega)
    exact safely_bind_ok ((readInByte_eq_ok_iff ..).2 hv) (meets_ok ⟨by omega, rfl⟩)

/-- How many Huffman bits are left. -/
def bitsLeft (s : State) : Nat := 8 * (s.payEnd - s.pos.toNat) + s.bitcnt

theorem nextBit_safely (hg : Grounded s) (hpay : s.payloadOk = true) :
    Safely (fun x => x.2.payloadOk = true ∧ bitsLeft x.2 < bitsLeft s) (nextBit s) := by
  have refilled : Safely (fun u => u.payloadOk = true ∧ u.bitcnt ≠ 0 ∧ bitsLeft u = bitsLeft s) (refillBits s) := by
    unfold refillBits
    split
    · next h0 =>
      refine meets_bind (nextByte_safely hg hpay) ?_
      rintro ⟨v, u⟩ ⟨hp, rfl⟩
      obtain ⟨hpay', hpos⟩ := advance_payload hpay hp
      refine meets_ok ⟨hpay', by simp, ?_⟩
      show 8 * (s.payEnd - (s.advance 1).pos.toNat) + 8 = _
      rw [hpos, bitsLeft, h0]
      omega
    · next h0 => exact meets_ok ⟨hpay, h0, rfl⟩
  refine meets_bind refilled fun u ⟨hpay', h0, hbits⟩ => meets_ok ⟨hpay', ?_⟩
  rw [← hbits]
  show 8 * (u.payEnd - u.pos.toNat) + (u.bitcnt - 1) < 8 * (u.payEnd - u.pos.toNat) + u.bitcnt
  omega

end

/-! ### CIN -/

section
variable {s : State}

theorem finishCinFrame_safely (hw : s.idx.wf = true) (h : s.idx.full s.npix = true) :
    Safely (fun t => t.phase = .idle) (finishCinFrame s) := by
  obtain ⟨is, his⟩ := Memory.readRun_of_full hw h (show 0 + s.npix ≤ s.npix by omega)
  exact safely_bind_ok ((known_eq_ok_iff ..).2 his) (meets_ok rfl)

/-- The pixels of a frame: all before `k` are written, and `n` are left. -/
theorem startPixels_safely (n : Nat) {s : State} (hp : s.phase = .huffman) (hdims : s.cinDimsOk = true)
    (hpay : s.payloadOk = true) (hw : s.idx.wf = true) (hidx : s.idx.full s.k.toNat = true)
      (hk : s.k.toNat + n = s.npix) :
    Safely (fun t => t.phase = .idle ∨ t.phaseOk = true ∧ t.budget = bitsLeft s + 1) (startPixels n s) := by
  induction n generalizing s with
  | zero =>
    refine (finishCinFrame_safely hw ?_).mono fun _ => .inl
    rwa [← hk, Nat.add_zero]
  | succ n ih =>
    unfold startPixels
    dsimp only
    split
    · refine meets_ok (.inr ⟨?_, ?_⟩)
      · simp only [State.phaseOk, hp, Bool.and_eq_true, decide_eq_true_eq]
        exact ⟨⟨⟨hdims, hpay⟩, show s.k.toNat < s.npix by omega⟩, hidx⟩
      · simp only [State.budget, hp]
        rfl
    · split
      · exact meets_raise trivial
      · have hmax := (npix_of_cinDimsOk s hdims).2
        have hsucc : (s.k + 1).toNat = s.k.toNat + 1 := by
          rw [BitVec.toNat_add_of_lt (by simp; omega)]
          rfl
        refine ih (s := emitPixel { s with node := entry s.root s.ctx }) hp hdims hpay (Memory.wf_write _ _ _ hw) ?_ ?_
        · show Memory.full (s.idx.write s.k.toNat _) (s.k + 1).toNat = true
          rw [hsucc]
          exact Memory.full_write_succ hw hidx _
        · show (s.k + 1).toNat + n = s.npix
          omega

theorem huffmanFrame_safely (hg : Grounded s) (hdims : s.cinDimsOk = true) (hpay : s.payloadOk = true)
    (hpos : s.pay0 = s.pos) :
    Safely (fun t => t.phase = .idle ∨ t.phaseOk = true ∧ t.budget = 8 * s.payLen.toNat + 1) (huffmanFrame s) := by
  have hw : s.idx.wf = true := ((canonical_iff s).1 hg.canonical).2.1
  unfold huffmanFrame
  split
  · exact meets_raise trivial
  · refine (startPixels_safely (s := { s with ctx := 0, bitcnt := 0, k := 0, phase := .huffman })
      s.npix rfl hdims hpay hw
      ?_ ?_).mono fun t ht => ?_
    · exact (Memory.full_iff _ hw 0).2 (by simp)
    · show 0 + s.npix = s.npix
      omega
    · refine ht.imp id fun ⟨hok, hbits⟩ => ⟨hok, hbits.trans ?_⟩
      show 8 * (s.payEnd - s.pos.toNat) + 0 + 1 = _
      rw [State.payEnd, hpos]
      omega

theorem readField32_safely (hg : Grounded s) :
    Safely (fun x => x.2 = s.advance 4 ∧ s.pos.toNat + 4 ≤ s.inLen.toNat) (readField32 s) := by
  unfold readField32
  split
  · exact meets_raise trivial
  · next hs =>
    rw [State.short_iff] at hs
    obtain ⟨bs, hbs⟩ := hg.readIn (show s.pos.toNat + 4 ≤ s.inLen.toNat by omega)
    exact safely_bind_ok hbs (meets_ok ⟨rfl, by omega⟩)

theorem cinBody_safely (hg : Grounded s) (hdims : s.cinDimsOk = true) {n : Nat} (hn : 8 * s.inLen.toNat + 1 < n) :
    Safely (Proceeds n) (cinBody s) := by
  refine meets_bind (readField32_safely hg) ?_
  rintro ⟨size, s1⟩ ⟨rfl, h1⟩
  have hg1 : Grounded { s.advance 4 with chunkSize := size } := ⟨hg.canonical, hg.inp, hg.last⟩
  refine meets_bind (readField32_safely hg1) ?_
  rintro ⟨decoded, s2⟩ ⟨rfl, h2⟩
  generalize hu : ({ s.advance 4 with chunkSize := size } : State).advance 4 = u
  have hgu : Grounded u := hu ▸ ⟨hg.canonical, hg.inp, hg.last⟩
  have hdu : u.cinDimsOk = true := hu ▸ hdims
  have hlen : u.inLen = s.inLen := by rw [← hu]; rfl
  dsimp only
  split
  · exact meets_raise trivial
  · split
    · exact meets_raise trivial
    · split
      · exact meets_raise trivial
      · next hs =>
        have hend : u.pos.toNat + (size - 4).toNat ≤ u.inLen.toNat := by
          simpa [State.payloadShort, State.payEnd] using hs
        refine (huffmanFrame_safely (s := { u with decodedSize := decoded, pay0 := u.pos, payLen := size - 4 })
          ⟨hgu.canonical, hgu.inp, hgu.last⟩ hdu ?_ rfl).mono fun t ht => ht.imp id fun ⟨hok, hb⟩ => ⟨hok, ?_⟩
        · rw [payloadOk_iff]
          exact ⟨le_refl _, Nat.le_add_right _ _, hend⟩
        · rw [hb]
          rw [hlen] at hend
          show 8 * (size - 4).toNat + 1 < n
          omega

theorem cinPalette_safely (hg : Grounded s) :
    Safely (fun t => ∃ p, t = ({ s with pal := p } : State).advance 768) (cinPalette s) := by
  unfold cinPalette
  split
  · exact meets_raise trivial
  · next hs =>
    rw [State.short_iff] at hs
    obtain ⟨bs, hbs⟩ := hg.readIn (show s.pos.toNat + 768 ≤ s.inLen.toNat by omega)
    exact safely_bind_ok hbs (meets_ok ⟨_, rfl⟩)

/-- A bit of a live walk. -/
theorem hufStep_safely (hs : s.live = true) (hp : s.phase = .huffman) (bit : Bool) :
    Safely (Proceeds s.budget) (hufStep bit s) := by
  obtain ⟨hg, hok, -⟩ := (live_iff s).1 hs
  simp only [State.phaseOk, hp, Bool.and_eq_true, decide_eq_true_eq] at hok
  obtain ⟨⟨⟨hdims, hpay⟩, hk⟩, hidx⟩ := hok
  have hbudget : s.budget = bitsLeft s + 1 := by
    simp only [State.budget, hp]
    rfl
  rw [hbudget]
  refine meets_bind (safely_and (meets_remember (nextBit_works (Works.refl s))) (nextBit_safely hg hpay)) ?_
  rintro ⟨b, u⟩ ⟨⟨hw, hu⟩, hpay', hbits⟩
  replace hw : Works s u := hw
  replace hbits : bitsLeft u < bitsLeft s := hbits
  have hframe := nextBit_frame s u b hu
  have hpu : u.phase = .huffman := (nextBit_phase hu).trans hp
  have hku : u.k = s.k := by rw [hframe]
  have hiu : u.idx = s.idx := by rw [hframe]
  have hwf : u.idx.wf = true := ((canonical_iff u).1 (hw.grounded hg).canonical).2.1
  dsimp only
  split
  · exact meets_raise trivial
  · next child _ =>
    split
    · refine meets_ok (.inr ⟨?_, ?_⟩)
      · simp only [State.phaseOk, hpu, Bool.and_eq_true, decide_eq_true_eq]
        refine ⟨⟨⟨hw.cinDimsOk.trans hdims, hpay'⟩, ?_⟩, ?_⟩
        · show u.k.toNat < u.npix
          rw [hku, hw.npix]
          exact hk
        · show u.idx.full u.k.toNat = true
          rw [hku, hiu]
          exact hidx
      · simp only [State.budget, hpu]
        show bitsLeft u + 1 < bitsLeft s + 1
        omega
    · have hmax := (npix_of_cinDimsOk s hdims).2
      have hsucc : (u.k + 1).toNat = s.k.toNat + 1 := by
        rw [hku, BitVec.toNat_add_of_lt (by simp; omega)]
        rfl
      have hnpix := hw.npix
      refine (startPixels_safely _ (s := emitPixel { u with node := child }) hpu (hw.cinDimsOk.trans hdims) hpay'
        (Memory.wf_write _ _ _ hwf) ?_ ?_).mono fun t ht => ht.imp id fun ⟨hok, hb⟩ => ⟨hok, ?_⟩
      · show Memory.full (u.idx.write u.k.toNat _) (u.k + 1).toNat = true
        rw [hsucc, hku, hiu]
        exact Memory.full_write_succ (hiu ▸ hwf) hidx _
      · show (u.k + 1).toNat + (u.npix - (u.k + 1).toNat) = u.npix
        omega
      · rw [hb]
        show bitsLeft u + 1 < bitsLeft s + 1
        omega

end

end Sys2Proof.Machine
end

section
/-! The vector codes in a live state: every source they read has a value, and each of them goes on in the scan. -/

namespace Sys2Proof.Machine

/-! ### Block copies -/

theorem mapM_eq_some_map {α β : Type} (l : List α) (f : α → Option β) (g : α → β) (h : ∀ a ∈ l, f a = some (g a)) :
    l.mapM f = some (l.map g) := by
  induction l with
  | nil => rfl
  | cons a l ih =>
    rw [List.mapM_cons, h a (by simp), ih fun b hb => h b (by simp [hb])]
    rfl

/-- Where the source block has values, the writes of a copy put them at the destination block (42 R226). -/
theorem copyWrites_eq {src : Memory} {w n sx sy : Nat} (x y : Nat) (f : Nat → Nat → Byte)
    (h : ∀ i < n, ∀ j < n, src.read ((sy + j) * w + (sx + i)) = some (f i j)) :
    copyWrites src w n sx sy x y = some (blockWrites w x y n f) := by
  refine mapM_eq_some_map _ _ _ fun o ho => ?_
  obtain ⟨hi, hj⟩ := (mem_blockOffsets n o).1 ho
  rw [h o.1 hi o.2 hj]
  rfl

/-- A pixel inside the frame has an address below the number of pixels. -/
theorem address_lt {x y w h : Nat} (hx : x < w) (hy : y < h) : y * w + x < w * h := by
  calc y * w + x < y * w + w := by omega
    _ = (y + 1) * w := by ring
    _ ≤ h * w := Nat.mul_le_mul_right w hy
    _ = w * h := Nat.mul_comm h w

theorem copyWrites_isSome {src : Memory} (hw : src.wf = true) {w h n sx sy : Nat} (hsrc : src.full (w * h) = true)
    (hx : sx + n ≤ w) (hy : sy + n ≤ h) (x y : Nat) : ∃ cs, copyWrites src w n sx sy x y = some cs := by
  refine ⟨_, copyWrites_eq x y (fun i j => (src.read ((sy + j) * w + (sx + i))).getD 0) fun i hi j hj => ?_⟩
  obtain ⟨v, hv⟩ := Memory.read_of_full hw hsrc (address_lt (show sx + i < w by omega) (show sy + j < h by omega))
  rw [hv]
  rfl

/-! ### Inside a code -/

theorem vqOk_iff (s : State) : s.vqOk = true ↔ s.roqDimsOk = true ∧ s.payloadOk = true ∧ s.status.seeded = true ∧
    s.current.full s.npix = true ∧ s.mbx < s.width / 16 ∧ s.mby < s.height / 16 ∧ s.q ≤ 3 := by
  simp [State.vqOk, and_assoc]

/-- The states inside a vector code that began in `s`. -/
structure Drawing (s u : State) : Prop where
  works : Works s u
  grounded : Grounded u
  vqOk : u.vqOk = true
  mbx : u.mbx = s.mbx
  mby : u.mby = s.mby
  q : u.q = s.q
  sb : u.sb = s.sb

section
variable {s u : State}

theorem Drawing.start (hg : Grounded s) (hv : s.vqOk = true) : Drawing s s :=
  ⟨Works.refl s, hg, hv, rfl, rfl, rfl, rfl⟩

theorem Drawing.payload (h : Drawing s u) : u.payloadOk = true := by
  obtain ⟨-, hpay, -⟩ := (vqOk_iff u).1 h.vqOk
  exact hpay

theorem Drawing.current_full (h : Drawing s u) : u.current.full u.npix = true := by
  obtain ⟨-, -, -, hcur, -⟩ := (vqOk_iff u).1 h.vqOk
  exact hcur

theorem Drawing.last_full (h : Drawing s u) : u.last.full u.npix = true := by
  obtain ⟨-, -, hseed, -⟩ := (vqOk_iff u).1 h.vqOk
  exact h.grounded.last hseed

theorem Drawing.advance (h : Drawing s u) (hp : u.pos.toNat < u.payEnd) : Drawing s (u.advance 1) := by
  obtain ⟨hd, hpay, hseed, hcur, hscan⟩ := (vqOk_iff u).1 h.vqOk
  exact { h with
    works := h.works.advance 1
    grounded := ⟨h.grounded.canonical, h.grounded.inp, h.grounded.last⟩
    vqOk := (vqOk_iff _).2 ⟨hd, (advance_payload hpay hp).1, hseed, hcur, hscan⟩ }

theorem Drawing.withFlag (h : Drawing s u) (flag : Half) {n : Nat} (hn : u.ranged = true → n ≤ 8) :
    Drawing s { u with flag := flag, flagN := n } := by
  have hw : Works s { u with flag := flag, flagN := n } := by
    refine { h.works with ranged := fun hb => ?_ }
    have hu := (ranged_iff _).1 (h.works.ranged hb)
    have hn := hn (h.works.ranged hb)
    simp only [ranged_iff]
    omega
  exact { h with works := hw, grounded := ⟨h.grounded.canonical, h.grounded.inp, h.grounded.last⟩, vqOk := h.vqOk }

theorem setCurrent_npix (u : State) (p : Planes) : (u.setCurrent p).npix = u.npix := by
  simp only [State.npix, State.width, State.height, State.setCurrent_cfgWidth, State.setCurrent_cfgHeight]

/-- `current` may be drawn on, as long as it stays full. -/
theorem Drawing.setCurrent (h : Drawing s u) {p : Planes} (hw : p.wf = true) (hp : p.full u.npix = true) :
    Drawing s (u.setCurrent p) := by
  obtain ⟨hd, hpay, hseed, -, hx, hy, hq⟩ := (vqOk_iff u).1 h.vqOk
  have hworks : Works u (u.setCurrent p) := (Works.refl u).setCurrent fun _ => hw
  have hpay' : (u.setCurrent p).payloadOk = true := by
    rw [payloadOk_iff] at hpay ⊢
    simpa only [State.payEnd, State.setCurrent_pay0, State.setCurrent_pos, State.setCurrent_payLen,
      State.setCurrent_inLen] using hpay
  refine ⟨h.works.setCurrent fun _ => hw, hworks.grounded h.grounded, (vqOk_iff _).2 ?_, ?_, ?_, ?_, ?_⟩
  · refine ⟨hworks.roqDimsOk.trans hd, hpay', ?_, ?_, ?_⟩
    · rw [State.setCurrent_status, hseed]
    · rw [State.setCurrent_current, setCurrent_npix, hp]
    · simpa only [State.width, State.height, State.setCurrent_mbx, State.setCurrent_mby, State.setCurrent_q,
        State.setCurrent_cfgWidth, State.setCurrent_cfgHeight] using ⟨hx, hy, hq⟩
  · rw [State.setCurrent_mbx, h.mbx]
  · rw [State.setCurrent_mby, h.mby]
  · rw [State.setCurrent_q, h.q]
  · rw [State.setCurrent_sb, h.sb]

theorem nextByte_draws (h : Drawing s u) : Safely (fun x => Drawing s x.2) (nextByte u) :=
  (nextByte_safely h.grounded h.payload).mono fun _ ⟨hp, hx⟩ => hx ▸ h.advance hp

theorem nextId_draws (h : Drawing s u) : Safely (fun x => Drawing s x.2) (nextId u) := by
  have refilled : Safely (Drawing s) (refillFlag u) := by
    unfold refillFlag
    split
    · exact meets_bind (nextByte_draws h) fun x hx => meets_bind (nextByte_draws hx) fun y hy =>
        meets_ok (hy.withFlag _ fun _ => by omega)
    · exact meets_ok h
  refine meets_bind refilled fun v hv => meets_ok ?_
  rw [takeId_frame]
  refine hv.withFlag _ fun hr => ?_
  have := (ranged_iff _).1 hr
  omega

theorem copyBlock_draws (h : Drawing s u) (n x y : Nat) (b : Byte) : Safely (Drawing s) (copyBlock n x y b u) := by
  have hfull := h.last_full
  obtain ⟨fy, fu, fv⟩ := (Planes.full_def _ _).1 hfull
  obtain ⟨wy, wu, wv⟩ := (Planes.wf_iff _).1 h.grounded.wf_last
  unfold copyBlock
  dsimp only
  split
  · exact meets_raise trivial
  · next hin =>
    obtain ⟨hx0, hy0, hx, hy⟩ : _ ∧ _ ∧ _ ∧ _ := by simpa only [not_or, not_lt] using hin
    have hsx : ((x : Int) + (motionVector u.biasX u.biasY b).1).toNat + n ≤ u.width := by omega
    have hsy : ((y : Int) + (motionVector u.biasX u.biasY b).2).toNat + n ≤ u.height := by omega
    obtain ⟨cy, ey⟩ := copyWrites_isSome wy fy hsx hsy x y
    obtain ⟨cu, eu⟩ := copyWrites_isSome wu fu hsx hsy x y
    obtain ⟨cv, ev⟩ := copyWrites_isSome wv fv hsx hsy x y
    refine safely_bind_ok ((known_eq_ok_iff ..).2 ey) (safely_bind_ok ((known_eq_ok_iff ..).2 eu)
      (safely_bind_ok ((known_eq_ok_iff ..).2 ev) (meets_ok ?_)))
    exact h.setCurrent (Planes.wf_writes _ _ _ h.grounded.wf_current)
      (Planes.full_writes h.grounded.wf_current h.current_full _ _ _)

theorem stampCell_draws (h : Drawing s u) (scale x y : Nat) (c : Byte) : Safely (Drawing s) (stampCell scale x y c u) := by
  unfold stampCell
  split
  · exact meets_raise trivial
  · exact meets_ok (h.setCurrent (Planes.wf_writes _ _ _ h.grounded.wf_current)
      (Planes.full_writes h.grounded.wf_current h.current_full _ _ _))

theorem stampQuad_draws (h : Drawing s u) (scale x y : Nat) (j : Byte) : Safely (Drawing s) (stampQuad scale x y j u) := by
  unfold stampQuad
  split
  · exact meets_raise trivial
  · exact meets_bind (stampCell_draws h ..) fun _ h => meets_bind (stampCell_draws h ..) fun _ h =>
      meets_bind (stampCell_draws h ..) fun _ h => stampCell_draws h ..

theorem cellTurn_draws (h : Drawing s u) (cc : Nat) (hcc : cc ≤ 3) : Safely (Drawing s) (cellTurn cc u) := by
  have hw : Works s { u with cc := cc } := by
    refine { h.works with ranged := fun hb => ?_ }
    have := (ranged_iff _).1 (h.works.ranged hb)
    simp only [ranged_iff]
    omega
  have h' : Drawing s { u with cc := cc } :=
    { h with works := hw, grounded := ⟨h.grounded.canonical, h.grounded.inp, h.grounded.last⟩, vqOk := h.vqOk }
  exact meets_bind (nextByte_draws h') fun x hx => stampCell_draws hx ..

/-! ### The scan -/

/-- The quadrants before the current one are fewer than the frame has. -/
theorem quadrantIndex_lt (h : u.vqOk = true) : u.quadrantIndex < u.quadrants := by
  obtain ⟨-, -, -, -, hx, hy, hq⟩ := (vqOk_iff u).1 h
  have hmb := address_lt hx hy
  unfold State.quadrantIndex State.quadrants
  rw [Nat.mul_assoc]
  omega

/-- What a vector code answers: the frame has ended and `last` is full, or the scan goes on with a smaller budget. -/
def Scans (n : Nat) (t : State) : Prop :=
  (t.status.seeded = true → t.last.full t.npix = true) ∧ Proceeds n t

theorem finishVqFrame_safely (hg : Grounded u) (h : u.current.full u.npix = true) (n : Nat) :
    Safely (Scans n) (finishVqFrame u) := by
  obtain ⟨fy, fu, fv⟩ := (Planes.full_def _ _).1 h
  obtain ⟨wy, wu, wv⟩ := (Planes.wf_iff _).1 hg.wf_current
  obtain ⟨y, ey⟩ := Memory.readRun_of_full wy fy (show 0 + u.npix ≤ u.npix by omega)
  obtain ⟨u', eu⟩ := Memory.readRun_of_full wu fu (show 0 + u.npix ≤ u.npix by omega)
  obtain ⟨v, ev⟩ := Memory.readRun_of_full wv fv (show 0 + u.npix ≤ u.npix by omega)
  refine safely_bind_ok ((known_eq_ok_iff ..).2 ey) (safely_bind_ok ((known_eq_ok_iff ..).2 eu)
    (safely_bind_ok ((known_eq_ok_iff ..).2 ev) (meets_ok ⟨fun _ => ?_, .inl rfl⟩)))
  rw [← h]
  show (if (!u.pp) = true then u.pl1 else u.pl0).full u.npix = (if u.pp = true then u.pl0 else u.pl1).full u.npix
  cases u.pp <;> rfl

/-- A state at a quadrant that is later in the order. -/
theorem scans_of_quadrant {t : State} {n : Nat} (hg : Grounded t) (hv : t.vqOk = true) (hp : t.phase = .quadrant)
    (hn : 5 * (t.quadrants - t.quadrantIndex) < n) : Scans n t := by
  refine ⟨hg.last, .inr ⟨by simp only [State.phaseOk, hp, hv], ?_⟩⟩
  simpa only [State.budget, hp] using hn

theorem nextQuadrant_scans (h : Drawing s u) {n : Nat}
    (hn : 5 * (u.quadrants - u.quadrantIndex) < n + 5) : Safely (Scans n) (nextQuadrant u) := by
  obtain ⟨hd, hpay, hseed, hcur, hx, hy, hq⟩ := (vqOk_iff u).1 h.vqOk
  have hlt := quadrantIndex_lt h.vqOk
  have hgr : ∀ q mbx mby, Grounded { u with q := q, mbx := mbx, mby := mby, phase := .quadrant } := fun _ _ _ =>
    ⟨h.grounded.canonical, h.grounded.inp, h.grounded.last⟩
  have later : ∀ q mbx mby, q ≤ 3 → mbx < u.width / 16 → mby < u.height / 16 →
      4 * (mby * (u.width / 16) + mbx) + q = u.quadrantIndex + 1 →
      Scans n { u with q := q, mbx := mbx, mby := mby, phase := .quadrant } := by
    intro q mbx mby hq' hx' hy' hidx
    refine scans_of_quadrant (hgr q mbx mby) ((vqOk_iff _).2 ⟨hd, hpay, hseed, hcur, hx', hy', hq'⟩) rfl ?_
    show 5 * (u.quadrants - (4 * (mby * (u.width / 16) + mbx) + q)) < n
    rw [hidx]
    omega
  unfold nextQuadrant
  split
  · refine meets_ok (later _ _ _ (by omega) hx hy ?_)
    unfold State.quadrantIndex
    omega
  · split
    · refine meets_ok (later _ _ _ (by omega) (by omega) hy ?_)
      unfold State.quadrantIndex
      omega
    · split
      · refine meets_ok (later _ _ _ (by omega) (by omega) (by omega) ?_)
        unfold State.quadrantIndex
        rw [Nat.add_mul]
        omega
      · exact finishVqFrame_safely h.grounded hcur n

theorem Drawing.index (h : Drawing s u) : u.quadrants = s.quadrants ∧ u.quadrantIndex = s.quadrantIndex := by
  simp only [State.quadrants, State.quadrantIndex, State.width, State.height, h.works.cfgWidth, h.works.cfgHeight, h.mbx,
    h.mby, h.q, and_self]

theorem nextQuadrant_scans_quadrant (hp : s.phase = .quadrant) (h : Drawing s u) :
    Safely (Scans s.budget) (nextQuadrant u) := by
  obtain ⟨hQ, hi⟩ := h.index
  refine nextQuadrant_scans h ?_
  rw [hQ, hi]
  simp only [State.budget, hp]
  omega

theorem nextSubBlock_scans (hp : s.phase = .subBlock) (hsb : s.sb ≤ 3) (h : Drawing s u) :
    Safely (Scans s.budget) (nextSubBlock u) := by
  obtain ⟨hQ, hi⟩ := h.index
  have hlt := quadrantIndex_lt h.vqOk
  have hsb' := h.sb
  have hbudget : s.budget = 5 * (s.quadrants - s.quadrantIndex) - 1 - s.sb := by simp only [State.budget, hp]
  rw [hbudget]
  unfold nextSubBlock
  split
  · refine meets_ok ⟨h.grounded.last, .inr ⟨?_, ?_⟩⟩
    · simp only [State.phaseOk, Bool.and_eq_true, decide_eq_true_eq]
      exact ⟨h.vqOk, by omega⟩
    · show 5 * (u.quadrants - u.quadrantIndex) - 1 - (u.sb + 1) < _
      omega
  · refine nextQuadrant_scans h ?_
    omega

theorem ccc8_scans (hp : s.phase = .quadrant) (h : Drawing s u) :
    Scans s.budget { u with sb := 0, phase := .subBlock } := by
  obtain ⟨hQ, hi⟩ := h.index
  have hlt := quadrantIndex_lt h.vqOk
  refine ⟨h.grounded.last, .inr ⟨?_, ?_⟩⟩
  · simp only [State.phaseOk, Bool.and_eq_true, decide_eq_true_eq]
    exact ⟨h.vqOk, by omega⟩
  · simp only [State.budget, hp]
    show 5 * (u.quadrants - u.quadrantIndex) - 1 - 0 < _
    omega

end

end Sys2Proof.Machine
end

section
/-! Liveness and termination (70 section 4): every instruction that a live state fetches answers a next state, which is live
and nearer to the end of its command. -/

namespace Sys2Proof.Machine

/-! ### What every instruction keeps -/

theorem ends_cmd {i : Instr} {u t : State} (h : Ends i u t) : t.cmd = u.cmd := by
  cases i
  case hufBuild => obtain ⟨hist, rfl⟩ := h; simp [buildTrees]
  case palLoad => obtain ⟨p, rfl⟩ := h; simp
  case vqSeed => cases h; simp
  case roqCodebook => obtain ⟨n1, n2, bs, -, -, rfl⟩ := h; simp [loadCodebook]
  case cinVideo | cinPalvideo | hufStep0 | hufStep1 => obtain ⟨bs, rfl⟩ := h; rfl
  case mot8 | fcc8 | sld8 | ccc8 | mot4 | fcc4 | sld4 | ccc4 => obtain ⟨bs, rfl⟩ := h; rfl
  case roqSndMono | roqSndStereo | dpcmPos | dpcmNeg => cases h; rfl
  all_goals cases h
  all_goals rfl

/-- No command waits behind a running one (70 R330). -/
theorem exec_cmd {i : Instr} {s t : State} (h : exec i s = .next t) (hs : i.format ≠ .hostcmd → s.cmd = none) :
    t.cmd = none := by
  by_cases hrst : i = .rst
  · subst hrst
    cases h
    rfl
  by_cases hclr : i = .clrerr
  · subst hclr
    cases h
    rfl
  obtain ⟨b, hb, hways⟩ := exec_cases h hrst hclr
  have hbegins : b.cmd = none := by
    rcases begins_cases hb with ⟨p, -, hhost, rfl⟩ | ⟨built, -, -, -, rfl⟩
    · exact hs hhost
    · rfl
  rcases hways with ⟨u, kind, hu, -, rfl⟩ | ⟨-, ⟨ht, -⟩ | ⟨u, hu, ht⟩⟩
  · exact raiseFault_cmd ..
  · exact ht.cmd.trans hbegins
  · exact (ends_cmd ht).trans (hu.cmd.trans hbegins)

theorem begins_grounded {i : Instr} {s b : State} (h : Begins i s b) (hs : Grounded s) : Grounded b := by
  rcases begins_cases h with ⟨p, -, -, rfl⟩ | ⟨built, -, -, -, rfl⟩
  · exact ⟨hs.canonical, hs.inp, hs.last⟩
  · have := startCommand_grounded hs
    exact ⟨this.canonical, this.inp, this.last⟩

theorem Owned.npix {i : Instr} {s t : State} (h : Owned i s t) : t.npix = s.npix := by
  obtain ⟨-, -, hw, hh⟩ := h.inputs
  simp only [State.npix, State.width, State.height, hw, hh]

theorem setLast_npix (u : State) (p : Planes) : (u.setLast p).npix = u.npix := by
  simp only [State.npix, State.width, State.height, State.setLast_cfgWidth, State.setLast_cfgHeight]

/-- VQ.SEED fills `last` (40 R154). -/
theorem seedEnds_last_full {u t : State} (hu : Grounded u) (h : SeedEnds u t) : t.last.full t.npix = true := by
  have hfull := Planes.full_overlay (n := u.npix) hu.wf_last (y := List.replicate u.npix 0)
      (u := List.replicate u.npix 128)
    (v := List.replicate u.npix 128) (by simp) (by simp) (by simp)
  rw [h]
  generalize u.last.overlay (List.replicate u.npix 0) (List.replicate u.npix 128) (List.replicate u.npix 128) = p at hfull
  show (u.setLast p).last.full (u.setLast p).npix = true
  rw [State.setLast_last, setLast_npix, hfull]

/-- An ending keeps the ground; the swap of a VQ frame does where it gives a full `last`. -/
theorem ends_grounded {i : Instr} {u t : State} (hu : Grounded u) (h : Ends i u t)
    (hswap : i.format ∈ [Format.id8, .id4] → t.status.frame = true → t.status.seeded = true → t.last.full t.npix = true) :
    Grounded t := by
  have howned := ends_owned h
  obtain ⟨hinp, hlen, -⟩ := howned.inputs
  refine ⟨(ends_sound h).1 hu.canonical, by rw [hinp, hlen]; exact hu.inp, fun hseed => ?_⟩
  by_cases hi : i = .vqSeed
  · subst hi
    exact seedEnds_last_full hu h
  rcases ends_last h hi with ⟨-, hlast⟩ | ⟨-, -, hframe, -, hf⟩
  · rw [hlast, howned.npix]
    exact hu.last ((howned.seeded hi).symm.trans hseed)
  · exact hswap hf hframe hseed

theorem exec_grounded {i : Instr} {s t : State} (h : exec i s = .next t) (hs : Grounded s)
    (hswap : i.format ∈ [Format.id8, .id4] → t.status.frame = true → t.status.seeded = true → t.last.full t.npix = true) :
    Grounded t := by
  by_cases hrst : i = .rst
  · subst hrst
    cases h
    exact ⟨rfl, rfl, fun h => by cases h⟩
  by_cases hclr : i = .clrerr
  · subst hclr
    cases h
    have := startCommand_grounded hs
    exact ⟨this.canonical, this.inp, this.last⟩
  obtain ⟨b, hb, ⟨u, kind, hu, -, rfl⟩ | ⟨-, ⟨ht, -⟩ | ⟨u, hu, ht⟩⟩⟩ := exec_cases h hrst hclr
  all_goals have hg := begins_grounded hb hs
  · exact raiseFault_grounded (hu.grounded hg) kind
  · exact ht.grounded hg
  · exact ends_grounded (hu.grounded hg) ht hswap

/-! ### How every instruction goes on -/

/-- An instruction answers a next state, in `P` or after a fault. -/
abbrev Answered (P : State → Prop) (o : Host.Outcome State Fault Refusal) : Prop := Concludes False P (fun _ _ => True) o

theorem answered_conclude {P : State → Prop} {r : Run State} (h : Safely P r) : Answered P (conclude r) :=
  concludes_of_meets h

/-- A command that its admission or its end leaves idle, or that waits for its record. -/
theorem answered_of_admission {s : State} {n : Nat} {f : State → Run State} (hs : Grounded s)
    (hf : Grounded (startCommand s) → Safely (Proceeds n) (f (startCommand s))) :
    Answered (Proceeds n) (conclude (admission s >>= f)) := by
  refine answered_conclude ?_
  cases herr : s.status.err with
  | true =>
    rw [admission_of_err s herr, raise_bind]
    exact meets_raise trivial
  | false =>
    rw [admission_of_noErr s herr, ok_bind]
    exact hf (startCommand_grounded hs)

/-- The budget of a state that waits for a record. -/
def recordBudget (s : State) : Nat := 8 * s.inLen.toNat + 5 * s.quadrants + 2

section
variable {s : State}

theorem execHufBuild_answered (hs : Grounded s) (n : Nat) : Answered (Proceeds n) (execHufBuild s) := by
  refine answered_of_admission hs fun hg => ?_
  dsimp only
  split
  · exact meets_raise trivial
  · next hshort =>
    rw [State.short_iff] at hshort
    have hlen : 0 + 65536 ≤ s.inLen.toNat := by simpa using hshort
    obtain ⟨hist, hhist⟩ :=
      Grounded.readIn (s := { startCommand s with status := { (startCommand s).status with built := false } })
        ⟨hg.canonical, hg.inp, hg.last⟩ hlen
    exact safely_bind_ok hhist (meets_ok (.inl (by simp)))

theorem execPalLoad_answered (hs : Grounded s) (n : Nat) : Answered (Proceeds n) (execPalLoad s) := by
  refine answered_of_admission hs fun hg => ?_
  dsimp only
  split
  · exact meets_raise trivial
  · next hshort =>
    rw [State.short_iff] at hshort
    have hlen : 0 + 768 ≤ s.inLen.toNat := by simpa using hshort
    obtain ⟨p, hp⟩ := Grounded.readIn hg (show 0 + 768 ≤ (startCommand s).inLen.toNat from hlen)
    exact safely_bind_ok hp (meets_ok (.inl (by simp)))

theorem execVqSeed_answered (hs : Grounded s) (n : Nat) : Answered (Proceeds n) (execVqSeed s) := by
  refine answered_of_admission hs fun _ => ?_
  dsimp only
  split
  · exact meets_raise trivial
  · exact meets_ok (.inl rfl)

theorem execCinRec_answered (hs : Grounded s) : Answered (Proceeds (recordBudget s + 1)) (execCinRec s) := by
  refine answered_of_admission hs fun _ => ?_
  dsimp only
  split
  · exact meets_raise trivial
  · split
    · exact meets_raise trivial
    · next hdims =>
      split
      · exact meets_raise trivial
      · refine meets_ok (.inr ⟨?_, Nat.lt_succ_self _⟩)
        show (startCommand s).cinDimsOk = true
        simpa using hdims

theorem execRoqChunk_answered (hs : Grounded s) : Answered (Proceeds (recordBudget s + 1)) (execRoqChunk s) := by
  refine answered_of_admission hs fun _ => ?_
  dsimp only
  split
  · exact meets_raise trivial
  · exact meets_ok (.inr ⟨rfl, Nat.lt_succ_self _⟩)

/-- The host commands. -/
theorem exec_answered_hostcmd {i : Instr} (hf : i.format = .hostcmd) (hs : Grounded s) :
    Answered (Proceeds (recordBudget s + 1)) (exec i s) := by
  cases i
  case rst => exact .inl (.inl rfl)
  case clrerr => exact .inl (.inl rfl)
  case hufBuild => exact execHufBuild_answered hs _
  case cinRec => exact execCinRec_answered hs
  case palLoad => exact execPalLoad_answered hs _
  case palDefault => exact answered_of_admission hs fun _ => meets_ok (.inl rfl)
  case vqSeed => exact execVqSeed_answered hs _
  case roqChunk => exact execRoqChunk_answered hs
  all_goals simp [Instr.format] at hf

/-- The CIN records. -/
theorem exec_answered_cinrec {i : Instr} (hf : i.format = .cinrec) (hs : Grounded s) (hdims : s.cinDimsOk = true) :
    Answered (Proceeds (recordBudget s)) (exec i s) := by
  have hlatch : ∀ w, Grounded (latchCommand w s) := fun w => ⟨hs.canonical, hs.inp, hs.last⟩
  have hbody : ∀ u : State, Grounded u → u.cinDimsOk = true → u.inLen = s.inLen →
      Safely (Proceeds (recordBudget s)) (cinBody u) := by
    intro u hg hd hlen
    refine cinBody_safely hg hd ?_
    rw [hlen, recordBudget]
    omega
  cases i
  case cinVideo => exact answered_conclude (hbody _ (hlatch 0) hdims rfl)
  case cinPalvideo =>
    refine answered_conclude (meets_bind (cinPalette_safely (hlatch 1)) ?_)
    rintro _ ⟨p, rfl⟩
    have hrest : ∀ n, Safely (Proceeds (recordBudget s))
        (cinBody (({ latchCommand 1 s with pal := p } : State).advance n)) :=
      fun n => hbody _ ⟨hs.canonical, hs.inp, hs.last⟩ hdims rfl
    exact hrest 768
  case cinRsvd => exact answered_conclude (meets_raise trivial)
  all_goals simp [Instr.format] at hf

/-- A chunk is entered with its payload inside IN. -/
theorem answered_of_enterChunk {type : Half} {size : Word} {arg : Half} {n : Nat} {f : State → Run State} (hs : Grounded s)
    (hf : ∀ u, Grounded u → u.payloadOk = true → Works s u → u.pos = u.pay0 → 8 + u.payLen.toNat ≤ u.inLen.toNat →
      Safely (Proceeds n) (f u)) :
    Answered (Proceeds n) (conclude (enterChunk type size arg s >>= f)) := by
  refine answered_conclude ?_
  rw [enterChunk_eq]
  split
  · exact meets_raise trivial
  · next hlen =>
    have hw := chunkEntry_works (Works.refl s) type size arg
    refine hf (chunkEntry type size arg s) (hw.grounded hs) ((payloadOk_iff _).2 ?_) hw rfl ?_
    · exact ⟨le_refl _, Nat.le_add_right _ _, by show 8 + size.toNat ≤ s.inLen.toNat; omega⟩
    · show 8 + size.toNat ≤ s.inLen.toNat
      omega

theorem codebookChunk_safely {u : State} {n : Nat} (hg : Grounded u) (hpay : u.payloadOk = true) :
    Safely (Proceeds n) (codebookChunk u) := by
  obtain ⟨h0, h1, h2⟩ := (payloadOk_iff u).1 hpay
  unfold codebookChunk
  dsimp only
  split
  · exact meets_raise trivial
  · next hlen =>
    unfold State.payEnd at h2
    obtain ⟨bs, hbs⟩ := hg.readIn (base := u.pay0.toNat)
      (n := cellCount u.recArg * 6 + quadCount u.recArg u.payLen.toNat * 4) (by omega)
    exact safely_bind_ok hbs (meets_ok (.inl rfl))

theorem copyFrame_safely {u : State} (hg : Grounded u) (hseed : u.status.seeded = true) :
    Safely (fun t => ∃ p, t = u.setCurrent p ∧ p.full u.npix = true) (copyFrame u) := by
  have hfull := hg.last hseed
  obtain ⟨fy, fu, fv⟩ := (Planes.full_def _ _).1 hfull
  obtain ⟨wy, wu, wv⟩ := (Planes.wf_iff _).1 hg.wf_last
  obtain ⟨y, ey⟩ := Memory.readRun_of_full wy fy (show 0 + u.npix ≤ u.npix by omega)
  obtain ⟨u', eu⟩ := Memory.readRun_of_full wu fu (show 0 + u.npix ≤ u.npix by omega)
  obtain ⟨v, ev⟩ := Memory.readRun_of_full wv fv (show 0 + u.npix ≤ u.npix by omega)
  refine safely_bind_ok ((known_eq_ok_iff ..).2 ey) (safely_bind_ok ((known_eq_ok_iff ..).2 eu)
    (safely_bind_ok ((known_eq_ok_iff ..).2 ev) (meets_ok ⟨_, rfl, ?_⟩)))
  exact Planes.full_overlay hg.wf_current (Memory.length_of_readRun _ _ _ _ ey) (Memory.length_of_readRun _ _ _ _ eu)
    (Memory.length_of_readRun _ _ _ _ ev)

theorem setCurrent_payloadOk {u : State} (p : Planes) (h : u.payloadOk = true) : (u.setCurrent p).payloadOk = true := by
  rw [payloadOk_iff] at h ⊢
  simpa only [State.payEnd, State.setCurrent_pay0, State.setCurrent_pos, State.setCurrent_payLen,
    State.setCurrent_inLen] using h

/-- A VQ chunk stands at its first quadrant with `current` a copy of a full `last` (42 R215). -/
theorem vqFrame_safely {u : State} {n : Nat} (hg : Grounded u) (hpay : u.payloadOk = true) (hn : 5 * u.quadrants < n) :
    Safely (Proceeds n) (vqFrame u) := by
  unfold vqFrame
  split
  · exact meets_raise trivial
  · next hdims =>
    split
    · exact meets_raise trivial
    · next hseed =>
      replace hdims : u.roqDimsOk = true := by simpa using hdims
      replace hseed : u.status.seeded = true := by simpa using hseed
      refine meets_bind (copyFrame_safely (u := { u with biasX := argHigh u.recArg, biasY := argLow u.recArg })
        ⟨hg.canonical, hg.inp, hg.last⟩ hseed) ?_
      rintro t ⟨p, ht, hp⟩
      have hdims' := hdims
      simp only [State.roqDimsOk, decide_eq_true_eq] at hdims'
      have hw : t.width = u.width ∧ t.height = u.height ∧ t.params = u.params := by
        rw [ht]
        simp only [State.width, State.height, State.setCurrent_cfgWidth, State.setCurrent_cfgHeight,
          State.setCurrent_params, and_self]
      obtain ⟨hwidth, hheight, hparams⟩ := hw
      refine meets_ok (.inr ⟨(vqOk_iff _).2 ⟨?_, ?_, ?_, ?_, ?_, ?_, ?_⟩, ?_⟩)
      · show t.roqDimsOk = true
        simp only [State.roqDimsOk, hwidth, hheight, hparams]
        exact hdims
      · show t.payloadOk = true
        rw [ht]
        exact setCurrent_payloadOk p hpay
      · show t.status.seeded = true
        rw [ht, State.setCurrent_status]
        exact hseed
      · show t.current.full t.npix = true
        rw [ht, State.setCurrent_current, setCurrent_npix]
        exact hp
      · show 0 < t.width / 16
        omega
      · show 0 < t.height / 16
        omega
      · show 0 ≤ 3
        omega
      · show 5 * (t.quadrants - _) < n
        have : t.quadrants = u.quadrants := by simp only [State.quadrants, hwidth, hheight]
        omega

/-- A sound chunk ends, or waits with the cursor at its payload. -/
theorem sound_proceeds {u : State} {n : Nat} (hp : u.phase = .sndMono ∨ u.phase = .sndStereo)
    (hpay : u.payloadOk = true)
    (hpos : u.pos = u.pay0) (hn : u.payLen.toNat + 1 < n) : Proceeds n (if u.payLen = 0 then finishSound u else u) := by
  split
  · exact .inl rfl
  · have hbudget : u.budget = u.payLen.toNat + 1 := by
      have : u.budget = u.payEnd - u.pos.toNat + 1 := by
        rcases hp with hp | hp <;> simp only [State.budget, hp]
      rw [this, State.payEnd, hpos]
      omega
    refine .inr ⟨?_, by rw [hbudget]; exact hn⟩
    rcases hp with hp | hp <;> simp only [State.phaseOk, hp, hpay]

/-- The RoQ chunks. -/
theorem exec_answered_roqchunk {i : Instr} (hf : i.format = .roqchunk) (hs : Grounded s) :
    Answered (Proceeds (recordBudget s)) (exec i s) := by
  have hskip : ∀ type size arg, Answered (Proceeds (recordBudget s))
      (conclude (enterChunk type size arg s >>= fun u => .ok (finishRecord u))) := fun type size arg =>
    answered_of_enterChunk hs fun u _ _ _ _ _ => meets_ok (.inl rfl)
  cases i
  case roqInfo size arg => exact hskip _ size arg
  case roqJpeg size arg => exact hskip _ size arg
  case roqHang size arg => exact hskip _ size arg
  case roqCodebook size arg => exact answered_of_enterChunk hs fun u hg hpay _ _ _ => codebookChunk_safely hg hpay
  case roqVq size arg =>
    refine answered_of_enterChunk hs fun u hg hpay hw _ _ => vqFrame_safely hg hpay ?_
    have : u.quadrants = s.quadrants := by
      simp only [State.quadrants, State.width, State.height, hw.cfgWidth, hw.cfgHeight]
    rw [this, recordBudget]
    omega
  case roqSndMono size arg =>
    refine answered_of_enterChunk hs fun u _ hpay hw hpos hlen =>
      meets_ok (sound_proceeds (u := { u with predL := arg, phase := .sndMono }) (.inl rfl) hpay hpos ?_)
    rw [hw.inLen] at hlen
    show u.payLen.toNat + 1 < recordBudget s
    rw [recordBudget]
    omega
  case roqSndStereo size arg =>
    refine answered_of_enterChunk hs fun u _ hpay hw hpos hlen => meets_ok (sound_proceeds
      (u := { u with predL := stereoSeedL arg, predR := stereoSeedR arg, phase := .sndStereo }) (.inr rfl) hpay hpos ?_)
    rw [hw.inLen] at hlen
    show u.payLen.toNat + 1 < recordBudget s
    rw [recordBudget]
    omega
  all_goals simp [Instr.format] at hf

/-- The codes of the 8x8 level. -/
theorem exec_answered_id8 {i : Instr} (hf : i.format = .id8) (hs : Grounded s) (hv : s.vqOk = true)
    (hp : s.phase = .quadrant) : Answered (Scans s.budget) (exec i s) := by
  have hid := nextId_draws (Drawing.start hs hv)
  have hnext : ∀ u, Drawing s u → Safely (Scans s.budget) (nextQuadrant u) := fun u => nextQuadrant_scans_quadrant hp
  cases i
  case mot8 => exact answered_conclude (meets_bind hid fun x hx => hnext _ hx)
  case fcc8 =>
    exact answered_conclude (meets_bind hid fun x hx => meets_bind (nextByte_draws hx) fun y hy =>
      meets_bind (copyBlock_draws hy ..) hnext)
  case sld8 =>
    exact answered_conclude (meets_bind hid fun x hx => meets_bind (nextByte_draws hx) fun y hy =>
      meets_bind (stampQuad_draws hy ..) hnext)
  case ccc8 => exact answered_conclude (meets_bind hid fun x hx => meets_ok (ccc8_scans hp hx))
  all_goals simp [Instr.format] at hf

/-- The codes of the 4x4 level. -/
theorem exec_answered_id4 {i : Instr} (hf : i.format = .id4) (hs : Grounded s) (hv : s.vqOk = true)
    (hp : s.phase = .subBlock) (hsb : s.sb ≤ 3) : Answered (Scans s.budget) (exec i s) := by
  have hid := nextId_draws (Drawing.start hs hv)
  have hnext : ∀ u, Drawing s u → Safely (Scans s.budget) (nextSubBlock u) := fun u => nextSubBlock_scans hp hsb
  cases i
  case mot4 => exact answered_conclude (meets_bind hid fun x hx => hnext _ hx)
  case fcc4 =>
    exact answered_conclude (meets_bind hid fun x hx => meets_bind (nextByte_draws hx) fun y hy =>
      meets_bind (copyBlock_draws hy ..) hnext)
  case sld4 =>
    exact answered_conclude (meets_bind hid fun x hx => meets_bind (nextByte_draws hx) fun y hy =>
      meets_bind (stampQuad_draws hy ..) hnext)
  case ccc4 =>
    exact answered_conclude (meets_bind hid fun x hx => meets_bind (cellTurn_draws hx 0 (by omega)) fun _ h =>
      meets_bind (cellTurn_draws h 1 (by omega)) fun _ h => meets_bind (cellTurn_draws h 2 (by omega)) fun _ h =>
      meets_bind (cellTurn_draws h 3 (by omega)) hnext)
  all_goals simp [Instr.format] at hf

/-- A sound code moves the cursor by one byte. -/
theorem dpcmStep_proceeds (d : Int) (hp : s.phase = .sndMono ∨ s.phase = .sndStereo) (hpay : s.payloadOk = true)
    (hpos : s.pos.toNat < s.payEnd) : Proceeds s.budget (dpcmStep d s) := by
  obtain ⟨hpay', hpos'⟩ := advance_payload hpay hpos
  have hw := (emitSample_works (Works.refl s) d).2
  have hsame : (emitSample d s).pos = (s.advance 1).pos ∧ (emitSample d s).payEnd = s.payEnd ∧
      (emitSample d s).payloadOk = (s.advance 1).payloadOk := by
    unfold emitSample
    split <;> exact ⟨rfl, rfl, rfl⟩
  obtain ⟨epos, eend, epay⟩ := hsame
  have hbudget : ∀ u : State, u.phase = s.phase → u.budget = u.payEnd - u.pos.toNat + 1 := by
    intro u hu
    rcases hp with hp | hp <;> simp only [State.budget, hu, hp]
  rw [dpcmStep_eq, hbudget s rfl]
  split
  · exact .inl rfl
  · refine .inr ⟨?_, ?_⟩
    · rcases hp with hp | hp <;> simp only [State.phaseOk, hw, hp, epay, hpay']
    · rw [hbudget _ hw, epos, eend, hpos']
      omega

end

end Sys2Proof.Machine
end

section
/-! The step and the run of a command: O58, O59 (70 R341). -/

namespace Sys2Proof.Machine

section
variable {s : State}

/-- The block has something to do. -/
def Active (s : State) : Prop := s.phase = .idle → s.cmd ≠ none

/-- What a fetched code says of the state it was fetched in. -/
def FetchedIn (s : State) : Option (Format × List Byte) → Prop
  | none => s.phase = .idle ∧ s.cmd = none
  | some _ => Active s ∧ (s.phase = .sndMono ∨ s.phase = .sndStereo → s.pos.toNat < s.payEnd)

theorem fetch_safely (hs : s.live = true) : Safely (FetchedIn s) (fetch s) := by
  obtain ⟨hg, hok, -⟩ := (live_iff s).1 hs
  have code : s.phase ≠ .idle → s.phase ≠ .sndMono → s.phase ≠ .sndStereo → ∀ c, FetchedIn s (some c) :=
    fun h1 h2 h3 _ => ⟨fun h => absurd h h1, fun h => (h.elim h2 h3).elim⟩
  have bytes : s.phase ≠ .idle → s.phase ≠ .sndMono → s.phase ≠ .sndStereo → ∀ n f,
      Safely (FetchedIn s) (if s.short n then raise s .truncated
        else readIn s s.pos.toNat n >>= fun bs => .ok (some (f, bs))) := by
    intro h1 h2 h3 n f
    split
    · exact meets_raise trivial
    · next hshort =>
      rw [State.short_iff] at hshort
      obtain ⟨bs, hbs⟩ := hg.readIn (show s.pos.toNat + n ≤ s.inLen.toNat by omega)
      exact safely_bind_ok hbs (meets_ok (code h1 h2 h3 _))
  cases hp : s.phase
  all_goals simp only [State.phaseOk, hp, Bool.and_eq_true, decide_eq_true_eq] at hok
  all_goals simp only [fetch, hp]
  case idle =>
    split
    · next hcmd => exact meets_ok ⟨hp, hcmd⟩
    · next c hcmd => exact meets_ok ⟨fun _ => by simp [hcmd], by simp [hp]⟩
  case cinRecord => exact bytes (by simp [hp]) (by simp [hp]) (by simp [hp]) 4 _
  case roqRecord => exact bytes (by simp [hp]) (by simp [hp]) (by simp [hp]) 8 _
  case huffman =>
    exact meets_bind (nextBit_safely hg hok.1.1.2) fun _ _ =>
      meets_ok (code (by simp [hp]) (by simp [hp]) (by simp [hp]) _)
  case quadrant =>
    exact meets_bind (nextId_draws (Drawing.start hg hok)) fun _ _ =>
      meets_ok (code (by simp [hp]) (by simp [hp]) (by simp [hp]) _)
  case subBlock =>
    exact meets_bind (nextId_draws (Drawing.start hg hok.1)) fun _ _ =>
      meets_ok (code (by simp [hp]) (by simp [hp]) (by simp [hp]) _)
  case sndMono =>
    exact meets_bind (nextByte_safely hg hok) fun x hx => meets_ok ⟨by simp [Active, hp], fun _ => hx.1⟩
  case sndStereo =>
    split
    · exact meets_raise trivial
    · exact meets_bind (nextByte_safely hg hok) fun x hx => meets_ok ⟨by simp [Active, hp], fun _ => hx.1⟩

theorem rejectCode_next (e : DecodeError) (bytes : List Byte) (s : State) : ∃ t, rejectCode e bytes s = .next t := by
  cases e <;> exact ⟨_, rfl⟩

/-- The step of a command that runs leads to a live state nearer to its end. -/
def Advances (s t : State) : Prop := t.live = true ∧ t.budget < s.budget

theorem budget_of_idle {t : State} (hp : t.phase = .idle) (hc : t.cmd = none) : t.budget = 0 := by
  simp [State.budget, hp, hc]

theorem budget_pos (hs : s.live = true) (ha : Active s) : 0 < s.budget := by
  obtain ⟨-, hok, -⟩ := (live_iff s).1 hs
  cases hp : s.phase
  all_goals simp only [State.phaseOk, hp, Bool.and_eq_true, decide_eq_true_eq] at hok
  all_goals simp only [State.budget, hp]
  case idle => simp [Option.isSome_iff_ne_none, ha hp]
  case quadrant =>
    have := quadrantIndex_lt hok
    omega
  case subBlock =>
    have := quadrantIndex_lt hok.1
    omega
  all_goals omega

theorem advances_raiseFault {u : State} (hs : s.live = true) (ha : Active s) (hu : Grounded u) (kind : Kind) :
    Advances s (raiseFault u kind) := by
  refine ⟨(live_iff _).2 ⟨raiseFault_grounded hu kind, ?_, fun h => absurd (raiseFault_phase ..) h⟩, ?_⟩
  · simp only [State.phaseOk, raiseFault_phase]
  · rw [budget_of_idle (raiseFault_phase ..) (raiseFault_cmd ..)]
    exact budget_pos hs ha

theorem advances_of_proceeds {t : State} (hs : s.live = true) (ha : Active s) (hg : Grounded t) (hc : t.cmd = none)
    (ht : Proceeds s.budget t) : Advances s t := by
  rcases ht with hp | ⟨hok, hb⟩
  · refine ⟨(live_iff t).2 ⟨hg, by simp only [State.phaseOk, hp], fun _ => hc⟩, ?_⟩
    rw [budget_of_idle hp hc]
    exact budget_pos hs ha
  · exact ⟨(live_iff t).2 ⟨hg, hok, fun _ => hc⟩, hb⟩

/-- An instruction of the format that its phase reads, in a live state. -/
theorem exec_advances {i : Instr} (hs : s.live = true) (ha : Active s) (hf : i.format = formatOf s.phase)
    (hpos : s.phase = .sndMono ∨ s.phase = .sndStereo → s.pos.toNat < s.payEnd) :
    ∃ t, exec i s = .next t ∧ Advances s t := by
  obtain ⟨hg, hok, hcmd⟩ := (live_iff s).1 hs
  have hhost : i.format ≠ .hostcmd → s.cmd = none := fun h =>
    hcmd fun hp => h (hf.trans ((formatOf_eq_hostcmd_iff _).2 hp))
  have plain : Answered (Proceeds s.budget) (exec i s) → i.format ∉ [Format.id8, .id4] →
      ∃ t, exec i s = .next t ∧ Advances s t := by
    intro h hvec
    cases he : exec i s with
    | next t =>
      have hgt := exec_grounded he hg fun hm => absurd hm hvec
      rw [he] at h
      rcases h with ht | ⟨u, kind, -, rfl⟩
      · exact ⟨t, rfl, advances_of_proceeds hs ha hgt (exec_cmd he hhost) ht⟩
      · exact ⟨_, rfl, advances_of_proceeds hs ha hgt (exec_cmd he hhost) (.inl (raiseFault_phase ..))⟩
    | fault f => rw [he] at h; exact h.elim
    | refused r => rw [he] at h; exact h.elim
  have vector : Answered (Scans s.budget) (exec i s) → ∃ t, exec i s = .next t ∧ Advances s t := by
    intro h
    cases he : exec i s with
    | next t =>
      rw [he] at h
      rcases h with ht | ⟨u, kind, -, rfl⟩
      · have hgt := exec_grounded he hg fun _ _ => ht.1
        exact ⟨t, rfl, advances_of_proceeds hs ha hgt (exec_cmd he hhost) ht.2⟩
      · have hgt := exec_grounded he hg fun _ hframe => by simp at hframe
        exact ⟨_, rfl, advances_of_proceeds hs ha hgt (exec_cmd he hhost) (.inl (raiseFault_phase ..))⟩
    | fault f => rw [he] at h; exact h.elim
    | refused r => rw [he] at h; exact h.elim
  cases hp : s.phase
  all_goals rw [hp] at hf
  all_goals simp only [State.phaseOk, hp, Bool.and_eq_true, decide_eq_true_eq] at hok
  case idle =>
    have hbudget : s.budget = recordBudget s + 1 := by
      simp only [State.budget, hp, if_pos (Option.isSome_iff_ne_none.2 (ha hp)), recordBudget]
    exact plain (hbudget ▸ exec_answered_hostcmd hf hg) (by simp [hf, formatOf])
  case cinRecord =>
    have hbudget : s.budget = recordBudget s := by simp only [State.budget, hp, recordBudget]
    exact plain (hbudget ▸ exec_answered_cinrec hf hg hok) (by simp [hf, formatOf])
  case roqRecord =>
    have hbudget : s.budget = recordBudget s := by simp only [State.budget, hp, recordBudget]
    exact plain (hbudget ▸ exec_answered_roqchunk hf hg) (by simp [hf, formatOf])
  case huffman =>
    refine plain ?_ (by simp [hf, formatOf])
    cases i
    case hufStep0 => exact answered_conclude (hufStep_safely hs hp false)
    case hufStep1 => exact answered_conclude (hufStep_safely hs hp true)
    all_goals cases hf
  case quadrant => exact vector (exec_answered_id8 hf hg hok hp)
  case subBlock => exact vector (exec_answered_id4 hf hg hok.1 hp hok.2)
  case sndMono | sndStereo =>
    refine plain ?_ (by simp [hf, formatOf])
    have hstep := fun d => dpcmStep_proceeds (s := s) d (by simp [hp]) hok (hpos (by simp [hp]))
    cases i
    case dpcmPos m => exact .inl (hstep _)
    case dpcmNeg m => exact .inl (hstep _)
    all_goals cases hf

/-- A step from a live state: nothing where there is nothing to do, else an advance. -/
theorem step_of_live (hs : s.live = true) :
    (s.phase = .idle ∧ s.cmd = none ∧ step s = .next s) ∨ ∃ t, step s = .next t ∧ Advances s t := by
  obtain ⟨hg, -, -⟩ := (live_iff s).1 hs
  have hfetch := meets_and (fetch_meets s) (fetch_safely hs)
  rcases step_cases s with ⟨stop, hf, hstep⟩ | ⟨hf, hstep⟩ | ⟨f, bs, i, hf, hd, hstep⟩ | ⟨f, bs, e, hf, hd, hstep⟩
  all_goals rw [hf] at hfetch
  · have ha : Active s := by
      intro hp hc
      simp [fetch, hp, hc] at hf
    rcases stop with ⟨u, kind⟩ | fault
    · obtain ⟨⟨hu, -⟩, -⟩ : RaisesOnly s [.truncated, .codecDecode] u kind ∧ True := hfetch
      exact .inr ⟨_, hstep, advances_raiseFault hs ha (hu.grounded hg) kind⟩
    · exact hfetch.elim
  · obtain ⟨-, hp, hc⟩ := hfetch
    exact .inl ⟨hp, hc, hstep⟩
  · obtain ⟨hformat, ha, hpos⟩ := hfetch
    have hi : i.format = formatOf s.phase := (encodeOfDecode _ _ _ _ hd).1.trans (hformat f bs rfl)
    obtain ⟨t, ht, hadv⟩ := exec_advances hs ha hi hpos
    exact .inr ⟨t, hstep.trans ht, hadv⟩
  · obtain ⟨-, ha, -⟩ := hfetch
    obtain ⟨t, ht⟩ := rejectCode_next e bs s
    obtain ⟨u, kind, hu | rfl, -, rfl⟩ := rejectCode_cases ht
    · exact .inr ⟨_, hstep.trans ht, advances_raiseFault hs ha (hu.grounded hg) kind⟩
    · exact .inr ⟨_, hstep.trans ht, advances_raiseFault hs ha (startCommand_grounded hg) kind⟩

end

/-- A run of one more step. -/
theorem run_succ {s t : State} (h : step s = .next t) (n : Nat) :
    Host.Core.run core (n + 1) s = Host.Core.run core n t := by
  have hcore : core.step s = .next t := h
  simp only [Host.Core.run, hcore]

/-- Settles O58. -/
theorem liveStatesStepToLiveStates : Obligations.LiveStatesStepToLiveStates := by
  intro s hs
  rcases step_of_live hs with ⟨-, -, hstep⟩ | ⟨t, hstep, hlive, -⟩
  · exact ⟨s, hstep, hs⟩
  · exact ⟨t, hstep, hlive⟩

/-- Settles O59: every step of a running command makes the budget smaller. -/
theorem everyCommandTerminates : Obligations.EveryCommandTerminates := by
  intro s
  induction hb : s.budget using Nat.strong_induction_on generalizing s with
  | _ b ih =>
    intro hs
    rcases step_of_live hs with ⟨hp, hc, -⟩ | ⟨t, hstep, hlive, hlt⟩
    · exact ⟨0, s, Nat.zero_le _, rfl, hp, hc, hs⟩
    · obtain ⟨n, u, hn, hrun, hu⟩ := ih t.budget (hb ▸ hlt) t rfl hlive
      refine ⟨n + 1, u, by omega, ?_, hu⟩
      exact (run_succ hstep n).trans hrun

end Sys2Proof.Machine
end

section
/-! Words that name no instruction, and commands that are refused (40 section 1, 60 section 3). -/

namespace Sys2Proof.Machine

/-- What a fault of a command that began in `b` leaves, when it is the first one (60 R290, R291). -/
structure Faulted (b : State) (kind : Kind) (pos : Word) (t : State) : Prop where
  errCode : t.errCode = kind.code
  errPos : t.errPos = pos
  status : t.status = b.status.fail
  phase : t.phase = .idle
  cmd : t.cmd = none
  root : t.root = b.root
  child : t.child = b.child
  pal : t.pal = b.pal
  cell : t.cell = b.cell
  quad : t.quad = b.quad
  nv1 : t.nv1 = b.nv1
  nv2 : t.nv2 = b.nv2
  pp : t.pp = b.pp
  inp : t.inp = b.inp

theorem Works.faulted {b u : State} (h : Works b u) (herr : b.status.err = false) (kind : Kind) :
    Faulted b kind u.pos (raiseFault u kind) := by
  constructor <;> simp [h.status, h.root, h.child, h.pal, h.cell, h.quad, h.nv1, h.nv2, h.pp, h.inp, herr]

/-- What a fault keeps where the block has no output of the command yet. -/
structure Untouched (b t : State) : Prop where
  pl0 : t.pl0 = b.pl0
  pl1 : t.pl1 = b.pl1
  idx : t.idx = b.idx
  rgba : t.rgba = b.rgba

/-- A fault in a phase that has written no output loses none. -/
theorem raiseFault_untouched {u : State} (h : u.phase = .idle ∨ u.phase = .roqRecord) (kind : Kind) :
    Untouched u (raiseFault u kind) := by
  rcases h with h | h <;> constructor <;> simp [forgetOutputs, h]

/-- A fault at the start of a command. -/
theorem startCommand_faulted {s : State} (herr : s.status.err = false) (kind : Kind) :
    Faulted s kind 0 (raiseFault (startCommand s) kind) := by
  constructor <;> simp [herr]

theorem startCommand_untouched (s : State) (kind : Kind) : Untouched s (raiseFault (startCommand s) kind) := by
  have h := raiseFault_untouched (u := startCommand s) (.inl rfl) kind
  exact ⟨h.pl0, h.pl1, h.idx, h.rgba⟩

theorem step_of_reject {s : State} {f : Format} {bs : List Byte} {e : DecodeError}
    (hf : fetch s = .ok (some (f, bs))) (hd : decode s.params f bs = .error e) : step s = rejectCode e bs s := by
  simp only [step, hf, hd]

theorem decodeHostCmd_of_notMem {c : Byte}
    (hc : c ∉ ([0x01, 0x02, 0x10, 0x11, 0x12, 0x13, 0x20, 0x21] : List Byte)) :
    decodeHostCmd c = .error (.undefinedCommand c) := by
  simp only [List.mem_cons, List.not_mem_nil, or_false, not_or] at hc
  simp only [decodeHostCmd, hc, if_false]

theorem decodeRecord_of_three_le {w : Word} (h : 3 ≤ w.toNat) : decodeRecord w = .error (.undefinedRecord w) := by
  unfold decodeRecord
  rw [if_neg, if_neg, if_neg] <;>
  · rintro rfl
    simp at h

theorem decodeChunk_of_notMem {p : Params} {type : Half} (size : Word) (arg : Half) (h : type ∉ p.types) :
    decodeChunk p type size arg = .error (.unknownChunk type) := by
  simp only [Params.types, List.mem_cons, List.not_mem_nil, or_false, not_or] at h
  simp only [decodeChunk, h, if_false]

/-- Settles O6. -/
theorem undefinedWordsRaiseTheirFaults : Obligations.UndefinedWordsRaiseTheirFaults := by
  intro s herr
  obtain ⟨-, hcommand, hrecord, hchunk, -⟩ := fetchReadsTheNextCode s
  refine ⟨fun c hp hc hundef => ?command, fun b0 b1 b2 b3 hp hpos hlen hr hw => ?record,
    fun b0 b1 b2 b3 b4 b5 b6 b7 hp hpos hlen hr htype => ?chunk⟩
  case command =>
    have hstep := step_of_reject (hcommand c hp hc) (decodeHostCmd_of_notMem hundef)
    have hf := startCommand_faulted herr .state
    have hu := startCommand_untouched s .state
    exact ⟨_, hstep, hf.errCode, hf.errPos, hf.status, hf.phase, hf.cmd, hf.root, hf.child, hf.pal, hf.cell, hf.quad,
      hf.nv1, hf.nv2, hf.pp, hu.pl0, hu.pl1, hu.idx, hu.rgba, hf.inp⟩
  case record =>
    have hfetch := hrecord [b0, b1, b2, b3] hp (by simpa [hpos] using hlen) (by simpa [hpos] using hr)
    have hstep := step_of_reject hfetch (decodeRecord_of_three_le hw)
    have hf := (latchCommand_works (Works.refl s) (le32 b0 b1 b2 b3)).faulted herr .format
    refine ⟨_, hstep, hf.errCode, hf.errPos.trans ?_, hf.status, hf.phase, hf.root, hf.child, hf.pal⟩
    simp [latchCommand, hpos]
  case chunk =>
    have hfetch := hchunk [b0, b1, b2, b3, b4, b5, b6, b7] hp (by simpa [hpos] using hlen) (by simpa [hpos] using hr)
    have hstep := step_of_reject hfetch (decodeChunk_of_notMem (le32 b2 b3 b4 b5) (le16 b6 b7) htype)
    have hw : Works s { s with
        recType := le16 b0 b1, recSize := le32 b2 b3 b4 b5, recArg := le16 b6 b7, pos := 8 } := { Works.refl s with }
    have hf := hw.faulted herr .format
    have hu := raiseFault_untouched (u := { s with
        recType := le16 b0 b1, recSize := le32 b2 b3 b4 b5, recArg := le16 b6 b7, pos := 8 }) (.inr hp) .format
    exact ⟨_, hstep, hf.errCode, hf.errPos, hf.status, hf.phase, hf.cell, hf.quad, hf.nv1, hf.nv2, hf.pp, hu.pl0, hu.pl1⟩

/-- With ERR set every host command but RST and CLRERR is refused at its admission (40 R141). -/
theorem exec_of_err {i : Instr} {s : State} (hf : i.format = .hostcmd) (hrst : i ≠ .rst) (hclr : i ≠ .clrerr)
    (herr : s.status.err = true) : exec i s = .next (raiseFault (startCommand s) .state) := by
  have refused : ∀ f : State → Run State,
      conclude (admission s >>= f) = .next (raiseFault (startCommand s) .state) := fun f => by
    rw [admission_of_err s herr, raise_bind, conclude_raise]
  cases i
  case rst => exact absurd rfl hrst
  case clrerr => exact absurd rfl hclr
  case hufBuild | cinRec | palLoad | palDefault | vqSeed | roqChunk => exact refused _
  all_goals simp [Instr.format] at hf

/-- Settles O8. -/
theorem firstFaultIsKept : Obligations.FirstFaultIsKept := by
  intro s c hp hc herr h1 h2
  obtain ⟨-, hcommand, -⟩ := fetchReadsTheNextCode s
  have hfetch := hcommand c hp hc
  have hentry : raiseFault (startCommand s) .state = { s with
      cmd := none, pcm := [], pcmLen := 0, consumed := 0, pos := 0
      status := { s.status with busy := false, done := false, frame := false, audio := false } } := by
    rw [raiseFault, forgetOutputs_of_idle (startCommand_phase s)]
    simp [startCommand, herr, hp, Status.fail, Status.start]
  rw [← hentry]
  rcases hd : decodeHostCmd c with e | i
  · have he : rejectCode e [c] s = .next (raiseFault (startCommand s) .state) := by
      unfold decodeHostCmd at hd
      (repeat' split at hd) <;> cases hd
      rfl
    exact (step_of_reject hfetch hd).trans he
  · obtain ⟨hf, hbytes⟩ := encodeOfDecode s.params .hostcmd [c] i hd
    have hrst : i ≠ .rst := by
      rintro rfl
      exact h1 (List.cons.inj hbytes).1.symm
    have hclr : i ≠ .clrerr := by
      rintro rfl
      exact h2 (List.cons.inj hbytes).1.symm
    have hstep : step s = exec i s := by
      have hd' : decode s.params .hostcmd [c] = .ok i := hd
      simp only [step, hfetch, hd']
    exact hstep.trans (exec_of_err hf hrst hclr herr)

/-! ### PAL.LOAD and CIN.REC -/

theorem entry_paletteOf (p : List Byte) (i : Byte) :
    ((∀ v ∈ p, v.toNat ≤ 63) → entry (paletteOf p) i = ⟨expand6 (p.getD (3 * i.toNat) 0),
      expand6 (p.getD (3 * i.toNat + 1) 0), expand6 (p.getD (3 * i.toNat + 2) 0)⟩) ∧
    ((∃ v ∈ p, 63 < v.toNat) → entry (paletteOf p) i = ⟨p.getD (3 * i.toNat) 0, p.getD (3 * i.toNat + 1) 0,
      p.getD (3 * i.toNat + 2) 0⟩) := by
  unfold paletteOf
  rw [entry_ofFn]
  refine ⟨fun h => ?_, fun ⟨v, hv, hlarge⟩ => ?_⟩
  · have hsix : (p.all fun v => decide (v.toNat ≤ 63)) = true := by simpa using h
    simp only [hsix, if_true]
    rfl
  · have hsix : (p.all fun v => decide (v.toNat ≤ 63)) = false := by
      rw [List.all_eq_false]
      exact ⟨v, hv, by simpa using hlarge⟩
    simp only [hsix, Bool.false_eq_true, if_false]
    rfl

/-- Settles O15. -/
theorem palLoadDetectsSixBits : Obligations.PalLoadDetectsSixBits := by
  intro s herr
  simp only [exec, execPalLoad, admission_of_noErr s herr, ok_bind]
  refine ⟨fun p hlen hr => ?loaded, fun hlen => ?short⟩
  case loaded =>
    have hshort : (startCommand s).short 768 = false := short_of_le (by simpa using hlen)
    have hread : readIn (startCommand s) 0 768 = .ok p := (readIn_eq_ok_iff ..).2 hr
    rw [hshort, hread]
    refine ⟨_, rfl, fun i => entry_paletteOf p i, ?_⟩
    simp [finishCommand, State.advance, startCommand]
  case short =>
    rw [short_of_lt (by simpa using hlen)]
    have hf := startCommand_faulted herr .truncated
    exact ⟨_, rfl, hf.errCode, hf.errPos, hf.status, hf.pal⟩

/-- Settles O19. -/
theorem cinRecIsAdmittedInOrder : Obligations.CinRecIsAdmittedInOrder := by
  intro s herr
  have hdims : (startCommand s).cinDimsOk = s.cinDimsOk := rfl
  have hbuilt : (startCommand s).status.built = s.status.built := rfl
  have hw : Works (startCommand s) { startCommand s with phase := .cinRecord } := { Works.refl (startCommand s) with }
  simp only [exec, execCinRec, admission_of_noErr s herr, ok_bind, hdims, hbuilt]
  have hu := startCommand_untouched s
  have hf := startCommand_faulted herr
  refine ⟨fun hb hd hlen => ?_, fun hb => ?_, fun hb hd => ?_, fun hb hd hlen => ?_⟩
  · rw [hb, hd, short_of_le (by simpa using hlen)]
    rfl
  · rw [hb]
    exact ⟨_, rfl, (hf .state).errCode, (hf .state).errPos, (hu .state).idx, (hu .state).rgba⟩
  · rw [hb, hd]
    exact ⟨_, rfl, (hf .dimension).errCode, (hf .dimension).errPos, (hu .dimension).idx, (hu .dimension).rgba⟩
  · rw [hb, hd, short_of_lt (by simpa using hlen)]
    have hf := hw.faulted herr .truncated
    exact ⟨_, rfl, hf.errCode, hf.errPos, hf.pal, hf.root, hf.child⟩

/-! ### The CIN records -/

/-- CIN.VIDEO read at the start of a record. -/
theorem execCinVideo_of_pos {s : State} (hpos : s.pos = 0) :
    execCinVideo s = conclude (cinBody { s with recCmd := 0, pos := 4 }) := by
  rw [execCinVideo, latchCommand, hpos]
  rfl

/-- CIN.PALVIDEO read at the start of a record, with its palette there (41 R186). -/
theorem execCinPalvideo_of_palette {s : State} {p : List Byte} (hpos : s.pos = 0) (hlen : 772 ≤ s.inLen.toNat)
    (hr : s.inp.readRun 4 768 = some p) :
    execCinPalvideo s = conclude (cinBody { s with recCmd := 1, pal := paletteOf p, pos := 772 }) := by
  have hlatch : (latchCommand 1 s).pos = 4 := by simp [latchCommand, hpos]
  have hpal := cinPalette_of_bytes (latchCommand 1 s) p (by rw [hlatch]; exact hlen) (by rw [hlatch]; exact hr)
  rw [execCinPalvideo, hpal, ok_bind]
  simp [State.advance, latchCommand, hpos]

/-- The start of a frame from the fields of its record, wherever they stand. -/
theorem cinBody_starts {u : State} {base : Nat} (hpos : u.pos = BitVec.ofNat 32 base) (hbase : base < 2 ^ 31)
    {a0 a1 a2 a3 b0 b1 b2 b3 : Byte} (ha : u.inp.readRun base 4 = some [a0, a1, a2, a3])
    (hb : u.inp.readRun (base + 4) 4 = some [b0, b1, b2, b3]) (hsize : 4 < (le32 a0 a1 a2 a3).toNat)
    (hpix : (le32 b0 b1 b2 b3).toNat = u.npix) (hpay : base + 4 + (le32 a0 a1 a2 a3).toNat ≤ u.inLen.toNat) :
    cinBody u = startPixels u.npix { u with
      chunkSize := le32 a0 a1 a2 a3, decodedSize := le32 b0 b1 b2 b3, pay0 := BitVec.ofNat 32 (base + 8)
      payLen := le32 a0 a1 a2 a3 - 4, pos := BitVec.ofNat 32 (base + 8)
      ctx := 0, bitcnt := 0, k := 0, phase := .huffman } := by
  have hbase' : u.pos.toNat = base := by rw [hpos, BitVec.toNat_ofNat]; omega
  have hbody := cinBody_of_fields u a0 a1 a2 a3 b0 b1 b2 b3 (by rwa [hbase']) (by rwa [hbase']) (by omega) (by omega)
    hpix (by omega)
  have hpayLen : le32 a0 a1 a2 a3 - 4 ≠ 0 := by
    intro h
    bv_omega
  rw [hbody, huffmanFrame_of_payload _ hpayLen, hbase']
  rfl

/-- Settles O20. -/
theorem cinVideoStartsTheFrame : Obligations.CinVideoStartsTheFrame := by
  intro s a0 a1 a2 a3 b0 b1 b2 b3 size entered hpos hdims ha hb hsize hpix hlen
  have hstart : exec .cinVideo s = conclude (startPixels s.npix entered) := by
    show execCinVideo s = _
    rw [execCinVideo_of_pos hpos]
    exact congrArg conclude (cinBody_starts (u := { s with recCmd := 0, pos := 4 }) (base := 4) rfl (by decide) ha hb hsize
      hpix (by omega))
  refine ⟨fun hroot => ?_, hstart⟩
  rw [hstart, startPixels_of_tree _ _ (npix_of_cinDimsOk s hdims).1 hroot]
  rfl

/-- A fault of the record's fields. -/
theorem faulted_of_cinBody {u : State} {kind : Kind} {pos : Nat} (herr : u.status.err = false)
    (h : ∃ t, cinBody u = raise t kind ∧ t.pos = BitVec.ofNat 32 pos ∧
      t = { u with
        pos := t.pos, chunkSize := t.chunkSize, decodedSize := t.decodedSize, pay0 := t.pay0, payLen := t.payLen }) :
    ∃ t, conclude (cinBody u) = .next t ∧ Faulted u kind (BitVec.ofNat 32 pos) t := by
  obtain ⟨v, hraise, hpos, hv⟩ := h
  have hw : Works u v := hv ▸ { Works.refl u with }
  exact ⟨_, by rw [hraise, conclude_raise], hpos ▸ hw.faulted herr kind⟩

/-- Settles O23. -/
theorem cinVideoFaultsInOrder : Obligations.CinVideoFaultsInOrder := by
  intro s a0 a1 a2 a3 b0 b1 b2 b3 size decoded faults hpos herr hdims
  have hnpix := (npix_of_cinDimsOk s hdims).1
  obtain ⟨hsize, hfields⟩ := cinBody_faults { s with recCmd := 0, pos := 4 } a0 a1 a2 a3 b0 b1 b2 b3
  have settle : ∀ kind pos, (∃ t, conclude (cinBody { s with recCmd := 0, pos := 4 }) = .next t ∧
      Faulted { s with recCmd := 0, pos := 4 } kind (BitVec.ofNat 32 pos) t) →
      faults kind.code (BitVec.ofNat 32 pos) := by
    rintro kind pos ⟨t, ht, hf⟩
    exact ⟨t, (execCinVideo_of_pos hpos).trans ht, hf.errCode, hf.errPos, hf.status, hf.pal, hf.root, hf.child⟩
  refine ⟨fun h => settle _ _ (faulted_of_cinBody herr (hsize h)), fun h8 ha => ?_⟩
  obtain ⟨hdecoded, hchecks⟩ := hfields h8 ha
  refine ⟨fun h => settle _ _ (faulted_of_cinBody herr (hdecoded h)), fun h12 hb => ?_⟩
  obtain ⟨hsmall, hwrong, hpast, hempty⟩ := hchecks h12 hb
  exact ⟨fun h => settle _ _ (faulted_of_cinBody herr (hsmall h)),
    fun h h' => settle _ _ (faulted_of_cinBody herr (hwrong h h')),
    fun h h' h'' => settle _ _ (faulted_of_cinBody herr (hpast h h' h'')),
    fun h h' => settle _ _ (faulted_of_cinBody herr (hempty h h' hnpix))⟩

/-- A palette that is cut short (40 R146). -/
theorem execCinPalvideo_of_short {s : State} (hpos : s.pos = 0) (hlen : s.inLen.toNat < 772) :
    execCinPalvideo s = .next (raiseFault (latchCommand 1 s) .truncated) := by
  have hshort : (latchCommand 1 s).short 768 = true := short_of_lt (by
    show s.inLen.toNat < (BitVec.ofNat 32 (s.pos.toNat + 4)).toNat + 768
    rw [hpos]
    exact hlen)
  rw [execCinPalvideo, cinPalette, hshort]
  rfl

/-- Settles O21. -/
theorem cinPalvideoLoadsThePaletteFirst : Obligations.CinPalvideoLoadsThePaletteFirst := by
  intro s hpos
  refine ⟨?starts, fun herr hlen => ?short, ?later⟩
  case starts =>
    intro p a0 a1 a2 a3 b0 b1 b2 b3 size entered hdims hr ha hb hsize hpix hlen
    have hstart : exec .cinPalvideo s = conclude (startPixels s.npix entered) := by
      show execCinPalvideo s = _
      rw [execCinPalvideo_of_palette hpos (by omega) hr]
      exact congrArg conclude (cinBody_starts (u := { s with recCmd := 1, pal := paletteOf p, pos := 772 }) (base := 772)
        rfl (by decide) ha hb hsize hpix (by omega))
    refine ⟨fun hroot => ?_, hstart⟩
    rw [hstart, startPixels_of_tree _ _ (npix_of_cinDimsOk s hdims).1 hroot]
    rfl
  case short =>
    have hf := (latchCommand_works (Works.refl s) 1).faulted herr .truncated
    refine ⟨_, execCinPalvideo_of_short hpos hlen, hf.errCode, hf.errPos.trans ?_, hf.status, hf.pal⟩
    simp [latchCommand, hpos]
  case later =>
    intro p a0 a1 a2 a3 b0 b1 b2 b3 size decoded faults herr hlen hr
    obtain ⟨hsize, hfields⟩ :=
      cinBody_faults { s with recCmd := 1, pal := paletteOf p, pos := 772 } a0 a1 a2 a3 b0 b1 b2 b3
    have settle : ∀ kind pos, (∃ t, conclude (cinBody { s with recCmd := 1, pal := paletteOf p, pos := 772 }) = .next t ∧
        Faulted { s with recCmd := 1, pal := paletteOf p, pos := 772 } kind (BitVec.ofNat 32 pos) t) →
        faults kind.code (BitVec.ofNat 32 pos) := by
      rintro kind pos ⟨t, ht, hf⟩
      exact ⟨t, (execCinPalvideo_of_palette hpos hlen hr).trans ht, hf.errCode, hf.errPos, hf.status, hf.pal, hf.root,
        hf.child⟩
    refine ⟨fun h => settle _ _ (faulted_of_cinBody herr (hsize h)), fun h776 ha => ?_⟩
    obtain ⟨hdecoded, hchecks⟩ := hfields h776 ha
    refine ⟨fun h => settle _ _ (faulted_of_cinBody herr (hdecoded h)), fun h780 hb hdims => ?_⟩
    obtain ⟨hsmall, hwrong, hpast, hempty⟩ := hchecks h780 hb
    exact ⟨fun h => settle _ _ (faulted_of_cinBody herr (hsmall h)),
      fun h h' => settle _ _ (faulted_of_cinBody herr (hwrong h h')),
      fun h h' h'' => settle _ _ (faulted_of_cinBody herr (hpast h h' h'')),
      fun h h' => settle _ _ (faulted_of_cinBody herr (hempty h h' (npix_of_cinDimsOk s hdims).1))⟩

end Sys2Proof.Machine
end

section
/-! The Huffman walk (41 section 2): bits, pixels, degenerate contexts, the end of the frame. -/

namespace Sys2Proof.Machine

/-! ### Bytes of pixels -/

theorem length_palettePixels (pal : Vector Rgb 256) (is : List Byte) :
    (is.flatMap (palettePixel pal)).length = 4 * is.length := by
  induction is with
  | nil => rfl
  | cons i is ih =>
    rw [List.flatMap_cons, List.length_append, ih, List.length_cons]
    simp only [palettePixel, pixelBytes, List.length_cons, List.length_nil]
    omega

/-- Pixel `j` of a materialized frame stands at bytes 4j .. 4j + 3 (20 R74). -/
theorem getElem?_palettePixels (pal : Vector Rgb 256) {is : List Byte} {j : Nat} {v : Byte} (h : is[j]? = some v) {r : Nat}
    (hr : r < 4) : (is.flatMap (palettePixel pal))[4 * j + r]? = (palettePixel pal v)[r]? := by
  induction is generalizing j with
  | nil => simp at h
  | cons i is ih =>
    rw [List.flatMap_cons]
    cases j with
    | zero =>
      obtain rfl : i = v := by simpa using h
      rw [List.getElem?_append_left (by simpa [palettePixel, pixelBytes] using hr)]
      simp
    | succ j =>
      have hlen : (palettePixel pal i).length = 4 := rfl
      rw [List.getElem?_append_right (by omega), hlen, show 4 * (j + 1) + r - 4 = 4 * j + r by omega]
      exact ih (by simpa using h)

/-! ### One step of the walk -/

section
variable {s u : State} {bit b : Bool}

theorem childOf_nextBit (h : nextBit s = .ok (bit, u)) : u.childOf b = s.childOf b := by
  rw [nextBit_frame s u bit h]
  rfl

/-- The state with the leaf `e` stored as the pixel `k` and its context entered (41 R182). -/
def storeLeaf (e : BitVec 9) (s u : State) : State :=
  { u with idx := s.idx.write s.k.toNat (e.setWidth 8), ctx := e.setWidth 8, k := s.k + 1, node := e }

/-- A consumed bit with a child (41 R178, R182). -/
theorem hufStep_of_child {e : BitVec 9} (h : nextBit s = .ok (bit, u)) (hc : s.childOf b = some e) :
    hufStep b s = if 256 ≤ e.toNat then .ok { u with node := e }
      else startPixels (s.npix - (s.k + 1).toNat) (storeLeaf e s u) := by
  have hframe := nextBit_frame s u bit h
  have hidx : u.idx = s.idx := by rw [hframe]
  have hk : u.k = s.k := by rw [hframe]
  have hnpix : u.npix = s.npix := by rw [hframe]; rfl
  have hleaf : emitPixel { u with node := e } = storeLeaf e s u := by
    rw [storeLeaf, ← hidx, ← hk]
    rfl
  rw [hufStep, h, ok_bind]
  dsimp only
  rw [childOf_nextBit h, hc]
  dsimp only
  rw [hleaf]
  show (if 256 ≤ e.toNat then _ else startPixels (u.npix - (s.k + 1).toNat) (storeLeaf e s u)) = _
  rw [hnpix]

/-- A consumed bit without a child (41 R181). -/
theorem hufStep_of_noChild (h : nextBit s = .ok (bit, u)) (hc : s.childOf b = none) :
    hufStep b s = raise u .codecDecode := by
  rw [hufStep, h, ok_bind]
  dsimp only
  rw [childOf_nextBit h, hc]

theorem succ_k_toNat (hdims : s.cinDimsOk = true) (hk : s.k.toNat + 1 ≤ s.npix) : (s.k + 1).toNat = s.k.toNat + 1 := by
  have := (npix_of_cinDimsOk s hdims).2
  rw [BitVec.toNat_add_of_lt (by simp; omega)]
  rfl

theorem exec_hufStep {i : Instr} (hi : (i, b) ∈ [(Instr.hufStep0, false), (.hufStep1, true)]) (s : State) :
    exec i s = conclude (hufStep b s) := by
  simp only [List.mem_cons, Prod.mk.injEq, List.not_mem_nil, or_false] at hi
  rcases hi with ⟨rfl, rfl⟩ | ⟨rfl, rfl⟩ <;> rfl

end

/-- Settles O25. -/
theorem hufStepFollowsTheChild : Obligations.HufStepFollowsTheChild := by
  intro s u bit b i e hi hbit hc stored
  rw [exec_hufStep hi, hufStep_of_child hbit hc]
  refine ⟨fun he => ?inner, fun he hdims hk => ?leaf, nextBit_frame s u bit hbit⟩
  case inner => rw [if_pos he, conclude_ok]
  case leaf =>
    have hframe := nextBit_frame s u bit hbit
    have hroot : stored.root = s.root := by
      show u.root = s.root
      rw [hframe]
    rw [if_neg (by omega), succ_k_toNat hdims hk.le]
    refine ⟨fun htree => ?_, rfl⟩
    have htree' : 256 ≤ (entry (storeLeaf e s u).root (storeLeaf e s u).ctx).toNat := by
      show 256 ≤ (entry stored.root (e.setWidth 8)).toNat
      rwa [hroot]
    rw [startPixels_of_tree _ _ (by omega) htree', conclude_ok, ← hroot]
    rfl

/-- Settles O26. -/
theorem lastPixelEndsTheFrame : Obligations.LastPixelEndsTheFrame := by
  intro s u bit b i e is hi hbit hc he hdims hk hread
  have hframe := nextBit_frame s u bit hbit
  have hnpix : (storeLeaf e s u).npix = s.npix := by
    show u.npix = s.npix
    rw [hframe]
    rfl
  have hpal : u.pal = s.pal := by rw [hframe]
  have hrgba : u.rgba = s.rgba := by rw [hframe]
  have hend : u.payEnd = s.payEnd := by rw [hframe]; rfl
  have hstatus : u.status = s.status := by rw [hframe]
  have hlen : is.length = s.npix := Memory.length_of_readRun _ _ _ _ hread
  have hfinish := (finishCinFrame_eq_ok_iff (storeLeaf e s u) _).2 ⟨is, by rw [hnpix]; exact hread, rfl⟩
  have hpixel : ∀ j v, is[j]? = some v → ∀ r < 4,
      (u.rgba.overlay (is.flatMap (palettePixel u.pal))).read (4 * j + r) = (palettePixel s.pal v)[r]? := by
    intro j v hv r hr
    have hj := (List.getElem?_eq_some_iff.1 hv).1
    rw [Memory.read_overlay, if_pos (by rw [length_palettePixels]; omega), getElem?_palettePixels u.pal hv hr, hpal]
  have hexec : exec i s = .next (finishRecord { storeLeaf e s u with
      rgba := u.rgba.overlay (is.flatMap (palettePixel u.pal)), status := { u.status with frame := true } }) := by
    rw [exec_hufStep hi, hufStep_of_child hbit hc, if_neg (by omega), succ_k_toNat hdims hk.le, hk, Nat.sub_self]
    exact congrArg conclude hfinish
  refine ⟨_, hexec, rfl, fun j v hv => ⟨hpixel j v hv 0 (by decide), hpixel j v hv 1 (by decide),
    hpixel j v hv 2 (by decide), hpixel j v hv 3 (by decide)⟩, fun a ha => ?_, ?_⟩
  · show (u.rgba.overlay (is.flatMap (palettePixel u.pal))).read a = s.rgba.read a
    rw [Memory.read_overlay, if_neg (by rw [length_palettePixels]; omega), hrgba]
  · rw [← hend, ← hstatus]
    rfl

/-! ### Degenerate contexts -/

section
variable {s : State}

/-- A pixel that starts in a degenerate context under HUF_DEGENERATE = fault (41 R183). -/
theorem startPixels_of_fault {n : Nat} (hn : 0 < n) (hroot : (entry s.root s.ctx).toNat < 256)
    (hp : s.params.hufDegenerate = .fault) :
    startPixels n s = raise { s with node := entry s.root s.ctx } .codecDecode := by
  cases n with
  | zero => omega
  | succ n =>
    unfold startPixels
    dsimp only
    rw [if_neg (by omega), hp]

/-- A pixel that starts in a context of root 255 under emit_root is 255 (41 R183). -/
theorem startPixels_of_emitRoot {n : Nat} (hroot : entry s.root s.ctx = 255) (hp : s.params.hufDegenerate = .emitRoot) :
    startPixels (n + 1) s = startPixels n (storeLeaf 255 s s) := by
  rw [startPixels]
  dsimp only
  rw [hroot, if_neg (by decide), hp]
  rfl

end

theorem faulted_of_raise {b v : State} {r : Run State} {kind : Kind} (h : r = raise v kind) (hw : Works b v)
    (herr : b.status.err = false) : ∃ t, conclude r = .next t ∧ Faulted b kind v.pos t :=
  ⟨_, by rw [h, conclude_raise], hw.faulted herr kind⟩

/-- Settles O27. -/
theorem hufStepFaults : Obligations.HufStepFaults := by
  refine ⟨?first, ?walk⟩
  case first =>
    intro s i base pal a0 a1 a2 a3 b0 b1 b2 b3 size hi hpos herr hdims ha hb hsize hpix hlen hroot hfault
    have hnpix := (npix_of_cinDimsOk s hdims).1
    have frame : ∀ (u : State), Works { s with pal := pal } u → u.pos = BitVec.ofNat 32 base → base < 2 ^ 31 →
        ∃ t, conclude (cinBody u) = .next t ∧ Faulted { s with pal := pal } .codecDecode (BitVec.ofNat 32 (base + 8)) t := by
      intro u hw hupos hbase
      have hstart := cinBody_starts hupos hbase (by rw [hw.inp]; exact ha) (by rw [hw.inp]; exact hb) hsize
        (by rw [hw.npix]; exact hpix) (by rw [hw.inLen]; exact hlen)
      rw [startPixels_of_fault (by rw [hw.npix]; exact hnpix) (by rw [hw.root]; exact hroot)
        (by rw [hw.params]; exact hfault)] at hstart
      refine faulted_of_raise (b := { s with pal := pal }) hstart { hw with ranged := fun hr => ?_ } herr
      have := (ranged_iff _).1 (hw.ranged hr)
      simp only [ranged_iff]
      omega
    rcases hi with ⟨heq, rfl⟩ | ⟨heq, p, hr, rfl⟩
    · obtain ⟨rfl, rfl⟩ := Prod.mk.inj heq
      obtain ⟨t, ht, hf⟩ := frame { s with recCmd := 0, pos := 4 } { Works.refl s with } rfl (by decide)
      exact ⟨t, (execCinVideo_of_pos hpos).trans ht, hf.errCode, hf.errPos, hf.status, hf.pal, hf.root, hf.child⟩
    · obtain ⟨rfl, rfl⟩ := Prod.mk.inj heq
      obtain ⟨t, ht, hf⟩ := frame { s with recCmd := 1, pal := paletteOf p, pos := 772 }
        { Works.refl { s with pal := paletteOf p } with } rfl (by decide)
      exact ⟨t, (execCinPalvideo_of_palette hpos (by omega) hr).trans ht, hf.errCode, hf.errPos, hf.status, hf.pal,
        hf.root, hf.child⟩
  case walk =>
    intro s b i hi herr hp
    obtain ⟨-, -, hexhausted⟩ := bitsComeLeastSignificantFirst s
    rw [exec_hufStep hi]
    refine ⟨fun h0 hend => ?_, fun bit u hbit hc => ?_, fun bit u e hbit hc he hdims hk hroot hfault => ?_⟩
    · have hf := (Works.refl s).faulted herr .codecDecode
      have hfetch : fetch s = .error (.raised s .codecDecode) := by
        simp only [fetch, hp, hexhausted h0 hend, raise_bind]
        rfl
      exact ⟨_, by simp only [step, hfetch, conclude_raised], hf.errCode, hf.errPos, hf.pal, hf.root, hf.child⟩
    · have hw : Works s u := by
        have := nextBit_works (Works.refl s)
        rwa [hbit] at this
      have hf := hw.faulted herr .codecDecode
      exact ⟨_, by rw [hufStep_of_noChild hbit hc, conclude_raise], hf.errCode, hf.errPos, hf.pal, hf.root, hf.child⟩
    · have hw : Works s u := by
        have := nextBit_works (Works.refl s)
        rwa [hbit] at this
      have hframe := nextBit_frame s u bit hbit
      have hleaf : storeLeaf e s u = emitPixel { u with node := e } := by
        have hidx : u.idx = s.idx := by rw [hframe]
        have hk : u.k = s.k := by rw [hframe]
        rw [storeLeaf, ← hidx, ← hk]
        rfl
      have hnode : Works s { u with node := e } := { hw with }
      have hws : Works s (storeLeaf e s u) := hleaf ▸ emitPixel_works hnode
      have hwr : Works s { storeLeaf e s u with node := entry (storeLeaf e s u).root (storeLeaf e s u).ctx } :=
        { hws with }
      have hf := hwr.faulted herr .codecDecode
      refine ⟨_, ?_, hf.errCode, hf.errPos, hf.pal⟩
      rw [hufStep_of_child hbit hc, if_neg (by omega), succ_k_toNat hdims hk.le, startPixels_of_fault (by omega)
        (by rw [hws.root]; exact hroot) (by rw [hws.params]; exact hfault), conclude_raise]

/-- What a frame whose remaining pixels are all 255 ends in (41 R183, R184). -/
def FilledFrom (s t : State) : Prop :=
  t.status.frame = true ∧ t.status.done = true ∧ t.phase = .idle ∧
  t.bitbuf = s.bitbuf ∧ t.bitcnt = s.bitcnt ∧ t.consumed = BitVec.ofNat 32 s.payEnd ∧
  (∀ j < s.npix, t.idx.read j = if s.k.toNat ≤ j then some 255 else s.idx.read j) ∧
  t.root = s.root ∧ t.child = s.child ∧ t.pal = s.pal

section
variable {s : State}

theorem finishCinFrame_fills (hw : s.idx.wf = true) (hfull : s.idx.full s.k.toNat = true) (hk : s.k.toNat = s.npix) :
    ∃ t, finishCinFrame s = .ok t ∧ FilledFrom s t := by
  rw [hk] at hfull
  obtain ⟨is, his⟩ := Memory.readRun_of_full hw hfull (show 0 + s.npix ≤ s.npix by omega)
  refine ⟨_, (finishCinFrame_eq_ok_iff _ _).2 ⟨is, his, rfl⟩, rfl, rfl, rfl, rfl, rfl, rfl, fun j hj => ?_, rfl, rfl, rfl⟩
  rw [if_neg (by omega)]
  rfl

/-- A pixel of 255 before the filled ones. -/
theorem filledFrom_of_storeLeaf {t : State} (hk : (s.k + 1).toNat = s.k.toNat + 1)
    (h : FilledFrom (storeLeaf 255 s s) t) :
    FilledFrom s t := by
  obtain ⟨hframe, hdone, hp, hbuf, hcnt, hcons, hidx, hroot, hchild, hpal⟩ := h
  refine ⟨hframe, hdone, hp, hbuf, hcnt, hcons, fun j hj => ?_, hroot, hchild, hpal⟩
  have hj' : t.idx.read j = if (s.k + 1).toNat ≤ j then some 255 else (s.idx.write s.k.toNat 255).read j := hidx j hj
  rw [hj', hk, Memory.read_write]
  rcases lt_trichotomy j s.k.toNat with hlt | heq | hgt
  · rw [if_neg (by omega), if_neg (by omega), if_neg (by omega)]
  · rw [if_neg (by omega), if_pos heq, if_pos (by omega)]
  · rw [if_pos (by omega), if_pos (by omega)]

/-- From a context of root 255 on, with context 255 degenerate too, the rest of the frame is 255. -/
theorem startPixels_fills (n : Nat) {s : State} (hw : s.idx.wf = true) (hfull : s.idx.full s.k.toNat = true)
    (hdims : s.cinDimsOk = true) (hp : s.params.hufDegenerate = .emitRoot) (hroot : entry s.root s.ctx = 255)
    (hnext : n ≤ 1 ∨ entry s.root 255 = 255) (hk : s.k.toNat + n = s.npix) :
    ∃ t, startPixels n s = .ok t ∧ FilledFrom s t := by
  induction n generalizing s with
  | zero => exact finishCinFrame_fills hw hfull (by omega)
  | succ n ih =>
    have hsucc := succ_k_toNat hdims (show s.k.toNat + 1 ≤ s.npix by omega)
    have hw' : (storeLeaf 255 s s).idx.wf = true := Memory.wf_write _ _ _ hw
    have hfull' : (storeLeaf 255 s s).idx.full (storeLeaf 255 s s).k.toNat = true := by
      show Memory.full (s.idx.write s.k.toNat _) (s.k + 1).toNat = true
      rw [hsucc]
      exact Memory.full_write_succ hw hfull _
    have hk' : (storeLeaf 255 s s).k.toNat + n = (storeLeaf 255 s s).npix := by
      show (s.k + 1).toNat + n = s.npix
      omega
    have hrest : ∃ t, startPixels n (storeLeaf 255 s s) = .ok t ∧ FilledFrom (storeLeaf 255 s s) t := by
      rcases Nat.eq_zero_or_pos n with rfl | hn
      · exact finishCinFrame_fills hw' hfull' (by omega)
      · have h255 : entry s.root 255 = 255 := hnext.resolve_left (by omega)
        exact ih hw' hfull' hdims hp h255 (.inr h255) hk'
    obtain ⟨t, ht, hfilled⟩ := hrest
    exact ⟨t, (startPixels_of_emitRoot hroot hp).trans ht, filledFrom_of_storeLeaf hsucc hfilled⟩

end

/-- Settles O28. -/
theorem degenerateContextsEmit255 : Obligations.DegenerateContextsEmit255 := by
  intro n s hw hdims hp hroot hk
  refine ⟨fun hn htree => ?_, fun hn hfull => startPixels_fills n hw hfull hdims hp hroot (hn.imp_left Nat.le_of_eq) hk⟩
  obtain ⟨m, rfl⟩ : ∃ m, n = m + 1 := ⟨n - 1, by omega⟩
  have htree' : 256 ≤ (entry (storeLeaf 255 s s).root (storeLeaf 255 s s).ctx).toNat := htree
  rw [startPixels_of_emitRoot hroot hp, startPixels_of_tree _ _ (by omega) htree']
  rfl

end Sys2Proof.Machine
end

section
/-! RoQ chunks and the plane sets (40 sections 4 and 5, 42 sections 1 and 2). -/

namespace Sys2Proof.Machine

/-- A chunk whose payload runs past IN_LEN, whatever its unit would do (40 R148). -/
theorem enterChunk_faulted {s : State} (type : Half) {size : Word} (arg : Half) (f : State → Run State)
    (herr : s.status.err = false) (hlen : s.inLen.toNat < 8 + size.toNat) (hp : s.phase = .roqRecord) :
    ∃ t, conclude (enterChunk type size arg s >>= f) = .next t ∧ Faulted s .truncated 8 t ∧ t.consumed = 0 ∧
      Untouched s t := by
  have hu := raiseFault_untouched (u := chunkEntry type size arg s) (.inr hp) .truncated
  refine ⟨_, ?_, (chunkEntry_works (Works.refl s) type size arg).faulted herr .truncated, raiseFault_consumed ..,
    ⟨hu.pl0, hu.pl1, hu.idx, hu.rgba⟩⟩
  rw [enterChunk_eq, if_pos hlen, raise_bind, conclude_raise]

/-- Settles O32. -/
theorem truncatedChunksKeepEverything : Obligations.TruncatedChunksKeepEverything := by
  intro s size arg i hi hp herr hlen
  have hchunk : ∃ type f, exec i s = conclude (enterChunk type size arg s >>= f) := by
    simp only [List.mem_cons, List.not_mem_nil, or_false] at hi
    rcases hi with rfl | rfl | rfl | rfl | rfl | rfl | rfl <;> exact ⟨_, _, rfl⟩
  obtain ⟨type, f, hexec⟩ := hchunk
  obtain ⟨t, ht, hf, hcons, hu⟩ := enterChunk_faulted type arg f herr hlen hp
  exact ⟨t, hexec.trans ht, hf.errCode, hf.errPos, hf.status, hcons, hf.cell, hf.quad, hf.nv1, hf.nv2, hf.pp, hu.pl0, hu.pl1,
    hf.pal, hf.root, hf.child, hu.idx, hu.rgba⟩

/-- Settles O34. -/
theorem codebookIsReplacedWhole : Obligations.CodebookIsReplacedWhole := by
  intro s size arg n1 n2 hlen
  have hexec : exec (.roqCodebook size arg) s = conclude (codebookChunk (chunkEntry s.params.typeCodebook size arg s)) := by
    show execRoqCodebook size arg s = _
    rw [execRoqCodebook, enterChunk_of_present _ arg hlen, ok_bind]
  rw [hexec]
  refine ⟨fun bs hfit hr => ?loaded, fun hshort herr hp => ?short⟩
  case loaded =>
    have hchunk : codebookChunk (chunkEntry s.params.typeCodebook size arg s) =
        .ok (finishRecord { loadCodebook n1 n2 bs (chunkEntry s.params.typeCodebook size arg s) with
          status := { s.status with cbook := true } }) := by
      have hread : readIn (chunkEntry s.params.typeCodebook size arg s) 8 (n1 * 6 + n2 * 4) = .ok bs :=
        (readIn_eq_ok_iff ..).2 hr
      unfold codebookChunk
      dsimp only
      rw [if_neg (by show ¬ size.toNat < n1 * 6 + n2 * 4; omega)]
      exact (congrArg (· >>= _) hread).trans rfl
    rw [hchunk]
    refine ⟨_, rfl, by simp [loadCodebook], by simp [loadCodebook], fun i hi => ?_, fun j hj => ?_, ?_⟩
    · simp only [finishRecord_cell, loadCodebook, entry_ofFn]
      exact if_pos hi
    · simp only [finishRecord_quad, loadCodebook, entry_ofFn]
      exact if_pos hj
    · simp [finishRecord, finishCommand, loadCodebook, chunkEntry, Status.finish]
  case short =>
    have hchunk : codebookChunk (chunkEntry s.params.typeCodebook size arg s) =
        raise (chunkEntry s.params.typeCodebook size arg s) .truncated := if_pos hshort
    obtain ⟨t, ht, hf⟩ := faulted_of_raise hchunk (chunkEntry_works (Works.refl s) ..) herr
    exact ⟨t, ht, hf.errCode, hf.errPos, hf.status, hf.cell, hf.quad, hf.nv1, hf.nv2⟩

/-! ### Whole planes -/

/-- A plane written from a list of `n` equal bytes. -/
theorem Memory.read_overlay_replicate (m : Memory) (n : Nat) (v : Byte) (a : Nat) :
    (m.overlay (List.replicate n v)).read a = if a < n then some v else m.read a := by
  rw [Memory.read_overlay, List.length_replicate]
  split
  · next h => simp [h]
  · rfl

/-- A plane written from the first `n` elements of another. -/
theorem Memory.read_overlay_readRun {src m : Memory} (hw : src.wf = true) {n : Nat} {bs : List Byte}
    (h : src.readRun 0 n = some bs) (a : Nat) : (m.overlay bs).read a = if a < n then src.read a else m.read a := by
  obtain ⟨hlen, hread⟩ := (Memory.readRun_eq_some_iff src hw 0 n bs).1 h
  rw [Memory.read_overlay, hlen]
  split
  · next ha => rw [← hread a ha, Nat.zero_add]
  · rfl

theorem setLast_eq (s : State) (p : Planes) :
    s.setLast p = { s with pl0 := (s.setLast p).pl0, pl1 := (s.setLast p).pl1 } := by
  unfold State.setLast
  split <;> rfl

theorem setCurrent_eq (s : State) (p : Planes) :
    s.setCurrent p = { s with pl0 := (s.setCurrent p).pl0, pl1 := (s.setCurrent p).pl1 } := by
  unfold State.setCurrent
  split <;> rfl

/-- Settles O35. -/
theorem vqSeedBlackensLast : Obligations.VqSeedBlackensLast := by
  intro s herr
  have hdims : (startCommand s).roqDimsOk = s.roqDimsOk := rfl
  simp only [exec, execVqSeed, admission_of_noErr s herr, ok_bind, hdims]
  refine ⟨fun hd => ?seeded, fun hd => ?illegal⟩
  case seeded =>
    rw [hd]
    generalize hp : (startCommand s).last.overlay (List.replicate (startCommand s).npix 0)
      (List.replicate (startCommand s).npix 128) (List.replicate (startCommand s).npix 128) = p
    generalize ht : finishCommand { (startCommand s).setLast p with
      status := { ((startCommand s).setLast p).status with seeded := true } } = t
    have hlast : t.last = p := by
      rw [← ht]
      exact State.setLast_last (startCommand s) p
    have hp' : p = s.last.overlay (List.replicate s.npix 0) (List.replicate s.npix 128) (List.replicate s.npix 128) :=
      hp.symm
    refine ⟨t, ht ▸ rfl, fun a ha => ?_, fun a ha => ?_, ?_, ?_⟩
    · rw [hlast, hp']
      simp only [Planes.overlay, Memory.read_overlay_replicate, if_pos ha, and_self]
    · rw [hlast, hp']
      simp only [Planes.overlay, Memory.read_overlay_replicate, if_neg (Nat.not_lt.2 ha), and_self]
    · rw [← ht]
      exact State.setLast_current (startCommand s) p
    · rw [← ht, setLast_eq]
      rfl
  case illegal =>
    rw [hd]
    have hf := startCommand_faulted herr .dimension
    have hu := startCommand_untouched s .dimension
    exact ⟨_, rfl, hf.errCode, hf.errPos, hf.status, hu.pl0, hu.pl1⟩

/-- Settles O36. -/
theorem vqFrameStartsAsACopyOfLast : Obligations.VqFrameStartsAsACopyOfLast := by
  intro s size arg hlen
  have hexec : exec (.roqVq size arg) s = conclude (vqFrame (chunkEntry s.params.typeVq size arg s)) := by
    show execRoqVq size arg s = _
    rw [execRoqVq, enterChunk_of_present _ arg hlen, ok_bind]
  have hdims : (chunkEntry s.params.typeVq size arg s).roqDimsOk = s.roqDimsOk := rfl
  have hseeded : (chunkEntry s.params.typeVq size arg s).status.seeded = s.status.seeded := rfl
  have hw := chunkEntry_works (Works.refl s) s.params.typeVq size arg
  rw [hexec]
  refine ⟨fun hd hs hfull hcan => ?copied, fun herr hp hd => ?dimension, fun herr hp hd hs => ?unseeded⟩
  case copied =>
    obtain ⟨fy, fu, fv⟩ := (Planes.full_def _ _).1 hfull
    obtain ⟨-, -, hlastwf, -⟩ := (canonical_iff s).1 hcan
    obtain ⟨wy, wu, wv⟩ := (Planes.wf_iff _).1 hlastwf
    obtain ⟨y, ey⟩ := Memory.readRun_of_full wy fy (show 0 + s.npix ≤ s.npix by omega)
    obtain ⟨u, eu⟩ := Memory.readRun_of_full wu fu (show 0 + s.npix ≤ s.npix by omega)
    obtain ⟨v, ev⟩ := Memory.readRun_of_full wv fv (show 0 + s.npix ≤ s.npix by omega)
    generalize hb : ({ chunkEntry s.params.typeVq size arg s with biasX := argHigh arg, biasY := argLow arg } : State) = b
    have hbl : b.last = s.last ∧ b.current = s.current ∧ b.npix = s.npix := by
      rw [← hb]
      exact ⟨rfl, rfl, rfl⟩
    obtain ⟨hbl, hbc, hbn⟩ := hbl
    have hcopy := (copyFrame_eq_ok_iff b _).2
      ⟨y, u, v, by rw [hbl, hbn]; exact ey, by rw [hbl, hbn]; exact eu, by rw [hbl, hbn]; exact ev, rfl⟩
    generalize hp : b.current.overlay y u v = p at hcopy
    have hframe : vqFrame (chunkEntry s.params.typeVq size arg s) =
        .ok { b.setCurrent p with flagN := 0, mbx := 0, mby := 0, q := 0, phase := .quadrant } := by
      unfold vqFrame
      rw [hdims, hd, hseeded, hs]
      show (copyFrame { chunkEntry s.params.typeVq size arg s with biasX := argHigh arg, biasY := argLow arg } >>= _) = _
      rw [hb, hcopy, ok_bind]
    have hcur : (b.setCurrent p).current = p := State.setCurrent_current b p
    refine ⟨_, by rw [hframe, conclude_ok], fun a ha => ?_, fun a ha => ?_, ?_, ?_⟩
    · show (b.setCurrent p).current.y.read a = _ ∧ (b.setCurrent p).current.u.read a = _ ∧
        (b.setCurrent p).current.v.read a = _
      rw [hcur, ← hp]
      simp only [Planes.overlay, Memory.read_overlay_readRun wy ey, Memory.read_overlay_readRun wu eu,
        Memory.read_overlay_readRun wv ev, if_pos ha, and_self]
    · show (b.setCurrent p).current.y.read a = _ ∧ (b.setCurrent p).current.u.read a = _ ∧
        (b.setCurrent p).current.v.read a = _
      rw [hcur, ← hp, hbc]
      simp only [Planes.overlay, Memory.read_overlay_readRun wy ey, Memory.read_overlay_readRun wu eu,
        Memory.read_overlay_readRun wv ev, if_neg (Nat.not_lt.2 ha), and_self]
    · exact (State.setCurrent_last b p).trans hbl
    · rw [setCurrent_eq, ← hb]
      rfl
  case dimension =>
    have hframe : vqFrame (chunkEntry s.params.typeVq size arg s) = raise (chunkEntry s.params.typeVq size arg s)
        .dimension := by
      unfold vqFrame
      rw [hdims, hd]
      rfl
    have hf := hw.faulted herr .dimension
    have hu := raiseFault_untouched (u := chunkEntry s.params.typeVq size arg s) (.inr hp) .dimension
    exact ⟨_, by rw [hframe, conclude_raise], hf.errCode, hf.errPos, hu.pl0, hu.pl1, hf.pp, hf.cell, hf.quad, hf.nv1, hf.nv2⟩
  case unseeded =>
    have hframe : vqFrame (chunkEntry s.params.typeVq size arg s) = raise (chunkEntry s.params.typeVq size arg s) .state := by
      unfold vqFrame
      rw [hdims, hd, hseeded, hs]
      rfl
    have hf := hw.faulted herr .state
    have hu := raiseFault_untouched (u := chunkEntry s.params.typeVq size arg s) (.inr hp) .state
    exact ⟨_, by rw [hframe, conclude_raise], hf.errCode, hf.errPos, hu.pl0, hu.pl1, hf.pp, hf.cell, hf.quad, hf.nv1, hf.nv2⟩

end Sys2Proof.Machine
end

section
/-! Blocks of a plane: what the writes of a block leave (42 R226, R232 to R235). -/

namespace Sys2Proof.Machine

/-- A pixel's address gives its row and its column. -/
theorem address_inj {w r r' c c' : Nat} (hc : c < w) (hc' : c' < w) (h : r * w + c = r' * w + c') : r = r' ∧ c = c' := by
  have hr : r = r' := by
    have h1 : (r * w + c) / w = r := by rw [Nat.mul_comm, Nat.mul_add_div (by omega), Nat.div_eq_of_lt hc, Nat.add_zero]
    have h2 : (r' * w + c') / w = r' := by rw [Nat.mul_comm, Nat.mul_add_div (by omega), Nat.div_eq_of_lt hc', Nat.add_zero]
    rw [← h1, ← h2, h]
  subst hr
  omega

/-- The writes of a block stamp it. -/
theorem stamped_blockWrites {w x y n : Nat} (f : Nat → Nat → Byte) (m : Memory) (hx : x + n ≤ w) :
    stamped w n x y f m (m.writes (blockWrites w x y n f)) := by
  refine ⟨fun i hi j hj => ?_, fun a ha => ?_⟩
  · exact Memory.read_writes_of_mem _ m (nodup_blockWrites w x y n f hx) ((y + j) * w + (x + i), f i j)
      (List.mem_map.2 ⟨(i, j), (mem_blockOffsets n (i, j)).2 ⟨hi, hj⟩, rfl⟩)
  · refine Memory.read_writes_of_notMem _ m a fun c hc => ?_
    obtain ⟨o, ho, rfl⟩ := List.mem_map.1 hc
    obtain ⟨hi, hj⟩ := (mem_blockOffsets n o).1 ho
    exact (ha o.1 hi o.2 hj).symm

theorem stamped_congr {w n x y : Nat} {f g : Nat → Nat → Byte} {m m' : Memory} (h : stamped w n x y f m m')
    (hfg : ∀ i < n, ∀ j < n, f i j = g i j) : stamped w n x y g m m' :=
  ⟨fun i hi j hj => hfg i hi j hj ▸ h.1 i hi j hj, h.2⟩

/-- A pixel outside a block is left alone. -/
theorem read_outside {w x y n : Nat} {m m' : Memory} (h : sameOutside w x y n m m') (hx : x + n ≤ w) {r c : Nat}
    (hc : c < w) (hout : c < x ∨ x + n ≤ c ∨ r < y ∨ y + n ≤ r) : m'.read (r * w + c) = m.read (r * w + c) := by
  refine h _ fun i hi j hj heq => ?_
  have := address_inj hc (show x + i < w by omega) heq
  omega

/-- What a block of four quarters shows at (i, j). -/
def quarters (n : Nat) (f0 f1 f2 f3 : Nat → Nat → Byte) (i j : Nat) : Byte :=
  if j < n then (if i < n then f0 i j else f1 (i - n) j) else (if i < n then f2 i (j - n) else f3 (i - n) (j - n))

/-- Four quarters, stamped one after the other, are one block. -/
theorem stamped_quarters {w n x y : Nat} {f0 f1 f2 f3 : Nat → Nat → Byte} {m0 m1 m2 m3 m4 : Memory} (hx : x + 2 * n ≤ w)
    (h0 : stamped w n x y f0 m0 m1) (h1 : stamped w n (x + n) y f1 m1 m2) (h2 : stamped w n x (y + n) f2 m2 m3)
    (h3 : stamped w n (x + n) (y + n) f3 m3 m4) : stamped w (2 * n) x y (quarters n f0 f1 f2 f3) m0 m4 := by
  have out1 : ∀ {r c}, c < w → (c < x + n ∨ x + n + n ≤ c ∨ r < y ∨ y + n ≤ r) → m2.read (r * w + c) =
      m1.read (r * w + c) :=
    read_outside h1.2 (by omega)
  have out2 : ∀ {r c}, c < w → (c < x ∨ x + n ≤ c ∨ r < y + n ∨ y + n + n ≤ r) → m3.read (r * w + c) =
      m2.read (r * w + c) :=
    read_outside h2.2 (by omega)
  have out3 : ∀ {r c}, c < w → (c < x + n ∨ x + n + n ≤ c ∨ r < y + n ∨ y + n + n ≤ r) →
      m4.read (r * w + c) = m3.read (r * w + c) := read_outside h3.2 (by omega)
  refine ⟨fun i hi j hj => ?_, fun a ha => ?_⟩
  · have hc : x + i < w := by omega
    unfold quarters
    split
    · split
      · next hjn hin =>
        rw [out3 hc (by omega), out2 hc (by omega), out1 hc (by omega)]
        exact h0.1 i hin j hjn
      · next hjn hin =>
        rw [out3 hc (by omega), out2 hc (by omega)]
        have := h1.1 (i - n) (by omega) j hjn
        rwa [show x + n + (i - n) = x + i by omega] at this
    · split
      · next hjn hin =>
        rw [out3 hc (by omega)]
        have := h2.1 i hin (j - n) (by omega)
        rwa [show y + n + (j - n) = y + j by omega] at this
      · next hjn hin =>
        have := h3.1 (i - n) (by omega) (j - n) (by omega)
        rwa [show x + n + (i - n) = x + i by omega, show y + n + (j - n) = y + j by omega] at this
  · have e3 := h3.2 a fun i hi j hj => by
      simpa only [Nat.add_assoc] using ha (n + i) (by omega) (n + j) (by omega)
    have e2 := h2.2 a fun i hi j hj => by
      simpa only [Nat.add_assoc] using ha i (by omega) (n + j) (by omega)
    have e1 := h1.2 a fun i hi j hj => by
      simpa only [Nat.add_assoc] using ha (n + i) (by omega) j (by omega)
    have e0 := h0.2 a fun i hi j hj => ha i (by omega) j (by omega)
    rw [e3, e2, e1, e0]

/-! ### Cells -/

/-- The luma sample of a cell at pixel (i, j) of its square of `2 * scale` pixels (42 R232, R233). -/
def CbCell.lumaAt (e : CbCell) (scale i j : Nat) : Byte :=
  if j < scale then (if i < scale then e.y0 else e.y1) else (if i < scale then e.y2 else e.y3)

theorem div_of_lt_two_mul {scale i : Nat} (hi : i < 2 * scale) : i / scale = if i < scale then 0 else 1 := by
  split
  · next h => exact Nat.div_eq_of_lt h
  · next h => exact Nat.div_eq_of_lt_le (by omega) (by omega)

theorem luma_eq_lumaAt (e : CbCell) {scale i j : Nat} (hi : i < 2 * scale) (hj : j < 2 * scale) :
    e.luma (j / scale * 2 + i / scale) = e.lumaAt scale i j := by
  rw [div_of_lt_two_mul hi, div_of_lt_two_mul hj, CbCell.lumaAt]
  by_cases h : i < scale <;> by_cases h' : j < scale <;> simp [h, h', CbCell.luma]

/-- `p'` is `p` with the cell `e` drawn at (x, y). -/
structure Shows (w scale x y : Nat) (e : CbCell) (p p' : Planes) : Prop where
  planeY : stamped w (2 * scale) x y (e.lumaAt scale) p.y p'.y
  planeU : stamped w (2 * scale) x y (fun _ _ => e.u) p.u p'.u
  planeV : stamped w (2 * scale) x y (fun _ _ => e.v) p.v p'.v

/-- What four cells show together: the cell that covers the pixel, and its sample there. -/
structure ShowsFour (w scale x y : Nat) (c : Nat → Nat → CbCell) (p p' : Planes) : Prop where
  planeY : stamped w (4 * scale) x y
    (fun px py => if py % (2 * scale) < scale then (if px % (2 * scale) < scale then (c px py).y0 else (c px py).y1)
      else (if px % (2 * scale) < scale then (c px py).y2 else (c px py).y3)) p.y p'.y
  planeU : stamped w (4 * scale) x y (fun px py => (c px py).u) p.u p'.u
  planeV : stamped w (4 * scale) x y (fun px py => (c px py).v) p.v p'.v

theorem mod_of_lt_two_mul {n i : Nat} (hi : i < 2 * n) : i % n = if i < n then i else i - n := by
  split
  · next h => exact Nat.mod_eq_of_lt h
  · next h => rw [Nat.mod_eq_sub_mod (by omega), Nat.mod_eq_of_lt (by omega)]

/-- Four cells drawn in the order of a quad (42 R234, R235). -/
theorem showsFour_of_shows {w scale x y : Nat} {cells : Vector CbCell 256} {e : CbQuad} {p0 p1 p2 p3 p4 : Planes}
    (hx : x + 4 * scale ≤ w) (h0 : Shows w scale x y (entry cells e.i0) p0 p1)
    (h1 : Shows w scale (x + 2 * scale) y (entry cells e.i1) p1 p2)
    (h2 : Shows w scale x (y + 2 * scale) (entry cells e.i2) p2 p3)
    (h3 : Shows w scale (x + 2 * scale) (y + 2 * scale) (entry cells e.i3) p3 p4) :
    ShowsFour w scale x y (fun px py => entry cells (e.cellAt scale px py)) p0 p4 := by
  have hn : 2 * (2 * scale) = 4 * scale := by omega
  have hx' : x + 2 * (2 * scale) ≤ w := by omega
  refine ⟨?_, ?_, ?_⟩
  · refine stamped_congr (hn ▸ stamped_quarters hx' h0.planeY h1.planeY h2.planeY h3.planeY) fun i hi j hj => ?_
    rw [mod_of_lt_two_mul (show i < 2 * (2 * scale) by omega), mod_of_lt_two_mul (show j < 2 * (2 * scale) by omega)]
    unfold quarters CbQuad.cellAt CbCell.lumaAt
    by_cases hj' : j < 2 * scale <;> by_cases hi' : i < 2 * scale <;> simp only [hi', hj', if_true, if_false]
  · refine stamped_congr (hn ▸ stamped_quarters hx' h0.planeU h1.planeU h2.planeU h3.planeU) fun i hi j hj => ?_
    unfold quarters CbQuad.cellAt
    by_cases hj' : j < 2 * scale <;> by_cases hi' : i < 2 * scale <;> simp only [hi', hj', if_true, if_false]
  · refine stamped_congr (hn ▸ stamped_quarters hx' h0.planeV h1.planeV h2.planeV h3.planeV) fun i hi j hj => ?_
    unfold quarters CbQuad.cellAt
    by_cases hj' : j < 2 * scale <;> by_cases hi' : i < 2 * scale <;> simp only [hi', hj', if_true, if_false]

/-- A plane set whose elements all have values, in canonical form. -/
def Planes.Solid (p : Planes) (n : Nat) : Prop := p.wf = true ∧ p.full n = true

theorem Planes.Solid.writes {p : Planes} {n : Nat} (h : p.Solid n) (y u v : List Host.Cell) :
    (p.writes y u v).Solid n :=
  ⟨Planes.wf_writes _ _ _ h.1, Planes.full_writes h.1 h.2 _ _ _⟩

/-- A loaded cell is drawn. -/
theorem stampCell_shows {s : State} {scale x y n : Nat} {c : Byte} (hc : c.toNat < s.nv1) (hx : x + 2 * scale ≤ s.width)
    (hs : s.current.Solid n) : ∃ p, stampCell scale x y c s = .ok (s.setCurrent p) ∧ p.Solid n ∧
      Shows s.width scale x y (entry s.cell c) s.current p := by
  refine ⟨_, (stampCell_eq_ok_iff ..).2 ⟨hc, rfl⟩, hs.writes _ _ _, ?_, stamped_blockWrites _ _ hx,
    stamped_blockWrites _ _ hx⟩
  exact stamped_congr (stamped_blockWrites _ _ hx) fun i hi j hj => luma_eq_lumaAt _ hi hj

theorem setCurrent_width (s : State) (p : Planes) : (s.setCurrent p).width = s.width := by
  simp only [State.width, State.setCurrent_cfgWidth]

/-- A loaded cell is drawn over a state that has been drawn on. -/
theorem stampCell_shows_setCurrent {s : State} {scale x y n : Nat} {c : Byte} {p : Planes} (hc : c.toNat < s.nv1)
    (hx : x + 2 * scale ≤ s.width) (hs : p.Solid n) : ∃ p', stampCell scale x y c (s.setCurrent p) =
      .ok (s.setCurrent p') ∧
      p'.Solid n ∧ Shows s.width scale x y (entry s.cell c) p p' := by
  have h := stampCell_shows (s := s.setCurrent p) (scale := scale) (x := x) (y := y) (n := n) (c := c)
    (by rwa [State.setCurrent_nv1]) (by rwa [setCurrent_width]) (by rwa [State.setCurrent_current])
  simpa only [State.setCurrent_setCurrent, State.setCurrent_current, State.setCurrent_cell, setCurrent_width] using h

/-- A loaded quad of loaded cells is drawn. -/
theorem stampQuad_shows {s : State} {scale x y n : Nat} {j : Byte} (hj : j.toNat < s.nv2)
    (h0 : (entry s.quad j).i0.toNat < s.nv1) (h1 : (entry s.quad j).i1.toNat < s.nv1)
    (h2 : (entry s.quad j).i2.toNat < s.nv1) (h3 : (entry s.quad j).i3.toNat < s.nv1) (hx : x + 4 * scale ≤ s.width)
    (hs : s.current.Solid n) : ∃ p, stampQuad scale x y j s = .ok (s.setCurrent p) ∧ p.Solid n ∧
      ShowsFour s.width scale x y (fun px py => entry s.cell ((entry s.quad j).cellAt scale px py)) s.current p := by
  obtain ⟨p1, e1, hs1, hd1⟩ := stampCell_shows (scale := scale) (x := x) (y := y) h0 (by omega) hs
  obtain ⟨p2, e2, hs2, hd2⟩ :=
    stampCell_shows_setCurrent (scale := scale) (x := x + 2 * scale) (y := y) h1 (by omega) hs1
  obtain ⟨p3, e3, hs3, hd3⟩ :=
    stampCell_shows_setCurrent (scale := scale) (x := x) (y := y + 2 * scale) h2 (by omega) hs2
  obtain ⟨p4, e4, hs4, hd4⟩ :=
    stampCell_shows_setCurrent (scale := scale) (x := x + 2 * scale) (y := y + 2 * scale) h3 (by omega) hs3
  refine ⟨p4, ?_, hs4, showsFour_of_shows hx hd1 hd2 hd3 hd4⟩
  rw [stampQuad, if_neg (by omega)]
  dsimp only
  rw [e1, ok_bind, e2, ok_bind, e3, ok_bind, e4]

/-- A block copied from inside the frame (42 R226). -/
theorem copyBlock_copies {s : State} {n x y sx sy : Nat} {b : Byte}
    (hsx : (sx : Int) = x + (motionVector s.biasX s.biasY b).1)
      (hsy : (sy : Int) = y + (motionVector s.biasX s.biasY b).2)
    (hx : sx + n ≤ s.width) (hy : sy + n ≤ s.height) (hdx : x + n ≤ s.width) (hlast : s.last.Solid s.npix)
    (hcur : s.current.Solid s.npix) : ∃ p, copyBlock n x y b s = .ok (s.setCurrent p) ∧ p.Solid s.npix ∧
      copied s.width n sx sy x y s.last.y s.current.y p.y ∧ copied s.width n sx sy x y s.last.u s.current.u p.u ∧
      copied s.width n sx sy x y s.last.v s.current.v p.v := by
  obtain ⟨wy, wu, wv⟩ := (Planes.wf_iff _).1 hlast.1
  obtain ⟨fy, fu, fv⟩ := (Planes.full_def _ _).1 hlast.2
  have plane : ∀ src : Memory, src.wf = true → src.full s.npix = true → ∃ f : Nat → Nat → Byte,
      ∀ i < n, ∀ j < n, src.read ((sy + j) * s.width + (sx + i)) = some (f i j) := by
    intro src hw hf
    refine ⟨fun i j => (src.read ((sy + j) * s.width + (sx + i))).getD 0, fun i hi j hj => ?_⟩
    obtain ⟨v, hv⟩ := Memory.read_of_full hw hf
      (address_lt (show sx + i < s.width by omega) (show sy + j < s.height by omega))
    simp only [hv, Option.getD_some]
  have copy : ∀ (src before : Memory) (f : Nat → Nat → Byte),
      (∀ i < n, ∀ j < n, src.read ((sy + j) * s.width + (sx + i)) = some (f i j)) →
      copied s.width n sx sy x y src before (before.writes (blockWrites s.width x y n f)) := by
    intro src before f hf
    obtain ⟨hin, hout⟩ := stamped_blockWrites (y := y) f before hdx
    exact ⟨fun i hi j hj => (hin i hi j hj).trans (hf i hi j hj).symm, hout⟩
  obtain ⟨f, hf⟩ := plane _ wy fy
  obtain ⟨g, hg⟩ := plane _ wu fu
  obtain ⟨h, hh⟩ := plane _ wv fv
  refine ⟨_, ?_, hcur.writes (blockWrites s.width x y n f) (blockWrites s.width x y n g) (blockWrites s.width x y n h),
    copy _ _ f hf, copy _ _ g hg, copy _ _ h hh⟩
  unfold copyBlock
  dsimp only
  rw [← hsx, ← hsy, if_neg (by omega), Int.toNat_natCast, Int.toNat_natCast, copyWrites_eq x y f hf,
    copyWrites_eq x y g hg,
    copyWrites_eq x y h hh]
  rfl

end Sys2Proof.Machine
end

section
/-! The vector codes (42 sections 2 to 7): the id stream, the scan, the end of the frame, the block operations. -/

namespace Sys2Proof.Machine

/-! ### Ids -/

theorem nextByte_of_read_succ {s : State} {v : Byte} (hend : s.payEnd < 2 ^ 32) (hp : s.pos.toNat + 1 < s.payEnd)
    (hv : s.inp.read (s.pos.toNat + 1) = some v) : nextByte (s.advance 1) = .ok (v, (s.advance 1).advance 1) := by
  have hpos : (s.advance 1).pos.toNat = s.pos.toNat + 1 := toNat_ofNat_add _ _ (by omega)
  exact nextByte_of_read (s := s.advance 1) (by rw [hpos]; exact hp) (by rw [hpos]; exact hv)

theorem advance_advance (s : State) (m n : Nat) (h : s.pos.toNat + m < 2 ^ 32) :
    (s.advance m).advance n = s.advance (m + n) := by
  have hpos : (s.advance m).pos.toNat = s.pos.toNat + m := toNat_ofNat_add _ _ h
  show { s.advance m with pos := BitVec.ofNat 32 ((s.advance m).pos.toNat + n) } = _
  rw [hpos, Nat.add_assoc]
  rfl

/-- Settles O37. -/
theorem idsComeFromTheFlagWord : Obligations.IdsComeFromTheFlagWord := by
  intro s
  refine ⟨fun h0 ho => ?msb, fun h0 ho => ?lsb, fun lo hi h0 hend hp hlo hhi => ?word, fun h0 hp => ?none,
    fun lo h0 hend hp hlo => ?half⟩
  case msb => rw [nextId, refillFlag, if_neg h0, ok_bind, takeId, ho]
  case lsb => rw [nextId, refillFlag, if_neg h0, ok_bind, takeId, ho]
  case word =>
    have hnew : refillFlag { s with flag := hi ++ lo, flagN := 8, pos := BitVec.ofNat 32 (s.pos.toNat + 2) } =
        .ok { s with flag := hi ++ lo, flagN := 8, pos := BitVec.ofNat 32 (s.pos.toNat + 2) } := if_neg (by simp)
    have hold : refillFlag s =
        .ok { s with flag := hi ++ lo, flagN := 8, pos := BitVec.ofNat 32 (s.pos.toNat + 2) } := by
      rw [refillFlag, if_pos h0, nextByte_of_read (by omega) hlo, ok_bind]
      dsimp only
      rw [nextByte_of_read_succ hend (by omega) hhi, ok_bind, advance_advance s 1 1 (by omega)]
      rfl
    rw [nextId, hold, nextId, hnew]
  case none =>
    rw [nextId, refillFlag, if_pos h0, nextByte_of_payEnd_le hp]
    rfl
  case half =>
    have hpos : (s.advance 1).pos.toNat = s.payEnd := (toNat_ofNat_add _ _ (by omega)).trans hp
    have hraise : nextByte (s.advance 1) = raise (s.advance 1) .codecDecode :=
      nextByte_of_payEnd_le (by rw [hpos]; exact Nat.le_refl _)
    rw [nextId, refillFlag, if_pos h0, nextByte_of_read (by omega) hlo, ok_bind]
    dsimp only
    rw [hraise, State.advance, hp]
    rfl

/-! ### The scan -/

section
variable {s : State}

/-- Where a quadrant lies, by its index. -/
theorem position_of_quadrantIndex (hq : s.q ≤ 3) (hx : s.mbx < s.width / 16) :
    s.x8 = s.quadrantIndex / 4 % (s.width / 16) * 16 + s.quadrantIndex % 2 * 8 ∧
    s.y8 = s.quadrantIndex / 4 / (s.width / 16) * 16 + s.quadrantIndex / 2 % 2 * 8 := by
  have hdiv : s.quadrantIndex / 4 = s.mby * (s.width / 16) + s.mbx := by
    unfold State.quadrantIndex
    omega
  have hmod : s.quadrantIndex % 2 = s.q % 2 := by
    unfold State.quadrantIndex
    omega
  have hhalf : s.quadrantIndex / 2 % 2 = s.q / 2 := by
    unfold State.quadrantIndex
    omega
  have hcol : (s.mby * (s.width / 16) + s.mbx) % (s.width / 16) = s.mbx := by
    rw [Nat.mul_comm, Nat.mul_add_mod, Nat.mod_eq_of_lt hx]
  have hrow : (s.mby * (s.width / 16) + s.mbx) / (s.width / 16) = s.mby := by
    rw [Nat.mul_comm, Nat.mul_add_div (by omega), Nat.div_eq_of_lt hx, Nat.add_zero]
  rw [hdiv, hmod, hhalf, hcol, hrow]
  exact ⟨rfl, rfl⟩

end

/-- Settles O39. -/
theorem scanVisitsQuadrantsInOrder : Obligations.ScanVisitsQuadrantsInOrder := by
  intro s
  refine ⟨⟨rfl, rfl, rfl, rfl⟩, fun hq hx hy hlast => ?_⟩
  have reached : ∀ q mbx mby, q ≤ 3 → mbx < s.width / 16 → mby < s.height / 16 →
      4 * (mby * (s.width / 16) + mbx) + q = s.quadrantIndex + 1 →
      nextQuadrant s = .ok { s with q := q, mbx := mbx, mby := mby, phase := .quadrant } →
      ∃ t, nextQuadrant s = .ok t ∧ t.quadrantIndex = s.quadrantIndex + 1 ∧
        t.q ≤ 3 ∧ t.mbx < s.width / 16 ∧ t.mby < s.height / 16 ∧
        t.x8 = t.quadrantIndex / 4 % (s.width / 16) * 16 + t.quadrantIndex % 2 * 8 ∧
        t.y8 = t.quadrantIndex / 4 / (s.width / 16) * 16 + t.quadrantIndex / 2 % 2 * 8 ∧
        t = { s with q := t.q, mbx := t.mbx, mby := t.mby, phase := .quadrant } := by
    intro q mbx mby hq' hx' hy' hidx hnext
    obtain ⟨hpx, hpy⟩ :=
      position_of_quadrantIndex (s := { s with q := q, mbx := mbx, mby := mby, phase := .quadrant }) hq' hx'
    exact ⟨_, hnext, hidx, hq', hx', hy', hpx, hpy, rfl⟩
  unfold State.quadrantIndex State.quadrants at hlast
  by_cases h1 : s.q < 3
  · refine reached (s.q + 1) s.mbx s.mby (by omega) hx hy ?_ (if_pos h1)
    unfold State.quadrantIndex
    omega
  by_cases h2 : s.mbx + 1 < s.width / 16
  · refine reached 0 (s.mbx + 1) s.mby (by omega) h2 hy ?_ ?_
    · unfold State.quadrantIndex
      omega
    · rw [nextQuadrant, if_neg h1, if_pos h2]
  by_cases h3 : s.mby + 1 < s.height / 16
  · refine reached 0 0 (s.mby + 1) (by omega) (by omega) h3 ?_ ?_
    · unfold State.quadrantIndex
      rw [Nat.add_mul]
      omega
    · rw [nextQuadrant, if_neg h1, if_neg h2, if_pos h3]
  · exfalso
    have hrow : s.mby + 1 = s.height / 16 := by omega
    have hcol : s.mbx + 1 = s.width / 16 := by omega
    rw [← hrow, Nat.mul_assoc, Nat.mul_comm (s.width / 16), Nat.add_mul] at hlast
    omega

/-! ### The end of the frame -/

theorem length_yuvPixels {ys us vs : List Byte} {n : Nat} (hy : ys.length = n) (hu : us.length = n) (hv : vs.length = n) :
    (yuvPixels ys us vs).length = 4 * n := by
  induction n generalizing ys us vs with
  | zero =>
    obtain rfl := List.length_eq_zero_iff.1 hy
    rfl
  | succ n ih =>
    obtain ⟨y, ys, rfl⟩ := List.exists_cons_of_length_eq_add_one hy
    obtain ⟨u, us, rfl⟩ := List.exists_cons_of_length_eq_add_one hu
    obtain ⟨v, vs, rfl⟩ := List.exists_cons_of_length_eq_add_one hv
    rw [yuvPixels, List.length_append, ih (by simpa using hy) (by simpa using hu) (by simpa using hv)]
    simp only [yuvPixel, pixelBytes, List.length_cons, List.length_nil]
    omega

/-- Pixel `j` of a frame stands at bytes 4j .. 4j + 3 (20 R74). -/
theorem getElem?_yuvPixels {ys us vs : List Byte} {j : Nat} {y u v : Byte} (hy : ys[j]? = some y) (hu : us[j]? = some u)
    (hv : vs[j]? = some v) {r : Nat} (hr : r < 4) : (yuvPixels ys us vs)[4 * j + r]? = (yuvPixel y u v)[r]? := by
  induction j generalizing ys us vs with
  | zero =>
    rcases ys with - | ⟨y', ys⟩
    · simp at hy
    rcases us with - | ⟨u', us⟩
    · simp at hu
    rcases vs with - | ⟨v', vs⟩
    · simp at hv
    obtain rfl : y' = y := by simpa using hy
    obtain rfl : u' = u := by simpa using hu
    obtain rfl : v' = v := by simpa using hv
    rw [yuvPixels, List.getElem?_append_left (by simpa [yuvPixel, pixelBytes] using hr)]
    simp
  | succ j ih =>
    rcases ys with - | ⟨y', ys⟩
    · simp at hy
    rcases us with - | ⟨u', us⟩
    · simp at hu
    rcases vs with - | ⟨v', vs⟩
    · simp at hv
    have hlen : (yuvPixel y' u' v').length = 4 := rfl
    rw [yuvPixels, List.getElem?_append_right (by omega), hlen, show 4 * (j + 1) + r - 4 = 4 * j + r by omega]
    exact ih (by simpa using hy) (by simpa using hu) (by simpa using hv)

/-- Settles O40. -/
theorem lastQuadrantMaterializesAndSwaps : Obligations.LastQuadrantMaterializesAndSwaps := by
  intro s hq hx hy hcan hfull
  obtain ⟨fy, fu, fv⟩ := (Planes.full_def _ _).1 hfull
  obtain ⟨-, -, -, hcurwf, -⟩ := (canonical_iff s).1 hcan
  obtain ⟨wy, wu, wv⟩ := (Planes.wf_iff _).1 hcurwf
  obtain ⟨ys, ey⟩ := Memory.readRun_of_full wy fy (show 0 + s.npix ≤ s.npix by omega)
  obtain ⟨us, eu⟩ := Memory.readRun_of_full wu fu (show 0 + s.npix ≤ s.npix by omega)
  obtain ⟨vs, ev⟩ := Memory.readRun_of_full wv fv (show 0 + s.npix ≤ s.npix by omega)
  obtain ⟨hly, hry⟩ := (Memory.readRun_eq_some_iff _ wy 0 _ _).1 ey
  obtain ⟨hlu, hru⟩ := (Memory.readRun_eq_some_iff _ wu 0 _ _).1 eu
  obtain ⟨hlv, hrv⟩ := (Memory.readRun_eq_some_iff _ wv 0 _ _).1 ev
  have hlen := length_yuvPixels hly hlu hlv
  have hnext : nextQuadrant s = finishVqFrame s := by
    rw [nextQuadrant, if_neg (by omega), if_neg (by omega), if_neg (by omega)]
  refine ⟨_, hnext.trans ((finishVqFrame_eq_ok_iff s _).2 ⟨ys, us, vs, ey, eu, ev, rfl⟩), ?_, ?_,
    fun a ha y u v hay hau hav => ?_, fun a ha => ?_, rfl⟩
  · show (if (!s.pp) = true then s.pl1 else s.pl0) = if s.pp = true then s.pl0 else s.pl1
    cases s.pp <;> rfl
  · show (if (!s.pp) = true then s.pl0 else s.pl1) = if s.pp = true then s.pl1 else s.pl0
    cases s.pp <;> rfl
  · have hpixel : ∀ r < 4, (s.rgba.overlay (yuvPixels ys us vs)).read (4 * a + r) = (yuvPixel y u v)[r]? := by
      intro r hr
      rw [Memory.read_overlay, if_pos (by omega)]
      refine getElem?_yuvPixels ?_ ?_ ?_ hr
      · rw [← hry a ha, Nat.zero_add, hay]
      · rw [← hru a ha, Nat.zero_add, hau]
      · rw [← hrv a ha, Nat.zero_add, hav]
    exact ⟨hpixel 0 (by decide), hpixel 1 (by decide), hpixel 2 (by decide), hpixel 3 (by decide)⟩
  · show (s.rgba.overlay (yuvPixels ys us vs)).read a = s.rgba.read a
    rw [Memory.read_overlay, if_neg (by omega)]

/-! ### The codes -/

/-- With a full `current` the scan goes on, or the frame ends. -/
theorem nextQuadrant_ok {s : State} (h : s.current.Solid s.npix) : ∃ t, nextQuadrant s = .ok t := by
  obtain ⟨fy, fu, fv⟩ := (Planes.full_def _ _).1 h.2
  obtain ⟨wy, wu, wv⟩ := (Planes.wf_iff _).1 h.1
  obtain ⟨ys, ey⟩ := Memory.readRun_of_full wy fy (show 0 + s.npix ≤ s.npix by omega)
  obtain ⟨us, eu⟩ := Memory.readRun_of_full wu fu (show 0 + s.npix ≤ s.npix by omega)
  obtain ⟨vs, ev⟩ := Memory.readRun_of_full wv fv (show 0 + s.npix ≤ s.npix by omega)
  unfold nextQuadrant
  split
  · exact ⟨_, rfl⟩
  · split
    · exact ⟨_, rfl⟩
    · split
      · exact ⟨_, rfl⟩
      · exact ⟨_, (finishVqFrame_eq_ok_iff s _).2 ⟨ys, us, vs, ey, eu, ev, rfl⟩⟩

theorem nextSubBlock_ok {s : State} (h : s.current.Solid s.npix) : ∃ t, nextSubBlock s = .ok t := by
  unfold nextSubBlock
  split
  · exact ⟨_, rfl⟩
  · exact nextQuadrant_ok h

section
variable {s u : State} {id : BitVec 2}

/-- What taking an id leaves alone, as far as the codes read it. -/
structure SameFrame (s u : State) : Prop where
  works : Works s u
  payEnd : u.payEnd = s.payEnd
  biasX : u.biasX = s.biasX
  biasY : u.biasY = s.biasY
  x8 : u.x8 = s.x8
  y8 : u.y8 = s.y8
  x4 : u.x4 = s.x4
  y4 : u.y4 = s.y4
  sb : u.sb = s.sb
  q : u.q = s.q
  current : u.current = s.current

theorem sameFrame_of_nextId (h : nextId s = .ok (id, u)) : SameFrame s u := by
  have hw : Works s u := by
    have := nextId_works (Works.refl s)
    rwa [h] at this
  have hframe := nextId_frame s u id h
  rw [hframe] at hw ⊢
  exact ⟨hw, rfl, rfl, rfl, rfl, rfl, rfl, rfl, rfl, rfl, rfl⟩

theorem SameFrame.solid (h : SameFrame s u) (hcan : s.canonical = true) (hfull : s.current.full s.npix = true) :
    u.current.Solid u.npix := by
  obtain ⟨-, -, -, hwf, -⟩ := (canonical_iff s).1 hcan
  rw [h.current, h.works.npix]
  exact ⟨hwf, hfull⟩

end

/-- Settles O41. -/
theorem skipAndSubdivideWriteNothing : Obligations.SkipAndSubdivideWriteNothing := by
  intro s u id hid
  have hsame := sameFrame_of_nextId hid
  have hmot8 : exec .mot8 s = conclude (nextQuadrant u) := by
    show conclude (nextId s >>= fun x => nextQuadrant x.2) = _
    rw [hid, ok_bind]
  have hmot4 : exec .mot4 s = conclude (nextSubBlock u) := by
    show conclude (nextId s >>= fun x => nextSubBlock x.2) = _
    rw [hid, ok_bind]
  refine ⟨?_, fun hsb => ?_, fun hq => ?_, fun hcan hfull => ?_, nextId_frame s u id hid⟩
  · show conclude (nextId s >>= fun x => .ok { x.2 with sb := 0, phase := .subBlock }) = _
    rw [hid, ok_bind, conclude_ok]
  · rw [hmot4, nextSubBlock, if_pos (by rw [hsame.sb]; exact hsb), conclude_ok, hsame.sb]
  · rw [hmot8, nextQuadrant, if_pos (by rw [hsame.q]; exact hq), conclude_ok, hsame.q]
  · obtain ⟨t, ht⟩ := nextQuadrant_ok (hsame.solid hcan hfull)
    refine ⟨t, ht, by rw [hmot8, ht, conclude_ok], fun hsb => ?_⟩
    rw [hmot4, nextSubBlock, if_neg (by rw [hsame.sb]; omega), ht, conclude_ok]

end Sys2Proof.Machine
end

section
/-! The codes that draw (42 sections 3 to 6): FCC8, FCC4, SLD8, SLD4, CCC4, and their bad operands. -/

namespace Sys2Proof.Machine

section
variable {s u : State} {id : BitVec 2}

theorem SameFrame.advance (h : SameFrame s u) : SameFrame s (u.advance 1) :=
  ⟨h.works.advance 1, h.payEnd, h.biasX, h.biasY, h.x8, h.y8, h.x4, h.y4, h.sb, h.q, h.current⟩

/-- A code with one operand byte, up to its block operation. -/
theorem conclude_operand {b : Byte} (hid : nextId s = .ok (id, u)) (hp : u.pos.toNat < s.payEnd)
    (hb : s.inp.read u.pos.toNat = some b) (f : Byte → State → Run State) :
    conclude (nextId s >>= fun x => nextByte x.2 >>= fun y => f y.1 y.2) = conclude (f b (u.advance 1)) := by
  have hsame := sameFrame_of_nextId hid
  rw [hid, ok_bind, nextByte_of_read (by rw [hsame.payEnd]; exact hp) (by rw [hsame.works.inp]; exact hb), ok_bind]

theorem setCurrent_frame {v : State} {p : Planes} (h : v = (u.advance 1).setCurrent p) :
    v = { u with pl0 := v.pl0, pl1 := v.pl1, pos := BitVec.ofNat 32 (u.pos.toNat + 1) } := by
  subst h
  rw [setCurrent_eq]
  rfl

end

/-- Settles O42. -/
theorem motionCopyComesFromLast : Obligations.MotionCopyComesFromLast := by
  intro s u id b n x y sx sy i resume hi hid hp hb hsx hsy hxin hyin hdx hdy hcan hlast hcur
  have hsame := (sameFrame_of_nextId hid).advance
  obtain ⟨-, -, hlastwf, -⟩ := (canonical_iff s).1 hcan
  have hsolid := hsame.solid hcan hcur
  have hwidth : (u.advance 1).width = s.width := by simp only [State.width, hsame.works.cfgWidth]
  have hheight : (u.advance 1).height = s.height := by simp only [State.height, hsame.works.cfgHeight]
  obtain ⟨p, hcopy, hps, hy, hu, hv⟩ := copyBlock_copies (s := u.advance 1) (n := n) (x := x) (y := y) (b := b)
    (by rw [hsame.biasX, hsame.biasY]; exact hsx) (by rw [hsame.biasX, hsame.biasY]; exact hsy)
    (by rw [hwidth]; exact hxin) (by rw [hheight]; exact hyin) (by rw [hwidth]; exact hdx)
    (by rw [hsame.works.last, hsame.works.npix]; exact ⟨hlastwf, hlast⟩) hsolid
  rw [hwidth, hsame.works.last, hsame.current] at hy hu hv
  have hresume : ∃ t, exec i s = .next t ∧ resume ((u.advance 1).setCurrent p) = .ok t := by
    have hfull : ((u.advance 1).setCurrent p).current.Solid ((u.advance 1).setCurrent p).npix := by
      rw [State.setCurrent_current, setCurrent_npix]
      exact hps
    simp only [List.mem_cons, Prod.mk.injEq, List.not_mem_nil, or_false] at hi
    rcases hi with ⟨rfl, rfl, rfl, rfl, rfl⟩ | ⟨rfl, rfl, rfl, rfl, rfl⟩
    · obtain ⟨t, ht⟩ := nextQuadrant_ok hfull
      refine ⟨t, (conclude_operand hid hp hb fun b w => copyBlock 8 w.x8 w.y8 b w >>= nextQuadrant).trans ?_, ht⟩
      rw [hsame.x8, hsame.y8, hcopy, ok_bind, ht, conclude_ok]
    · obtain ⟨t, ht⟩ := nextSubBlock_ok hfull
      refine ⟨t, (conclude_operand hid hp hb fun b w => copyBlock 4 w.x4 w.y4 b w >>= nextSubBlock).trans ?_, ht⟩
      rw [hsame.x4, hsame.y4, hcopy, ok_bind, ht, conclude_ok]
  obtain ⟨t, ht, hr⟩ := hresume
  have hpc : ((u.advance 1).setCurrent p).current = p := State.setCurrent_current ..
  exact ⟨_, t, ht, hr, by rw [hpc]; exact hy, by rw [hpc]; exact hu, by rw [hpc]; exact hv,
    (State.setCurrent_last ..).trans hsame.works.last, setCurrent_frame rfl⟩

/-- Settles O43. -/
theorem quadIsStamped : Obligations.QuadIsStamped := by
  intro s u id j scale x y i resume e c luma hi hid hp hb hj h0 h1 h2 h3 hdx hdy hcan hcur
  have hsame := (sameFrame_of_nextId hid).advance
  have hsolid := hsame.solid hcan hcur
  have hwidth : (u.advance 1).width = s.width := by simp only [State.width, hsame.works.cfgWidth]
  have hquad : (u.advance 1).quad = s.quad := hsame.works.quad
  have hnv1 : (u.advance 1).nv1 = s.nv1 := hsame.works.nv1
  obtain ⟨p, hstamp, hps, hy, hu, hv⟩ := stampQuad_shows (s := u.advance 1) (scale := scale) (x := x) (y := y) (j := j)
    (by rw [hsame.works.nv2]; exact hj) (by rw [hquad, hnv1]; exact h0) (by rw [hquad, hnv1]; exact h1)
    (by rw [hquad, hnv1]; exact h2) (by rw [hquad, hnv1]; exact h3) (by rw [hwidth]; exact hdx) hsolid
  rw [hwidth, hsame.current, hquad, hsame.works.cell] at hy hu hv
  have hresume : ∃ t, exec i s = .next t ∧ resume ((u.advance 1).setCurrent p) = .ok t := by
    have hfull : ((u.advance 1).setCurrent p).current.Solid ((u.advance 1).setCurrent p).npix := by
      rw [State.setCurrent_current, setCurrent_npix]
      exact hps
    simp only [List.mem_cons, Prod.mk.injEq, List.not_mem_nil, or_false] at hi
    rcases hi with ⟨rfl, rfl, rfl, rfl, rfl⟩ | ⟨rfl, rfl, rfl, rfl, rfl⟩
    · obtain ⟨t, ht⟩ := nextQuadrant_ok hfull
      refine ⟨t, (conclude_operand hid hp hb fun b w => stampQuad 2 w.x8 w.y8 b w >>= nextQuadrant).trans ?_, ht⟩
      rw [hsame.x8, hsame.y8, hstamp, ok_bind, ht, conclude_ok]
    · obtain ⟨t, ht⟩ := nextSubBlock_ok hfull
      refine ⟨t, (conclude_operand hid hp hb fun b w => stampQuad 1 w.x4 w.y4 b w >>= nextSubBlock).trans ?_, ht⟩
      rw [hsame.x4, hsame.y4, hstamp, ok_bind, ht, conclude_ok]
  obtain ⟨t, ht, hr⟩ := hresume
  have hpc : ((u.advance 1).setCurrent p).current = p := State.setCurrent_current ..
  exact ⟨_, t, ht, hr, by rw [hpc]; exact hy, by rw [hpc]; exact hu, by rw [hpc]; exact hv,
    (State.setCurrent_last ..).trans hsame.works.last, setCurrent_frame rfl⟩

/-! ### CCC4 -/

/-- `u` inside the loop of a CCC4: the loop count, the cursor and `current` have moved. -/
def inLoop (u : State) (cc : Nat) (pos : Word) (p : Planes) : State :=
    ({ u with cc := cc, pos := pos } : State).setCurrent p

theorem inLoop_self (u : State) : inLoop u u.cc u.pos u.current = u := by
  show (if u.pp = true then { u with pl0 := u.current } else { u with pl1 := u.current }) = u
  unfold State.current
  by_cases h : u.pp = true
  · rw [if_pos h, if_pos h]
  · rw [if_neg h, if_neg h]

theorem inLoop_turn (u : State) (cc k : Nat) (pos pos' : Word) (p p' : Planes) :
    ({ inLoop u cc pos p with cc := k, pos := pos' } : State).setCurrent p' = inLoop u k pos' p' := by
  unfold inLoop State.setCurrent
  cases u.pp <;> simp

section
variable {u : State} {cc k n : Nat} {pos : Word} {p : Planes} {c : Byte}

/-- The operand byte of a turn. -/
theorem nextByte_inLoop (hp : pos.toNat < u.payEnd) (hc : u.inp.read pos.toNat = some c) :
    nextByte { inLoop u cc pos p with cc := k } =
      .ok (c, { inLoop u cc pos p with cc := k, pos := BitVec.ofNat 32 (pos.toNat + 1) }) := by
  have hpos : (inLoop u cc pos p).pos = pos := State.setCurrent_pos ..
  have hinp : (inLoop u cc pos p).inp = u.inp := State.setCurrent_inp ..
  have hend : (inLoop u cc pos p).payEnd = u.payEnd := by
    simp only [inLoop, State.payEnd, State.setCurrent_pay0, State.setCurrent_payLen]
  rw [nextByte_of_read (s := { inLoop u cc pos p with cc := k }) (v := c)
    (by show (inLoop u cc pos p).pos.toNat < (inLoop u cc pos p).payEnd; rw [hpos, hend]; exact hp)
    (by show (inLoop u cc pos p).inp.read (inLoop u cc pos p).pos.toNat = some c; rw [hpos, hinp]; exact hc)]
  show Except.ok (c, { inLoop u cc pos p with
    cc := k, pos := BitVec.ofNat 32 ((inLoop u cc pos p).pos.toNat + 1) }) = _
  rw [hpos]

/-- A turn with a loaded cell draws it (42 R231). -/
theorem cellTurn_shows (hp : pos.toNat < u.payEnd) (hc : u.inp.read pos.toNat = some c) (hnv : c.toNat < u.nv1)
    (hx : u.x4 + k % 2 * 2 + 2 ≤ u.width) (hs : p.Solid n) :
    ∃ p', cellTurn k (inLoop u cc pos p) = .ok (inLoop u k (BitVec.ofNat 32 (pos.toNat + 1)) p') ∧ p'.Solid n ∧
      Shows u.width 1 (u.x4 + k % 2 * 2) (u.y4 + k / 2 * 2) (entry u.cell c) p p' := by
  have hloop : (inLoop u cc pos p).width = u.width ∧ (inLoop u cc pos p).x4 = u.x4 ∧ (inLoop u cc pos p).y4 = u.y4 := by
    simp only [inLoop, State.width, State.x4, State.y4, State.x8, State.y8, State.setCurrent_cfgWidth,
      State.setCurrent_mbx, State.setCurrent_mby, State.setCurrent_q, State.setCurrent_sb, and_self]
  obtain ⟨hw, hx4, hy4⟩ := hloop
  have hnv1 : (inLoop u cc pos p).nv1 = u.nv1 := State.setCurrent_nv1 ..
  have hcell : (inLoop u cc pos p).cell = u.cell := State.setCurrent_cell ..
  have hcur : (inLoop u cc pos p).current = p := State.setCurrent_current ..
  have hstamp := stampCell_shows
    (s := { inLoop u cc pos p with cc := k, pos := BitVec.ofNat 32 (pos.toNat + 1) }) (scale := 1)
    (x := (inLoop u cc pos p).x4 + k % 2 * 2) (y := (inLoop u cc pos p).y4 + k / 2 * 2) (n := n) (c := c)
    (by show c.toNat < (inLoop u cc pos p).nv1; rw [hnv1]; exact hnv)
    (by show _ + 2 * 1 ≤ (inLoop u cc pos p).width; rw [hw, hx4]; omega)
    (by show (inLoop u cc pos p).current.Solid n; rw [hcur]; exact hs)
  obtain ⟨p', hok, hs', hshow⟩ := hstamp
  rw [inLoop_turn] at hok
  change Shows (inLoop u cc pos p).width 1 _ _ (entry (inLoop u cc pos p).cell c)
    (inLoop u cc pos p).current p' at hshow
  rw [hw, hx4, hy4, hcell, hcur] at hshow
  refine ⟨p', ?_, hs', hshow⟩
  rw [cellTurn, nextByte_inLoop hp hc, ok_bind]
  exact hok

end

/-- Settles O44. -/
theorem fourCellsAreStamped : Obligations.FourCellsAreStamped := by
  intro s u id c0 c1 c2 c3 c luma hid hend hp hr h0 h1 h2 h3 hdx hdy hcan hcur
  have hsame := sameFrame_of_nextId hid
  have hsolid := hsame.solid hcan hcur
  have hwidth : u.width = s.width := by simp only [State.width, hsame.works.cfgWidth]
  have hcell : u.cell = s.cell := hsame.works.cell
  have hnv1 : u.nv1 = s.nv1 := hsame.works.nv1
  obtain ⟨hinpwf, -⟩ := (canonical_iff s).1 hcan
  obtain ⟨-, hread⟩ := (Memory.readRun_eq_some_iff _ hinpwf _ _ _).1 hr
  have hpos : ∀ r, r < 4 → (BitVec.ofNat 32 (u.pos.toNat + r)).toNat = u.pos.toNat + r := fun r _ =>
    toNat_ofNat_add _ _ (by omega)
  have turn : ∀ (r cc : Nat) (d : Byte) (p : Planes), r < 4 → [c0, c1, c2, c3][r]? = some d → d.toNat < s.nv1 →
      p.Solid u.npix → ∃ p', cellTurn r (inLoop u cc (BitVec.ofNat 32 (u.pos.toNat + r)) p) =
        .ok (inLoop u r (BitVec.ofNat 32 (u.pos.toNat + (r + 1))) p') ∧ p'.Solid u.npix ∧
        Shows s.width 1 (s.x4 + r % 2 * 2) (s.y4 + r / 2 * 2) (entry s.cell d) p p' := by
    intro r cc d p hr4 hd hnv hs
    have h := cellTurn_shows (u := u) (cc := cc) (k := r) (pos := BitVec.ofNat 32 (u.pos.toNat + r)) (p := p) (c := d)
      (by rw [hpos r hr4, hsame.payEnd]; omega) (by rw [hpos r hr4, hsame.works.inp, hread r hr4, hd])
      (by rw [hnv1]; exact hnv) (by rw [hsame.x4, hwidth]; omega) hs
    rwa [hpos r hr4, hwidth, hsame.x4, hsame.y4, hcell, Nat.add_assoc] at h
  obtain ⟨p1, e1, hs1, hd1⟩ := turn 0 u.cc c0 u.current (by decide) rfl h0 hsolid
  obtain ⟨p2, e2, hs2, hd2⟩ := turn 1 0 c1 p1 (by decide) rfl h1 hs1
  obtain ⟨p3, e3, hs3, hd3⟩ := turn 2 1 c2 p2 (by decide) rfl h2 hs2
  obtain ⟨p4, e4, hs4, hd4⟩ := turn 3 2 c3 p3 (by decide) rfl h3 hs3
  have hstart : inLoop u u.cc (BitVec.ofNat 32 (u.pos.toNat + 0)) u.current = u := by
    rw [Nat.add_zero, BitVec.ofNat_toNat, BitVec.setWidth_eq, inLoop_self]
  rw [hstart] at e1
  obtain ⟨v, hv⟩ : ∃ v, v = inLoop u 3 (BitVec.ofNat 32 (u.pos.toNat + 4)) p4 := ⟨_, rfl⟩
  have hvcur : v.current = p4 := by
    rw [hv]
    exact State.setCurrent_current ..
  have hvnpix : v.npix = u.npix := by
    rw [hv]
    exact setCurrent_npix ..
  obtain ⟨t, ht⟩ := nextSubBlock_ok (s := v) (by rw [hvcur, hvnpix]; exact hs4)
  obtain ⟨hy, hu, hvv⟩ := showsFour_of_shows (cells := s.cell) (e := ⟨c0, c1, c2, c3⟩) (by omega) hd1 hd2 hd3 hd4
  rw [hsame.current] at hy hu hvv
  refine ⟨v, t, ?_, ht, ?_, hvcur ▸ hu, hvcur ▸ hvv, ?_, ?_⟩
  · show conclude (nextId s >>= fun x => cellTurn 0 x.2 >>= fun s => cellTurn 1 s >>= fun s => cellTurn 2 s >>= fun s =>
      cellTurn 3 s >>= nextSubBlock) = .next t
    rw [hid, ok_bind, e1, ok_bind, e2, ok_bind, e3, ok_bind, e4, ok_bind, ← hv, ht, conclude_ok]
  · rw [hvcur]
    refine stamped_congr hy fun i _ j _ => ?_
    simp only [luma, c, Nat.mul_one, Nat.lt_one_iff]
  · rw [hv]
    exact (State.setCurrent_last ..).trans hsame.works.last
  · rw [hv, inLoop, setCurrent_eq]

end Sys2Proof.Machine
end

section
/-! The operands that a vector code refuses (42 R222, R227, R236). -/

namespace Sys2Proof.Machine

/-- The states of a command that began in `b`, with the cursor where it is now. -/
def WorksAt (b : State) (pos : Word) (u : State) : Prop := Works b u ∧ u.pos = pos

/-- A run raises CodecDecodeError in a state of the command that began in `b`, with the cursor at `pos`. -/
def Refuses (b : State) (pos : Word) (r : Run State) : Prop := ∃ u, r = raise u .codecDecode ∧ WorksAt b pos u

section
variable {b s : State} {pos : Word}

theorem Refuses.bind {r : Run State} (h : Refuses b pos r) (f : State → Run State) : Refuses b pos (r >>= f) := by
  obtain ⟨u, rfl, hu⟩ := h
  exact ⟨u, raise_bind .., hu⟩

theorem WorksAt.setCurrent (h : WorksAt b pos s) {p : Planes} (hp : s.current.wf = true → p.wf = true) :
    WorksAt b pos (s.setCurrent p) := ⟨h.1.setCurrent hp, (State.setCurrent_pos ..).trans h.2⟩

/-- A cell is drawn only if it is loaded, and refused only if it is not. -/
theorem stampCell_meets (h : WorksAt b pos s) (scale x y : Nat) (c : Byte) :
    Meets False (fun t => c.toNat < b.nv1 ∧ WorksAt b pos t) (fun u kind => kind = .codecDecode ∧ WorksAt b pos u)
      (stampCell scale x y c s) := by
  unfold stampCell
  split
  · exact meets_raise ⟨rfl, h⟩
  · next hc =>
    rw [h.1.nv1] at hc
    exact meets_ok ⟨by omega, h.setCurrent (Planes.wf_writes _ _ _)⟩

/-- A quad with a cell that is not loaded is refused. -/
theorem stampQuad_refuses (h : WorksAt b pos s) (scale x y : Nat) (j : Byte)
    (hbad : b.nv2 ≤ j.toNat ∨ ∃ m ∈ [(entry b.quad j).i0, (entry b.quad j).i1, (entry b.quad j).i2,
      (entry b.quad j).i3],
      b.nv1 ≤ m.toNat) : Refuses b pos (stampQuad scale x y j s) := by
  have hquad : s.quad = b.quad := h.1.quad
  have hmeets : Meets False
      (fun _ => j.toNat < b.nv2 ∧ (entry b.quad j).i0.toNat < b.nv1 ∧ (entry b.quad j).i1.toNat < b.nv1 ∧
        (entry b.quad j).i2.toNat < b.nv1 ∧ (entry b.quad j).i3.toNat < b.nv1)
      (fun u kind => kind = .codecDecode ∧ WorksAt b pos u) (stampQuad scale x y j s) := by
    unfold stampQuad
    split
    · exact meets_raise ⟨rfl, h⟩
    · next hj =>
      rw [h.1.nv2] at hj
      dsimp only
      rw [hquad]
      refine meets_bind (stampCell_meets h ..) fun _ ⟨h0, h⟩ => meets_bind (stampCell_meets h ..) fun _ ⟨h1, h⟩ =>
        meets_bind (stampCell_meets h ..) fun _ ⟨h2, h⟩ => ?_
      exact meets_mono (stampCell_meets h ..) id (fun _ ⟨h3, _⟩ => ⟨by omega, h0, h1, h2, h3⟩) fun _ _ => id
  rcases hr : stampQuad scale x y j s with (⟨u, kind⟩ | fault) | t <;> rw [hr] at hmeets
  · obtain ⟨rfl, hu⟩ := hmeets
    exact ⟨u, rfl, hu⟩
  · exact hmeets.elim
  · obtain ⟨hj, h0, h1, h2, h3⟩ := hmeets
    simp only [List.mem_cons, List.not_mem_nil, or_false, exists_eq_or_imp, exists_eq_left] at hbad
    omega

/-- A source block outside the frame is refused (42 R227). -/
theorem copyBlock_refuses (h : WorksAt b pos s) (n x y : Nat) (byte : Byte) (hbx : s.biasX = b.biasX)
    (hby : s.biasY = b.biasY)
    (hout : (x : Int) + (motionVector b.biasX b.biasY byte).1 < 0 ∨ (y : Int)
      + (motionVector b.biasX b.biasY byte).2 < 0 ∨
      (b.width : Int) < x + (motionVector b.biasX b.biasY byte).1 + n ∨
      (b.height : Int) < y + (motionVector b.biasX b.biasY byte).2 + n) : Refuses b pos (copyBlock n x y byte s) := by
  have hwidth : s.width = b.width := by simp only [State.width, h.1.cfgWidth]
  have hheight : s.height = b.height := by simp only [State.height, h.1.cfgHeight]
  refine ⟨s, ?_, h⟩
  unfold copyBlock
  dsimp only
  rw [hbx, hby, hwidth, hheight, if_pos hout]

/-- The last `n` turns of a CCC4, and the scan after them (42 R231). -/
def lastTurns : Nat → State → Run State
  | 0, s => nextSubBlock s
  | n + 1, s => cellTurn (3 - n) s >>= lastTurns n

theorem execCcc4_eq (s : State) : execCcc4 s = conclude (nextId s >>= fun x => lastTurns 4 x.2) := by
  simp only [execCcc4, lastTurns]

theorem withCc_worksAt (h : WorksAt b pos s) {cc : Nat} (hcc : cc ≤ 3) : WorksAt b pos { s with cc := cc } := by
  refine ⟨{ h.1 with ranged := fun hb => ?_ }, h.2⟩
  have := (ranged_iff _).1 (h.1.ranged hb)
  simp only [ranged_iff]
  omega

/-- Where a turn of a CCC4 stands: in the command that began in `b`, at address `a` of its payload. -/
structure TurnAt (b : State) (a : Nat) (s : State) : Prop where
  worksAt : WorksAt b (BitVec.ofNat 32 a) s
  payEnd : s.payEnd = b.payEnd
  le : a ≤ b.payEnd
  bound : b.payEnd < 2 ^ 32

theorem TurnAt.pos_toNat {a : Nat} (h : TurnAt b a s) : s.pos.toNat = a := by
  rw [h.worksAt.2]
  exact Nat.mod_eq_of_lt (Nat.lt_of_le_of_lt h.le h.bound)

theorem stampCell_of_loaded (scale x y : Nat) {c : Byte} (hc : c.toNat < s.nv1) :
    ∃ p, stampCell scale x y c s = .ok (s.setCurrent p) ∧ (s.current.wf = true → p.wf = true) :=
  ⟨_, (stampCell_eq_ok_iff ..).2 ⟨hc, rfl⟩, Planes.wf_writes _ _ _⟩

section
variable {a k : Nat} {c : Byte} (h : TurnAt b a s) (hk : k ≤ 3)
include h hk

/-- The state of a turn after its byte. -/
theorem TurnAt.afterByte : WorksAt b (BitVec.ofNat 32 (a + 1)) (({ s with cc := k } : State).advance 1) := by
  refine ⟨(withCc_worksAt h.worksAt hk).1.advance 1, ?_⟩
  rw [← h.pos_toNat]
  rfl

omit hk in
theorem TurnAt.nextByte (hlt : a < b.payEnd) (hc : b.inp.read a = some c) :
    nextByte { s with cc := k } = .ok (c, ({ s with cc := k } : State).advance 1) := by
  refine nextByte_of_read ?_ ?_
  · show s.pos.toNat < s.payEnd
    rwa [h.pos_toNat, h.payEnd]
  · show s.inp.read s.pos.toNat = some c
    rwa [h.pos_toNat, h.worksAt.1.inp]

theorem cellTurn_of_missing (heq : a = b.payEnd) : Refuses b (BitVec.ofNat 32 a) (cellTurn k s) := by
  have hnone : Machine.nextByte { s with cc := k } = raise { s with cc := k } .codecDecode := by
    refine nextByte_of_payEnd_le ?_
    show s.payEnd ≤ s.pos.toNat
    rw [h.pos_toNat, h.payEnd, heq]
  exact ⟨_, by rw [cellTurn, hnone, raise_bind], withCc_worksAt h.worksAt hk⟩

theorem cellTurn_of_unloaded (hlt : a < b.payEnd) (hc : b.inp.read a = some c) (hbad : b.nv1 ≤ c.toNat) :
    Refuses b (BitVec.ofNat 32 (a + 1)) (cellTurn k s) := by
  have hafter := h.afterByte hk
  refine ⟨_, ?_, hafter⟩
  rw [cellTurn, h.nextByte hlt hc, ok_bind]
  exact if_pos (by rw [hafter.1.nv1]; exact hbad)

theorem cellTurn_of_loaded (hlt : a < b.payEnd) (hc : b.inp.read a = some c) (hnv : c.toNat < b.nv1) :
    ∃ t, cellTurn k s = .ok t ∧ TurnAt b (a + 1) t := by
  have hafter := h.afterByte hk
  obtain ⟨p, hstamp, hwf⟩ := stampCell_of_loaded (s := ({ s with cc := k } : State).advance 1) 1 (s.x4 + k % 2 * 2)
    (s.y4 + k / 2 * 2) (c := c) (by rw [hafter.1.nv1]; exact hnv)
  refine ⟨(({ s with cc := k } : State).advance 1).setCurrent p, ?_, hafter.setCurrent hwf, ?_, hlt, h.bound⟩
  · rw [cellTurn, h.nextByte hlt hc, ok_bind]
    exact hstamp
  · rw [← h.payEnd]
    simp only [State.payEnd, State.setCurrent_pay0, State.setCurrent_payLen]
    rfl

end

/-- The loop of a CCC4 stops at its first cell that is missing or not loaded. -/
theorem lastTurns_refuses (cells : List Byte) (n : Nat) {s : State} {a : Nat} (h : TurnAt b a s)
    (hlen : cells.length < n)
    (hn : n ≤ 4) (ha : a + cells.length ≤ b.payEnd)
    (hcells : ∀ r c, cells[r]? = some c → b.inp.read (a + r) = some c ∧ c.toNat < b.nv1) :
    (a + cells.length = b.payEnd → Refuses b (BitVec.ofNat 32 b.payEnd) (lastTurns n s)) ∧
    (∀ bad, a + cells.length < b.payEnd → b.inp.read (a + cells.length) = some bad → b.nv1 ≤ bad.toNat →
      Refuses b (BitVec.ofNat 32 (a + cells.length + 1)) (lastTurns n s)) := by
  induction cells generalizing n s a with
  | nil =>
    obtain ⟨m, rfl⟩ : ∃ m, n = m + 1 := ⟨n - 1, by omega⟩
    refine ⟨fun heq => ?_, fun bad hlt hread hbad => ?_⟩
    · rw [← heq]
      exact (cellTurn_of_missing h (by omega) heq).bind _
    · exact (cellTurn_of_unloaded h (by omega) hlt hread hbad).bind _
  | cons c cells ih =>
    obtain ⟨m, rfl⟩ : ∃ m, n = m + 1 := ⟨n - 1, by omega⟩
    rw [List.length_cons] at hlen ha
    obtain ⟨hread, hnv⟩ := hcells 0 c rfl
    obtain ⟨t, hturn, ht⟩ := cellTurn_of_loaded h (k := 3 - m) (by omega) (show a < b.payEnd by omega) hread hnv
    have hrest := ih m ht (by omega) (by omega) (by omega) fun r d hd => by
      have := hcells (r + 1) d (by simpa using hd)
      rwa [show a + (r + 1) = a + 1 + r by omega] at this
    rw [lastTurns, hturn, ok_bind, List.length_cons, show a + (cells.length + 1) = a + 1 + cells.length by omega]
    exact hrest

theorem faults_of_refuses {s : State} {pos : Word} {i : Instr} {r : Run State} (herr : s.status.err = false)
    (hexec : exec i s = conclude r) (h : Refuses s pos r) : ∃ t, exec i s = .next t ∧ t.errCode = 5 ∧ t.errPos = pos ∧
      t.status = s.status.fail ∧ t.phase = .idle := by
  obtain ⟨u, hr, hw, hpos⟩ := h
  obtain ⟨t, ht, hf⟩ := faulted_of_raise hr hw herr
  exact ⟨t, hexec.trans ht, hf.errCode, hf.errPos.trans hpos, hf.status, hf.phase⟩

end

/-- Settles O45. -/
theorem badVectorOperandsFault : Obligations.BadVectorOperandsFault := by
  intro s u id herr hid faults
  have hsame := sameFrame_of_nextId hid
  refine ⟨fun hend => ?missing, ?operand, fun cells hlen hend ha hcells => ?cells⟩
  case missing =>
    have hnone : nextByte u = raise u .codecDecode := nextByte_of_payEnd_le (by rw [hsame.payEnd]; exact hend)
    have hat : Refuses s u.pos (raise u .codecDecode) := ⟨u, rfl, hsame.works, rfl⟩
    have operand : ∀ i f, exec i s = conclude (nextId s >>= fun x => nextByte x.2 >>= f) → faults i u.pos := by
      intro i f hexec
      refine faults_of_refuses herr hexec ?_
      rw [hid, ok_bind, hnone]
      exact hat
    have hcell : faults .ccc4 u.pos := by
      refine faults_of_refuses herr (execCcc4_eq s) ?_
      have hnone' : nextByte { u with cc := 0 } = raise { u with cc := 0 } .codecDecode :=
        nextByte_of_payEnd_le (by show u.payEnd ≤ u.pos.toNat; rw [hsame.payEnd]; exact hend)
      have hturn : cellTurn (3 - 3) u = raise { u with cc := 0 } .codecDecode := by
        rw [Nat.sub_self, cellTurn, hnone', raise_bind]
      rw [hid, ok_bind]
      exact Refuses.bind ⟨_, hturn, withCc_worksAt ⟨hsame.works, rfl⟩ (by omega)⟩ _
    intro i hi
    simp only [List.mem_cons, List.not_mem_nil, or_false] at hi
    rcases hi with rfl | rfl | rfl | rfl | rfl
    · exact operand .fcc8 (fun y => copyBlock 8 y.2.x8 y.2.y8 y.1 y.2 >>= nextQuadrant) rfl
    · exact operand .fcc4 (fun y => copyBlock 4 y.2.x4 y.2.y4 y.1 y.2 >>= nextSubBlock) rfl
    · exact operand .sld8 (fun y => stampQuad 2 y.2.x8 y.2.y8 y.1 y.2 >>= nextQuadrant) rfl
    · exact operand .sld4 (fun y => stampQuad 1 y.2.x4 y.2.y4 y.1 y.2 >>= nextSubBlock) rfl
    · exact hcell
  case operand =>
    intro b hlt hb after outside
    have hat : WorksAt s after (u.advance 1) := ⟨hsame.works.advance 1, rfl⟩
    have hadv := hsame.advance
    refine ⟨fun hout => ?_, fun hout => ?_, fun hj => ⟨?_, ?_⟩, fun hj hm => ⟨?_, ?_⟩⟩
    · refine faults_of_refuses herr
        (conclude_operand hid hlt hb fun b w => copyBlock 8 w.x8 w.y8 b w >>= nextQuadrant) (Refuses.bind ?_ _)
      rw [hadv.x8, hadv.y8]
      exact copyBlock_refuses hat _ _ _ _ hadv.biasX hadv.biasY hout
    · refine faults_of_refuses herr
        (conclude_operand hid hlt hb fun b w => copyBlock 4 w.x4 w.y4 b w >>= nextSubBlock) (Refuses.bind ?_ _)
      rw [hadv.x4, hadv.y4]
      exact copyBlock_refuses hat _ _ _ _ hadv.biasX hadv.biasY hout
    · exact faults_of_refuses herr
        (conclude_operand hid hlt hb fun b w => stampQuad 2 w.x8 w.y8 b w >>= nextQuadrant)
        (Refuses.bind (stampQuad_refuses hat _ _ _ _ (.inl hj)) _)
    · exact faults_of_refuses herr
        (conclude_operand hid hlt hb fun b w => stampQuad 1 w.x4 w.y4 b w >>= nextSubBlock)
        (Refuses.bind (stampQuad_refuses hat _ _ _ _ (.inl hj)) _)
    · exact faults_of_refuses herr
        (conclude_operand hid hlt hb fun b w => stampQuad 2 w.x8 w.y8 b w >>= nextQuadrant)
        (Refuses.bind (stampQuad_refuses hat _ _ _ _ (.inr hm)) _)
    · exact faults_of_refuses herr
        (conclude_operand hid hlt hb fun b w => stampQuad 1 w.x4 w.y4 b w >>= nextSubBlock)
        (Refuses.bind (stampQuad_refuses hat _ _ _ _ (.inr hm)) _)
  case cells =>
    have hturn : TurnAt s u.pos.toNat u := by
      refine ⟨⟨hsame.works, ?_⟩, hsame.payEnd, by omega, hend⟩
      rw [BitVec.ofNat_toNat, BitVec.setWidth_eq]
    obtain ⟨hmissing, hunloaded⟩ := lastTurns_refuses cells 4 hturn hlen (le_refl 4) ha hcells
    have hexec : exec .ccc4 s = conclude (lastTurns 4 u) := by
      show execCcc4 s = _
      rw [execCcc4_eq, hid, ok_bind]
    exact ⟨fun heq => faults_of_refuses herr hexec (hmissing heq),
      fun bad hlt hread hbad => faults_of_refuses herr hexec (hunloaded bad hlt hread hbad)⟩

end Sys2Proof.Machine
end

section
/-! Sound codes and whole sound chunks (43_dpcm.md). -/

namespace Sys2Proof.Machine

/-! ### One code -/

theorem toNat_zero_append (m : BitVec 7) : ((0 : BitVec 1) ++ m).toNat = m.toNat := by
  rw [BitVec.toNat_append]
  simp

theorem toNat_one_append (m : BitVec 7) : ((1 : BitVec 1) ++ m).toNat = 128 + m.toNat := by
  rw [BitVec.toNat_append, ← Nat.shiftLeft_add_eq_or_of_lt m.isLt]
  rfl

theorem delta_zero_append (m : BitVec 7) : delta ((0 : BitVec 1) ++ m) = m.toNat * m.toNat := by
  have := m.isLt
  rw [delta_of_le_127 (by rw [toNat_zero_append]; omega), toNat_zero_append]

theorem delta_one_append (m : BitVec 7) : delta ((1 : BitVec 1) ++ m) = -(m.toNat * m.toNat) := by
  rw [delta_of_128_le (by rw [toNat_one_append]; omega), toNat_one_append]
  push_cast
  ring

theorem rightTurn_iff (s : State) :
    s.rightTurn = true ↔ s.phase = .sndStereo ∧ (s.pos.toNat - s.pay0.toNat) % 2 = 1 := by
  simp [State.rightTurn, State.payOffset]

/-- A code whose predictor is the left one. -/
theorem emitSample_left {s : State} (d : Int) (h : s.rightTurn = false) : emitSample d s =
    { s with
      predL := advancePredictor s.predL d
      pcm := (s.pcm.write (2 * s.payOffset) ((advancePredictor s.predL d).extractLsb' 0 8)).write (2 * s.payOffset + 1)
        ((advancePredictor s.predL d).extractLsb' 8 8)
      pos := BitVec.ofNat 32 (s.pos.toNat + 1) } := by
  rw [emitSample, if_neg (by simp [h])]
  rfl

/-- A code whose predictor is the right one. -/
theorem emitSample_right {s : State} (d : Int) (h : s.rightTurn = true) : emitSample d s =
    { s with
      predR := advancePredictor s.predR d
      pcm := (s.pcm.write (2 * s.payOffset) ((advancePredictor s.predR d).extractLsb' 0 8)).write (2 * s.payOffset + 1)
        ((advancePredictor s.predR d).extractLsb' 8 8)
      pos := BitVec.ofNat 32 (s.pos.toNat + 1) } := by
  rw [emitSample, if_pos h]
  rfl

theorem emitSample_pos (d : Int) {s : State} (h : s.pos.toNat + 1 < 2 ^ 32) : (emitSample d s).pos.toNat =
    s.pos.toNat + 1 := by
  have hpos : (emitSample d s).pos = BitVec.ofNat 32 (s.pos.toNat + 1) := by
    unfold emitSample
    split <;> rfl
  rw [hpos]
  exact toNat_ofNat_add _ _ h

/-- A code before the end of the payload, or the first of a pair. -/
theorem dpcmStep_of_more {s : State} (d : Int) (hbound : s.pos.toNat + 1 < 2 ^ 32)
    (h : s.pos.toNat + 1 < s.payEnd ∨ s.phase = .sndStereo ∧ s.rightTurn = false) : dpcmStep d s = emitSample d s := by
  rw [dpcmStep_eq, emitSample_pos d hbound, if_neg]
  rintro ⟨hend, hturn⟩
  rcases h with h | ⟨hp, hr⟩
  · omega
  · simp [hp, hr] at hturn

/-- The last code of a mono payload or of a pair. -/
theorem dpcmStep_of_last {s : State} (d : Int) (hbound : s.pos.toNat + 1 < 2 ^ 32) (hend : s.pos.toNat + 1 = s.payEnd)
    (h : s.phase ≠ .sndStereo ∨ s.rightTurn = true) : dpcmStep d s = finishSound (emitSample d s) := by
  rw [dpcmStep_eq, emitSample_pos d hbound, if_pos ⟨by omega, h⟩]

/-- The end of a chunk after its last code. -/
theorem finishSound_eq {t : State} {n : Nat} (hlen : t.payLen.toNat < 2 ^ 31) (hpos : t.pos = BitVec.ofNat 32 n)
    (hend : n = t.payEnd) : finishSound t = { t with
      phase := .idle, consumed := BitVec.ofNat 32 n, pcmLen := BitVec.ofNat 32 (2 * t.payLen.toNat)
      status := { t.status with busy := false, done := true, audio := true } } := by
  rw [finishSound_of_short t hlen, finishRecord]
  show { t with
    pcmLen := _, phase := .idle, pos := BitVec.ofNat 32 t.payEnd, consumed := BitVec.ofNat 32 t.payEnd, status := _ } = _
  rw [← hend, ← hpos]
  rfl

/-- Settles O49. -/
theorem dpcmCodeAdvancesOnePredictor : Obligations.DpcmCodeAdvancesOnePredictor := by
  intro s m i d hi hend hlen hle hlt n right emitted ended l r afterL afterR
  have hexec : exec i s = .next (dpcmStep d s) := by
    simp only [List.mem_cons, Prod.mk.injEq, List.not_mem_nil, or_false] at hi
    rcases hi with ⟨rfl, rfl⟩ | ⟨rfl, rfl⟩
    · rw [← delta_zero_append]
      rfl
    · rw [← delta_one_append]
      rfl
  have hbound : s.pos.toNat + 1 < 2 ^ 32 := by omega
  have hturn : s.rightTurn = true ↔ right := rightTurn_iff s
  have hleft : ¬ right → emitSample d s = afterL := fun h =>
    emitSample_left d (Bool.eq_false_iff.2 (mt hturn.1 h))
  have hright : right → emitSample d s = afterR := fun h => emitSample_right d (hturn.2 h)
  have hmono : s.phase ≠ .sndStereo → ¬ right := fun h hr => h hr.1
  rw [hexec]
  refine ⟨fun hp hmore => ?_, fun hp hlast => ?_, fun hp hr => ?_, fun hr hmore => ?_, fun hr hlast => ?_⟩
  · rw [dpcmStep_of_more d hbound (.inl hmore), hleft (hmono hp)]
  · rw [dpcmStep_of_last d hbound hlast (.inl hp), hleft (hmono hp), finishSound_eq (t := afterL) hlen rfl hlast, hlast]
  · rw [dpcmStep_of_more d hbound (.inr ⟨hp, Bool.eq_false_iff.2 (mt hturn.1 hr)⟩), hleft hr]
  · rw [dpcmStep_of_more d hbound (.inl hmore), hright hr]
  · rw [dpcmStep_of_last d hbound hlast (.inr (hturn.2 hr)), hright hr, finishSound_eq (t := afterR) hlen rfl hlast, hlast]

/-! ### Whole chunks -/

/-- A write behind the last element of a memory that is laid out from `a` on. -/
theorem Memory.write_layout (bs : List Byte) (a : Nat) (v : Byte) :
    Memory.write (Memory.layout a bs) (a + bs.length) v = Memory.layout a (bs ++ [v]) := by
  induction bs generalizing a with
  | nil => rfl
  | cons b bs ih =>
    have hrest := ih (a + 1)
    rw [List.length_cons, show a + (bs.length + 1) = a + 1 + bs.length by omega, List.cons_append, Memory.layout,
      Memory.layout, ← hrest, Memory.write, if_neg (by omega), if_neg (by omega)]

/-- What a sound chunk leaves alone. -/
structure SoundKeeps (s t : State) : Prop where
  root : t.root = s.root
  child : t.child = s.child
  pal : t.pal = s.pal
  cell : t.cell = s.cell
  quad : t.quad = s.quad
  nv1 : t.nv1 = s.nv1
  nv2 : t.nv2 = s.nv2
  pp : t.pp = s.pp
  pl0 : t.pl0 = s.pl0
  pl1 : t.pl1 = s.pl1
  idx : t.idx = s.idx
  rgba : t.rgba = s.rgba

theorem SoundKeeps.trans {s u t : State} (h : SoundKeeps s u) (h' : SoundKeeps u t) : SoundKeeps s t :=
  ⟨h'.root.trans h.root, h'.child.trans h.child, h'.pal.trans h.pal, h'.cell.trans h.cell, h'.quad.trans h.quad,
    h'.nv1.trans h.nv1, h'.nv2.trans h.nv2, h'.pp.trans h.pp, h'.pl0.trans h.pl0, h'.pl1.trans h.pl1,
      h'.idx.trans h.idx,
    h'.rgba.trans h.rgba⟩

theorem emitSample_keeps (d : Int) (s : State) : SoundKeeps s (emitSample d s) := by
  unfold emitSample
  split <;> exact ⟨rfl, rfl, rfl, rfl, rfl, rfl, rfl, rfl, rfl, rfl, rfl, rfl⟩

/-- A sound chunk of `size` bytes from the status `st` on, with the codes `rest` left and the output `out` so far. -/
structure Sounding (st : Status) (size : Nat) (rest out : List Byte) (s : State) : Prop where
  status : s.status = st
  pay0 : s.pay0 = 8
  payLen : s.payLen.toNat = size
  size_lt : size < 2 ^ 31
  pos : s.pos.toNat + rest.length = 8 + size
  le : 8 ≤ s.pos.toNat
  codes : ∀ i c, rest[i]? = some c → s.inp.read (s.pos.toNat + i) = some c
  pcm : s.pcm = Memory.layout 0 out
  length : out.length = 2 * (s.pos.toNat - 8)

section
variable {st : Status} {size : Nat} {c : Byte} {rest out : List Byte} {s : State}

theorem Sounding.payEnd (h : Sounding st size rest out s) : s.payEnd = 8 + size := by
  rw [State.payEnd, h.pay0, h.payLen]
  rfl

theorem Sounding.payOffset (h : Sounding st size rest out s) : s.payOffset = s.pos.toNat - 8 := by
  rw [State.payOffset, h.pay0]
  rfl

/-- The predictor whose turn it is, advanced by the code `c`. -/
def nextPredictor (c : Byte) (s : State) : Half := advancePredictor (if s.rightTurn then s.predR else s.predL) (delta c)

/-- A code moves its sample to the output. -/
theorem Sounding.emit (h : Sounding st size (c :: rest) out s) :
    Sounding st size rest (out ++ sampleBytes (nextPredictor c s)) (emitSample (delta c) s) := by
  have hpos := h.pos
  have hsize := h.size_lt
  have hle := h.le
  rw [List.length_cons] at hpos
  have hadv : (emitSample (delta c) s).pos.toNat = s.pos.toNat + 1 := emitSample_pos _ (by omega)
  have hsame : (emitSample (delta c) s).status = s.status ∧ (emitSample (delta c) s).pay0 = s.pay0 ∧
      (emitSample (delta c) s).payLen = s.payLen ∧ (emitSample (delta c) s).inp = s.inp ∧
      (emitSample (delta c) s).pcm = (s.pcm.write (2 * s.payOffset) ((nextPredictor c s).extractLsb' 0 8)).write
        (2 * s.payOffset + 1) ((nextPredictor c s).extractLsb' 8 8) := by
    unfold nextPredictor
    cases hr : s.rightTurn
    · rw [emitSample_left _ hr]
      exact ⟨rfl, rfl, rfl, rfl, rfl⟩
    · rw [emitSample_right _ hr]
      exact ⟨rfl, rfl, rfl, rfl, rfl⟩
  obtain ⟨hstatus, hpay0, hpayLen, hinp, hpcm⟩ := hsame
  refine ⟨hstatus.trans h.status, hpay0.trans h.pay0, hpayLen ▸ h.payLen, h.size_lt, by omega, by omega, fun i v hv => ?_,
    ?_, ?_⟩
  · rw [hinp, hadv, show s.pos.toNat + 1 + i = s.pos.toNat + (i + 1) by omega]
    exact h.codes (i + 1) v (by simpa using hv)
  · have h1 := Memory.write_layout out 0 ((nextPredictor c s).extractLsb' 0 8)
    have h2 := Memory.write_layout (out ++ [(nextPredictor c s).extractLsb' 0 8])
        0 ((nextPredictor c s).extractLsb' 8 8)
    rw [List.length_append, List.length_singleton, Nat.zero_add, h.length] at h2
    rw [Nat.zero_add, h.length] at h1
    rw [hpcm, h.pcm, h.payOffset, h1, h2, List.append_assoc]
    rfl
  · rw [List.length_append, h.length, hadv]
    simp only [sampleBytes, List.length_cons, List.length_nil]
    omega

/-- What the code `c` does, read as a byte (30 R119). -/
theorem exec_decodeDpcm (c : Byte) (s : State) : exec (decodeDpcm c) s = .next (dpcmStep (delta c) s) := by
  obtain ⟨-, hbytes⟩ := encodeOfDecode s.params .dpcm8 [c] (decodeDpcm c) rfl
  unfold decodeDpcm at hbytes ⊢
  split at hbytes
  · next hneg =>
    rw [if_pos hneg]
    have hc : (1 : BitVec 1) ++ c.extractLsb' 0 7 = c := (List.cons.inj hbytes).1
    show Host.Outcome.next (dpcmStep (delta ((1 : BitVec 1) ++ c.extractLsb' 0 7)) s) = _
    rw [hc]
  · next hpos =>
    rw [if_neg hpos]
    have hc : (0 : BitVec 1) ++ c.extractLsb' 0 7 = c := (List.cons.inj hbytes).1
    show Host.Outcome.next (dpcmStep (delta ((0 : BitVec 1) ++ c.extractLsb' 0 7)) s) = _
    rw [hc]

/-- A step of a sound chunk takes the code under the cursor, unless that is the half of a pair without its partner. -/
theorem Sounding.step (h : Sounding st size (c :: rest) out s)
    (hp : s.phase = .sndMono ∨ s.phase = .sndStereo ∧ (s.payOffset % 2 = 0 → rest ≠ [])) :
    step s = .next (dpcmStep (delta c) s) := by
  obtain ⟨-, -, -, -, -, -, -, hmono, hstereo⟩ := fetchReadsTheNextCode s
  have hpos := h.pos
  rw [List.length_cons] at hpos
  have hlt : s.pos.toNat < s.payEnd := by
    rw [h.payEnd]
    omega
  have hread : s.inp.read s.pos.toNat = some c := h.codes 0 c rfl
  have hfetch : fetch s = .ok (some (.dpcm8, [c])) := by
    rcases hp with hp | ⟨hp, hpair⟩
    · exact hmono c hp hlt hread
    · refine hstereo c hp hlt ?_ hread
      by_cases hodd : s.payOffset % 2 = 1
      · exact .inl (by rwa [State.payOffset] at hodd)
      · right
        have := List.length_pos_of_ne_nil (hpair (by omega))
        rw [h.payEnd]
        omega
  have hstep : Machine.step s = exec (decodeDpcm c) s := by
    have hd : decode s.params .dpcm8 [c] = .ok (decodeDpcm c) := rfl
    simp only [Machine.step, hfetch, hd]
  rw [hstep, exec_decodeDpcm]

/-- The end of a whole chunk: idle with AUDIO and DONE, the lengths, the output. -/
structure ChunkDone (st : Status) (size : Nat) (out : List Byte) (s t : State) : Prop where
  phase : t.phase = .idle
  status : t.status = { st with busy := false, done := true, audio := true }
  pcmLen : t.pcmLen = BitVec.ofNat 32 (2 * size)
  consumed : t.consumed = BitVec.ofNat 32 (8 + size)
  pcm : t.pcm = Memory.layout 0 out
  keeps : SoundKeeps s t

/-- A chunk with no code left ends. -/
theorem Sounding.finish (h : Sounding st size [] out s) : ChunkDone st size out s (finishSound s) := by
  have hlen : s.payLen.toNat < 2 ^ 31 := by
    rw [h.payLen]
    exact h.size_lt
  have hend : BitVec.ofNat 32 (s.pay0.toNat + s.payLen.toNat) = BitVec.ofNat 32 (8 + size) := by
    rw [h.pay0, h.payLen]
    rfl
  rw [finishSound_of_short s hlen]
  refine ⟨rfl, ?_, ?_, hend, h.pcm, rfl, rfl, rfl, rfl, rfl, rfl, rfl, rfl, rfl, rfl, rfl, rfl⟩
  · rw [← h.status]
    rfl
  · show BitVec.ofNat 32 (2 * s.payLen.toNat) = _
    rw [h.payLen]

theorem ChunkDone.keeps_trans {t u : State} (hk : SoundKeeps s u) (h : ChunkDone st size out u t) :
    ChunkDone st size out s t := { h with keeps := hk.trans h.keeps }

theorem emitSample_phase (d : Int) (s : State) : (emitSample d s).phase = s.phase :=
  (emitSample_works (Works.refl s) d).2

theorem run_zero (s : State) : Host.Core.run core 0 s = .next s := rfl

/-- A code with others behind it. -/
theorem Sounding.step_of_more (h : Sounding st size (c :: rest) out s) (hrest : rest ≠ [])
    (hp : s.phase = .sndMono ∨ s.phase = .sndStereo) : Machine.step s = .next (emitSample (delta c) s) := by
  have hpos := h.pos
  have hsize := h.size_lt
  have hlen := List.length_pos_of_ne_nil hrest
  rw [List.length_cons] at hpos
  rw [h.step (hp.imp_right fun hp => ⟨hp, fun _ => hrest⟩),
    dpcmStep_of_more _ (by omega) (.inl (by rw [h.payEnd]; omega))]

/-- The last code, whose unit ends the chunk with it. -/
theorem Sounding.step_of_last (h : Sounding st size [c] out s)
    (hp : s.phase = .sndMono ∨ s.phase = .sndStereo ∧ s.rightTurn = true) :
    Machine.step s = .next (finishSound (emitSample (delta c) s)) := by
  have hpos := h.pos
  have hsize := h.size_lt
  rw [List.length_singleton] at hpos
  have hpair : s.phase = .sndMono ∨ s.phase = .sndStereo ∧ (s.payOffset % 2 = 0 → ([] : List Byte) ≠ []) := by
    refine hp.imp_right fun ⟨hp, hr⟩ => ⟨hp, fun heven => ?_⟩
    have hodd := ((rightTurn_iff s).1 hr).2
    rw [State.payOffset] at heven
    omega
  rw [h.step hpair, dpcmStep_of_last _ (by omega) (by rw [h.payEnd]; omega)]
  exact hp.imp (fun hp => by simp [hp]) And.right

/-! ### Mono -/

/-- A mono chunk decodes its codes one by one (43 R261). -/
theorem Sounding.run_mono (hp : s.phase = .sndMono) (hne : rest ≠ []) (h : Sounding st size rest out s) :
    ∃ t, Host.Core.run core rest.length s = .next t ∧ ChunkDone st size (out ++ monoSamples s.predL rest) s t := by
  induction rest generalizing s out with
  | nil => exact absurd rfl hne
  | cons c rest ih =>
    have hleft : s.rightTurn = false := by simp [State.rightTurn, hp]
    have hpred : nextPredictor c s = advancePredictor s.predL (delta c) := by rw [nextPredictor, hleft]; rfl
    have hemit := h.emit
    have hkeeps := emitSample_keeps (delta c) s
    rw [hpred] at hemit
    cases rest with
    | nil =>
      refine ⟨_, (run_succ (h.step_of_last (.inl hp)) 0).trans (run_zero _), ?_⟩
      exact hemit.finish.keeps_trans hkeeps
    | cons c' rest =>
      have hpred' : (emitSample (delta c) s).predL = advancePredictor s.predL (delta c) := by
        rw [emitSample_left _ hleft]
      obtain ⟨t, hrun, hdone⟩ := ih ((emitSample_phase _ s).trans hp) (by simp) hemit
      refine ⟨t, (run_succ (h.step_of_more (by simp) (.inl hp)) _).trans hrun, ?_⟩
      rw [hpred', List.append_assoc] at hdone
      exact hdone.keeps_trans hkeeps

end

/-- The first state of a chunk with its payload (43 R261, R264). -/
theorem sounding_of_entry {s u : State} {size : Word} {payload : List Byte} (hcan : s.canonical = true)
    (hpcm : s.pcm = [])
    (hsize : size.toNat < 2 ^ 31) (hr : s.inp.readRun 8 size.toNat = some payload) (hstatus : u.status = s.status)
    (hpay0 : u.pay0 = 8) (hpayLen : u.payLen = size) (hpos : u.pos = 8) (hinp : u.inp = s.inp) (hpcm' : u.pcm = s.pcm) :
    Sounding s.status size.toNat payload [] u := by
  obtain ⟨hwf, -⟩ := (canonical_iff s).1 hcan
  obtain ⟨hlen, hread⟩ := (Memory.readRun_eq_some_iff _ hwf _ _ _).1 hr
  have hpos8 : u.pos.toNat = 8 := by
    rw [hpos]
    rfl
  refine ⟨hstatus, hpay0, by rw [hpayLen], hsize, by omega, by omega, fun i c hc => ?_, hpcm'.trans hpcm,
    by simp [hpos8]⟩
  have hi := (List.getElem?_eq_some_iff.1 hc).1
  rw [hinp, hpos8, hread i (by omega), hc]

/-- Settles O50. -/
theorem monoChunkDecodesItsPayload : Obligations.MonoChunkDecodesItsPayload := by
  intro s size arg payload hcan hpcm hsize hlen hr
  have hexec := execRoqSndMono_of_present arg hlen
  have hstart : Sounding s.status size.toNat payload [] (monoEntry size arg s) :=
    sounding_of_entry hcan hpcm hsize hr rfl rfl rfl rfl rfl rfl
  have hpaylen : payload.length = size.toNat := Memory.length_of_readRun _ _ _ _ hr
  have hkeeps : SoundKeeps s (monoEntry size arg s) := ⟨rfl, rfl, rfl, rfl, rfl, rfl, rfl, rfl, rfl, rfl, rfl, rfl⟩
  have hdone : ∃ t1 t, exec (.roqSndMono size arg) s = .next t1 ∧ Host.Core.run core size.toNat t1 = .next t ∧
      ChunkDone s.status size.toNat (monoSamples arg payload) s t := by
    rcases payload with - | ⟨c, payload⟩
    · have hzero : size = 0 := BitVec.eq_of_toNat_eq hpaylen.symm
      subst hzero
      exact ⟨_, _, hexec, run_zero _, hstart.finish.keeps_trans hkeeps⟩
    · have hne : size ≠ 0 := by
        rintro rfl
        simp at hpaylen
      obtain ⟨t, hrun, hdone⟩ := hstart.run_mono rfl (by simp)
      rw [hpaylen] at hrun
      rw [if_neg hne] at hexec
      exact ⟨_, t, hexec, hrun, hdone.keeps_trans hkeeps⟩
  obtain ⟨t1, t, hexec, hrun, hd⟩ := hdone
  have hk := hd.keeps
  exact ⟨t1, t, hexec, hrun, hd.phase, hd.status, hd.pcmLen, hd.consumed, hd.pcm, hk.root, hk.child, hk.pal, hk.cell, hk.quad,
    hk.nv1, hk.nv2, hk.pp, hk.pl0, hk.pl1, hk.idx, hk.rgba⟩

/-! ### Stereo -/

section
variable {st : Status} {size : Nat} {out : List Byte} {s : State}

/-- How a stereo chunk with the codes `rest` ends: with all its pairs, or at the half of one (43 R267). -/
def StereoEnds (st : Status) (size : Nat) (rest out : List Byte) (s t : State) : Prop :=
  (rest.length % 2 = 0 → ChunkDone st size (out ++ stereoSamples s.predL s.predR rest) s t) ∧
  (rest.length % 2 = 1 → t.phase = .idle ∧ t.status = st.fail ∧ t.errCode = 5 ∧ t.errPos =
    BitVec.ofNat 32 (8 + size - 1))

/-- The half of a pair faults where it stands. -/
theorem Sounding.step_of_half {c : Byte} (h : Sounding st size [c] out s) (hp : s.phase = .sndStereo)
    (heven : s.payOffset % 2 = 0) : Machine.step s = .next (raiseFault s .codecDecode) := by
  have hpos := h.pos
  rw [List.length_singleton] at hpos
  have hfetch : fetch s = .error (.raised s .codecDecode) := by
    have hend : s.payEnd ≤ s.pos.toNat + 1 := by
      rw [h.payEnd]
      omega
    simp only [fetch, hp, if_pos (And.intro heven hend)]
    rfl
  simp only [Machine.step, hfetch, conclude_raised]

/-- A stereo chunk decodes its codes pair by pair (43 R264, R265). -/
theorem Sounding.run_stereo (herr : st.err = false) : ∀ (rest : List Byte) {out : List Byte} {s : State},
    rest ≠ [] → s.phase = .sndStereo → s.payOffset % 2 = 0 → Sounding st size rest out s →
    ∃ t, Host.Core.run core rest.length s = .next t ∧ StereoEnds st size rest out s t
  | [], _, _, hne, _, _, _ => absurd rfl hne
  | [c], out, s, _, hp, heven, h => by
    have hpos := h.pos
    rw [List.length_singleton] at hpos
    have herr' : s.status.err = false := by rw [h.status, herr]
    refine ⟨_, (run_succ (h.step_of_half hp heven) 0).trans (run_zero _), by simp, fun _ => ?_⟩
    have hf := (Works.refl s).faulted herr' .codecDecode
    refine ⟨hf.phase, hf.status.trans (by rw [h.status]), hf.errCode, hf.errPos.trans ?_⟩
    rw [show 8 + size - 1 = s.pos.toNat by omega, BitVec.ofNat_toNat, BitVec.setWidth_eq]
  | cl :: cr :: rest, out, s, _, hp, heven, h => by
    have hle := h.le
    have hpos := h.pos
    have hsize := h.size_lt
    rw [List.length_cons, List.length_cons] at hpos
    have hoff := h.payOffset
    have hleft : s.rightTurn = false := by
      rw [Bool.eq_false_iff, Ne, rightTurn_iff]
      rintro ⟨-, hodd⟩
      rw [State.payOffset] at heven
      omega
    have hpredL : nextPredictor cl s = advancePredictor s.predL (delta cl) := by rw [nextPredictor, hleft]; rfl
    have h1 := h.emit
    rw [hpredL] at h1
    obtain ⟨u, hu⟩ : ∃ u, u = emitSample (delta cl) s := ⟨_, rfl⟩
    rw [← hu] at h1
    have hpu : u.phase = .sndStereo := by rw [hu, emitSample_phase, hp]
    have hposu : u.pos.toNat = s.pos.toNat + 1 := by
      rw [hu]
      exact emitSample_pos _ (by omega)
    have hoffu : u.payOffset = s.payOffset + 1 := by
      rw [h1.payOffset, hoff, hposu]
      omega
    have hright : u.rightTurn = true := by
      rw [rightTurn_iff]
      refine ⟨hpu, ?_⟩
      have : u.payOffset % 2 = 1 := by omega
      rwa [State.payOffset] at this
    have hul : u.predL = advancePredictor s.predL (delta cl) ∧ u.predR = s.predR := by
      rw [hu, emitSample_left _ hleft]
      exact ⟨rfl, rfl⟩
    have hpredR : nextPredictor cr u = advancePredictor s.predR (delta cr) :=
        by rw [nextPredictor, hright, ← hul.2]; rfl
    have h2 := h1.emit
    rw [hpredR] at h2
    have hstep1 := h.step_of_more (by simp) (.inr hp)
    rw [← hu] at hstep1
    have hkeeps : SoundKeeps s (emitSample (delta cr) u) := by
      have := emitSample_keeps (delta cl) s
      rw [← hu] at this
      exact this.trans (emitSample_keeps (delta cr) u)
    rcases rest with - | ⟨c', rest⟩
    · refine ⟨_, (run_succ hstep1 1).trans ((run_succ (h1.step_of_last (.inr ⟨hpu, hright⟩)) 0).trans (run_zero _)),
        fun _ => ?_, by simp⟩
      have hdone := h2.finish.keeps_trans hkeeps
      simpa only [List.append_assoc, stereoSamples, List.append_nil] using hdone
    · have hpv : (emitSample (delta cr) u).phase = .sndStereo := by rw [emitSample_phase, hpu]
      have hposv : (emitSample (delta cr) u).pos.toNat = u.pos.toNat + 1 := by
        have := h1.pos
        rw [List.length_cons] at this
        exact emitSample_pos _ (by omega)
      have hoffv : (emitSample (delta cr) u).payOffset % 2 = 0 := by
        rw [h2.payOffset, hposv]
        rw [h1.payOffset] at hoffu
        omega
      obtain ⟨t, hrun, hdone, hfault⟩ := Sounding.run_stereo herr (c' :: rest) (by simp) hpv hoffv h2
      have hvl : (emitSample (delta cr) u).predL = advancePredictor s.predL (delta cl) ∧
          (emitSample (delta cr) u).predR = advancePredictor s.predR (delta cr) := by
        rw [emitSample_right _ hright]
        exact ⟨hul.1, by rw [← hul.2]⟩
      rw [hvl.1, hvl.2] at hdone
      refine ⟨t, (run_succ hstep1 _).trans ((run_succ (h1.step_of_more (by simp) (.inr hpu)) _).trans hrun),
        fun heven' => ?_,
        fun hodd => ?_⟩
      · have hd := (hdone (by simp only [List.length_cons] at heven' ⊢; omega)).keeps_trans hkeeps
        simpa only [List.append_assoc, stereoSamples] using hd
      · exact hfault (by simp only [List.length_cons] at hodd ⊢; omega)

end

/-- Settles O51. -/
theorem stereoChunkDecodesItsPairs : Obligations.StereoChunkDecodesItsPairs := by
  intro s size arg payload hcan herr hpcm hsize hlen hr
  have hexec := execRoqSndStereo_of_present arg hlen
  have hstart : Sounding s.status size.toNat payload [] (stereoEntry size arg s) :=
    sounding_of_entry hcan hpcm hsize hr rfl rfl rfl rfl rfl rfl
  have hpaylen : payload.length = size.toNat := Memory.length_of_readRun _ _ _ _ hr
  rcases payload with - | ⟨c, payload⟩
  · have hzero : size = 0 := BitVec.eq_of_toNat_eq hpaylen.symm
    have hdone := hstart.finish
    subst hzero
    exact ⟨_, _, hexec, run_zero _, hdone.phase, fun _ => ⟨hdone.status, hdone.pcmLen, hdone.pcm⟩, fun hodd =>
      by simp at hodd⟩
  · have hne : size ≠ 0 := by
      rintro rfl
      simp at hpaylen
    obtain ⟨t, hrun, hdone, hfault⟩ := Sounding.run_stereo herr (c :: payload) (by simp) rfl rfl hstart
    rw [hpaylen] at hrun hdone hfault
    rw [if_neg hne] at hexec
    have hphase : t.phase = .idle := by
      rcases Nat.mod_two_eq_zero_or_one size.toNat with hmod | hmod
      · exact (hdone hmod).phase
      · exact (hfault hmod).1
    exact ⟨_, t, hexec, hrun, hphase, fun hmod => ⟨(hdone hmod).status, (hdone hmod).pcmLen, (hdone hmod).pcm⟩,
      fun hmod => (hfault hmod).2⟩

end Sys2Proof.Machine
end
